-- ==== Sys2Proof/Word.lean ====
section
/-! DEFINITION. The machine's words: the widths that 00_scope.md R9 and R10 and 30_encoding.md R70 and R71 give
the block's operands. Abbreviations only, so that the library's lemmas about BitVec apply. -/

namespace Sys2Proof

/-- A byte: `DATA_W = 8`, `REG_W = 8` (R9). -/
abbrev Byte := BitVec 8

/-- A command word, an operand word, a result (R20). -/
abbrev Word := BitVec 32

/-- A byte offset of the host register window, 0x000 to 0xFFF (R43). -/
abbrev Offset := BitVec 12

/-- A slave address, `SLAVE_W = 7` (R9). -/
abbrev Slave := BitVec 7

/-- The instance of a FIFO, 0 or 1 (`NUM_FIFO = 2`, R9). -/
abbrev Inst := BitVec 1

/-- The access size `SZ` of format R: 0 is one byte, 1 is two, 2 is four; 3 is reserved and has no value here (R71). -/
inductive Size where
  | b | h | w
deriving DecidableEq, Repr

/-- The size in bytes, `n = 1 << SZ` (40_register_access.md). -/
def Size.bytes : Size → Nat
  | .b => 1
  | .h => 2
  | .w => 4

/-- The size in bits, `8n`. -/
def Size.bits (z : Size) : Nat := 8 * z.bytes

/-- The acknowledge bit of the two-wire bus (R60). -/
inductive Ack where
  | ack | nack
deriving DecidableEq, Repr

end Sys2Proof
end

