-- ==== Sys2Proof/Config.lean ====
section
/-! DEFINITION. What an implementation fixes: the parameters of 00_scope.md R9 and R10 as named values, the
parameters a model instance takes (`FIFO_VARIANT` and the environment's `ENV.` parameters), and the FREE VALUES, which have
no body, so that nothing can be proved about them. -/

namespace Sys2Proof

/-- Which FIFO design is built: the parameter `FIFO_VARIANT` (R3, R10). -/
inductive FifoVariant where
  | a | b
deriving DecidableEq, Repr

/-- What a transaction does when the arbiter does not know its slave: the values of `SELECT_MISS_POLICY` (R10, U5). -/
inductive MissPolicy where
  /-- Go on over the wiring as it is (42_engine_transactions.md R102). -/
  | proceed
  /-- Stop, "to surface the program error" (R102, U5). -/
  | fault
deriving DecidableEq, Repr

/-- The parameters a model instance takes. A step never changes them (log 6). -/
structure Params where
  /-- `FIFO_VARIANT` (R3); the default is variant A. -/
  variant : FifoVariant
  /-- `ENV.multi_master` (R10): whether other masters exist on the bus; the default is false. -/
  multiMaster : Bool
  /-- `ENV.bus_live` (R10, 20_memory.md R56, D4): whether the environment promises that BUS is weakly fair. What the promise
  says of a run is `BusFair` in Machine/Environment.lean. OPEN in R10; the model's default is no promise (log 28). -/
  busLive : Bool := false
  /-- `ENV.max_polls_per_byte` (R10, D4, 70_reset_and_hazards.md R160): the promised bound on the polls of one byte, or none.
  OPEN in R10; the model's default is no bound (log 28). -/
  maxPollsPerByte : Option Nat := none
  /-- `BASE` (R10, D4, D18): where the host register window lies in the host's address space. OPEN in R10; the model's default
  is address 0 (log 29). -/
  base : Nat := 0
  /-- `SELECT_MISS_POLICY` (R10, 42_engine_transactions.md R102, U5); the default is `proceed` (log 24). -/
  missPolicy : MissPolicy := .proceed
deriving DecidableEq, Repr

/-- The default values of R10; where R10 says OPEN, no promise (log 28) and a window at address 0
(log 29). -/
def Params.default : Params := { variant := .a, multiMaster := false }

namespace Config

/-- `BF_N`: the capacity of the bounded FIFO (R9). -/
def bfN : Nat := 1024
/-- `WAIT_BOUND`: the polls of the bounded wait (R9). -/
def waitBound : Nat := 200
/-- `HASH_SEED` (R9). -/
def hashSeed : Word := 37
/-- `HASH_MULT` (R9). -/
def hashMult : Word := 23
/-- `MAX_ENTRIES`: the entries of the arbiter table (R10). -/
def maxEntries : Nat := 8
/-- `RB_STORAGE`: the bytes of ring storage per instance, the largest capacity (R10). -/
def rbStorage : Word := 1024
/-- `NUM_PORTS`: pin ports, numbered 0 to 4 (R10). -/
def numPorts : Nat := 5
/-- `PINS_PER_PORT` (R10). -/
def pinsPerPort : Nat := 32
/-- `MUX_PLAIN_INPUT`: the pin-mux value of a plain input (R10). -/
def muxPlainInput : BitVec 3 := 1
/-- The bytes of the host register window: offsets 0x000 to 0xFFF (20_memory.md R43). -/
def windowSize : Nat := 0x1000
/-- The window offset of `RBUF[0]` (20_memory.md R44). -/
def rbufBase : Nat := 0x100
/-- The window offset of `XBUF[0]` (R44). -/
def xbufBase : Nat := 0x400

/-- FREE VALUE (93_implementation_defined.md U4, "any value"): the byte that the `n`-th byte read from a byte memory
gives when nothing has written that byte. Nothing constrains it (log 13, DESIGN CHOICE, safe). -/
opaque freeByte : Nat → Byte

/-- FREE VALUE (R37, U7, "parameter"): the mux value of pin `n` of port `p` before the block has written it
(log 12, safe). -/
opaque initialPmux : Nat → Nat → BitVec 3

end Config
end Sys2Proof
end

