-- ==== Sys2Proof/Syntax.lean ====
section
/-! DEFINITION. The instructions: one constructor per row of spec/opcode_table.json, in the table's order, with the
operands of 30_encoding.md R74 at their widths. The second operand word `AUX` is state, not syntax (R77). -/

namespace Sys2Proof

/-- A command of the block (R74). -/
inductive Instr where
  /-- `LD` (R81). -/
  | ld (sz : Size) (addr : Offset)
  /-- `ST` (R82). -/
  | st (sz : Size) (addr : Offset)
  /-- `AAND` (R83). -/
  | aand (sz : Size) (addr : Offset)
  /-- `AOR` (R84). -/
  | aor (sz : Size) (addr : Offset)
  /-- `AXOR` (R85). -/
  | axor (sz : Size) (addr : Offset)
  /-- `BFI` (R86): field at bit `pos`, of `wm1 + 1` bits. -/
  | bfi (sz : Size) (pos wm1 : BitVec 5) (addr : Offset)
  /-- `UBFX` (R87). -/
  | ubfx (sz : Size) (pos wm1 : BitVec 5) (addr : Offset)
  /-- `WAITBUSY` (R91). -/
  | waitbusy
  /-- `START` (R92). -/
  | start
  /-- `SENDB` (R93). -/
  | sendb (byte : Byte)
  /-- `RSTART` (R94). -/
  | rstart
  /-- `RXMODE` (R95): `ack` is `C[0]`, the document's `ackEnabled`. -/
  | rxmode (ack : BitVec 1)
  /-- `DRVCLK` (R96). -/
  | drvclk
  /-- `STOP` (R97). -/
  | stop
  /-- `RESETBUS` (R98). -/
  | resetbus
  /-- `WAITB` (R99). -/
  | waitb
  /-- `RDREG` (R104). -/
  | rdreg (slave : Slave) (reg : Byte)
  /-- `RDREGS` (R105). -/
  | rdregs (slave : Slave) (startReg count : Byte)
  /-- `WRREG` (R106). -/
  | wrreg (slave : Slave) (reg value : Byte)
  /-- `MODREG` (R107); the masks are in `AUX`. -/
  | modreg (slave : Slave) (reg : Byte)
  /-- `PREP` (R111); the wiring is in `AUX`. -/
  | prep (index : BitVec 3) (slave : Slave)
  /-- `CONFIG` (R112). -/
  | config (count : BitVec 4)
  /-- `SELECT` (R113). -/
  | select (slave : Slave)
  /-- `RB.INIT` (R116); the capacity is in `AUX`. -/
  | rbInit (k : Inst)
  /-- `RB.PUSH` (R117). -/
  | rbPush (k : Inst) (byte : Byte)
  /-- `RB.POP` (R118). -/
  | rbPop (k : Inst)
  /-- `RB.COUNT` (R119). -/
  | rbCount (k : Inst)
  /-- `RB.EMPTY` (R120). -/
  | rbEmpty (k : Inst)
  /-- `RB.FULL` (R121). -/
  | rbFull (k : Inst)
  /-- `RB.WAITNE` (R122). -/
  | rbWaitne (k : Inst)
  /-- `RB.WAITNF` (R123). -/
  | rbWaitnf (k : Inst)
  /-- `RB.WAITE` (R124). -/
  | rbWaite (k : Inst)
  /-- `BF.ENQ` (R130). -/
  | bfEnq (k : Inst) (n : BitVec 16)
  /-- `BF.DEQ` (R131). -/
  | bfDeq (k : Inst) (n : BitVec 16)
  /-- `BF.LEN` (R132). -/
  | bfLen (k : Inst)
  /-- `BF.FULL` (R133). -/
  | bfFull (k : Inst)
deriving DecidableEq, Repr

/-- The unit of a command, the high nibble of its opcode (30_encoding.md R69). -/
inductive CmdUnit where
  | registerAccess | primitive | transaction | arbiter | ring | bounded
deriving DecidableEq, Repr

/-- The unit a command belongs to (R69, R74). -/
def Instr.unit : Instr → CmdUnit
  | .ld .. | .st .. | .aand .. | .aor .. | .axor .. | .bfi .. | .ubfx .. => .registerAccess
  | .waitbusy | .start | .sendb _ | .rstart | .rxmode _ | .drvclk | .stop | .resetbus | .waitb => .primitive
  | .rdreg .. | .rdregs .. | .wrreg .. | .modreg .. => .transaction
  | .prep .. | .config _ | .select _ => .arbiter
  | .rbInit _ | .rbPush .. | .rbPop _ | .rbCount _ | .rbEmpty _ | .rbFull _ | .rbWaitne _ | .rbWaitnf _ | .rbWaite _ =>
    .ring
  | .bfEnq .. | .bfDeq .. | .bfLen _ | .bfFull _ => .bounded

end Sys2Proof
end

