-- ==== Sys2Proof/WellFormed.lean ====
section
/-! DEFINITION. Which terms of `Instr` are commands of a block: the two conditions of 30_encoding.md R75 that the types
of the operands do not already enforce (`SZ = 3` has no term). -/

namespace Sys2Proof

/-- A bit field of `wm1 + 1` bits at `pos` fits an access of size `sz`: `POS + WM1 + 1 <= 8n` (R75). -/
def fieldFits (sz : Size) (pos wm1 : BitVec 5) : Bool := pos.toNat + wm1.toNat + 1 ≤ sz.bits

/-- The bit field of a `BFI` or `UBFX` fits its access (R75, R76 case 4). -/
def Instr.fits : Instr → Bool
  | .bfi sz pos wm1 _ => fieldFits sz pos wm1
  | .ubfx sz pos wm1 _ => fieldFits sz pos wm1
  | _ => true

/-- The unit of the command is built in a block of variant `v` (R75, R76 case 5). -/
def Instr.built (v : FifoVariant) (i : Instr) : Bool :=
  match i.unit, v with
  | .ring, .b => false
  | .bounded, .a => false
  | _, _ => true

/-- A command that a block of variant `v` accepts. -/
def Instr.wellFormed (v : FifoVariant) (i : Instr) : Bool := i.fits && i.built v

end Sys2Proof
end

