-- ==== Sys2Proof/Decode.lean ====
section
/-! DEFINITION. The command encoding of 30_encoding.md, both ways: the decoder (R75: total, an `Instr` or `ILLEGAL`,
here `none`), the encoder, the opcode table as rows of mask and pattern (R74), and the word the host asks about. -/

namespace Sys2Proof

/-- Bits 31:24, the opcode `OPC` (R69). -/
def opc (w : Word) : Byte := w.extractLsb' 24 8
/-- Bits 23:16, the operand byte `A` of format P (R70). -/
def opA (w : Word) : Byte := w.extractLsb' 16 8
/-- Bits 15:8, the operand byte `B` of format P (R70). -/
def opB (w : Word) : Byte := w.extractLsb' 8 8
/-- Bits 7:0, the operand byte `C` of format P (R70). -/
def opC (w : Word) : Byte := w.extractLsb' 0 8
/-- Bits 23:22, the access size `SZ` of format R (R71). -/
def opSZ (w : Word) : BitVec 2 := w.extractLsb' 22 2
/-- Bits 21:17, `POS` of format R (R71). -/
def opPOS (w : Word) : BitVec 5 := w.extractLsb' 17 5
/-- Bits 16:12, `WM1` of format R (R71). -/
def opWM1 (w : Word) : BitVec 5 := w.extractLsb' 12 5
/-- Bits 11:0, `ADDR` of format R (R71). -/
def opADDR (w : Word) : Offset := w.extractLsb' 0 12

/-- The access size that `SZ` names; 3 is reserved (R71, R76 case 3). -/
def sizeOf? (sz : BitVec 2) : Option Size :=
  if sz = 0 then some .b else if sz = 1 then some .h else if sz = 2 then some .w else none

/-- The 7-bit slave address in an operand byte whose bit 7 must be 0 (R70). -/
def slaveOf? (x : Byte) : Option Slave := if x.getLsbD 7 then none else some (x.extractLsb' 0 7)

/-- The instance in the operand byte `A`, whose bits 7:1 must be 0 (R74, R76). -/
def instOf? (x : Byte) : Option Inst := if x.extractLsb' 1 7 = 0 then some (x.extractLsb' 0 1) else none

/-- A register-access command without a bit field: `POS` and `WM1` must be 0 (R71). -/
def decodeAccess (mk : Size → Offset → Instr) (w : Word) : Option Instr :=
  if opPOS w = 0 ∧ opWM1 w = 0 then (sizeOf? (opSZ w)).map fun z => mk z (opADDR w) else none

/-- A register-access command with a bit field, which must fit the access (R75). -/
def decodeField (mk : Size → BitVec 5 → BitVec 5 → Offset → Instr) (w : Word) : Option Instr :=
  match sizeOf? (opSZ w) with
  | none => none
  | some z => if fieldFits z (opPOS w) (opWM1 w) then some (mk z (opPOS w) (opWM1 w) (opADDR w)) else none

/-- A command without operands: bits 23:0 must be 0 (R76). -/
def decodePlain (i : Instr) (w : Word) : Option Instr :=
  if opA w = 0 ∧ opB w = 0 ∧ opC w = 0 then some i else none

/-- A command whose one operand is the instance in `A[0]` (R74). -/
def decodeInst (mk : Inst → Instr) (w : Word) : Option Instr :=
  if opB w = 0 ∧ opC w = 0 then (instOf? (opA w)).map mk else none

/-- The decoder of R75 up to its two lines about `FIFO_VARIANT`: opcode by opcode, every bit the row does not use being
0 (R76 case 2). -/
def decodeWord (w : Word) : Option Instr :=
  match opc w with
  | 0x00#8 => decodeAccess .ld w
  | 0x01#8 => decodeAccess .st w
  | 0x02#8 => decodeAccess .aand w
  | 0x03#8 => decodeAccess .aor w
  | 0x04#8 => decodeAccess .axor w
  | 0x05#8 => decodeField .bfi w
  | 0x06#8 => decodeField .ubfx w
  | 0x10#8 => decodePlain .waitbusy w
  | 0x11#8 => decodePlain .start w
  | 0x12#8 => if opA w = 0 ∧ opB w = 0 then some (.sendb (opC w)) else none
  | 0x13#8 => decodePlain .rstart w
  | 0x14#8 => if opA w = 0 ∧ opB w = 0 ∧ (opC w).extractLsb' 1 7 = 0 then some (.rxmode ((opC w).extractLsb' 0 1)) else none
  | 0x15#8 => decodePlain .drvclk w
  | 0x16#8 => decodePlain .stop w
  | 0x17#8 => decodePlain .resetbus w
  | 0x18#8 => decodePlain .waitb w
  | 0x20#8 => if opC w = 0 then (slaveOf? (opA w)).map fun s => .rdreg s (opB w) else none
  | 0x21#8 => (slaveOf? (opA w)).map fun s => .rdregs s (opB w) (opC w)
  | 0x22#8 => (slaveOf? (opA w)).map fun s => .wrreg s (opB w) (opC w)
  | 0x23#8 => if opC w = 0 then (slaveOf? (opA w)).map fun s => .modreg s (opB w) else none
  | 0x30#8 =>
    if opC w = 0 ∧ (opA w).extractLsb' 3 5 = 0 then (slaveOf? (opB w)).map fun s => .prep ((opA w).extractLsb' 0 3) s
    else none
  | 0x31#8 => if opA w = 0 ∧ opB w = 0 ∧ (opC w).extractLsb' 4 4 = 0 then some (.config ((opC w).extractLsb' 0 4)) else none
  | 0x32#8 => if opA w = 0 ∧ opC w = 0 then (slaveOf? (opB w)).map .select else none
  | 0x40#8 => decodeInst .rbInit w
  | 0x41#8 => if opB w = 0 then (instOf? (opA w)).map fun k => .rbPush k (opC w) else none
  | 0x42#8 => decodeInst .rbPop w
  | 0x43#8 => decodeInst .rbCount w
  | 0x44#8 => decodeInst .rbEmpty w
  | 0x45#8 => decodeInst .rbFull w
  | 0x46#8 => decodeInst .rbWaitne w
  | 0x47#8 => decodeInst .rbWaitnf w
  | 0x48#8 => decodeInst .rbWaite w
  | 0x50#8 => (instOf? (opA w)).map fun k => .bfEnq k (w.extractLsb' 0 16)
  | 0x51#8 => (instOf? (opA w)).map fun k => .bfDeq k (w.extractLsb' 0 16)
  | 0x52#8 => decodeInst .bfLen w
  | 0x53#8 => decodeInst .bfFull w
  | _ => none

/-- The decoder of a block of variant `v` (R75); `none` is `ILLEGAL`. -/
def decode (v : FifoVariant) (w : Word) : Option Instr :=
  match decodeWord w with
  | some i => if i.built v then some i else none
  | none => none

/-- What the host asks about: the instruction the decoder reads from the `nbits` bits of `w`. A command is one 32-bit
word written to `CMD` in one access, so there is one word to lay out and no byte order (R45, R69). -/
def decodeTableWord (nbits w : Nat) : Option Instr := decodeWord (BitVec.ofNat 32 (w % 2 ^ nbits))

/-! ## The encoder -/

/-- Bits 31:24 of the command's word (R74). -/
def Instr.opcode : Instr → Byte
  | .ld .. => 0x00 | .st .. => 0x01 | .aand .. => 0x02 | .aor .. => 0x03 | .axor .. => 0x04 | .bfi .. => 0x05
  | .ubfx .. => 0x06
  | .waitbusy => 0x10 | .start => 0x11 | .sendb _ => 0x12 | .rstart => 0x13 | .rxmode _ => 0x14 | .drvclk => 0x15
  | .stop => 0x16 | .resetbus => 0x17 | .waitb => 0x18
  | .rdreg .. => 0x20 | .rdregs .. => 0x21 | .wrreg .. => 0x22 | .modreg .. => 0x23
  | .prep .. => 0x30 | .config _ => 0x31 | .select _ => 0x32
  | .rbInit _ => 0x40 | .rbPush .. => 0x41 | .rbPop _ => 0x42 | .rbCount _ => 0x43 | .rbEmpty _ => 0x44
  | .rbFull _ => 0x45 | .rbWaitne _ => 0x46 | .rbWaitnf _ => 0x47 | .rbWaite _ => 0x48
  | .bfEnq .. => 0x50 | .bfDeq .. => 0x51 | .bfLen _ => 0x52 | .bfFull _ => 0x53

/-- A word of format P (R70). -/
def packP (op a b c : Byte) : Word := op ++ a ++ b ++ c

/-- The value of `SZ` for a size (R71). -/
def Size.code : Size → BitVec 2
  | .b => 0
  | .h => 1
  | .w => 2

/-- A word of format R (R71). -/
def packR (op : Byte) (sz : Size) (pos wm1 : BitVec 5) (addr : Offset) : Word := op ++ sz.code ++ pos ++ wm1 ++ addr

/-- The word of a command (R70, R71, R74). -/
def encode (i : Instr) : Word :=
  match i with
  | .ld sz addr => packR i.opcode sz 0 0 addr
  | .st sz addr => packR i.opcode sz 0 0 addr
  | .aand sz addr => packR i.opcode sz 0 0 addr
  | .aor sz addr => packR i.opcode sz 0 0 addr
  | .axor sz addr => packR i.opcode sz 0 0 addr
  | .bfi sz pos wm1 addr => packR i.opcode sz pos wm1 addr
  | .ubfx sz pos wm1 addr => packR i.opcode sz pos wm1 addr
  | .waitbusy => packP i.opcode 0 0 0
  | .start => packP i.opcode 0 0 0
  | .sendb byte => packP i.opcode 0 0 byte
  | .rstart => packP i.opcode 0 0 0
  | .rxmode ack => packP i.opcode 0 0 (ack.setWidth 8)
  | .drvclk => packP i.opcode 0 0 0
  | .stop => packP i.opcode 0 0 0
  | .resetbus => packP i.opcode 0 0 0
  | .waitb => packP i.opcode 0 0 0
  | .rdreg slave reg => packP i.opcode (slave.setWidth 8) reg 0
  | .rdregs slave startReg count => packP i.opcode (slave.setWidth 8) startReg count
  | .wrreg slave reg value => packP i.opcode (slave.setWidth 8) reg value
  | .modreg slave reg => packP i.opcode (slave.setWidth 8) reg 0
  | .prep index slave => packP i.opcode (index.setWidth 8) (slave.setWidth 8) 0
  | .config count => packP i.opcode 0 0 (count.setWidth 8)
  | .select slave => packP i.opcode 0 (slave.setWidth 8) 0
  | .rbInit k => packP i.opcode (k.setWidth 8) 0 0
  | .rbPush k byte => packP i.opcode (k.setWidth 8) 0 byte
  | .rbPop k => packP i.opcode (k.setWidth 8) 0 0
  | .rbCount k => packP i.opcode (k.setWidth 8) 0 0
  | .rbEmpty k => packP i.opcode (k.setWidth 8) 0 0
  | .rbFull k => packP i.opcode (k.setWidth 8) 0 0
  | .rbWaitne k => packP i.opcode (k.setWidth 8) 0 0
  | .rbWaitnf k => packP i.opcode (k.setWidth 8) 0 0
  | .rbWaite k => packP i.opcode (k.setWidth 8) 0 0
  | .bfEnq k n => packP i.opcode (k.setWidth 8) (n.extractLsb' 8 8) (n.extractLsb' 0 8)
  | .bfDeq k n => packP i.opcode (k.setWidth 8) (n.extractLsb' 8 8) (n.extractLsb' 0 8)
  | .bfLen k => packP i.opcode (k.setWidth 8) 0 0
  | .bfFull k => packP i.opcode (k.setWidth 8) 0 0

/-! ## The opcode table -/

/-- The mask of a command's row of opcode_table.json: the bits whose value the row fixes (R74, R76). -/
def Instr.rowMask : Instr → Word
  | .ld .. | .st .. | .aand .. | .aor .. | .axor .. => 0xFF3FF000
  | .bfi .. | .ubfx .. => 0xFF000000
  | .waitbusy | .start | .rstart | .drvclk | .stop | .resetbus | .waitb => 0xFFFFFFFF
  | .sendb _ => 0xFFFFFF00
  | .rxmode _ => 0xFFFFFFFE
  | .rdreg .. | .modreg .. => 0xFF8000FF
  | .rdregs .. | .wrreg .. => 0xFF800000
  | .prep .. => 0xFFF880FF
  | .config _ => 0xFFFFFFF0
  | .select _ => 0xFFFF80FF
  | .rbInit _ | .rbPop _ | .rbCount _ | .rbEmpty _ | .rbFull _ | .rbWaitne _ | .rbWaitnf _ | .rbWaite _ => 0xFFFEFFFF
  | .rbPush .. => 0xFFFEFF00
  | .bfEnq .. | .bfDeq .. => 0xFFFE0000
  | .bfLen _ | .bfFull _ => 0xFFFEFFFF

/-- The match value of a command's row of opcode_table.json: its opcode above zeros (R74). -/
def Instr.rowMatch (i : Instr) : Word := packP i.opcode 0 0 0

/-! ## Assembly lines (R78) and the commands a host writes -/

/-- The mnemonic of a command as R74 spells it. -/
def Instr.mnemonic : Instr → String
  | .ld .. => "LD" | .st .. => "ST" | .aand .. => "AAND" | .aor .. => "AOR" | .axor .. => "AXOR" | .bfi .. => "BFI"
  | .ubfx .. => "UBFX"
  | .waitbusy => "WAITBUSY" | .start => "START" | .sendb _ => "SENDB" | .rstart => "RSTART" | .rxmode _ => "RXMODE"
  | .drvclk => "DRVCLK" | .stop => "STOP" | .resetbus => "RESETBUS" | .waitb => "WAITB"
  | .rdreg .. => "RDREG" | .rdregs .. => "RDREGS" | .wrreg .. => "WRREG" | .modreg .. => "MODREG"
  | .prep .. => "PREP" | .config _ => "CONFIG" | .select _ => "SELECT"
  | .rbInit _ => "RB.INIT" | .rbPush .. => "RB.PUSH" | .rbPop _ => "RB.POP" | .rbCount _ => "RB.COUNT"
  | .rbEmpty _ => "RB.EMPTY" | .rbFull _ => "RB.FULL" | .rbWaitne _ => "RB.WAITNE" | .rbWaitnf _ => "RB.WAITNF"
  | .rbWaite _ => "RB.WAITE"
  | .bfEnq .. => "BF.ENQ" | .bfDeq .. => "BF.DEQ" | .bfLen _ => "BF.LEN" | .bfFull _ => "BF.FULL"

/-- The size suffix of an assembly line (R78): `.B`, `.H`, `.W` give `SZ` 0, 1, 2. -/
def Size.asmText : Size → String
  | .b => ".B"
  | .h => ".H"
  | .w => ".W"

/-- The operands of an assembly line, in the order the document's function takes them (R78). -/
def Instr.asmOperands : Instr → List Nat
  | .ld _ addr | .st _ addr | .aand _ addr | .aor _ addr | .axor _ addr => [addr.toNat]
  | .bfi _ pos wm1 addr | .ubfx _ pos wm1 addr => [addr.toNat, pos.toNat, wm1.toNat + 1]
  | .waitbusy | .start | .rstart | .drvclk | .stop | .resetbus | .waitb => []
  | .sendb byte => [byte.toNat]
  | .rxmode ack => [ack.toNat]
  | .rdreg slave reg | .modreg slave reg => [slave.toNat, reg.toNat]
  | .rdregs slave startReg count => [slave.toNat, startReg.toNat, count.toNat]
  | .wrreg slave reg value => [slave.toNat, reg.toNat, value.toNat]
  | .prep index slave => [index.toNat, slave.toNat]
  | .config count => [count.toNat]
  | .select slave => [slave.toNat]
  | .rbInit k | .rbPop k | .rbCount k | .rbEmpty k | .rbFull k | .rbWaitne k | .rbWaitnf k | .rbWaite k => [k.toNat]
  | .rbPush k byte => [k.toNat, byte.toNat]
  | .bfEnq k n | .bfDeq k n => [k.toNat, n.toNat]
  | .bfLen k | .bfFull k => [k.toNat]

/-- The size suffix of a command's assembly line; empty outside unit 0 (R78). -/
def Instr.asmSuffix : Instr → String
  | .ld z _ | .st z _ | .aand z _ | .aor z _ | .axor z _ => z.asmText
  | .bfi z _ _ _ | .ubfx z _ _ _ => z.asmText
  | _ => ""

end Sys2Proof
end

