-- ==== Sys2Proof/Machine/State.lean ====
section
/-! DEFINITION. The state of the block: everything 10_state.md lists (R20 to R41), the traces of 20_memory.md R60 and
R62, and fields of the MODEL's own: what the environment does next (log 1) and what a precise assertion restores (log 32).
Plain data throughout. Registers whose reserved bits read 0 and ignore writes (`CTRL`, `STAT`, `ESR`, `LINKCTL`) are held as the bits they
implement; Machine/Flags.lean has the words that software reads and writes. -/

namespace Sys2Proof.Machine

/-- Cells of data at addresses: strictly rising addresses, and an address that is not listed has never been written. -/
abbrev Store (α : Type) := List (Nat × α)

/-- A byte memory: a list of (address, byte) pairs. What an unlisted address reads as is `Store.read`'s `none`, "no value"
(log 13). -/
abbrev Memory := List Host.Cell

/-- `SEQ`, the sequencer's state: the program counter of the block (R22). -/
inductive SeqState where
  /-- No command runs; a command can be accepted. -/
  | idle
  /-- A fatal assertion was raised; only reset leaves (R138). -/
  | halt
  /-- The command with opcode `op` is at micro-step `step`. -/
  | run (op : BitVec 8) (step : BitVec 6)
deriving DecidableEq, Repr

/-- The sequencer's datapath registers, none visible to the host (R21). -/
structure Datapath where
  /-- `SLV`: slave address of the current transaction. -/
  slv : BitVec 7
  /-- `REGA`: slave register address. -/
  rega : BitVec 8
  /-- `VAL`: byte to write (`WRREG`) or to send (`SENDB`). -/
  val : BitVec 8
  /-- `AMSK`: and-mask of `MODREG`. -/
  amsk : BitVec 8
  /-- `OMSK`: or-mask of `MODREG`. -/
  omsk : BitVec 8
  /-- `CNT`: remaining middle bytes of a burst read. -/
  cnt : BitVec 8
  /-- `IDX`: next index into `RBUF`. -/
  idx : BitVec 8
  /-- `TMP`: byte read by `MODREG` before modification. -/
  tmp : BitVec 8
  /-- `NEW`: `(TMP & AMSK) | OMSK`. -/
  new : BitVec 8
  /-- `SAVEDIV`: copy of `DIV` taken by the repeated-start workaround. -/
  saveDiv : BitVec 8
  /-- MODEL: `SLV` as it stood before the acceptance of the last `RDREGS`, for its precise assertion (R138, log 32). -/
  heldSlv : BitVec 7
  /-- MODEL: `REGA` as it stood before the acceptance of the last `RDREGS`, for its precise assertion (R138, log 32). -/
  heldRega : BitVec 8
deriving DecidableEq, Repr

/-- `CTRL`: the implemented bits (R26). `RSTA` is a strobe and is not stored. -/
structure Ctrl where
  /-- Bit 5, master mode. -/
  mst : Bool
  /-- Bit 4, direction: true is transmit. -/
  tx : Bool
  /-- Bit 3, acknowledge control: true means the master does not acknowledge. -/
  txak : Bool
deriving DecidableEq, Repr

/-- `STAT`: the implemented bits (R27). -/
structure Stat where
  /-- Bit 5, bus busy. -/
  busy : Bool
  /-- Bit 4, arbitration lost. -/
  arbl : Bool
  /-- Bit 1, the completion flag `IF`. -/
  ifl : Bool
  /-- Bit 0, acknowledge received for the last transmitted byte: true is not acknowledged. -/
  rxak : Bool
deriving DecidableEq, Repr

/-- `ESR`: the implemented bits (R29). -/
structure Esr where
  /-- Bit 0, a fatal assertion was raised. -/
  fatal : Bool
  /-- Bit 1, a bus-recovery action ran. -/
  recov : Bool
  /-- Bits 7:4, the cause code. -/
  fcode : BitVec 4
deriving DecidableEq, Repr

/-- The causes of a fatal assertion (60_exceptions.md R137). -/
inductive FatalCode where
  | zeroLengthRead
  | nullConfig
  | ringReaderOutran
  | ringOverrun
  | illegalCommand
  | arbRegistered
  | ringUninit
  | badAccess
deriving DecidableEq, Repr

/-- `XFER`, the byte transfer in flight (R33). -/
inductive Xfer where
  | none
  | tx (b : BitVec 8)
  | rx (m : Ack)
deriving DecidableEq, Repr

/-- An entry of `ETAB` (R35). -/
structure Entry where
  prepared : Bool
  slave : BitVec 7
  port : BitVec 3
  cpin : BitVec 5
  cmux : BitVec 3
  dpin : BitVec 5
  dmux : BitVec 3
  hash : BitVec 32
deriving DecidableEq, Repr

/-- The arbiter's table and its single state instance (R35, R36). -/
structure Arbiter where
  /-- `ETAB[0..MAX_ENTRIES-1]`. -/
  etab : Vector Entry 8
  entryCount : BitVec 4
  configured : Bool
  /-- 0xFF means none. -/
  lastAddr : BitVec 8
  lastHash : BitVec 32
  /-- 0xFF means none. -/
  lastIdx : BitVec 8
deriving DecidableEq, Repr

/-- An instance of the ring buffer, variant A (R38). -/
structure RingBuf where
  init : Bool
  cap : BitVec 32
  mask : BitVec 32
  /-- `writeIndex`, free-running. -/
  w : BitVec 32
  /-- `readIndex`, free-running. -/
  r : BitVec 32
  /-- `st[0..RB_STORAGE-1]`. -/
  st : Memory
deriving DecidableEq, Repr

/-- An instance of the bounded FIFO, variant B (R39). -/
structure BoundedFifo where
  /-- `writeCursor`. -/
  wc : BitVec 10
  /-- `readCursor`. -/
  rc : BitVec 10
  full : Bool
  /-- The redundant copy of `Length` (C4). -/
  count : BitVec 11
  /-- `st[0..BF_N-1]`. -/
  st : Memory
deriving DecidableEq, Repr

/-- The two instances of a FIFO: 0 is the link's RX buffer, 1 its TX buffer (R38, R39). -/
structure Instances (α : Type) where
  rx : α
  tx : α
deriving DecidableEq, Repr

/-- The bus events of the bus trace (20_memory.md R60). -/
inductive BusEvent where
  /-- `S`, a START. -/
  | start
  /-- `Sr`, a repeated START. -/
  | restart
  /-- `P`, a STOP. -/
  | stop
  /-- `TXB(b, a)`: the master sent `b`, the slave answered `a`. -/
  | txb (b : BitVec 8) (a : Ack)
  /-- `RXB(d, m)`: the master received `d` and answered `m`. -/
  | rxb (d : BitVec 8) (m : Ack)
deriving DecidableEq, Repr

/-- An event `PMW(port, pin, mux)` of the pin-mux write trace (R62). -/
structure PinWrite where
  port : BitVec 3
  pin : BitVec 5
  mux : BitVec 3
deriving DecidableEq, Repr

/-- An access HOST makes, at an address of its own address space; the block's window begins at `BASE` there (R43, R44). -/
inductive HostAccess where
  | read (addr : Nat) (sz : Size)
  | write (addr : Nat) (sz : Size) (v : BitVec 32)
deriving DecidableEq, Repr

/-- What a read of HOST returned. The MODEL's own record (log 22). -/
structure HostRead where
  off : BitVec 12
  sz : Size
  value : BitVec 32
deriving DecidableEq, Repr

/-- One turn: which agent makes the next atomic step, with the environment's choices in it (R17, R18; logs 1 and 7). -/
inductive Turn where
  /-- SEQ runs its micro-step. -/
  | seq
  /-- HOST makes its next access. -/
  | host
  /-- BUS completes the byte being sent; the slave answers `a` (R54). -/
  | busTx (a : Ack)
  /-- BUS completes the byte being received; the slave sends `d` (R55). -/
  | busRx (d : BitVec 8)
  /-- Another master takes or releases the bus (R57). -/
  | busBusy (taken : Bool)
  /-- Another master wins arbitration (R58). -/
  | busArbLost
  /-- The serial link delivers a byte (R125, R134). -/
  | linkRx (b : BitVec 8)
  /-- The serial link can take a byte (R126, R134). -/
  | linkTx
  /-- The platform resets the block (R149). -/
  | reset
deriving DecidableEq, Repr

/-- The state of the machine. -/
structure State where
  /-- `CMD` (R20). -/
  cmd : BitVec 32
  /-- `AUX` (R20). -/
  aux : BitVec 32
  /-- `RES` (R20). -/
  res : BitVec 32
  /-- `SLV` to `SAVEDIV` (R21). -/
  dp : Datapath
  /-- `SEQ` (R22). -/
  seq : SeqState
  /-- `DIV`: `MULT` in bits 7:6, `RATE` in bits 5:0 (R25). -/
  div : BitVec 8
  /-- `CTRL` (R26). -/
  ctrl : Ctrl
  /-- `STAT` (R27). -/
  stat : Stat
  /-- `DBUF`, the one data buffer behind `DATA` (R28). -/
  dbuf : BitVec 8
  /-- `ESR` (R29). -/
  esr : Esr
  /-- `LOCKCNT[7:0]` (R30). -/
  lockcnt : BitVec 8
  /-- `LINKCTL.TXIE` (R31). -/
  txie : Bool
  /-- `IMASK` (R32). -/
  imask : Bool
  /-- `XFER` (R33). -/
  xfer : Xfer
  /-- `ETAB`, `entryCount`, `configured`, `lastAddr`, `lastHash`, `lastIdx` (R35, R36). -/
  arb : Arbiter
  /-- The pins of `PMUX` that the block has written, keyed by 32 times the port plus the pin (R37, log 12). -/
  pmux : Store (BitVec 3)
  /-- `RB[0]` and `RB[1]` (R38). -/
  rb : Instances RingBuf
  /-- `BF[0]` and `BF[1]` (R39). -/
  bf : Instances BoundedFifo
  /-- `RBUF` and `XBUF`, keyed by window offset (R40, R41, R44). -/
  mem : Memory
  /-- The bus trace, oldest event first (20_memory.md R60). -/
  busTrace : List BusEvent
  /-- The pin-mux write trace, oldest event first (20_memory.md R62). -/
  pinTrace : List PinWrite
  /-- The link-output trace, oldest byte first (44_ring_buffer.md R126). -/
  linkOut : List (BitVec 8)
  /-- MODEL: the parameters of this machine; no step changes them (log 6). -/
  params : Params
  /-- MODEL: the turns the environment has still to hand out (log 1). -/
  agenda : List Turn
  /-- MODEL: the accesses HOST has still to make, in program order (log 1). -/
  host : List HostAccess
  /-- MODEL: what HOST's reads returned, oldest first (log 22). -/
  hostLog : List HostRead
  /-- MODEL: how many bytes have been read from byte memories, the argument of the next free byte (log 14). -/
  draws : Nat
deriving DecidableEq, Repr

/-- Why the machine stops. -/
inductive Fault where
  /-- Raised by a write of `CTRL` that strobes `RSTA` as master while `DIV.MULT` is not 0b00: the erratum, "restart is
  undefined at non-unity multiplier" (R51, U1 "Treat as: fault"). Safe: the hardware goes on in an unknown way. -/
  | restartAtNonUnityMultiplier
  /-- Raised by a read or write of `DATA` that would start a byte, or a strobe of `RSTA`, while a byte is in flight
  (R51, R52, R53, U2 "Treat as: fault"). Safe: the hardware goes on in an unknown way. -/
  | byteInFlight
  /-- Raised by `step` in `HALT` when neither the environment nor HOST has anything to do and no byte is in flight: the run is
  finished (R138, R33; logs 4 and 33); and by a meaning in `HALT`, where SEQ has no step and no turn asks for one. Safe: the
  hardware does nothing until reset. -/
  | halted
  /-- Raised by a meaning at a micro-step that its command does not have, and by SEQ's turn when `CMD` does not decode;
  no run from reset reaches it (log 25). Safe. -/
  | noMicroStep
  /-- Raised by a transaction whose slave the arbiter does not know, in a block whose `SELECT_MISS_POLICY` is `fault`
  (42_engine_transactions.md R102, U5: "a model may equally fault on the miss"; log 24). Safe: the default policy goes on. -/
  | selectMiss
deriving DecidableEq, Repr

/-- Why a step is not part of the machine. -/
inductive Refusal where
  /-- An instruction without a meaning yet; raised only by an arm of `exec`. Safe. -/
  | notModelled (mnemonic : String)
  /-- Raised by HOST's turn when its access is misaligned or of a size the map does not give: "a HOST bus access gets an
  error response (a model refuses the step: HOST has no such step)" (20_memory.md R46, log 19). Safe. -/
  | hostAccessError
deriving DecidableEq, Repr

/-- The outcome of a step or of a command's micro-step. -/
abbrev Result := Host.Outcome State Fault Refusal

/-- The datapath registers at reset: unspecified (R42), the model's choice is zero (log 10; the model's own two: log 32). -/
def Datapath.reset : Datapath :=
  { slv := 0, rega := 0, val := 0, amsk := 0, omsk := 0, cnt := 0, idx := 0, tmp := 0, new := 0, saveDiv := 0,
    heldSlv := 0, heldRega := 0 }

/-- An entry at reset: not prepared; the other fields are unspecified (R42), the model's choice is zero (log 11). -/
def Entry.reset : Entry :=
  { prepared := false, slave := 0, port := 0, cpin := 0, cmux := 0, dpin := 0, dmux := 0, hash := 0 }

/-- The arbiter at reset (R42). -/
def Arbiter.reset : Arbiter :=
  { etab := Vector.replicate 8 Entry.reset, entryCount := 0, configured := false, lastAddr := 0xFF, lastHash := 0,
    lastIdx := 0xFF }

/-- A ring at reset (R42). -/
def RingBuf.reset : RingBuf := { init := false, cap := 0, mask := 0, w := 0, r := 0, st := [] }

/-- A bounded FIFO at reset (R42): the empty FIFO. -/
def BoundedFifo.reset : BoundedFifo := { wc := 0, rc := 0, full := false, count := 0, st := [] }

/-- The machine right after reset, with parameters `p` (R42, R149). -/
def State.resetWith (p : Params) : State :=
  { cmd := 0, aux := 0, res := 0, dp := Datapath.reset, seq := .idle, div := 0,
    ctrl := { mst := false, tx := false, txak := false },
    stat := { busy := false, arbl := false, ifl := false, rxak := false }, dbuf := 0,
    esr := { fatal := false, recov := false, fcode := 0 }, lockcnt := 0, txie := false, imask := false, xfer := .none,
    arb := Arbiter.reset, pmux := [], rb := { rx := RingBuf.reset, tx := RingBuf.reset },
    bf := { rx := BoundedFifo.reset, tx := BoundedFifo.reset }, mem := [], busTrace := [], pinTrace := [], linkOut := [],
    params := p, agenda := [], host := [], hostLog := [], draws := 0 }

/-- The machine right after reset (R42), with the default parameters of R10. -/
def State.reset : State := State.resetWith Params.default

end Sys2Proof.Machine
end

