-- ==== Sys2Proof/Machine/Memory.lean ====
section
/-! DEFINITION. The byte memories of the block in one canonical form: cells in strictly rising order of address. An
address that no cell names has never been written and holds no value (`none`); what an instruction reads there is the
free value of `readByte` (10_state.md R40, U4, log 13). `PMUX` is held in the same form (log 12). -/

namespace Sys2Proof.Machine

/-- What is stored at address `a`, if anything has been. -/
def Store.read {α : Type} (m : Store α) (a : Nat) : Option α :=
  match m with
  | [] => none
  | (b, u) :: t => if a = b then some u else Store.read t a

/-- Store `v` at address `a`, keeping the order of addresses. -/
def Store.write {α : Type} (m : Store α) (a : Nat) (v : α) : Store α :=
  match m with
  | [] => [(a, v)]
  | (b, u) :: t =>
    if a < b then (a, v) :: (b, u) :: t
    else if a = b then (a, v) :: t
    else (b, u) :: Store.write t a v

/-- The canonical form: addresses strictly rising. (No entry can equal what an unlisted address reads as, which is no
value.) -/
def Store.wf {α : Type} (m : Store α) : Bool :=
  match m with
  | [] => true
  | [_] => true
  | (a, _) :: (b, v) :: t => decide (a < b) && Store.wf ((b, v) :: t)

/-- The canonical form of a byte memory. -/
abbrev Memory.wf (m : Memory) : Bool := Store.wf m

/-- The byte at `a`, or the free value of draw `n` where nothing has written it (U4 "any value", log 13). -/
def readByte (m : Memory) (a n : Nat) : Byte := (Store.read m a).getD (Config.freeByte n)

/-- `len` bytes from address `a` upwards; an unwritten byte takes the next free value from draw `n`. -/
def readBytes (m : Memory) (a len n : Nat) : List Byte :=
  match len with
  | 0 => []
  | k + 1 => readByte m a n :: readBytes m (a + 1) k (n + 1)

/-- Store the bytes from address `a` upwards, in order. -/
def writeBytes (m : Memory) (a : Nat) (bs : List Byte) : Memory :=
  match bs with
  | [] => m
  | b :: rest => writeBytes (Store.write m a b) (a + 1) rest

/-- The value of bytes in little-endian order: the byte at the lowest offset is bits 7:0 (20_memory.md R45). -/
def leValue (bs : List Byte) : Word :=
  match bs with
  | [] => 0
  | b :: rest => b.setWidth 32 ||| (leValue rest <<< 8)

/-- The low `n` bytes of a value in little-endian order (R45). -/
def leBytes (n : Nat) (v : Word) : List Byte :=
  match n with
  | 0 => []
  | k + 1 => v.setWidth 8 :: leBytes k (v >>> 8)

end Sys2Proof.Machine
end

