-- ==== Sys2Proof/Machine/Flags.lean ====
section
/-! DEFINITION. The status bits of the block (10_state.md R24): the words that software reads of `CTRL`, `STAT`, `ESR`
and `LINKCTL`, and what a write of each status register does to its bits. The block has no arithmetic flag (R13). -/

namespace Sys2Proof.Machine

/-- The byte with bit `k` set to `b` and every other bit 0. -/
def bitAt (b : Bool) (k : Nat) : Byte := if b then 1#8 <<< k else 0

/-- `DIV.MULT`, bits 7:6 (R25). -/
def divMult (d : Byte) : BitVec 2 := d.extractLsb' 6 2

/-- `DIV.RATE`, bits 5:0 (R25). No rule depends on it. -/
def divRate (d : Byte) : BitVec 6 := d.extractLsb' 0 6

/-- What a read of `CTRL` returns: `MST` 5, `TX` 4, `TXAK` 3; `RSTA` and the reserved bits read as 0 (R26). -/
def Ctrl.word (c : Ctrl) : Byte := bitAt c.mst 5 ||| bitAt c.tx 4 ||| bitAt c.txak 3

/-- What a read of `STAT` returns: `BUSY` 5, `ARBL` 4, `IF` 1, `RXAK` 0; the reserved bits read as 0 (R27). -/
def Stat.word (t : Stat) : Byte := bitAt t.busy 5 ||| bitAt t.arbl 4 ||| bitAt t.ifl 1 ||| bitAt t.rxak 0

/-- What a read of `ESR` returns: `FCODE` 7:4, `RECOV` 1, `FATAL` 0; the reserved bits read as 0 (R29). -/
def Esr.word (e : Esr) : Word :=
  (e.fcode.setWidth 32 <<< 4) ||| (bitAt e.recov 1).setWidth 32 ||| (bitAt e.fatal 0).setWidth 32

/-- What a read of `LINKCTL` returns: `TXIE` 0; the reserved bits read as 0 (R31). -/
def linkctlWord (txie : Bool) : Word := (bitAt txie 0).setWidth 32

/-- A write of `STAT`: a 1 in bit 1 clears `IF`, a 1 in bit 4 clears `ARBL`, all other bits are ignored (20_memory.md
R49). -/
def Stat.written (t : Stat) (v : Byte) : Stat :=
  { t with ifl := t.ifl && !v.getLsbD 1, arbl := t.arbl && !v.getLsbD 4 }

/-- A write of `ESR`: a 1 in bit 1 clears `RECOV`; `FATAL` and `FCODE` are read only (R29). -/
def Esr.written (e : Esr) (v : Word) : Esr := { e with recov := e.recov && !v.getLsbD 1 }

/-- The code of a fatal assertion in `ESR.FCODE` (60_exceptions.md R137). -/
def FatalCode.code : FatalCode → BitVec 4
  | .zeroLengthRead => 1
  | .nullConfig => 2
  | .ringReaderOutran => 3
  | .ringOverrun => 4
  | .illegalCommand => 5
  | .arbRegistered => 6
  | .ringUninit => 7
  | .badAccess => 8

/-- `RXAK` after a slave's answer: 0 acknowledged, 1 not acknowledged (R27). -/
def ackRxak : Ack → Bool
  | .ack => false
  | .nack => true

/-- The answer the master gives to a received byte, from `TXAK` (R26, 20_memory.md R53). -/
def Ctrl.answer (c : Ctrl) : Ack := if c.txak then .nack else .ack

/-- A truth value as a result word: 1 or 0. -/
def flagWord (b : Bool) : Word := if b then 1 else 0

end Sys2Proof.Machine
end

