-- ==== Sys2Proof/Machine/Operands.lean ====
section
/-! DEFINITION. The operand forms: the window map and its access sizes (20_memory.md R44, R46), the data operand and the
field mask of the register-access commands (30_encoding.md R71, 40_register_access.md), the layouts of `AUX`
(30_encoding.md R72), the bus address bytes (41_engine_primitives.md R89) and the arbiter hash (43_arbiter.md R110). -/

namespace Sys2Proof

/-! ## The register window in the host's address space -/

/-- The host address of a window offset (20_memory.md R44: byte offsets from the block's base address). -/
def Params.address (p : Params) (off : Offset) : Nat := p.base + off.toNat

/-- The window offset at a host address; none outside the window (R43, R44). -/
def Params.offsetOf (p : Params) (addr : Nat) : Option Offset :=
  if p.base ≤ addr ∧ addr < p.base + Config.windowSize then some (BitVec.ofNat 12 (addr - p.base)) else none

end Sys2Proof

namespace Sys2Proof.Machine

/-- The host address of HOST's access. -/
def HostAccess.addr (a : HostAccess) : Nat :=
  match a with
  | .read addr _ => addr
  | .write addr _ _ => addr

/-! ## The register window -/

/-- What stands at an offset of the window (R44). -/
inductive Region where
  /-- A reserved byte that takes 1-byte accesses only: 0x000, 0x005 to 0x007. -/
  | reservedByte
  | div | ctrl | stat | data
  | cmd | aux | res | esr | lockcnt | linkctl
  | rbuf | xbuf
  /-- A reserved range that takes accesses of any size. -/
  | reserved
deriving DecidableEq, Repr

/-- The map of the window in a block of variant `v` (R44); `XBUF` is reserved in variant A. -/
def region (v : FifoVariant) (off : Offset) : Region :=
  let a := off.toNat
  if a = 0x000 then .reservedByte
  else if a = 0x001 then .div
  else if a = 0x002 then .ctrl
  else if a = 0x003 then .stat
  else if a = 0x004 then .data
  else if a < 0x008 then .reservedByte
  else if a < 0x00C then .cmd
  else if a < 0x010 then .aux
  else if a < 0x014 then .res
  else if a < 0x018 then .esr
  else if a < 0x01C then .lockcnt
  else if a < 0x020 then .linkctl
  else if a < 0x100 then .reserved
  else if a < 0x200 then .rbuf
  else if a < 0x400 then .reserved
  else if a < 0x800 then (match v with | .a => .reserved | .b => .xbuf)
  else .reserved

/-- The access sizes the map gives a region (R44). -/
def Region.allows (g : Region) (sz : Size) : Bool :=
  match g with
  | .reservedByte | .div | .ctrl | .stat | .data => sz.bytes == 1
  | .cmd | .aux | .res | .esr | .lockcnt | .linkctl => sz.bytes == 4
  | .rbuf | .xbuf | .reserved => true

/-- An access is naturally aligned and has the size the map gives its offset (R46). -/
def accessOk (v : FifoVariant) (off : Offset) (sz : Size) : Bool :=
  (off.toNat % sz.bytes == 0) && (region v off).allows sz

/-- The check of 40_register_access.md R80 that every register-access command makes first; `rmw` says that the command is
one of `AAND`, `AOR`, `AXOR`, `BFI`, `UBFX`, which may not touch `DATA`. -/
def commandAccessOk (v : FifoVariant) (off : Offset) (sz : Size) (rmw : Bool) : Bool :=
  accessOk v off sz && !(region v off == .cmd) && !(rmw && region v off == .data)

/-! ## Data operands and field masks -/

/-- The low `8n` bits of a word. -/
def lowBits (sz : Size) (v : Word) : Word :=
  match sz with
  | .b => v &&& 0xFF
  | .h => v &&& 0xFFFF
  | .w => v

/-- `(1 << (WM1 + 1)) - 1`, a right-justified field of `wm1 + 1` ones (R86, R87). -/
def onesField (wm1 : BitVec 5) : Word := BitVec.ofNat 32 (2 ^ (wm1.toNat + 1) - 1)

/-- The field mask of `BFI`: `((1 << (WM1 + 1)) - 1) << POS`, cut to `8n` bits (R86). -/
def fieldMask (sz : Size) (pos wm1 : BitVec 5) : Word :=
  BitVec.ofNat 32 (((2 ^ (wm1.toNat + 1) - 1) * 2 ^ pos.toNat) % 2 ^ sz.bits)

/-! ## The layouts of `AUX` -/

/-- `AUX[15:8]`, the and-mask of `MODREG` (R72). -/
def auxAndMask (x : Word) : Byte := x.extractLsb' 8 8
/-- `AUX[7:0]`, the or-mask of `MODREG` (R72). -/
def auxOrMask (x : Word) : Byte := x.extractLsb' 0 8
/-- `AUX[26:24]`, the port of `PREP` (R72). -/
def auxPort (x : Word) : BitVec 3 := x.extractLsb' 24 3
/-- `AUX[15:11]`, the clock pin of `PREP` (R72). -/
def auxCpin (x : Word) : BitVec 5 := x.extractLsb' 11 5
/-- `AUX[10:8]`, the clock mux value of `PREP` (R72). -/
def auxCmux (x : Word) : BitVec 3 := x.extractLsb' 8 3
/-- `AUX[7:3]`, the data pin of `PREP` (R72). -/
def auxDpin (x : Word) : BitVec 5 := x.extractLsb' 3 5
/-- `AUX[2:0]`, the data mux value of `PREP` (R72). -/
def auxDmux (x : Word) : BitVec 3 := x.extractLsb' 0 3
/-- `AUX[31:27]` and `AUX[23:16]`, which must be 0 for `PREP`, are 0 (R72, R111). -/
def auxPrepReservedZero (x : Word) : Bool := x.extractLsb' 27 5 == 0 && x.extractLsb' 16 8 == 0

/-- The operand word of `PREP` (R72, R79). -/
def prepAux (port : BitVec 3) (cpin : BitVec 5) (cmux : BitVec 3) (dpin : BitVec 5) (dmux : BitVec 3) : Word :=
  (0#5 ++ port ++ 0#8 ++ cpin ++ cmux ++ dpin ++ dmux : BitVec 32)

/-- The operand word of `MODREG` (R72, R79). -/
def modregAux (andMask orMask : Byte) : Word := (0#16 ++ andMask ++ orMask : BitVec 32)

/-! ## Bus address bytes and the hash -/

/-- `waddr(s) = {s[6:0], 0}` (R89). -/
def waddr (s : Slave) : Byte := s ++ 0#1
/-- `raddr(s) = {s[6:0], 1}` (R89). -/
def raddr (s : Slave) : Byte := s ++ 1#1

/-- The arbiter hash (R110): multiply by 23 and add, three times, from 37, modulo 2^32. -/
def wiringHash (port : BitVec 3) (cpin dpin : BitVec 5) : Word :=
  let h := Config.hashSeed
  let h := h * Config.hashMult + port.setWidth 32
  let h := h * Config.hashMult + cpin.setWidth 32
  h * Config.hashMult + dpin.setWidth 32

/-- The key of a pin in `PMUX` (R37). -/
def pinKey (port pin : Nat) : Nat := Config.pinsPerPort * port + pin

/-! ## FIFO instances -/

/-- Instance `k` of a FIFO (R38, R39). -/
def Instances.get {α : Type} (f : Instances α) (k : Inst) : α := if k = 0 then f.rx else f.tx

/-- Replace instance `k`. -/
def Instances.set {α : Type} (f : Instances α) (k : Inst) (x : α) : Instances α :=
  if k = 0 then { f with rx := x } else { f with tx := x }

end Sys2Proof.Machine
end

