-- ==== Sys2Proof/Machine/Ops.lean ====
section
/-! DEFINITION. The named operations over the state, each written once: the sequencer's control (R17, R22), the fatal
assertion (60_exceptions.md R138), `MemRead` and `MemWrite` with their side effects (20_memory.md R48 to R53), the atomic
register-access operations (40_register_access.md R83 to R87), the steps of the two-wire bus (R54 to R58), the pin-mux
write port and `Select` (R61, 43_arbiter.md R113), the ring and the bounded FIFO (44_ring_buffer.md, 45_bounded_fifo.md). -/

namespace Sys2Proof.Machine

/-! ## The sequencer's control -/

/-- The next micro-step of the same command: `step <- step + 1` (R22). -/
def SeqState.next (q : SeqState) : SeqState :=
  match q with
  | .run op k => .run op (k + 1)
  | .idle => .idle
  | .halt => .halt

/-- Micro-step `k` of the same command: `pc <- target` (R17, R22). -/
def SeqState.at (q : SeqState) (k : BitVec 6) : SeqState :=
  match q with
  | .run op _ => .run op k
  | .idle => .idle
  | .halt => .halt

/-- A micro-step that completes (R22). -/
def State.advance (s : State) : State := { s with seq := s.seq.next }

/-- `pc <- k` (R17). -/
def State.goto (k : BitVec 6) (s : State) : State := { s with seq := s.seq.at k }

/-- `pc <- IDLE`: the command ends (R17). -/
def State.finish (s : State) : State := { s with seq := .idle }

/-- `x[RES] <- v`. -/
def State.setRes (v : Word) (s : State) : State := { s with res := v }

/-- `raise Fatal(code)`: taking the block's one exception (R138). No register saves a program counter, no handler runs and
nothing returns (R139); only reset leaves `HALT`. -/
def State.raise (code : FatalCode) (s : State) : State :=
  { s with esr := { s.esr with fatal := true, fcode := code.code }, seq := .halt }

/-- `emit(e)` to the bus trace (R16, R60). -/
def State.emit (e : BusEvent) (s : State) : State := { s with busTrace := s.busTrace ++ [e] }

/-- The barrier that ends a ring's index update orders earlier steps before later ones; over atomic steps that is the
case already, so it changes nothing (20_memory.md R63 to R65, log 27). -/
def State.barrier (s : State) : State := s

/-- A micro-step: a next state, or a named stop. -/
abbrev MicroOp := State → Except Fault State

/-- The outcome of a micro-step. -/
def toResult (r : Except Fault State) : Result :=
  match r with
  | .ok s => .next s
  | .error f => .fault f

/-- A micro-step that completes after `r`. -/
def thenAdvance (r : Except Fault State) : Except Fault State :=
  match r with
  | .ok s => .ok s.advance
  | .error f => .error f

/-- A micro-step that ends the command after `r`. -/
def thenFinish (r : Except Fault State) : Except Fault State :=
  match r with
  | .ok s => .ok s.finish
  | .error f => .error f

/-- What SEQ does with the command of opcode `op` whose acceptance loads the datapath by `load` and whose micro-program is
`prog`: at `IDLE` it is accepted (R23: operands copied, `SEQ <- (op, 0)`), at `(op, k)` it runs micro-step `k` (R17); in `HALT`
SEQ has no step, and no turn of any agent asks for one (R138, log 4). -/
def command (op : Byte) (load : State → Datapath) (prog : List MicroOp) (s : State) : Result :=
  match s.seq with
  | .idle => .next { s with dp := load s, seq := .run op 0 }
  | .halt => .fault .halted
  | .run o k =>
    if o = op then
      match prog[k.toNat]? with
      | some m => toResult (m s)
      | none => .fault .noMicroStep
    else .fault .noMicroStep

/-- Acceptance of a command that uses no datapath register (R21, R23). -/
def keepDatapath (s : State) : Datapath := s.dp

/-! ## The module registers and the window -/

/-- The `RSTA` effect of a write of `CTRL` (20_memory.md R51). -/
def strobeRestart (s : State) : Except Fault State :=
  if s.ctrl.mst = false then .ok s
  else if s.xfer ≠ .none then .error .byteInFlight
  else if divMult s.div ≠ 0 then .error .restartAtNonUnityMultiplier
  else .ok (s.emit .restart)

/-- The direction and acknowledge bits of a write of `CTRL` (R50). -/
def setDirection (v : Byte) (s : State) : State :=
  { s with ctrl := { s.ctrl with tx := v.getLsbD 4, txak := v.getLsbD 3 } }

/-- The 0-to-1 change of `MST`: a START, or arbitration lost on a busy bus (R50). -/
def startBus (s : State) : State :=
  if s.stat.busy then { s with stat := { s.stat with arbl := true, ifl := true } }
  else
    { s with
      busTrace := s.busTrace ++ [.start], stat := { s.stat with busy := true }, ctrl := { s.ctrl with mst := true } }

/-- The 1-to-0 change of `MST`: a STOP; a byte in flight is abandoned (R50). -/
def stopBus (s : State) : State :=
  { s with
    busTrace := s.busTrace ++ [.stop], stat := { s.stat with busy := false }, ctrl := { s.ctrl with mst := false },
    xfer := .none }

/-- A write of `CTRL` but for its strobe bit (R50). -/
def writeCtrlBits (v : Byte) (s : State) : State :=
  if s.ctrl.mst = false ∧ v.getLsbD 5 = true then startBus (setDirection v s)
  else if s.ctrl.mst = true ∧ v.getLsbD 5 = false then stopBus (setDirection v s)
  else setDirection v s

/-- A write of `CTRL` (R50): the bits, then the strobe with the new `MST` and `TX`. -/
def writeCtrl (v : Byte) (s : State) : Except Fault State :=
  if v.getLsbD 2 then strobeRestart (writeCtrlBits v s) else .ok (writeCtrlBits v s)

/-- A write of `DATA` (R52). -/
def writeData (b : Byte) (s : State) : Except Fault State :=
  if s.ctrl.mst = true ∧ s.ctrl.tx = true then
    if s.xfer = .none then .ok { s with dbuf := b, xfer := .tx b } else .error .byteInFlight
  else .ok { s with dbuf := b }

/-- A read of `DATA` (R53): the buffer, and in master receive mode the start of the next byte. -/
def readData (s : State) : Except Fault (Byte × State) :=
  if s.ctrl.mst = true ∧ s.ctrl.tx = false then
    if s.xfer = .none then .ok (s.dbuf, { s with xfer := .rx s.ctrl.answer }) else .error .byteInFlight
  else .ok (s.dbuf, s)

/-- `MemRead(off, n)` (R15, R44, R48), zero-extended to a word. The caller has checked alignment and size. -/
def memRead (off : Offset) (sz : Size) (s : State) : Except Fault (Word × State) :=
  match region s.params.variant off with
  | .reservedByte => .ok (0, s)
  | .reserved => .ok (0, s)
  | .div => .ok (s.div.setWidth 32, s)
  | .ctrl => .ok (s.ctrl.word.setWidth 32, s)
  | .stat => .ok (s.stat.word.setWidth 32, s)
  | .data =>
    match readData s with
    | .ok (b, t) => .ok (b.setWidth 32, t)
    | .error f => .error f
  | .cmd => .ok (s.cmd, s)
  | .aux => .ok (s.aux, s)
  | .res => .ok (s.res, s)
  | .esr => .ok (s.esr.word, s)
  | .lockcnt => .ok (s.lockcnt.setWidth 32, s)
  | .linkctl => .ok (linkctlWord s.txie, s)
  | .rbuf => .ok (leValue (readBytes s.mem off.toNat sz.bytes s.draws), { s with draws := s.draws + sz.bytes })
  | .xbuf => .ok (leValue (readBytes s.mem off.toNat sz.bytes s.draws), { s with draws := s.draws + sz.bytes })

/-- `MemWrite(off, n, v)` (R15, R44, R48). The caller has checked alignment and size. Read-only registers and reserved
offsets ignore it. A write of `CMD` stores the word; its acceptance is the host's turn (Machine/Agents.lean). -/
def memWrite (off : Offset) (sz : Size) (v : Word) (s : State) : Except Fault State :=
  match region s.params.variant off with
  | .reservedByte => .ok s
  | .reserved => .ok s
  | .div => .ok { s with div := v.setWidth 8 }
  | .ctrl => writeCtrl (v.setWidth 8) s
  | .stat => .ok { s with stat := s.stat.written (v.setWidth 8) }
  | .data => writeData (v.setWidth 8) s
  | .cmd => .ok { s with cmd := v }
  | .aux => .ok { s with aux := v }
  | .res => .ok s
  | .esr => .ok { s with esr := s.esr.written v }
  | .lockcnt => .ok s
  | .linkctl => .ok { s with txie := v.getLsbD 0 }
  | .rbuf => .ok s
  | .xbuf => .ok { s with mem := writeBytes s.mem off.toNat (leBytes sz.bytes v) }

/-- Offset of `DIV` (R44). -/
def divOff : Offset := 0x001
/-- Offset of `CTRL` (R44). -/
def ctrlOff : Offset := 0x002
/-- Offset of `STAT` (R44). -/
def statOff : Offset := 0x003
/-- Offset of `DATA` (R44). -/
def dataOff : Offset := 0x004

/-! ## The atomic register-access operations -/

/-- One indivisible read-modify-write (20_memory.md R47, R66). -/
def rmw (off : Offset) (sz : Size) (g : Word → Word) (s : State) : Except Fault State :=
  match memRead off sz s with
  | .ok (t, s1) => memWrite off sz (g t) s1
  | .error f => .error f

/-- `AND` of `v` into the location (R83; on `STAT` against the last sentence of R48: log 31, DEDUCED, unsafe). -/
def opAnd (off : Offset) (sz : Size) (v : Word) (s : State) : Except Fault State := rmw off sz (fun t => t &&& v) s

/-- `OR` of `v` into the location (R84). -/
def opOr (off : Offset) (sz : Size) (v : Word) (s : State) : Except Fault State := rmw off sz (fun t => t ||| v) s

/-- Exclusive or of `v` into the location (R85; on `STAT` against the last sentence of R48: log 31, DEDUCED, unsafe). -/
def opXor (off : Offset) (sz : Size) (v : Word) (s : State) : Except Fault State := rmw off sz (fun t => t ^^^ v) s

/-- Insert of the bits of `v` that the mask `m` selects, in place (R86). -/
def opInsert (off : Offset) (sz : Size) (m v : Word) (s : State) : Except Fault State :=
  rmw off sz (fun t => (t &&& ~~~m) ||| (v &&& m)) s

/-! ## The two-wire bus -/

/-- BUS completes the byte being sent, the slave answering `a` (R54). With no byte being sent BUS has no such step
(log 2). -/
def busTx (a : Ack) (s : State) : State :=
  match s.xfer with
  | .tx b =>
    { s with
      busTrace := s.busTrace ++ [.txb b a], stat := { s.stat with rxak := ackRxak a, ifl := true }, xfer := .none }
  | .none => s
  | .rx _ => s

/-- BUS completes the byte being received, the slave sending `d` (R55). -/
def busRx (d : Byte) (s : State) : State :=
  match s.xfer with
  | .rx m => { s with dbuf := d, busTrace := s.busTrace ++ [.rxb d m], stat := { s.stat with ifl := true }, xfer := .none }
  | .none => s
  | .tx _ => s

/-- Another master takes or releases the bus (R57); only with `ENV.multi_master` and while the block is not master. -/
def busBusy (taken : Bool) (s : State) : State :=
  if s.params.multiMaster = true ∧ s.ctrl.mst = false then { s with stat := { s.stat with busy := taken } } else s

/-- The block loses arbitration (R58); only with `ENV.multi_master` and while the block is master. -/
def busArbLost (s : State) : State :=
  if s.params.multiMaster = true ∧ s.ctrl.mst = true then
    { s with
      stat := { s.stat with arbl := true, ifl := true }, ctrl := { s.ctrl with mst := false }, xfer := .none }
  else s

/-! ## The pin-mux write port and `Select` -/

/-- `PinWrite(p, n, m)` (20_memory.md R61). -/
def pinWrite (port : BitVec 3) (pin : BitVec 5) (mux : BitVec 3) (s : State) : State :=
  { s with
    pmux := Store.write s.pmux (pinKey port.toNat pin.toNat) mux
    pinTrace := s.pinTrace ++ [{ port := port, pin := pin, mux := mux }] }

/-- `x[PMUX[p][n]]` (R37): what the block last wrote, or the platform's initial value. -/
def pmuxAt (s : State) (port pin : Nat) : BitVec 3 :=
  (Store.read s.pmux (pinKey port pin)).getD (Config.initialPmux port pin)

/-- `x[ETAB[i]]` (R35). No rule uses an index beyond the table (log 25). -/
def Arbiter.entry (a : Arbiter) (i : Nat) : Entry := if h : i < 8 then a.etab[i] else Entry.reset

/-- The least `i < entryCount` whose entry has slave address `sl` (R113 step 2). -/
def Arbiter.find (a : Arbiter) (sl : Slave) : Option Nat :=
  (List.range a.entryCount.toNat).find? fun i => (a.entry i).slave == sl

/-- The two pins of an entry written with two mux values, clock pin first (R113 step 3, D39). -/
def writePins (e : Entry) (cmux dmux : BitVec 3) (s : State) : State :=
  pinWrite e.port e.dpin dmux (pinWrite e.port e.cpin cmux s)

/-- Step 3 of `Select` for table index `j` (R113): de-mux the previous entry's pins to plain input, then mux the new
entry's pins to the bus function, unless the wiring hashes equal. -/
def remux (j : Nat) (s : State) : State :=
  let e := s.arb.entry j
  if s.arb.lastIdx = 0xFF ∨ e.hash ≠ s.arb.lastHash then
    let s1 :=
      if s.arb.lastIdx ≠ 0xFF then
        writePins (s.arb.entry s.arb.lastIdx.toNat) Config.muxPlainInput Config.muxPlainInput s
      else s
    writePins e e.cmux e.dmux s1
  else s

/-- Step 5 of `Select` (R113). -/
def remember (sl : Slave) (j : Nat) (s : State) : State :=
  { s with
    arb := { s.arb with lastAddr := sl.setWidth 8, lastHash := (s.arb.entry j).hash, lastIdx := BitVec.ofNat 8 j } }

/-- `Select(sl)` (R113): the status, 0 success and 1 failure, and the state. -/
def arbSelect (sl : Slave) (s : State) : Word × State :=
  if sl.setWidth 8 = s.arb.lastAddr then (0, s)
  else
    match s.arb.find sl with
    | none => (1, s)
    | some j => (0, remember sl j (remux j s))

/-! ## The ring buffer -/

/-- `Count = w -_32 r` (44_ring_buffer.md R119). -/
def RingBuf.held (q : RingBuf) : Word := q.w - q.r

/-- `Empty` (R120). -/
def RingBuf.isEmpty (q : RingBuf) : Bool := q.w == q.r

/-- `Full`: `Count >= cap`, unsigned (R121). -/
def RingBuf.isFull (q : RingBuf) : Bool := decide (q.cap.toNat ≤ q.held.toNat)

/-- Storage first, write index second (R117). -/
def RingBuf.put (q : RingBuf) (b : Byte) : RingBuf :=
  { q with st := Store.write q.st (q.w &&& q.mask).toNat b, w := q.w + 1 }

/-- The byte at the read index (R118); a slot nothing has written gives the free value of draw `n`. -/
def RingBuf.front (q : RingBuf) (n : Nat) : Byte := readByte q.st (q.r &&& q.mask).toNat n

/-- The read index advanced (R118). -/
def RingBuf.dropFront (q : RingBuf) : RingBuf := { q with r := q.r + 1 }

/-- The capacity check of `RB.INIT` (R116): a power of two from 1 to `RB_STORAGE`. -/
def capacityOk (c : Word) : Bool := c != 0 && (c &&& (c - 1)) == 0 && decide (c.toNat ≤ Config.rbStorage.toNat)

/-- An accepted `RB.INIT` (R116): storage bytes keep their values. -/
def RingBuf.initWith (q : RingBuf) (c : Word) : RingBuf := { q with init := true, cap := c, mask := c - 1, w := 0, r := 0 }

/-- Replace ring `k`. -/
def State.setRing (k : Inst) (q : RingBuf) (s : State) : State := { s with rb := s.rb.set k q }

/-! ## The bounded FIFO -/

/-- `Length(f)` (45_bounded_fifo.md R128). -/
def BoundedFifo.length (f : BoundedFifo) : Nat :=
  if f.full then Config.bfN
  else if f.rc.toNat ≤ f.wc.toNat then f.wc.toNat - f.rc.toNat
  else Config.bfN - (f.rc.toNat - f.wc.toNat)

/-- The bytes `bs` copied in, in up to two contiguous segments, with the cursor, `full` and `count` (R130). The caller has
bounded their number by the free space. -/
def BoundedFifo.put (f : BoundedFifo) (bs : List Byte) : BoundedFifo :=
  let m := bs.length
  let s1 := min m (Config.bfN - f.wc.toNat)
  let wc := BitVec.ofNat 10 ((f.wc.toNat + m) % Config.bfN)
  { f with
    st := writeBytes (writeBytes f.st f.wc.toNat (bs.take s1)) 0 (bs.drop s1)
    wc := wc
    full := f.full || (decide (0 < m) && wc == f.rc)
    count := BitVec.ofNat 11 (f.length + m) }

/-- The next `m` bytes held, in up to two contiguous segments (R131); `n` numbers the draws. -/
def BoundedFifo.front (f : BoundedFifo) (m n : Nat) : List Byte :=
  let s1 := min m (Config.bfN - f.rc.toNat)
  readBytes f.st f.rc.toNat s1 n ++ readBytes f.st 0 (m - s1) (n + s1)

/-- `m` bytes taken out: the cursor, `full` and `count` (R131). The caller has bounded `m` by the length. -/
def BoundedFifo.dropFront (f : BoundedFifo) (m : Nat) : BoundedFifo :=
  { f with
    rc := BitVec.ofNat 10 ((f.rc.toNat + m) % Config.bfN)
    full := f.full && !decide (0 < m)
    count := BitVec.ofNat 11 (f.length - m) }

/-- Replace bounded FIFO `k`. -/
def State.setBf (k : Inst) (f : BoundedFifo) (s : State) : State := { s with bf := s.bf.set k f }

/-- The masked critical section (R129): save `IMASK`, set it, do the body, restore the saved value. -/
def critical (body : State → State) (s : State) : State :=
  { body { s with imask := true } with imask := s.imask }

end Sys2Proof.Machine
end

