-- ==== Sys2Proof/Machine/ArbiterOps.lean ====
section
/-! DEFINITION. The arbiter's commands, unit 0x3 (43_arbiter.md R110 to R115). Each is one micro-step. -/

namespace Sys2Proof.Machine

/-- The entry that `PREP` fills from the slave address and the wiring word (R111). -/
def preparedEntry (slave : Slave) (x : Word) : Entry :=
  { prepared := true, slave := slave, port := auxPort x, cpin := auxCpin x, cmux := auxCmux x, dpin := auxDpin x,
    dmux := auxDmux x, hash := wiringHash (auxPort x) (auxCpin x) (auxDpin x) }

/-- `x[ETAB[i]] <- e`. -/
def setEntry (i : BitVec 3) (e : Entry) (s : State) : State :=
  { s with arb := { s.arb with etab := s.arb.etab.set i.toNat e i.isLt } }

/-- The micro-step of `PREP` (R111), its checks in the order of 60_exceptions.md R140. -/
def prepareEntry (index : BitVec 3) (slave : Slave) (s : State) : State :=
  if auxPrepReservedZero s.aux = false then s.raise .illegalCommand
  else if Config.numPorts ≤ (auxPort s.aux).toNat then s.raise .illegalCommand
  else if s.arb.configured then s.raise .arbRegistered
  else (setEntry index (preparedEntry slave s.aux) s).finish

/-- `PREP` (R111). -/
def execPrep (index : BitVec 3) (slave : Slave) (s : State) : Result :=
  command 0x30 keepDatapath [fun t => .ok (prepareEntry index slave t)] s

/-- Every entry below `n` has been prepared (R112). -/
def allPrepared (a : Arbiter) (n : Nat) : Bool := (List.range n).all fun i => (a.entry i).prepared

/-- The table installed and the 'last selected' state reset (R112). -/
def installTable (count : BitVec 4) (s : State) : State :=
  { s with
    arb := { s.arb with entryCount := count, configured := true, lastAddr := 0xFF, lastHash := 0, lastIdx := 0xFF } }

/-- `Select` of `sl` with its status in `RES` (R112, R113). -/
def selectInto (sl : Slave) (s : State) : State := (arbSelect sl s).2.setRes (arbSelect sl s).1

/-- The micro-step of `CONFIG` (R112), its checks in the order of R140. -/
def configureTable (count : BitVec 4) (s : State) : State :=
  if s.arb.configured then s.raise .arbRegistered
  else if count = 0 ∨ Config.maxEntries < count.toNat then s.raise .nullConfig
  else if allPrepared s.arb count.toNat = false then s.raise .nullConfig
  else (selectInto (s.arb.entry 0).slave (installTable count s)).finish

/-- `CONFIG` (R112). -/
def execConfig (count : BitVec 4) (s : State) : Result :=
  command 0x31 keepDatapath [fun t => .ok (configureTable count t)] s

/-- `SELECT` (R113): `SLV` holds the slave address (R21). -/
def execSelect (slave : Slave) (s : State) : Result :=
  command 0x32 (fun t => { t.dp with slv := slave }) [fun t => .ok (selectInto t.dp.slv t).finish] s

end Sys2Proof.Machine
end

