-- ==== Sys2Proof/Machine/BoundedOps.lean ====
section
/-! DEFINITION. The bounded-FIFO commands of variant B, unit 0x5 (45_bounded_fifo.md R128 to R133). Each is one micro-step
and a masked critical section (R129). -/

namespace Sys2Proof.Machine

/-- The first `m` bytes of `XBUF` (10_state.md R41). -/
def xbufBytes (m : Nat) (s : State) : List Byte := readBytes s.mem Config.xbufBase m s.draws

/-- How many bytes an enqueue of `n` copies into `f` (R130). -/
def enqueueCount (f : BoundedFifo) (n : Nat) : Nat := if f.full then 0 else min n (Config.bfN - f.length)

/-- The body of `BF.ENQ` (R130): nothing on a full FIFO, else as many bytes as fit. -/
def enqueue (k : Inst) (n : Nat) (s : State) : State :=
  let f := s.bf.get k
  if f.full then s.setRes 0
  else
    let m := enqueueCount f n
    ({ s with draws := s.draws + m }.setBf k (f.put (xbufBytes m s))).setRes (BitVec.ofNat 32 m)

/-- How many bytes a dequeue of `n` takes from `f` (R131). -/
def dequeueCount (f : BoundedFifo) (n : Nat) : Nat := min n f.length

/-- The body of `BF.DEQ` (R131): nothing on an empty FIFO, else as many bytes as are there. -/
def dequeue (k : Inst) (n : Nat) (s : State) : State :=
  let f := s.bf.get k
  if f.length = 0 then s.setRes 0
  else
    let m := dequeueCount f n
    ({ s with mem := writeBytes s.mem Config.xbufBase (f.front m s.draws), draws := s.draws + m }.setBf k
      (f.dropFront m)).setRes (BitVec.ofNat 32 m)

/-- `BF.ENQ` (R130). -/
def execBfEnq (k : Inst) (n : BitVec 16) (s : State) : Result :=
  command 0x50 keepDatapath [fun t => .ok (critical (enqueue k n.toNat) t).finish] s

/-- `BF.DEQ` (R131). -/
def execBfDeq (k : Inst) (n : BitVec 16) (s : State) : Result :=
  command 0x51 keepDatapath [fun t => .ok (critical (dequeue k n.toNat) t).finish] s

/-- `BF.LEN` (R132). -/
def execBfLen (k : Inst) (s : State) : Result :=
  command 0x52 keepDatapath
    [fun t => .ok (critical (fun u => u.setRes (BitVec.ofNat 32 (u.bf.get k).length)) t).finish] s

/-- `BF.FULL` (R133). -/
def execBfFull (k : Inst) (s : State) : Result :=
  command 0x53 keepDatapath [fun t => .ok (critical (fun u => u.setRes (flagWord (u.bf.get k).full)) t).finish] s

end Sys2Proof.Machine
end

