-- ==== Sys2Proof/Machine/RegisterAccess.lean ====
section
/-! DEFINITION. The register-access commands, unit 0x0 (40_register_access.md R80 to R88). Each is one micro-step. -/

namespace Sys2Proof.Machine

/-- A register-access command: the common check of R80 first, then the operation. -/
def checkedAccess (off : Offset) (sz : Size) (isRmw : Bool) (act : State → Except Fault State) (s : State) :
    Except Fault State :=
  if commandAccessOk s.params.variant off sz isRmw then thenFinish (act s) else .ok (s.raise .badAccess)

/-- The value of a load into `RES` (R81). -/
def loadInto (off : Offset) (sz : Size) (g : Word → Word) (s : State) : Except Fault State :=
  match memRead off sz s with
  | .ok (v, t) => .ok (t.setRes (g v))
  | .error f => .error f

/-- `LD` (R81). -/
def execLd (sz : Size) (addr : Offset) (s : State) : Result :=
  command 0x00 keepDatapath [checkedAccess addr sz false (loadInto addr sz fun v => v)] s

/-- `ST` (R82). -/
def execSt (sz : Size) (addr : Offset) (s : State) : Result :=
  command 0x01 keepDatapath [checkedAccess addr sz false fun t => memWrite addr sz (lowBits sz t.aux) t] s

/-- `AAND` (R83). -/
def execAand (sz : Size) (addr : Offset) (s : State) : Result :=
  command 0x02 keepDatapath [checkedAccess addr sz true fun t => opAnd addr sz (lowBits sz t.aux) t] s

/-- `AOR` (R84). -/
def execAor (sz : Size) (addr : Offset) (s : State) : Result :=
  command 0x03 keepDatapath [checkedAccess addr sz true fun t => opOr addr sz (lowBits sz t.aux) t] s

/-- `AXOR` (R85). -/
def execAxor (sz : Size) (addr : Offset) (s : State) : Result :=
  command 0x04 keepDatapath [checkedAccess addr sz true fun t => opXor addr sz (lowBits sz t.aux) t] s

/-- `BFI` (R86). -/
def execBfi (sz : Size) (pos wm1 : BitVec 5) (addr : Offset) (s : State) : Result :=
  command 0x05 keepDatapath
    [checkedAccess addr sz true fun t => opInsert addr sz (fieldMask sz pos wm1) (lowBits sz t.aux) t] s

/-- `UBFX` (R87): the field, right-justified and zero-extended; nothing is written to the location. R80's last line names
`UBFX` among the operations that may not touch `DATA`. -/
def execUbfx (sz : Size) (pos wm1 : BitVec 5) (addr : Offset) (s : State) : Result :=
  command 0x06 keepDatapath
    [checkedAccess addr sz true (loadInto addr sz fun v => (v >>> pos.toNat) &&& onesField wm1)] s

end Sys2Proof.Machine
end

