-- ==== Sys2Proof/Machine/RingOps.lean ====
section
/-! DEFINITION. The ring-buffer commands of variant A, unit 0x4 (44_ring_buffer.md R116 to R124). Each is one micro-step
but for the three waits. -/

namespace Sys2Proof.Machine

/-- The check that every ring command but `RB.INIT` makes first: the instance is initialised (60_exceptions.md R137
code 7, R140). -/
def onRing (k : Inst) (act : RingBuf → State → State) (s : State) : State :=
  let q := s.rb.get k
  if q.init then act q s else s.raise .ringUninit

/-- The micro-step of `RB.INIT` (R116). -/
def ringInit (k : Inst) (s : State) : State :=
  if capacityOk s.aux then ((s.setRing k ((s.rb.get k).initWith s.aux)).setRes 0).finish else (s.setRes 1).finish

/-- `RB.INIT` (R116). -/
def execRbInit (k : Inst) (s : State) : Result := command 0x40 keepDatapath [fun t => .ok (ringInit k t)] s

/-- The micro-step of `RB.PUSH` on an initialised ring (R117). -/
def ringPush (k : Inst) (b : Byte) (q : RingBuf) (s : State) : State :=
  if q.isFull then s.raise .ringOverrun else (s.setRing k (q.put b)).barrier.finish

/-- `RB.PUSH` (R117). -/
def execRbPush (k : Inst) (byte : Byte) (s : State) : Result :=
  command 0x41 keepDatapath [fun t => .ok (onRing k (ringPush k byte) t)] s

/-- The read index of ring `k` advanced, the byte before it read (R118). -/
def ringAdvance (k : Inst) (q : RingBuf) (s : State) : State :=
  ({ s with draws := s.draws + 1 }.setRing k q.dropFront).barrier

/-- The micro-step of `RB.POP` on an initialised ring (R118): the check is made after the read index has advanced. -/
def ringPop (k : Inst) (q : RingBuf) (s : State) : State :=
  if q.cap.toNat < q.dropFront.held.toNat then (ringAdvance k q s).raise .ringReaderOutran
  else ((ringAdvance k q s).setRes ((q.front s.draws).setWidth 32)).finish

/-- `RB.POP` (R118). -/
def execRbPop (k : Inst) (s : State) : Result := command 0x42 keepDatapath [fun t => .ok (onRing k (ringPop k) t)] s

/-- A query of a ring: `RES` and the end of the command. -/
def ringQuery (g : RingBuf → Word) (q : RingBuf) (s : State) : State := (s.setRes (g q)).finish

/-- `RB.COUNT` (R119). -/
def execRbCount (k : Inst) (s : State) : Result :=
  command 0x43 keepDatapath [fun t => .ok (onRing k (ringQuery fun q => q.held) t)] s

/-- `RB.EMPTY` (R120). -/
def execRbEmpty (k : Inst) (s : State) : Result :=
  command 0x44 keepDatapath [fun t => .ok (onRing k (ringQuery fun q => flagWord q.isEmpty) t)] s

/-- `RB.FULL` (R121). -/
def execRbFull (k : Inst) (s : State) : Result :=
  command 0x45 keepDatapath [fun t => .ok (onRing k (ringQuery fun q => flagWord q.isFull) t)] s

/-- The first micro-step of the waits: the check alone. -/
def mRingCheck (k : Inst) : MicroOp := fun s => .ok (onRing k (fun _ t => t.advance) s)

/-- A hold on a ring: `wait until` the condition. -/
def mRingWait (k : Inst) (c : RingBuf → Bool) : MicroOp := fun s => .ok (if c (s.rb.get k) then s.advance else s)

/-- The last micro-step of the waits. -/
def mRingDone : MicroOp := fun s => .ok s.finish

/-- `RB.WAITNE` (R122): spin while empty. -/
def execRbWaitne (k : Inst) (s : State) : Result :=
  command 0x46 keepDatapath [mRingCheck k, mRingWait k (fun q => !q.isEmpty), mRingDone] s

/-- `RB.WAITNF` (R123): spin while full. -/
def execRbWaitnf (k : Inst) (s : State) : Result :=
  command 0x47 keepDatapath [mRingCheck k, mRingWait k (fun q => !q.isFull), mRingDone] s

/-- `RB.WAITE` (R124): spin while non-empty. -/
def execRbWaite (k : Inst) (s : State) : Result :=
  command 0x48 keepDatapath [mRingCheck k, mRingWait k (fun q => q.isEmpty), mRingDone] s

end Sys2Proof.Machine
end

