-- ==== Sys2Proof/Machine/Primitives.lean ====
section
/-! DEFINITION. The engine primitives, unit 0x1 (41_engine_primitives.md R89 to R101), as micro-steps that also run in
place inside the transactions. Which register-access operation each uses is 40_register_access.md R88. -/

namespace Sys2Proof.Machine

/-- `pc <- IDLE`. -/
def mDone : MicroOp := fun s => .ok s.finish

/-- `wait until x[STAT.BUSY] == 0` (R91). -/
def mWaitBusy : MicroOp := fun s => .ok (if s.stat.busy then s else s.advance)

/-- `wait until x[STAT.IF] == 1`, the first micro-step of `WaitIF` (R90). -/
def mWaitIf : MicroOp := fun s => .ok (if s.stat.ifl then s.advance else s)

/-- `AOR.B STAT, 0x02`, the flag clear, the second micro-step of `WaitIF` (R90). -/
def mClearIf : MicroOp := fun s => thenAdvance (opOr statOff .b 0x02 s)

/-- `AOR.B CTRL, 0x30` (R92). -/
def mStart : MicroOp := fun s => thenAdvance (opOr ctrlOff .b 0x30 s)

/-- `AAND.B CTRL, 0xCF` (R97). -/
def mStop : MicroOp := fun s => thenAdvance (opAnd ctrlOff .b 0xCF s)

/-- `ST.B DATA, b` (R93). -/
def mStoreData (b : State → Byte) : MicroOp := fun s => thenAdvance (memWrite dataOff .b ((b s).setWidth 32) s)

/-- `LD.B DATA`, the value given to `f` (R96, R104, R105, R107). -/
def mLoadData (f : Byte → State → State) : MicroOp := fun s =>
  match memRead dataOff .b s with
  | .ok (v, t) => .ok (f (v.setWidth 8) t).advance
  | .error e => .error e

/-- `WaitIF` (R90). -/
def waitIf : List MicroOp := [mWaitIf, mClearIf]

/-- `SENDB b` in place (R93 steps 0 to 2). -/
def sendByte (b : State → Byte) : List MicroOp := [mStoreData b, mWaitIf, mClearIf]

/-- `x[SAVEDIV] <- MemRead(0x001, 1)` (R94 step 0). -/
def mSaveDiv : MicroOp := fun s =>
  match memRead divOff .b s with
  | .ok (v, t) => .ok { t with dp := { t.dp with saveDiv := v.setWidth 8 } }.advance
  | .error e => .error e

/-- `AAND.B DIV, 0x3F`: multiplier 1 (R94 step 1). -/
def mUnityDiv : MicroOp := fun s => thenAdvance (opAnd divOff .b 0x3F s)

/-- `AOR.B CTRL, 0x14`: the strobe and transmit direction in one store (R94 step 2). -/
def mStrobe : MicroOp := fun s => thenAdvance (opOr ctrlOff .b 0x14 s)

/-- `MemWrite(0x001, 1, x[SAVEDIV])` (R94 step 3). -/
def mRestoreDiv : MicroOp := fun s => thenAdvance (memWrite divOff .b (s.dp.saveDiv.setWidth 32) s)

/-- `RSTART` in place (R94 steps 0 to 3). -/
def repeatedStart : List MicroOp := [mSaveDiv, mUnityDiv, mStrobe, mRestoreDiv]

/-- `BFI.B CTRL, pos 3, width 2` with the value for `ack` (R95). -/
def mRxMode (ack : BitVec 1) : MicroOp := fun s =>
  thenAdvance (opInsert ctrlOff .b (fieldMask .b 3 1) (if ack = 1 then 0x00 else 0x08) s)

/-- `DRVCLK` in place (R96 steps 0 to 2): the value read is thrown away. -/
def driveClock : List MicroOp := [mLoadData fun _ t => t, mWaitIf, mClearIf]

/-- `x[ESR.RECOV] <- 1`. -/
def setRecov (s : State) : State := { s with esr := { s.esr with recov := true } }

/-- `WAITBUSY` (R91). -/
def execWaitbusy (s : State) : Result := command 0x10 keepDatapath [mWaitBusy, mDone] s

/-- `START` (R92). -/
def execStart (s : State) : Result := command 0x11 keepDatapath [mStart, mDone] s

/-- `SENDB` (R93): `VAL` holds the byte (R21). -/
def execSendb (byte : Byte) (s : State) : Result :=
  command 0x12 (fun t => { t.dp with val := byte }) (sendByte (fun t => t.dp.val) ++ [mDone]) s

/-- `RSTART` (R94). -/
def execRstart (s : State) : Result := command 0x13 keepDatapath (repeatedStart ++ [mDone]) s

/-- `RXMODE` (R95). -/
def execRxmode (ack : BitVec 1) (s : State) : Result := command 0x14 keepDatapath [mRxMode ack, mDone] s

/-- `DRVCLK` (R96). -/
def execDrvclk (s : State) : Result := command 0x15 keepDatapath (driveClock ++ [mDone]) s

/-- `STOP` (R97). -/
def execStop (s : State) : Result := command 0x16 keepDatapath [mStop, mDone] s

/-- `RESETBUS` (R98). -/
def execResetbus (s : State) : Result :=
  command 0x17 keepDatapath [mClearIf, mClearIf, fun t => .ok (setRecov t).advance, mDone] s

/-- `x[LOCKCNT] <- 0` (R99 step 0). -/
def mZeroCount : MicroOp := fun s => .ok { s with lockcnt := 0 }.advance

/-- One poll: `if x[STAT.IF] == 1: pc <- 5` (R99 step 1). -/
def mPoll : MicroOp := fun s => .ok (if s.stat.ifl then s.goto 5 else s.advance)

/-- `x[LOCKCNT] <- x[LOCKCNT] + 1`, back to the poll while below `WAIT_BOUND` (R99 step 2). -/
def mCount : MicroOp := fun s =>
  let t := { s with lockcnt := s.lockcnt + 1 }
  .ok (if t.lockcnt.toNat < Config.waitBound then t.goto 1 else t.advance)

/-- The forced Stop, and the recovery recorded (R99 step 4). -/
def mForcedStop : MicroOp := fun s =>
  match opAnd ctrlOff .b 0xCF s with
  | .ok t => .ok (setRecov t).advance
  | .error e => .error e

/-- `WAITB` (R99). -/
def execWaitb (s : State) : Result :=
  command 0x18 keepDatapath [mZeroCount, mPoll, mCount, mStart, mForcedStop, mClearIf, mDone] s

end Sys2Proof.Machine
end

