-- ==== Sys2Proof/Machine/Transactions.lean ====
section
/-! DEFINITION. The engine transactions, unit 0x2 (42_engine_transactions.md R102 to R109): micro-programs over the
primitives, "run in place without returning to IDLE". The micro-step numbers are those of the primitives written out
(log 8). -/

namespace Sys2Proof.Machine

/-- `Select` of the slave in `SLV`, run in place, its status discarded; a miss stops the block only where
`SELECT_MISS_POLICY` is `fault` (R102, U5; log 24). -/
def mSelect : MicroOp := fun s =>
  let r := arbSelect s.dp.slv s
  if s.params.missPolicy = .fault ∧ r.1 ≠ 0 then .error .selectMiss else .ok r.2.advance

/-- `waddr` of the slave in `SLV` (R89). -/
def slvWaddr (s : State) : Byte := waddr s.dp.slv

/-- `raddr` of the slave in `SLV` (R89). -/
def slvRaddr (s : State) : Byte := raddr s.dp.slv

/-- `SELECT`, `WAITBUSY`, `START`, `SENDB waddr`, `SENDB reg`: the beginning of every transaction (R102, R103). -/
def addressWrite : List MicroOp :=
  [mSelect, mWaitBusy, mStart] ++ sendByte slvWaddr ++ sendByte (fun s => s.dp.rega)

/-- The beginning of every read: `addressWrite`, `RSTART`, `SENDB raddr` (R104 steps 0 to 6). -/
def addressRead : List MicroOp := addressWrite ++ repeatedStart ++ sendByte slvRaddr

/-- Steps 0 to 10 of `RDREG` (R104). -/
def readRegister : List MicroOp :=
  addressRead ++ [mRxMode 0] ++ driveClock ++ [mStop, mLoadData fun b t => t.setRes (b.setWidth 32)]

/-- Acceptance of a transaction: `SLV` from `A[6:0]` and `REGA` from `B` (R21). -/
def loadTarget (slave : Slave) (reg : Byte) (s : State) : Datapath := { s.dp with slv := slave, rega := reg }

/-- `RDREG` (R104). -/
def execRdreg (slave : Slave) (reg : Byte) (s : State) : Result :=
  command 0x20 (loadTarget slave reg) (readRegister ++ [mDone]) s

/-- `x[RBUF[x[IDX]]] <- b; x[IDX] <- x[IDX] + 1` (R105 steps 7, 10 and 13). -/
def storeBurstByte (b : Byte) (s : State) : State :=
  { s with
    mem := Store.write s.mem (Config.rbufBase + s.dp.idx.toNat) b
    dp := { s.dp with idx := s.dp.idx + 1 } }

/-- Acceptance of `RDREGS`: the operands to `SLV` and `REGA` as every transaction's (10_state.md R23), with what stood there
kept for the assertion of micro-step 0 (log 32). -/
def loadBurst (slave : Slave) (reg : Byte) (s : State) : Datapath :=
  { loadTarget slave reg s with heldSlv := s.dp.slv, heldRega := s.dp.rega }

/-- `SLV` and `REGA` as they stood before the acceptance (60_exceptions.md R138, log 32). -/
def restoreTarget (s : State) : State := { s with dp := { s.dp with slv := s.dp.heldSlv, rega := s.dp.heldRega } }

/-- The zero-length assertion, before any bus activity (R105 step 0): the state at `HALT` is the state before the command
(60_exceptions.md R138), so what the acceptance has loaded is put back (log 32, DEDUCED). -/
def mCheckCount (n : Byte) : MicroOp := fun s =>
  .ok (if n = 0 then (restoreTarget s).raise .zeroLengthRead else s.advance)

/-- The choice of the one-byte arm, which stands after the burst at micro-step 35 (R105 step 1). -/
def mOneByte (n : Byte) : MicroOp := fun s => .ok (if n = 1 then s.goto 35 else s.advance)

/-- `x[IDX] <- 0; x[CNT] <- n -_8 2` (R105 step 5). -/
def mBurstInit (n : Byte) : MicroOp := fun s => .ok { s with dp := { s.dp with idx := 0, cnt := n - 2 } }.advance

/-- `if x[CNT] == 0` leave the loop (R105 step 6). -/
def mBurstTest : MicroOp := fun s => .ok (if s.dp.cnt = 0 then s.goto 28 else s.advance)

/-- `x[CNT] <- x[CNT] - 1`, back to the test (R105 step 8). -/
def mBurstNext : MicroOp := fun s => .ok ({ s with dp := { s.dp with cnt := s.dp.cnt - 1 } }.goto 23)

/-- `AOR.B CTRL, 0x08`, "disable ack before the second-to-last byte" (R105 step 9). -/
def mNoAck : MicroOp := fun s => thenAdvance (opOr ctrlOff .b 0x08 s)

/-- The end of a burst: `x[RES] <- n; pc <- IDLE` (R105 step 14). -/
def mBurstDone (n : Byte) : MicroOp := fun s => .ok (s.setRes (n.setWidth 32)).finish

/-- The end of the one-byte arm: `x[RBUF[0]] <- x[RES][7:0]; x[RES] <- 1; pc <- IDLE` (R105 step 1). -/
def mOneByteDone : MicroOp := fun s =>
  .ok ({ s with mem := Store.write s.mem Config.rbufBase (s.res.setWidth 8) }.setRes 1).finish

/-- The micro-program of `RDREGS` (R105): micro-steps 0 and 1, the burst at 2 to 34, the one-byte arm at 35 to 57. -/
def readRegisters (n : Byte) : List MicroOp :=
  [mCheckCount n, mOneByte n] ++ addressRead ++ [mRxMode 1] ++ driveClock ++ [mBurstInit n]
    ++ [mBurstTest, mLoadData storeBurstByte, mWaitIf, mClearIf, mBurstNext]
    ++ [mNoAck, mLoadData storeBurstByte, mWaitIf, mClearIf, mStop, mLoadData storeBurstByte, mBurstDone n]
    ++ readRegister ++ [mOneByteDone]

/-- `RDREGS` (R105). -/
def execRdregs (slave : Slave) (startReg count : Byte) (s : State) : Result :=
  command 0x21 (loadBurst slave startReg) (readRegisters count) s

/-- `WRREG` (R106): `VAL` holds the value (R21). -/
def execWrreg (slave : Slave) (reg value : Byte) (s : State) : Result :=
  command 0x22 (fun t => { loadTarget slave reg t with val := value })
    (addressWrite ++ sendByte (fun t => t.dp.val) ++ [mStop, mDone]) s

/-- `x[TMP] <- MemRead(0x004, 1)` (R107 step 11). -/
def saveTmp (b : Byte) (s : State) : State := { s with dp := { s.dp with tmp := b } }

/-- `x[NEW] <- (x[TMP] & x[AMSK]) | x[OMSK]` (R107 step 12). -/
def mModify : MicroOp := fun s =>
  .ok { s with dp := { s.dp with new := (s.dp.tmp &&& s.dp.amsk) ||| s.dp.omsk } }.advance

/-- `x[RES] <- zext_32({x[TMP], x[NEW]}); pc <- IDLE` (R107 step 17). -/
def mModifyDone : MicroOp := fun s => .ok (s.setRes ((s.dp.tmp ++ s.dp.new : BitVec 16).setWidth 32)).finish

/-- The micro-program of `MODREG` after acceptance (R107 steps 1 to 17). -/
def modifyRegister : List MicroOp :=
  addressRead ++ [mRxMode 0] ++ driveClock ++ repeatedStart ++ [mLoadData saveTmp, mModify]
    ++ sendByte slvWaddr ++ sendByte (fun s => s.dp.rega) ++ sendByte (fun s => s.dp.new) ++ [mStop, mModifyDone]

/-- `MODREG` (R107): the masks are taken from `AUX` at acceptance (step 0). -/
def execModreg (slave : Slave) (reg : Byte) (s : State) : Result :=
  command 0x23
    (fun t => { loadTarget slave reg t with amsk := auxAndMask t.aux, omsk := auxOrMask t.aux })
    modifyRegister s

end Sys2Proof.Machine
end

