-- ==== Sys2Proof/Machine/Dispatch.lean ====
section
/-! DEFINITION. The dispatch: one arm per instruction, in the order of the opcode table (30_encoding.md R74). -/

namespace Sys2Proof.Machine

/-- What SEQ does at command `i`: its acceptance at `IDLE`, else its micro-step (10_state.md R22, R23). -/
def exec (i : Instr) (s : State) : Host.Outcome State Fault Refusal :=
  match i with
  | .ld sz addr => Sys2Proof.Machine.execLd sz addr s
  | .st sz addr => Sys2Proof.Machine.execSt sz addr s
  | .aand sz addr => Sys2Proof.Machine.execAand sz addr s
  | .aor sz addr => Sys2Proof.Machine.execAor sz addr s
  | .axor sz addr => Sys2Proof.Machine.execAxor sz addr s
  | .bfi sz pos wm1 addr => Sys2Proof.Machine.execBfi sz pos wm1 addr s
  | .ubfx sz pos wm1 addr => Sys2Proof.Machine.execUbfx sz pos wm1 addr s
  | .waitbusy => Sys2Proof.Machine.execWaitbusy s
  | .start => Sys2Proof.Machine.execStart s
  | .sendb byte => Sys2Proof.Machine.execSendb byte s
  | .rstart => Sys2Proof.Machine.execRstart s
  | .rxmode ack => Sys2Proof.Machine.execRxmode ack s
  | .drvclk => Sys2Proof.Machine.execDrvclk s
  | .stop => Sys2Proof.Machine.execStop s
  | .resetbus => Sys2Proof.Machine.execResetbus s
  | .waitb => Sys2Proof.Machine.execWaitb s
  | .rdreg slave reg => Sys2Proof.Machine.execRdreg slave reg s
  | .rdregs slave startReg count => Sys2Proof.Machine.execRdregs slave startReg count s
  | .wrreg slave reg value => Sys2Proof.Machine.execWrreg slave reg value s
  | .modreg slave reg => Sys2Proof.Machine.execModreg slave reg s
  | .prep index slave => Sys2Proof.Machine.execPrep index slave s
  | .config count => Sys2Proof.Machine.execConfig count s
  | .select slave => Sys2Proof.Machine.execSelect slave s
  | .rbInit k => Sys2Proof.Machine.execRbInit k s
  | .rbPush k byte => Sys2Proof.Machine.execRbPush k byte s
  | .rbPop k => Sys2Proof.Machine.execRbPop k s
  | .rbCount k => Sys2Proof.Machine.execRbCount k s
  | .rbEmpty k => Sys2Proof.Machine.execRbEmpty k s
  | .rbFull k => Sys2Proof.Machine.execRbFull k s
  | .rbWaitne k => Sys2Proof.Machine.execRbWaitne k s
  | .rbWaitnf k => Sys2Proof.Machine.execRbWaitnf k s
  | .rbWaite k => Sys2Proof.Machine.execRbWaite k s
  | .bfEnq k n => Sys2Proof.Machine.execBfEnq k n s
  | .bfDeq k n => Sys2Proof.Machine.execBfDeq k n s
  | .bfLen k => Sys2Proof.Machine.execBfLen k s
  | .bfFull k => Sys2Proof.Machine.execBfFull k s

end Sys2Proof.Machine
end

