-- ==== Sys2Proof/Machine/Agents.lean ====
section
/-! DEFINITION. The turns of the agents (00_scope.md R18): HOST's access with the acceptance of a command (10_state.md
R23), SEQ's micro-step, LINK's two handlers (44_ring_buffer.md R125 and R126, 45_bounded_fifo.md R134) and RESET
(70_reset_and_hazards.md R149). BUS's steps are in Machine/Ops.lean. An agent that has no step at its turn leaves the state
as it is (log 2). -/

namespace Sys2Proof.Machine

/-! ## SEQ and the acceptance of a command -/

/-- The word in `CMD` decoded and given to `exec`: the acceptance of a command word that HOST has just stored (R23), an
illegal word being the fatal assertion (30_encoding.md R75, R76). -/
def acceptCommand (s : State) : Result :=
  match decode s.params.variant s.cmd with
  | some i => exec i s
  | none => .next (s.raise .illegalCommand)

/-- SEQ's turn: the micro-step of the command in `CMD`. At `IDLE` and in `HALT` SEQ has no step. -/
def seqTurn (s : State) : Result :=
  match s.seq with
  | .idle => .next s
  | .halt => .next s
  | .run _ _ =>
    match decode s.params.variant s.cmd with
    | some i => exec i s
    | none => .fault .noMicroStep

/-! ## HOST -/

/-- A read of HOST: the value goes to HOST (R44, R46, R48). -/
def hostRead (off : Offset) (sz : Size) (s : State) : Result :=
  if accessOk s.params.variant off sz then
    match memRead off sz s with
    | .ok (v, t) => .next { t with hostLog := t.hostLog ++ [{ off := off, sz := sz, value := v }] }
    | .error f => .fault f
  else .refused .hostAccessError

/-- A write of HOST at `IDLE`; a write of `CMD` issues a command (10_state.md R20, R23). -/
def hostWrite (off : Offset) (sz : Size) (v : Word) (s : State) : Result :=
  if accessOk s.params.variant off sz then
    match memWrite off sz v s with
    | .ok t => if region s.params.variant off = .cmd then acceptCommand t else .next t
    | .error f => .fault f
  else .refused .hostAccessError

/-- HOST's access to the window at offset `off`: taken at `IDLE`, held while a command runs, and in `HALT` answered if it
reads and ignored if it writes (R23, 60_exceptions.md R138). -/
def windowAccess (a : HostAccess) (off : Offset) (rest : List HostAccess) (s : State) : Result :=
  match s.seq, a with
  | .run _ _, _ => .next s
  | .idle, .read _ sz => hostRead off sz { s with host := rest }
  | .idle, .write _ sz v => hostWrite off sz v { s with host := rest }
  | .halt, .read _ sz => hostRead off sz { s with host := rest }
  | .halt, .write _ _ _ => .next { s with host := rest }

/-- HOST's turn: its next access. An access outside the window is not the block's and changes nothing of it (log 29). -/
def hostTurn (s : State) : Result :=
  match s.host with
  | [] => .next s
  | a :: rest =>
    match s.params.offsetOf a.addr with
    | some off => windowAccess a off rest s
    | none => .next { s with host := rest }

/-! ## LINK -/

/-- LINK may step: `IMASK` is 0 and SEQ is not halted (R125, R126, R134, R138). -/
def linkEnabled (s : State) : Bool := !s.imask && !(s.seq == .halt)

/-- The receive event of variant A (R125): dropped on an uninitialised or full ring. -/
def ringReceive (b : Byte) (s : State) : State :=
  if s.rb.rx.init = false then s
  else if s.rb.rx.isFull then s
  else (s.setRing 0 (s.rb.rx.put b)).barrier

/-- The transmit-ready event of variant A (R126): the trigger goes off when the ring is found or left empty. -/
def ringTransmit (s : State) : State :=
  if s.rb.tx.init = false ∨ s.rb.tx.isEmpty = true then { s with txie := false }
  else
    let v := s.rb.tx.front s.draws
    let q := s.rb.tx.dropFront
    let t := ({ s with draws := s.draws + 1 }.setRing 1 q).barrier
    { t with linkOut := t.linkOut ++ [v], txie := t.txie && !q.isEmpty }

/-- The receive event of variant B (R134): dropped on a full FIFO. -/
def fifoReceive (b : Byte) (s : State) : State :=
  if s.bf.rx.full then s else s.setBf 0 (s.bf.rx.put [b])

/-- The transmit-ready event of variant B (R134). -/
def fifoTransmit (s : State) : State :=
  if s.bf.tx.length = 0 then { s with txie := false }
  else
    let f := s.bf.tx.dropFront 1
    let t := { s with draws := s.draws + 1 }.setBf 1 f
    { t with linkOut := t.linkOut ++ s.bf.tx.front 1 s.draws, txie := t.txie && !decide (f.length = 0) }

/-- LINK's receive event with the byte `b`. -/
def linkRx (b : Byte) (s : State) : State :=
  if linkEnabled s then
    match s.params.variant with
    | .a => ringReceive b s
    | .b => critical (fifoReceive b) s
  else s

/-- LINK's transmit-ready event, which `TXIE` enables. -/
def linkTx (s : State) : State :=
  if linkEnabled s && s.txie then
    match s.params.variant with
    | .a => ringTransmit s
    | .b => critical fifoTransmit s
  else s

/-! ## RESET -/

/-- HOST's first access is one to the window, which a running command holds (R23). -/
def hostHeld (s : State) : Bool := (s.host.head?.bind fun a => s.params.offsetOf a.addr).isSome

/-- What HOST still has to do after a reset: an access that was held is abandoned (R149, log 21). -/
def hostAfterReset (s : State) : List HostAccess :=
  match s.seq with
  | .run _ _ => if hostHeld s then s.host.tail else s.host
  | .idle => s.host
  | .halt => s.host

/-- The reset of the block (R149): every piece of state at its reset value, the traces empty, `PMUX` not touched. What the
environment still has to do, its parameters and the count of draws are not the block's. -/
def resetBlock (s : State) : State :=
  { State.resetWith s.params with pmux := s.pmux, agenda := s.agenda, host := hostAfterReset s, draws := s.draws }

/-! ## Turns -/

/-- The step of the agent whose turn it is. -/
def takeTurn (t : Turn) (s : State) : Result :=
  match t with
  | .seq => seqTurn s
  | .host => hostTurn s
  | .busTx a => .next (busTx a s)
  | .busRx d => .next (busRx d s)
  | .busBusy taken => .next (busBusy taken s)
  | .busArbLost => .next (busArbLost s)
  | .linkRx b => .next (linkRx b s)
  | .linkTx => .next (linkTx s)
  | .reset => .next (resetBlock s)

/-- The turn when the agenda names none: SEQ while a command runs, else HOST; in `HALT` with nothing for HOST to do the run
is finished (R138, logs 3 and 4), unless a byte is in flight: then it is not over (R33, log 33). -/
def defaultTurn (s : State) : Result :=
  match s.seq with
  | .run _ _ => seqTurn s
  | .idle => hostTurn s
  | .halt => if s.host = [] ∧ s.xfer = .none then .fault .halted else hostTurn s

/-- The command word `w` issued: stored in `CMD` at `IDLE` and accepted (R23); the acceptance of a word always answers a
next state. -/
def issueWord (w : Word) (s : State) : State :=
  match acceptCommand { s with cmd := w, seq := .idle } with
  | .next t => t
  | .fault _ => s
  | .refused _ => s

/-- The parameters a block needs to be built with for the command in `w` to exist: the unit's FIFO variant (R3, R75). -/
def paramsFor (w : Word) (p : Params) : Params :=
  match (decodeWord w).map Instr.unit with
  | some .ring => { p with variant := .a }
  | some .bounded => { p with variant := .b }
  | some .registerAccess => p
  | some .primitive => p
  | some .transaction => p
  | some .arbiter => p
  | none => p

end Sys2Proof.Machine
end

