-- ==== Sys2Proof/Machine/Step.lean ====
section
/-! DEFINITION. One step of the machine: one atomic transition of one agent (00_scope.md R18), the agent being the first of
the agenda, or the default of `defaultTurn` when the agenda is empty (logs 1 and 3). -/

namespace Sys2Proof.Machine

/-- One atomic transition. -/
def step (s : State) : Host.Outcome State Fault Refusal :=
  match s.agenda with
  | [] => defaultTurn s
  | t :: rest => takeTurn t { s with agenda := rest }

/-- `s` with the command word in `w` issued and accepted (10_state.md R23), in a block built with the FIFO variant the
command's unit needs, and SEQ's turn next: the very next step runs the command's first micro-step (log 5). -/
def State.withFetchWord (s : State) (nbits w : Nat) : State :=
  let word : Word := BitVec.ofNat 32 (w % 2 ^ nbits)
  let t := issueWord word { s with params := paramsFor word s.params }
  { t with agenda := match s.agenda with | [] => [] | a :: rest => .seq :: a :: rest }

end Sys2Proof.Machine
end

