-- ==== Sys2Proof/Machine/Pseudo.lean ====
section
/-! DEFINITION. The pseudo-instructions of 30_encoding.md R79 and their expansions into accesses that HOST makes to the
window; and the assembly line of a command (R78) as its mnemonic and operands. -/

namespace Sys2Proof.Machine

/-- The register-access commands that take a data operand in `AUX` and no bit field (R79). -/
inductive DataOp where
  | st | aand | aor | axor
deriving DecidableEq, Repr

/-- The command of a data operation. -/
def DataOp.instr (o : DataOp) (sz : Size) (addr : Offset) : Instr :=
  match o with
  | .st => .st sz addr
  | .aand => .aand sz addr
  | .aor => .aor sz addr
  | .axor => .axor sz addr

/-- A line of a host program: a command or a pseudo-instruction (R79). -/
inductive Pseudo where
  | command (i : Instr)
  /-- `SETAUX v`. -/
  | setaux (v : Word)
  /-- `RDRES`. -/
  | rdres
  /-- `MODREG s, r, and, or`. -/
  | modreg (slave : Slave) (reg andMask orMask : Byte)
  /-- `PREP i, s, port, cpin, cmux, dpin, dmux`. -/
  | prep (index : BitVec 3) (slave : Slave) (port : BitVec 3) (cpin : BitVec 5) (cmux : BitVec 3) (dpin : BitVec 5)
      (dmux : BitVec 3)
  /-- `RB.INIT k, cap`. -/
  | rbInit (k : Inst) (cap : Word)
  /-- `ST`, `AAND`, `AOR`, `AXOR` with their data operand. -/
  | dataOp (o : DataOp) (sz : Size) (addr : Offset) (v : Word)
  /-- `BFI addr, pos, width, v`; the width is `wm1 + 1`. -/
  | bfi (sz : Size) (addr : Offset) (pos wm1 : BitVec 5) (v : Word)
  /-- `RXMODE.ACK`. -/
  | rxmodeAck
  /-- `RXMODE.NACK`. -/
  | rxmodeNack
  /-- `RB.PUSHB k, b`: blocking push. -/
  | rbPushb (k : Inst) (b : Byte)
  /-- `RB.POPB k`: blocking pop. -/
  | rbPopb (k : Inst)
  /-- `CLRIF`. -/
  | clrif
  /-- `NOACK`. -/
  | noack
deriving DecidableEq, Repr

/-- HOST's write of a word to `AUX` (offset 0x00C). -/
def writeAux (p : Params) (v : Word) : HostAccess := .write (p.address 0x00C) .w v

/-- HOST's write of a command to `CMD` (offset 0x008). -/
def writeCmd (p : Params) (i : Instr) : HostAccess := .write (p.address 0x008) .w (encode i)

/-- The accesses that a line of a host program stands for (R79), to a block with parameters `p`. -/
def Pseudo.expand (p : Params) (line : Pseudo) : List HostAccess :=
  match line with
  | .command i => [writeCmd p i]
  | .setaux v => [writeAux p v]
  | .rdres => [.read (p.address 0x010) .w]
  | .modreg slave reg a o => [writeAux p (modregAux a o), writeCmd p (.modreg slave reg)]
  | .prep index slave port cpin cmux dpin dmux =>
    [writeAux p (prepAux port cpin cmux dpin dmux), writeCmd p (.prep index slave)]
  | .rbInit k cap => [writeAux p cap, writeCmd p (.rbInit k)]
  | .dataOp o sz addr v => [writeAux p v, writeCmd p (o.instr sz addr)]
  | .bfi sz addr pos wm1 v => [writeAux p v, writeCmd p (.bfi sz pos wm1 addr)]
  | .rxmodeAck => [writeCmd p (.rxmode 1)]
  | .rxmodeNack => [writeCmd p (.rxmode 0)]
  | .rbPushb k b => [writeCmd p (.rbWaitnf k), writeCmd p (.rbPush k b)]
  | .rbPopb k => [writeCmd p (.rbWaitne k), writeCmd p (.rbPop k)]
  | .clrif => [writeAux p 0x02, writeCmd p (.aor .b 0x003)]
  | .noack => [writeAux p 0x08, writeCmd p (.aor .b 0x002)]

/-- The accesses of a host program to a block with parameters `p`. -/
def expandProgram (p : Params) (ps : List Pseudo) : List HostAccess := ps.flatMap (Pseudo.expand p)

/-- The assembly line of a command (R78): its mnemonic with the size suffix, and its operands in order. -/
def assemblyLine (i : Instr) : String × List Nat := (i.mnemonic ++ i.asmSuffix, i.asmOperands)

end Sys2Proof.Machine
end

