-- ==== Sys2Proof/Safety.lean ====
section
/-! DEFINITION. What the claims mean by a good state: the properties that the rules say hold in every state, each a
predicate of its own, and the words in which runs are spoken of. -/

namespace Sys2Proof.Machine

/-- How many micro-steps a command's micro-program has, its primitives written out (10_state.md R22, log 8). -/
def microSteps : Instr → Nat
  | .ld .. | .st .. | .aand .. | .aor .. | .axor .. | .bfi .. | .ubfx .. => 1
  | .waitbusy | .start | .rxmode _ | .stop => 2
  | .sendb _ | .drvclk | .resetbus => 4
  | .rstart => 5
  | .waitb => 7
  | .rdreg .. => 23
  | .rdregs .. => 58
  | .wrreg .. => 14
  | .modreg .. => 37
  | .prep .. | .config _ | .select _ => 1
  | .rbInit _ | .rbPush .. | .rbPop _ | .rbCount _ | .rbEmpty _ | .rbFull _ => 1
  | .rbWaitne _ | .rbWaitnf _ | .rbWaite _ => 3
  | .bfEnq .. | .bfDeq .. | .bfLen _ | .bfFull _ => 1

/-- SEQ stands at a micro-step of the command that `CMD` holds (R22, R23, R67). -/
def SeqOk (s : State) : Prop :=
  ∀ op k, s.seq = .run op k →
    ∃ i, decode s.params.variant s.cmd = some i ∧ i.opcode = op ∧ k.toNat < microSteps i

/-- `HALT` and `ESR.FATAL` go together, and `FCODE` is 0 without a fatal assertion and a code of 60_exceptions.md R137
with one (R29, R138, R139). -/
def HaltOk (s : State) : Prop :=
  (s.seq = .halt ↔ s.esr.fatal = true) ∧ (s.esr.fatal = false → s.esr.fcode = 0) ∧
    (s.esr.fatal = true → 1 ≤ s.esr.fcode.toNat ∧ s.esr.fcode.toNat ≤ 8)

/-- `LOCKCNT` never exceeds 200, and is below 200 while `WAITB` still polls (R30, 41_engine_primitives.md R99). -/
def LockOk (s : State) : Prop :=
  s.lockcnt.toNat ≤ Config.waitBound ∧
    (s.seq = .run 0x18 1 ∨ s.seq = .run 0x18 2 → s.lockcnt.toNat < Config.waitBound)

/-- An initialised ring has a power of two from 1 to 1024 as its capacity, the mask below it, and holds at most that many
bytes (R38, 44_ring_buffer.md R116, R127). -/
def RingOk (q : RingBuf) : Prop :=
  q.init = true → ∃ p : Nat, p ≤ 10 ∧ q.cap.toNat = 2 ^ p ∧ q.mask = q.cap - 1 ∧ q.held.toNat ≤ q.cap.toNat

/-- Both rings are good, but in `HALT`, where a pop may have left a reader past its writer (R118, R138). -/
def RingsOk (s : State) : Prop := s.seq ≠ .halt → RingOk s.rb.rx ∧ RingOk s.rb.tx

/-- The state invariant of the bounded FIFO (45_bounded_fifo.md R128). -/
def FifoOk (f : BoundedFifo) : Prop := (f.full = true → f.wc = f.rc) ∧ f.count.toNat = f.length

/-- Both bounded FIFOs are good. -/
def FifosOk (s : State) : Prop := FifoOk s.bf.rx ∧ FifoOk s.bf.tx

/-- Every memory keeps its canonical form. -/
def MemoriesOk (s : State) : Prop :=
  Memory.wf s.mem = true ∧ Store.wf s.pmux = true ∧ Memory.wf s.rb.rx.st = true ∧ Memory.wf s.rb.tx.st = true ∧
    Memory.wf s.bf.rx.st = true ∧ Memory.wf s.bf.tx.st = true

/-- With no other master `BUSY` is 1 exactly from the block's own START to its own STOP, and `ARBL` is never set
(20_memory.md R57, U9). -/
def BusOk (s : State) : Prop :=
  s.params.multiMaster = false → s.stat.busy = s.ctrl.mst ∧ s.stat.arbl = false

/-- A byte is in flight only while the block is master (R50, R52, R53, R58). -/
def XferOk (s : State) : Prop := s.xfer ≠ .none → s.ctrl.mst = true

/-- The interrupt mask is clear between steps (45_bounded_fifo.md R129). -/
def MaskOk (s : State) : Prop := s.imask = false

/-- The arbiter's table and memo (10_state.md R35, R36, 43_arbiter.md R110 to R113): nothing is selected or installed
before `CONFIG`; an installed table has 1 to 8 prepared entries; a prepared entry holds the hash of its wiring; and a memo
that is not "none" names the first entry with its address, with that entry's hash. -/
def ArbOk (a : Arbiter) : Prop :=
  (a.configured = false → a.entryCount = 0) ∧
  (a.configured = true → 1 ≤ a.entryCount.toNat ∧ a.entryCount.toNat ≤ 8 ∧
    ∀ i, i < a.entryCount.toNat → (a.entry i).prepared = true) ∧
  (∀ i, (a.entry i).prepared = true →
    (a.entry i).hash = wiringHash (a.entry i).port (a.entry i).cpin (a.entry i).dpin ∧ (a.entry i).port.toNat < 5) ∧
  ((a.lastIdx = 0xFF ∧ a.lastAddr = 0xFF) ∨
    ∃ sl : Slave, a.lastAddr = sl.setWidth 8 ∧ a.find sl = some a.lastIdx.toNat ∧
      a.lastHash = (a.entry a.lastIdx.toNat).hash)

/-- The datapath registers hold the operands of the transaction, the select or the send that runs (R21, R23); the masks of
`MODREG` are those of `AUX` (R67, log 16). -/
def OperandsOk (s : State) : Prop :=
  ∀ i op k, s.seq = .run op k → decode s.params.variant s.cmd = some i →
    match i with
    | .sendb byte => s.dp.val = byte
    | .rdreg slave reg => s.dp.slv = slave ∧ s.dp.rega = reg
    | .rdregs slave startReg _ => s.dp.slv = slave ∧ s.dp.rega = startReg
    | .wrreg slave reg value => s.dp.slv = slave ∧ s.dp.rega = reg ∧ s.dp.val = value
    | .modreg slave reg =>
      s.dp.slv = slave ∧ s.dp.rega = reg ∧ s.dp.amsk = s.aux.extractLsb' 8 8 ∧ s.dp.omsk = s.aux.extractLsb' 0 8
    | .select slave => s.dp.slv = slave
    | _ => True

/-- Two entries with equal hashes have the same wiring and the same mux values: the table the caller must supply
(70_reset_and_hazards.md R162, U10). -/
def CollisionFree (a : Arbiter) : Prop :=
  ∀ i j, i < a.entryCount.toNat → j < a.entryCount.toNat → (a.entry i).hash = (a.entry j).hash →
    (a.entry i).port = (a.entry j).port ∧ (a.entry i).cpin = (a.entry j).cpin ∧ (a.entry i).dpin = (a.entry j).dpin ∧
      (a.entry i).cmux = (a.entry j).cmux ∧ (a.entry i).dmux = (a.entry j).dmux

/-- The pins of entry `e` carry its mux values (R114). -/
def Wired (e : Entry) (s : State) : Prop :=
  pmuxAt s e.port.toNat e.cpin.toNat = e.cmux ∧ pmuxAt s e.port.toNat e.dpin.toNat = e.dmux

/-- `n` steps of the machine. -/
def runSteps (n : Nat) (s : State) : Result :=
  match n with
  | 0 => .next s
  | k + 1 =>
    match step s with
    | .next t => runSteps k t
    | .fault f => .fault f
    | .refused r => .refused r

/-! ## The words of the claims about one micro-step -/

/-- Wherever SEQ stands at micro-step `k` of command `i` and `pre` holds, the command completes that micro-step, and `post`
gives the next state. -/
def Runs (i : Instr) (k : BitVec 6) (pre : State → Prop) (post : State → State) : Prop :=
  ∀ s, s.seq = .run i.opcode k → pre s → exec i s = .next (post s)

/-- Wherever SEQ stands at micro-step `k` of command `i` and `pre` holds, the machine stops with fault `f`. -/
def StopsAt (i : Instr) (k : BitVec 6) (pre : State → Prop) (f : Fault) : Prop :=
  ∀ s, s.seq = .run i.opcode k → pre s → exec i s = .fault f

/-- No condition on the state. -/
def anyState (_ : State) : Prop := True

/-- SEQ moved to micro-step `k` of command `i`. -/
def atStep (i : Instr) (k : BitVec 6) (s : State) : State := { s with seq := .run i.opcode k }

/-- The command has ended: SEQ at `IDLE`. -/
def ended (s : State) : State := { s with seq := .idle }

/-- The fatal assertion of code `c` has been raised: `FATAL`, `FCODE` and `SEQ` change and nothing else (R138). -/
def halted (c : BitVec 4) (s : State) : State := { s with esr := { s.esr with fatal := true, fcode := c }, seq := .halt }

/-- The block is in master transmit mode (R52). -/
def masterTransmit (s : State) : Prop := s.ctrl.mst = true ∧ s.ctrl.tx = true

/-- The block is in master receive mode (R53). -/
def masterReceive (s : State) : Prop := s.ctrl.mst = true ∧ s.ctrl.tx = false

/-- Micro-step `k` ends the command and does nothing else. -/
def DoneAt (i : Instr) (k : BitVec 6) : Prop := Runs i k anyState ended

/-- Micro-step `k` waits while `STAT.BUSY` is 1 (41_engine_primitives.md R91). -/
def WaitBusyAt (i : Instr) (k : BitVec 6) : Prop :=
  Runs i k (fun s => s.stat.busy = false) (atStep i (k + 1)) ∧ Runs i k (fun s => s.stat.busy = true) fun s => s

/-- Micro-steps `k` and `k + 1` are `WaitIF` (R90): hold while `IF` is 0, then clear `IF` and `ARBL`. -/
def WaitIfAt (i : Instr) (k : BitVec 6) : Prop :=
  Runs i k (fun s => s.stat.ifl = true) (atStep i (k + 1)) ∧ (Runs i k (fun s => s.stat.ifl = false) fun s => s) ∧
    Runs i (k + 1) anyState fun s => atStep i (k + 2) { s with stat := { s.stat with ifl := false, arbl := false } }

/-- Micro-step `k` is `START` (R92): with the bus free a START, with another master on it an arbitration lost at once, and as
master only the direction. -/
def StartAt (i : Instr) (k : BitVec 6) : Prop :=
  (Runs i k (fun s => s.ctrl.mst = false ∧ s.stat.busy = false) fun s =>
    atStep i (k + 1)
      { s with
        ctrl := { s.ctrl with mst := true, tx := true }, stat := { s.stat with busy := true },
        busTrace := s.busTrace ++ [.start] }) ∧
  (Runs i k (fun s => s.ctrl.mst = false ∧ s.stat.busy = true) fun s =>
    atStep i (k + 1) { s with ctrl := { s.ctrl with tx := true }, stat := { s.stat with arbl := true, ifl := true } }) ∧
  Runs i k (fun s => s.ctrl.mst = true) fun s => atStep i (k + 1) { s with ctrl := { s.ctrl with tx := true } }

/-- Micro-step `k` is `STOP` (R97): as master a STOP that abandons a byte in flight, else only the direction. -/
def StopAt (i : Instr) (k : BitVec 6) : Prop :=
  (Runs i k (fun s => s.ctrl.mst = true) fun s =>
    atStep i (k + 1)
      { s with
        ctrl := { s.ctrl with mst := false, tx := false }, stat := { s.stat with busy := false }, xfer := .none,
        busTrace := s.busTrace ++ [.stop] }) ∧
  Runs i k (fun s => s.ctrl.mst = false) fun s => atStep i (k + 1) { s with ctrl := { s.ctrl with tx := false } }

/-- Micro-steps `k` to `k + 2` send the byte `b` (R93): the byte to `DBUF`, in master transmit mode into flight, then
`WaitIF`; a byte already in flight stops the machine (U2). -/
def SendAt (i : Instr) (k : BitVec 6) (b : State → Byte) : Prop :=
  (Runs i k (fun s => masterTransmit s ∧ s.xfer = .none) fun s =>
    atStep i (k + 1) { s with dbuf := b s, xfer := .tx (b s) }) ∧
  (Runs i k (fun s => ¬ masterTransmit s) fun s => atStep i (k + 1) { s with dbuf := b s }) ∧
  StopsAt i k (fun s => masterTransmit s ∧ s.xfer ≠ .none) .byteInFlight ∧
  WaitIfAt i (k + 1)

/-- Micro-step `k` reads `DATA` and gives the byte to `f` (20_memory.md R53): in master receive mode the read starts the next
byte with the answer that `TXAK` gives; a byte already in flight stops the machine (U2). -/
def LoadAt (i : Instr) (k : BitVec 6) (f : Byte → State → State) : Prop :=
  (Runs i k (fun s => masterReceive s ∧ s.xfer = .none) fun s =>
    atStep i (k + 1) (f s.dbuf { s with xfer := .rx (if s.ctrl.txak then .nack else .ack) })) ∧
  (Runs i k (fun s => ¬ masterReceive s) fun s => atStep i (k + 1) (f s.dbuf s)) ∧
  StopsAt i k (fun s => masterReceive s ∧ s.xfer ≠ .none) .byteInFlight

/-- Micro-steps `k` to `k + 2` are `DRVCLK` (R96): a read of `DATA` thrown away, then `WaitIF`. -/
def DriveAt (i : Instr) (k : BitVec 6) : Prop := LoadAt i k (fun _ s => s) ∧ WaitIfAt i (k + 1)

/-- Micro-steps `k` to `k + 3` are `RSTART` (R94): `DIV` saved, its multiplier forced to 1, the strobe with transmit
direction, `DIV` restored. -/
def RestartAt (i : Instr) (k : BitVec 6) : Prop :=
  (Runs i k anyState fun s => atStep i (k + 1) { s with dp := { s.dp with saveDiv := s.div } }) ∧
  (Runs i (k + 1) anyState fun s => atStep i (k + 2) { s with div := s.div &&& 0x3F }) ∧
  (Runs i (k + 2) (fun s => s.ctrl.mst = true ∧ s.xfer = .none ∧ divMult s.div = 0) fun s =>
    atStep i (k + 3) { s with ctrl := { s.ctrl with tx := true }, busTrace := s.busTrace ++ [.restart] }) ∧
  (Runs i (k + 2) (fun s => s.ctrl.mst = false) fun s => atStep i (k + 3) { s with ctrl := { s.ctrl with tx := true } }) ∧
  StopsAt i (k + 2) (fun s => s.ctrl.mst = true ∧ s.xfer ≠ .none) .byteInFlight ∧
  StopsAt i (k + 2) (fun s => s.ctrl.mst = true ∧ s.xfer = .none ∧ divMult s.div ≠ 0) .restartAtNonUnityMultiplier ∧
  Runs i (k + 3) anyState fun s => atStep i (k + 4) { s with div := s.dp.saveDiv }

/-- Micro-step `k` is `RXMODE` (R95): receive direction, and `TXAK` the complement of `ack`. -/
def RxModeAt (i : Instr) (k : BitVec 6) (ack : Bool) : Prop :=
  Runs i k anyState fun s => atStep i (k + 1) { s with ctrl := { s.ctrl with tx := false, txak := !ack } }

/-- The block goes on after the `Select` of this slave: it is in the table, or `SELECT_MISS_POLICY` is `proceed`
(42_engine_transactions.md R102, U5; log 24). -/
def GoesOn (slave : Slave) (s : State) : Prop := s.params.missPolicy = .proceed ∨ (arbSelect slave s).1 = 0

/-- Micro-step `k` is the `Select` of the slave in `SLV`, its status discarded (R102), but for the stop on a miss where the
policy is `fault` (U5, log 24). -/
def SelectAt (i : Instr) (k : BitVec 6) : Prop :=
  (Runs i k (fun s => GoesOn s.dp.slv s) fun s => atStep i (k + 1) (arbSelect s.dp.slv s).2) ∧
  StopsAt i k (fun s => s.params.missPolicy = .fault ∧ (arbSelect s.dp.slv s).1 ≠ 0) .selectMiss

/-- Micro-steps `k` to `k + 8` begin every transaction (R102 to R104): select, wait while busy, START, the write address and
the register address. -/
def AddressAt (i : Instr) (k : BitVec 6) : Prop :=
  SelectAt i k ∧ WaitBusyAt i (k + 1) ∧ StartAt i (k + 2) ∧ SendAt i (k + 3) (fun s => s.dp.slv ++ 0#1) ∧
    SendAt i (k + 6) fun s => s.dp.rega

/-- Micro-steps `k` to `k + 21` read one register up to its byte in `RES` (R104 steps 0 to 10). -/
def ReadAt (i : Instr) (k : BitVec 6) : Prop :=
  AddressAt i k ∧ RestartAt i (k + 9) ∧ SendAt i (k + 13) (fun s => s.dp.slv ++ 1#1) ∧ RxModeAt i (k + 16) false ∧
    DriveAt i (k + 17) ∧ StopAt i (k + 20) ∧ LoadAt i (k + 21) fun b s => { s with res := b.setWidth 32 }

/-! ## The words of the claims about the window -/

/-- A window access has natural alignment and the size the map gives its offset (20_memory.md R44, R46). -/
def AccessAllowed (off : Offset) (sz : Size) : Prop :=
  off.toNat % sz.bytes = 0 ∧ (off.toNat < 0x008 → sz = .b) ∧ (0x008 ≤ off.toNat ∧ off.toNat < 0x020 → sz = .w)

/-- An offset of `RBUF`, or in variant B of `XBUF` (R44). -/
def inByteMemory (s : State) (off : Offset) : Prop :=
  (0x100 ≤ off.toNat ∧ off.toNat < 0x200) ∨ (s.params.variant = .b ∧ 0x400 ≤ off.toNat ∧ off.toNat < 0x800)

/-- What a window of the map of R44 shows at an offset: the bits of each register at their places, bytes of a memory in
little-endian order (R45), 0 elsewhere. -/
def windowValue (s : State) (off : Offset) (sz : Size) : Word :=
  let a := off.toNat
  let m := fun j => readByte s.mem (a + j) (s.draws + j)
  if a = 0x001 then s.div.setWidth 32
  else if a = 0x002 then 0#26 ++ BitVec.ofBool s.ctrl.mst ++ BitVec.ofBool s.ctrl.tx ++ BitVec.ofBool s.ctrl.txak ++ 0#3
  else if a = 0x003 then
    0#26 ++ BitVec.ofBool s.stat.busy ++ BitVec.ofBool s.stat.arbl ++ 0#2 ++ BitVec.ofBool s.stat.ifl ++
      BitVec.ofBool s.stat.rxak
  else if a = 0x004 then s.dbuf.setWidth 32
  else if a = 0x008 then s.cmd
  else if a = 0x00C then s.aux
  else if a = 0x010 then s.res
  else if a = 0x014 then 0#24 ++ s.esr.fcode ++ 0#2 ++ BitVec.ofBool s.esr.recov ++ BitVec.ofBool s.esr.fatal
  else if a = 0x018 then s.lockcnt.setWidth 32
  else if a = 0x01C then 0#31 ++ BitVec.ofBool s.txie
  else if (0x100 ≤ a ∧ a < 0x200) ∨ (s.params.variant = .b ∧ 0x400 ≤ a ∧ a < 0x800) then
    match sz with
    | .b => (m 0).setWidth 32
    | .h => 0#16 ++ m 1 ++ m 0
    | .w => m 3 ++ m 2 ++ m 1 ++ m 0
  else 0

/-- How many bytes of memory a read of the window draws (log 14). -/
def windowDraws (s : State) (off : Offset) (sz : Size) : Nat :=
  if (0x100 ≤ off.toNat ∧ off.toNat < 0x200) ∨ (s.params.variant = .b ∧ 0x400 ≤ off.toNat ∧ off.toNat < 0x800) then sz.bytes
  else 0

/-- A read of the window has been made. -/
def afterRead (s : State) (off : Offset) (sz : Size) : State := { s with draws := s.draws + windowDraws s off sz }

/-- What a store of `v` at an offset of the window other than `CTRL` and `DATA` changes (R44, R49, 10_state.md R29, R31). -/
def stored (off : Offset) (sz : Size) (v : Word) (s : State) : State :=
  let a := off.toNat
  if a = 0x001 then { s with div := v.extractLsb' 0 8 }
  else if a = 0x003 then
    { s with
      stat :=
        { s.stat with
          ifl := if v.getLsbD 1 then false else s.stat.ifl, arbl := if v.getLsbD 4 then false else s.stat.arbl } }
  else if a = 0x00C then { s with aux := v }
  else if a = 0x014 then { s with esr := { s.esr with recov := if v.getLsbD 1 then false else s.esr.recov } }
  else if a = 0x01C then { s with txie := v.getLsbD 0 }
  else if s.params.variant = .b ∧ 0x400 ≤ a ∧ a < 0x800 then
    let w0 := Store.write s.mem a (v.extractLsb' 0 8)
    let w1 := Store.write w0 (a + 1) (v.extractLsb' 8 8)
    match sz with
    | .b => { s with mem := w0 }
    | .h => { s with mem := w1 }
    | .w => { s with mem := Store.write (Store.write w1 (a + 2) (v.extractLsb' 16 8)) (a + 3) (v.extractLsb' 24 8) }
  else s

/-- The command `i`, at its one micro-step, stores the byte `v` in `CTRL` (R50, R51). -/
def StoresCtrl (i : Instr) (v : State → Byte) : Prop :=
  let directed := fun s : State => { s.ctrl with tx := (v s).getLsbD 4, txak := (v s).getLsbD 3 }
  let started := fun s : State =>
    { s with
      ctrl := { directed s with mst := true }, stat := { s.stat with busy := true }, busTrace := s.busTrace ++ [.start] }
  (Runs i 0 (fun s => s.ctrl.mst = false ∧ (v s).getLsbD 5 = false) fun s => ended { s with ctrl := directed s }) ∧
  (Runs i 0 (fun s => s.ctrl.mst = false ∧ (v s).getLsbD 5 = true ∧ s.stat.busy = true) fun s =>
    ended { s with ctrl := directed s, stat := { s.stat with arbl := true, ifl := true } }) ∧
  (Runs i 0 (fun s => s.ctrl.mst = false ∧ (v s).getLsbD 5 = true ∧ s.stat.busy = false ∧ (v s).getLsbD 2 = false)
    fun s => ended (started s)) ∧
  (Runs i 0 (fun s => s.ctrl.mst = true ∧ (v s).getLsbD 5 = false) fun s =>
    ended
      { s with
        ctrl := { directed s with mst := false }, stat := { s.stat with busy := false }, xfer := .none,
        busTrace := s.busTrace ++ [.stop] }) ∧
  (Runs i 0 (fun s => s.ctrl.mst = true ∧ (v s).getLsbD 5 = true ∧ (v s).getLsbD 2 = false) fun s =>
    ended { s with ctrl := directed s }) ∧
  (Runs i 0
    (fun s =>
      s.ctrl.mst = true ∧ (v s).getLsbD 5 = true ∧ (v s).getLsbD 2 = true ∧ s.xfer = .none ∧ divMult s.div = 0)
    fun s => ended { s with ctrl := directed s, busTrace := s.busTrace ++ [.restart] }) ∧
  (Runs i 0
    (fun s =>
      s.ctrl.mst = false ∧ s.stat.busy = false ∧ (v s).getLsbD 5 = true ∧ (v s).getLsbD 2 = true ∧ s.xfer = .none ∧
        divMult s.div = 0)
    fun s => ended { started s with busTrace := s.busTrace ++ [.start, .restart] }) ∧
  StopsAt i 0
    (fun s =>
      (s.ctrl.mst = true ∨ s.stat.busy = false) ∧ (v s).getLsbD 5 = true ∧ (v s).getLsbD 2 = true ∧ s.xfer ≠ .none)
    .byteInFlight ∧
  StopsAt i 0
    (fun s =>
      (s.ctrl.mst = true ∨ s.stat.busy = false) ∧ (v s).getLsbD 5 = true ∧ (v s).getLsbD 2 = true ∧ s.xfer = .none ∧
        divMult s.div ≠ 0)
    .restartAtNonUnityMultiplier

/-- The low byte of what `CTRL` shows. -/
def ctrlByte (s : State) : Byte := (windowValue s 0x002 .b).extractLsb' 0 8

/-! ## Turns of a run -/

/-- SEQ starts a byte, polls `polls` times in vain, BUS completes the byte with turn `done`, SEQ sees and clears `IF`. -/
def byteTurns (polls : Nat) (done : Turn) : List Turn := .seq :: (List.replicate polls .seq ++ [done, .seq, .seq])

/-- The turns of the beginning of a transaction (R102, R103): select, busy check, START, the two address bytes after `p1` and `p2`
polls in vain. -/
def addressTurns (p1 p2 : Nat) (a1 a2 : Ack) : List Turn :=
  [.seq, .seq, .seq] ++ byteTurns p1 (.busTx a1) ++ byteTurns p2 (.busTx a2)

/-- The turns up to the slave's readiness to send: `addressTurns`, the repeated START, the read address, receive mode. -/
def readTurns (p1 p2 p3 : Nat) (a1 a2 a3 : Ack) : List Turn :=
  addressTurns p1 p2 a1 a2 ++ List.replicate 4 .seq ++ byteTurns p3 (.busTx a3) ++ [.seq]

/-! ## Commands of one micro-step in a row -/

/-- The one micro-step of an accepted command, from any state in which no command runs. -/
def runOne (i : Instr) (s : State) : Result :=
  match exec i s with
  | .next t => exec i t
  | .fault f => .fault f
  | .refused r => .refused r

/-- `RB.PUSH` of each byte in turn; `none` where the machine does not come back to `IDLE`. -/
def pushAll (k : Inst) (bs : List Byte) (s : State) : Option State :=
  match bs with
  | [] => some s
  | b :: rest =>
    match runOne (.rbPush k b) s with
    | .next t => if t.seq = .idle then pushAll k rest t else none
    | .fault _ => none
    | .refused _ => none

/-- `RB.POP` `n` times, with the bytes left in `RES`; `none` where the machine does not come back to `IDLE`. -/
def popAll (k : Inst) (n : Nat) (s : State) : Option (List Word × State) :=
  match n with
  | 0 => some ([], s)
  | m + 1 =>
    match runOne (.rbPop k) s with
    | .next t => if t.seq = .idle then (popAll k m t).map fun p => (t.res :: p.1, p.2) else none
    | .fault _ => none
    | .refused _ => none

end Sys2Proof.Machine
end

