-- ==== Sys2Proof/Certificates/Slice0/Obligations.lean ====
section
/-! DEFINITION. The statements for the provers. Their words (`Runs`, `StopsAt`, `SendAt`, `windowValue`, ...) are defined in
Safety.lean. Where a statement names a log entry, that clause is the model's own choice. -/

section

open Sys2Proof Sys2Proof.Machine

/-! ## Encoding -/

/-- R70, R71, R74, R75: words written out from the encoding of the spec decode to the commands they stand for. -/
def Obligations.DecodeReadsSpecWords : Prop :=
  decodeWord 0x00000003 = some (.ld .b 0x003) ∧ decodeWord 0x05061002 = some (.bfi .b 3 1 0x002) ∧
  decodeWord 0x1200003A = some (.sendb 0x3A) ∧ decodeWord 0x14000001 = some (.rxmode 1) ∧
  decodeWord 0x211D0103 = some (.rdregs 0x1D 0x01 3) ∧ decodeWord 0x30003A00 = some (.prep 0 0x3A) ∧
  decodeWord 0x41000041 = some (.rbPush 0 0x41) ∧ decodeWord 0x510003FC = some (.bfDeq 0 1020)

/-- R74, R75: in either FIFO variant the decoder gives back every well-formed command from its word. -/
def Obligations.DecodeOfEncode : Prop :=
  ∀ (v : FifoVariant) (i : Instr), i.wellFormed v = true → decode v (encode i) = some i

/-- R74, R75: a word that decodes is the word of the command it decodes to, so no two words mean one command, and that
command is well-formed. -/
def Obligations.EncodeOfDecode : Prop :=
  ∀ (v : FifoVariant) (w : Word) (i : Instr), decode v w = some i → encode i = w ∧ i.wellFormed v = true

/-- R74: the bits of a word that the command of opcode `op` does not use. -/
def Sys2Proof.Machine.unusedBits (op : Byte) : Word :=
  if op.toNat ≤ 0x04 then 0x003FF000
  else if op.toNat ≤ 0x06 then 0
  else if op = 0x12 then 0x00FFFF00
  else if op = 0x14 then 0x00FFFFFE
  else if op.toNat ≤ 0x18 then 0x00FFFFFF
  else if op = 0x20 ∨ op = 0x23 then 0x008000FF
  else if op = 0x21 ∨ op = 0x22 then 0x00800000
  else if op = 0x30 then 0x00F880FF
  else if op = 0x31 then 0x00FFFFF0
  else if op = 0x32 then 0x00FF80FF
  else if op = 0x41 then 0x00FEFF00
  else if op = 0x50 ∨ op = 0x51 then 0x00FE0000
  else 0x00FEFFFF

/-- R76: the five kinds of illegal word. -/
def Sys2Proof.Machine.Illegal (v : FifoVariant) (w : Word) : Prop :=
  let op := (opc w).toNat
  (0x07 ≤ op ∧ op ≤ 0x0F ∨ 0x19 ≤ op ∧ op ≤ 0x1F ∨ 0x24 ≤ op ∧ op ≤ 0x2F ∨ 0x33 ≤ op ∧ op ≤ 0x3F ∨
    0x49 ≤ op ∧ op ≤ 0x4F ∨ 0x54 ≤ op) ∨
  w &&& unusedBits (opc w) ≠ 0 ∨
  (op ≤ 0x06 ∧ opSZ w = 3) ∨
  ((op = 0x05 ∨ op = 0x06) ∧ 8 * 2 ^ (opSZ w).toNat < (opPOS w).toNat + (opWM1 w).toNat + 1) ∨
  (0x40 ≤ op ∧ op ≤ 0x48 ∧ v = .b) ∨ (0x50 ≤ op ∧ op ≤ 0x53 ∧ v = .a)

/-- R76, R75, R138: the words that do not decode are exactly those of the five kinds; HOST's write of one to `CMD` at `IDLE`
stores the word and raises `ILLEGAL_COMMAND`. -/
def Obligations.IllegalWordsAreTheFiveKinds : Prop :=
  (∀ (v : FifoVariant) (w : Word), decode v w = none ↔ Illegal v w) ∧
  ∀ (s : State) (w : Word) (rest : List HostAccess),
    s.seq = .idle → s.host = .write (s.params.address 0x008) .w w :: rest → Illegal s.params.variant w →
    takeTurn .host s = .next (halted 5 { s with cmd := w, host := rest })

/-! ## The window and the register-access commands -/

/-- R81: `LD` at its micro-step puts what the window shows at the offset into `RES`; a load of `DATA` in master receive mode
also starts the next byte, or stops the machine with a byte in flight (U2, log 18). That a byte nothing has written gives the free
value of the next draw is the model's choice (logs 13 and 14). -/
def Obligations.LdLoadsRes : Prop :=
  (∀ (sz : Size) (addr : Offset), AccessAllowed addr sz → addr ≠ 0x004 → addr ≠ 0x008 →
    Runs (.ld sz addr) 0 anyState fun s => ended { afterRead s addr sz with res := windowValue s addr sz }) ∧
  (Runs (.ld .b 0x004) 0 (fun s => ¬ masterReceive s) fun s => ended { s with res := s.dbuf.setWidth 32 }) ∧
  (Runs (.ld .b 0x004) 0 (fun s => masterReceive s ∧ s.xfer = .none) fun s =>
    ended { s with res := s.dbuf.setWidth 32, xfer := .rx (if s.ctrl.txak then .nack else .ack) }) ∧
  StopsAt (.ld .b 0x004) 0 (fun s => masterReceive s ∧ s.xfer ≠ .none) .byteInFlight

/-- R82, R49, R52: `ST` at its micro-step stores the data operand of `AUX`; in `DATA` the byte goes into flight in master
transmit mode, or stops the machine with a byte in flight (U2, log 18). `CTRL` has its own statement. -/
def Obligations.StStores : Prop :=
  (∀ (sz : Size) (addr : Offset), AccessAllowed addr sz → addr ≠ 0x002 → addr ≠ 0x004 → addr ≠ 0x008 →
    Runs (.st sz addr) 0 anyState fun s => ended (stored addr sz s.aux s)) ∧
  (Runs (.st .b 0x004) 0 (fun s => ¬ masterTransmit s) fun s => ended { s with dbuf := s.aux.extractLsb' 0 8 }) ∧
  (Runs (.st .b 0x004) 0 (fun s => masterTransmit s ∧ s.xfer = .none) fun s =>
    ended { s with dbuf := s.aux.extractLsb' 0 8, xfer := .tx (s.aux.extractLsb' 0 8) }) ∧
  StopsAt (.st .b 0x004) 0 (fun s => masterTransmit s ∧ s.xfer ≠ .none) .byteInFlight

/-- R50, R51: a store in `CTRL`, in every case of its START, STOP and repeated-START effects; the two stops are those of
U1 and U2 (logs 17 and 18). -/
def Obligations.StoreInCtrl : Prop := StoresCtrl (.st .b 0x002) fun s => s.aux.extractLsb' 0 8

/-- R83, R84, R85: `AAND`, `AOR` and `AXOR` read and store in one micro-step, at every offset but those of `CTRL`, `DATA` and
`CMD`. On `STAT`, R84 and R156: `AOR` clears every set flag whatever its operand, `AAND` those where its operand has a 1, `AXOR`
those where it has a 0 (the last sentence of R48 says whatever the operand of all three: log 31). A byte nothing has written
gives the free value of the next draw (logs 13 and 14). -/
def Obligations.AtomicOperationsReadAndStore : Prop :=
  (Runs (.aor .b 0x003) 0 anyState fun s => ended { s with stat := { s.stat with ifl := false, arbl := false } }) ∧
  (Runs (.aand .b 0x003) 0 anyState fun s =>
    ended
      { s with
        stat := { s.stat with ifl := s.stat.ifl && !s.aux.getLsbD 1, arbl := s.stat.arbl && !s.aux.getLsbD 4 } }) ∧
  (Runs (.axor .b 0x003) 0 anyState fun s =>
    ended
      { s with
        stat := { s.stat with ifl := s.stat.ifl && s.aux.getLsbD 1, arbl := s.stat.arbl && s.aux.getLsbD 4 } }) ∧
  ∀ (sz : Size) (addr : Offset), AccessAllowed addr sz → addr ≠ 0x002 → addr ≠ 0x004 → addr ≠ 0x008 →
    (Runs (.aand sz addr) 0 anyState fun s =>
      ended (stored addr sz (windowValue s addr sz &&& s.aux) (afterRead s addr sz))) ∧
    (Runs (.aor sz addr) 0 anyState fun s =>
      ended (stored addr sz (windowValue s addr sz ||| s.aux) (afterRead s addr sz))) ∧
    Runs (.axor sz addr) 0 anyState fun s =>
      ended (stored addr sz (windowValue s addr sz ^^^ s.aux) (afterRead s addr sz))

/-- R83 to R86, R50, R51: the same operations on `CTRL`, with `BFI` for every field; `RSTA` reads as 0, so that `AAND` never
strobes. -/
def Obligations.AtomicOperationsOnCtrl : Prop :=
  StoresCtrl (.aand .b 0x002) (fun s => ctrlByte s &&& s.aux.extractLsb' 0 8) ∧
  StoresCtrl (.aor .b 0x002) (fun s => ctrlByte s ||| s.aux.extractLsb' 0 8) ∧
  StoresCtrl (.axor .b 0x002) (fun s => ctrlByte s ^^^ s.aux.extractLsb' 0 8) ∧
  (∀ (pos wm1 : BitVec 5) (v : State → Byte), pos.toNat + wm1.toNat + 1 ≤ 8 →
    (∀ s b, b < 8 → (v s).getLsbD b =
      if pos.toNat ≤ b ∧ b ≤ pos.toNat + wm1.toNat then s.aux.getLsbD b else (ctrlByte s).getLsbD b) →
    StoresCtrl (.bfi .b pos wm1 0x002) v) ∧
  ∀ s : State, (ctrlByte s &&& s.aux.extractLsb' 0 8).getLsbD 2 = false

/-- R86: `BFI` stores the word that has the operand's bits inside the field and the location's own bits outside it. A byte
nothing has written gives the free value of the next draw (logs 13 and 14). -/
def Obligations.BfiInsertsInPlace : Prop :=
  ∀ (sz : Size) (pos wm1 : BitVec 5) (addr : Offset), AccessAllowed addr sz →
    addr ≠ 0x002 → addr ≠ 0x004 → addr ≠ 0x008 → pos.toNat + wm1.toNat + 1 ≤ 8 * sz.bytes →
    ∀ (s : State) (x : Word), s.seq = .run 0x05 0 →
      (∀ b, b < 8 * sz.bytes → x.getLsbD b =
        if pos.toNat ≤ b ∧ b ≤ pos.toNat + wm1.toNat then s.aux.getLsbD b else (windowValue s addr sz).getLsbD b) →
      exec (.bfi sz pos wm1 addr) s = .next (ended (stored addr sz x (afterRead s addr sz)))

/-- R87: `UBFX` leaves the field in `RES`, right-justified and zero-extended, and writes nothing else. A byte nothing
has written gives the free value of the next draw (logs 13 and 14). -/
def Obligations.UbfxExtracts : Prop :=
  ∀ (sz : Size) (pos wm1 : BitVec 5) (addr : Offset), AccessAllowed addr sz → addr ≠ 0x004 → addr ≠ 0x008 →
    pos.toNat + wm1.toNat + 1 ≤ 8 * sz.bytes →
    ∀ (s : State) (x : Word), s.seq = .run 0x06 0 →
      (∀ b, b < 32 → x.getLsbD b = (decide (b ≤ wm1.toNat) && (windowValue s addr sz).getLsbD (pos.toNat + b))) →
      exec (.ubfx sz pos wm1 addr) s = .next (ended { afterRead s addr sz with res := x })

/-- R80, R137 code 8, R138: a misaligned or wrong-size access, an access to `CMD`, and a read-modify-write of `DATA` raise
`BAD_ACCESS` and change nothing but `ESR` and `SEQ`. -/
def Obligations.BadAccessHalts : Prop :=
  ∀ (sz : Size) (pos wm1 : BitVec 5) (addr : Offset),
    (¬ AccessAllowed addr sz ∨ addr = 0x008 →
      Runs (.ld sz addr) 0 anyState (halted 8) ∧ Runs (.st sz addr) 0 anyState (halted 8)) ∧
    (¬ AccessAllowed addr sz ∨ addr = 0x008 ∨ addr = 0x004 →
      Runs (.aand sz addr) 0 anyState (halted 8) ∧ Runs (.aor sz addr) 0 anyState (halted 8) ∧
      Runs (.axor sz addr) 0 anyState (halted 8) ∧ Runs (.bfi sz pos wm1 addr) 0 anyState (halted 8) ∧
      Runs (.ubfx sz pos wm1 addr) 0 anyState (halted 8))

/-- R44, R46, R23, R53: HOST's read at `IDLE` or in `HALT` answers what the window shows and changes nothing, but for a read of
`DATA` in master receive mode, which also starts the next byte; HOST's write at `IDLE` stores, in `CTRL` and `DATA` with the
effect of `ST`; in `HALT` it is ignored; an access that the map does not allow is refused (log 19); while a command runs
HOST has no step. The model's readings: a turn without a step is consumed (log 2), a byte nothing has written gives a free value
(logs 13 and 14), the stop of U2 (log 18), the refusal (log 19), reads in `HALT` keep their side effect (log 20), answers are
recorded (log 22), HOST is held while a command runs against a remark of P4 (log 23), an access outside the window, wherever
`BASE` is, changes nothing of the block (log 29). -/
def Obligations.HostAccessesTheWindow : Prop :=
  (∀ (s : State) (off : Offset) (sz : Size) (rest : List HostAccess),
    s.seq = .idle ∨ s.seq = .halt → s.host = .read (s.params.address off) sz :: rest →
    let answered := fun t : State =>
      { afterRead t off sz with
        host := rest, hostLog := s.hostLog ++ [{ off := off, sz := sz, value := windowValue s off sz }] }
    (AccessAllowed off sz → ¬ (off = 0x004 ∧ masterReceive s) → takeTurn .host s = .next (answered s)) ∧
    (AccessAllowed off sz → off = 0x004 → masterReceive s → s.xfer = .none →
      takeTurn .host s = .next (answered { s with xfer := .rx (if s.ctrl.txak then .nack else .ack) })) ∧
    (AccessAllowed off sz → off = 0x004 → masterReceive s → s.xfer ≠ .none →
      takeTurn .host s = .fault .byteInFlight) ∧
    (¬ AccessAllowed off sz → takeTurn .host s = .refused .hostAccessError)) ∧
  (∀ (s : State) (off : Offset) (sz : Size) (v : Word) (rest : List HostAccess),
    s.seq = .idle → s.host = .write (s.params.address off) sz v :: rest →
    (off = 0x002 ∨ off = 0x004 → sz = .b →
      takeTurn .host s =
        match exec (.st .b off) { s with host := rest, aux := v, seq := .run 0x01 0 } with
        | .next t => .next { t with aux := s.aux }
        | .fault f => .fault f
        | .refused r => .refused r) ∧
    (AccessAllowed off sz → off ≠ 0x002 → off ≠ 0x004 → off ≠ 0x008 →
      takeTurn .host s = .next (stored off sz v { s with host := rest })) ∧
    (¬ AccessAllowed off sz → takeTurn .host s = .refused .hostAccessError)) ∧
  (∀ (s : State) (off : Offset) (sz : Size) (v : Word) (rest : List HostAccess),
    s.seq = .halt → s.host = .write (s.params.address off) sz v :: rest → takeTurn .host s = .next { s with host := rest }) ∧
  (∀ (s : State) (op : Byte) (k : BitVec 6), s.seq = .run op k →
    (s.host = [] ∨ ∃ a rest off, s.host = a :: rest ∧ a.addr = s.params.address off) → takeTurn .host s = .next s) ∧
  ∀ (s : State) (a : HostAccess) (rest : List HostAccess), s.host = a :: rest →
    (∀ off, a.addr ≠ s.params.address off) → takeTurn .host s = .next { s with host := rest }

/-! ## Acceptance and the step -/

/-- R21, R23: the datapath registers that the acceptance of a command loads; `RDREGS` also keeps what stood in
`SLV` and `REGA`, in two fields of the model's own (log 32). -/
def Sys2Proof.Machine.loaded (i : Instr) (s : State) : Datapath :=
  match i with
  | .sendb byte => { s.dp with val := byte }
  | .rdreg slave reg => { s.dp with slv := slave, rega := reg }
  | .rdregs slave startReg _ =>
    { s.dp with slv := slave, rega := startReg, heldSlv := s.dp.slv, heldRega := s.dp.rega }
  | .wrreg slave reg value => { s.dp with slv := slave, rega := reg, val := value }
  | .modreg slave reg => { s.dp with slv := slave, rega := reg, amsk := s.aux.extractLsb' 8 8, omsk := s.aux.extractLsb' 0 8 }
  | .select slave => { s.dp with slv := slave }
  | _ => s.dp

/-- R21, R23: at `IDLE` every command is accepted: its operands go to the datapath registers and `SEQ` to its micro-step 0. The
two fields that `RDREGS` also sets are the model's own (log 32). -/
def Obligations.AcceptanceLoadsOperands : Prop :=
  ∀ (i : Instr) (s : State), s.seq = .idle →
    exec i s = .next { s with dp := loaded i s, seq := .run i.opcode 0 }

/-- R17, R18, R23: SEQ's turn, named by the agenda or the default, runs the micro-step of the command that `CMD` decodes to;
and HOST's write of a command word at `IDLE` stores it and runs its acceptance. The agenda and the default turn are the
model's own (logs 1, 3 and 5). -/
def Obligations.StepRunsTheDecodedCommand : Prop :=
  (∀ (s : State) (i : Instr) (op : Byte) (k : BitVec 6) (rest : List Turn), s.seq = .run op k →
    decode s.params.variant s.cmd = some i → s.agenda = .seq :: rest → step s = exec i { s with agenda := rest }) ∧
  (∀ (s : State) (i : Instr) (op : Byte) (k : BitVec 6), s.seq = .run op k →
    decode s.params.variant s.cmd = some i → s.agenda = [] → step s = exec i s) ∧
  (∀ (s : State) (i : Instr) (w : Word) (rest : List HostAccess), s.seq = .idle →
    s.host = .write (s.params.address 0x008) .w w :: rest → decode s.params.variant w = some i → s.agenda = [] →
    step s = exec i { s with host := rest, cmd := w })

/-! ## The engine primitives, micro-step by micro-step -/

/-- R91, R92, R97: `WAITBUSY`, `START` and `STOP`. -/
def Obligations.WaitbusyStartStopMicroSteps : Prop :=
  (WaitBusyAt .waitbusy 0 ∧ DoneAt .waitbusy 1) ∧ (StartAt .start 0 ∧ DoneAt .start 1) ∧ StopAt .stop 0 ∧ DoneAt .stop 1

/-- R93, R96, R90: `SENDB` and `DRVCLK`, with the stop of U2 (log 18). -/
def Obligations.SendbDrvclkMicroSteps : Prop :=
  (∀ byte : Byte, SendAt (.sendb byte) 0 (fun s => s.dp.val) ∧ DoneAt (.sendb byte) 3) ∧ DriveAt .drvclk 0 ∧
  DoneAt .drvclk 3

/-- R94, R95, R98: `RSTART`; `RXMODE`; `RESETBUS`, which clears `IF` and `ARBL` twice and records the recovery; the stops of the
strobe are those of U1 and U2 (logs 17 and 18). -/
def Obligations.RstartRxmodeResetbusMicroSteps : Prop :=
  (RestartAt .rstart 0 ∧ DoneAt .rstart 4) ∧
  (RxModeAt (.rxmode 0) 0 false ∧ RxModeAt (.rxmode 1) 0 true ∧ ∀ ack : BitVec 1, DoneAt (.rxmode ack) 1) ∧
  (Runs .resetbus 0 anyState fun s => atStep .resetbus 1 { s with stat := { s.stat with ifl := false, arbl := false } }) ∧
  (Runs .resetbus 1 anyState fun s => atStep .resetbus 2 { s with stat := { s.stat with ifl := false, arbl := false } }) ∧
  (Runs .resetbus 2 anyState fun s => atStep .resetbus 3 { s with esr := { s.esr with recov := true } }) ∧
  DoneAt .resetbus 3

/-- R99: `WAITB`: the count set to 0, polls that count up to 200, the forced Start and Stop, the flag clear. -/
def Obligations.WaitbMicroSteps : Prop :=
  (Runs .waitb 0 anyState fun s => atStep .waitb 1 { s with lockcnt := 0 }) ∧
  Runs .waitb 1 (fun s => s.stat.ifl = true) (atStep .waitb 5) ∧
  Runs .waitb 1 (fun s => s.stat.ifl = false) (atStep .waitb 2) ∧
  (Runs .waitb 2 (fun s => s.lockcnt.toNat + 1 < 200) fun s => atStep .waitb 1 { s with lockcnt := s.lockcnt + 1 }) ∧
  (Runs .waitb 2 (fun s => s.lockcnt.toNat = 199) fun s => atStep .waitb 3 { s with lockcnt := 200 }) ∧
  StartAt .waitb 3 ∧
  (Runs .waitb 4 (fun s => s.ctrl.mst = true) fun s =>
    atStep .waitb 5
      { s with
        ctrl := { s.ctrl with mst := false, tx := false }, stat := { s.stat with busy := false }, xfer := .none,
        busTrace := s.busTrace ++ [.stop], esr := { s.esr with recov := true } }) ∧
  (Runs .waitb 4 (fun s => s.ctrl.mst = false) fun s =>
    atStep .waitb 5 { s with ctrl := { s.ctrl with tx := false }, esr := { s.esr with recov := true } }) ∧
  (Runs .waitb 5 anyState fun s => atStep .waitb 6 { s with stat := { s.stat with ifl := false, arbl := false } }) ∧
  DoneAt .waitb 6

/-! ## The engine transactions, micro-step by micro-step -/

/-- R104, R106, R102, R103: `RDREG` and `WRREG`. The micro-step numbers are those of the primitives written out (log 8); a
miss of the arbiter stops the block only under the policy `fault` (log 24). -/
def Obligations.RdregWrregMicroSteps : Prop :=
  (∀ (slave : Slave) (reg : Byte), ReadAt (.rdreg slave reg) 0 ∧ DoneAt (.rdreg slave reg) 22) ∧
  ∀ (slave : Slave) (reg value : Byte),
    let i := Instr.wrreg slave reg value
    AddressAt i 0 ∧ SendAt i 9 (fun s => s.dp.val) ∧ StopAt i 12 ∧ DoneAt i 13

/-- R105, R137 code 1, R138: `RDREGS`: the zero-length assertion, the branch, the burst, the one-byte arm. The
micro-step numbers are those of the primitives written out (log 8); a miss of the arbiter stops the block only under the policy
`fault` (log 24). From `IDLE` a count of 0 leaves the state before the command but for `ESR` and `SEQ` (R138; `CMD` has been stored
by HOST's write), since the assertion puts back what the acceptance has loaded from two fields of the model's own (log 32). -/
def Obligations.RdregsMicroSteps : Prop :=
  ∀ (slave : Slave) (reg n : Byte),
    let i := Instr.rdregs slave reg n
    let keep : Byte → State → State := fun b s =>
      { s with
        mem := Store.write s.mem (0x100 + s.dp.idx.toNat) b, dp := { s.dp with idx := s.dp.idx + 1 } }
    (n = 0 → ∀ s : State, s.seq = .idle →
      runOne i s = .next (halted 1 { s with dp := { s.dp with heldSlv := s.dp.slv, heldRega := s.dp.rega } })) ∧
    (Runs i 0 (fun _ => n = 0) fun s =>
      halted 1 { s with dp := { s.dp with slv := s.dp.heldSlv, rega := s.dp.heldRega } }) ∧ Runs i 0 (fun _ => n ≠ 0) (atStep i 1) ∧
    Runs i 1 (fun _ => n = 1) (atStep i 35) ∧ Runs i 1 (fun _ => n ≠ 1) (atStep i 2) ∧
    AddressAt i 2 ∧ RestartAt i 11 ∧ SendAt i 15 (fun s => s.dp.slv ++ 1#1) ∧ RxModeAt i 18 true ∧ DriveAt i 19 ∧
    (Runs i 22 anyState fun s => atStep i 23 { s with dp := { s.dp with idx := 0, cnt := n - 2 } }) ∧
    Runs i 23 (fun s => s.dp.cnt = 0) (atStep i 28) ∧ Runs i 23 (fun s => s.dp.cnt ≠ 0) (atStep i 24) ∧
    LoadAt i 24 keep ∧ WaitIfAt i 25 ∧
    (Runs i 27 anyState fun s => atStep i 23 { s with dp := { s.dp with cnt := s.dp.cnt - 1 } }) ∧
    (Runs i 28 anyState fun s => atStep i 29 { s with ctrl := { s.ctrl with txak := true } }) ∧
    LoadAt i 29 keep ∧ WaitIfAt i 30 ∧ StopAt i 32 ∧ LoadAt i 33 keep ∧
    (Runs i 34 anyState fun s => ended { s with res := n.setWidth 32 }) ∧
    ReadAt i 35 ∧
    Runs i 57 anyState fun s => ended { s with mem := Store.write s.mem 0x100 (s.res.extractLsb' 0 8), res := 1 }

/-- R107: `MODREG`. The micro-step numbers are those of the primitives written out (log 8); a miss of the arbiter stops the block
only under the policy `fault` (log 24). -/
def Obligations.ModregMicroSteps : Prop :=
  ∀ (slave : Slave) (reg : Byte),
    let i := Instr.modreg slave reg
    AddressAt i 0 ∧ RestartAt i 9 ∧ SendAt i 13 (fun s => s.dp.slv ++ 1#1) ∧ RxModeAt i 16 false ∧ DriveAt i 17 ∧
    RestartAt i 20 ∧ LoadAt i 24 (fun b s => { s with dp := { s.dp with tmp := b } }) ∧
    (Runs i 25 anyState fun s =>
      atStep i 26 { s with dp := { s.dp with new := (s.dp.tmp &&& s.dp.amsk) ||| s.dp.omsk } }) ∧
    SendAt i 26 (fun s => s.dp.slv ++ 0#1) ∧ SendAt i 29 (fun s => s.dp.rega) ∧ SendAt i 32 (fun s => s.dp.new) ∧
    StopAt i 35 ∧
    Runs i 36 anyState fun s => ended { s with res := 0#16 ++ s.dp.tmp ++ s.dp.new }

/-! ## Whole runs of the engine -/

/-- The block is ready for a transaction: no command runs, it is not master, the bus is free, no byte is in flight and no
stale completion flag stands. -/
def Sys2Proof.Machine.Ready (s : State) : Prop :=
  s.seq = .idle ∧ s.ctrl.mst = false ∧ s.stat.busy = false ∧ s.stat.ifl = false ∧ s.xfer = .none

/-- R104: HOST issues `RDREG` and BUS completes each byte after any number of polls of its own: the bus trace gains exactly the events
of the rule, `RES` holds the byte the slave sent, and the block ends with the bus released and `DIV` as before. The turns are
the model's agenda (logs 1, 8 and 9). The slave is in the table or the policy is `proceed` (log 24), here and in the runs below. -/
def Obligations.RdregRun : Prop :=
  ∀ (s : State) (slave : Slave) (reg d : Byte) (a1 a2 a3 : Ack) (p1 p2 p3 p4 : Nat) (acc : List HostAccess)
    (rest : List Turn),
    Ready s → GoesOn slave s → s.host = writeCmd s.params (.rdreg slave reg) :: acc →
    let ts := [.host] ++ readTurns p1 p2 p3 a1 a2 a3 ++ byteTurns p4 (.busRx d) ++ [.seq, .seq, .seq]
    s.agenda = ts ++ rest →
    runSteps ts.length s =
      .next
        { (arbSelect slave s).2 with
          cmd := encode (.rdreg slave reg), res := d.setWidth 32,
          dp := { s.dp with slv := slave, rega := reg, saveDiv := s.div },
          ctrl := { mst := false, tx := false, txak := true },
          stat := { busy := false, arbl := false, ifl := false, rxak := ackRxak a3 }, dbuf := d,
          busTrace := s.busTrace ++
            [.start, .txb (slave ++ 0#1) a1, .txb reg a2, .restart, .txb (slave ++ 1#1) a3, .rxb d .nack, .stop],
          agenda := rest, host := acc }

/-- R105: HOST issues `RDREGS` of one byte: the turns, the bus trace and the end are those of `RDREG`, each byte with its own number of polls;
the byte is in `RBUF[0]` and `RES` is 1 (the turns: logs 1, 8 and 9; the kept copies: log 32). -/
def Obligations.RdregsOfOneByteRun : Prop :=
  ∀ (s : State) (slave : Slave) (reg d : Byte) (a1 a2 a3 : Ack) (p1 p2 p3 p4 : Nat) (acc : List HostAccess)
    (rest : List Turn),
    Ready s → GoesOn slave s → s.host = writeCmd s.params (.rdregs slave reg 1) :: acc →
    let ts := [.host, .seq, .seq] ++ readTurns p1 p2 p3 a1 a2 a3 ++ byteTurns p4 (.busRx d) ++ [.seq, .seq, .seq]
    s.agenda = ts ++ rest →
    runSteps ts.length s =
      .next
        { (arbSelect slave s).2 with
          cmd := encode (.rdregs slave reg 1), res := 1,
          dp :=
            { s.dp with slv := slave, rega := reg, saveDiv := s.div, heldSlv := s.dp.slv, heldRega := s.dp.rega },
          ctrl := { mst := false, tx := false, txak := true },
          stat := { busy := false, arbl := false, ifl := false, rxak := ackRxak a3 }, dbuf := d,
          mem := Store.write s.mem 0x100 d,
          busTrace := s.busTrace ++
            [.start, .txb (slave ++ 0#1) a1, .txb reg a2, .restart, .txb (slave ++ 1#1) a3, .rxb d .nack, .stop],
          agenda := rest, host := acc }

/-- R105: the turns of a burst's middle bytes, each with its number of polls: the test, the read that starts the byte, the
byte, the count. -/
def Sys2Proof.Machine.middleTurns (mids : List (Nat × Byte)) : List Turn :=
  mids.flatMap fun d => .seq :: (byteTurns d.1 (.busRx d.2) ++ [.seq])

/-- R105: HOST issues `RDREGS` of 2 to 255 bytes and BUS completes each byte after any number of polls of its own: every
byte but the last is acknowledged, `RBUF` holds them in order and `RES` their number (the turns: logs 1, 8 and 9; the kept copies: log 32). -/
def Obligations.RdregsBurstRun : Prop :=
  ∀ (s : State) (slave : Slave) (reg n first last : Byte) (mids : List (Nat × Byte)) (a1 a2 a3 : Ack)
    (p1 p2 p3 p4 p5 : Nat) (acc : List HostAccess) (rest : List Turn),
    Ready s → GoesOn slave s → n.toNat = mids.length + 2 → s.host = writeCmd s.params (.rdregs slave reg n) :: acc →
    let ts := [.host, .seq, .seq] ++ readTurns p1 p2 p3 a1 a2 a3 ++ byteTurns p4 (.busRx first) ++ [.seq] ++
      middleTurns mids ++ [.seq, .seq] ++ byteTurns p5 (.busRx last) ++ [.seq, .seq, .seq]
    s.agenda = ts ++ rest →
    runSteps ts.length s =
      .next
        { (arbSelect slave s).2 with
          cmd := encode (.rdregs slave reg n), res := n.setWidth 32,
          dp :=
            { s.dp with
              slv := slave, rega := reg, saveDiv := s.div, idx := n, cnt := 0, heldSlv := s.dp.slv,
              heldRega := s.dp.rega },
          ctrl := { mst := false, tx := false, txak := true },
          stat := { busy := false, arbl := false, ifl := false, rxak := ackRxak a3 }, dbuf := last,
          mem := writeBytes s.mem 0x100 ([first] ++ mids.map Prod.snd ++ [last]),
          busTrace := s.busTrace ++
            ([.start, .txb (slave ++ 0#1) a1, .txb reg a2, .restart, .txb (slave ++ 1#1) a3, .rxb first .ack] ++
              mids.map (fun d => .rxb d.2 .ack) ++ [.rxb last .nack, .stop]),
          agenda := rest, host := acc }

/-- R106: HOST issues `WRREG` and BUS completes each byte after any number of polls of its own (the turns: logs 1, 8 and
9). -/
def Obligations.WrregRun : Prop :=
  ∀ (s : State) (slave : Slave) (reg value : Byte) (a1 a2 a3 : Ack) (p1 p2 p3 : Nat) (acc : List HostAccess)
    (rest : List Turn),
    Ready s → GoesOn slave s → s.host = writeCmd s.params (.wrreg slave reg value) :: acc →
    let ts := [.host] ++ addressTurns p1 p2 a1 a2 ++ byteTurns p3 (.busTx a3) ++ [.seq, .seq]
    s.agenda = ts ++ rest →
    runSteps ts.length s =
      .next
        { (arbSelect slave s).2 with
          cmd := encode (.wrreg slave reg value), dp := { s.dp with slv := slave, rega := reg, val := value },
          ctrl := { s.ctrl with mst := false, tx := false },
          stat := { busy := false, arbl := false, ifl := false, rxak := ackRxak a3 }, dbuf := value,
          busTrace := s.busTrace ++ [.start, .txb (slave ++ 0#1) a1, .txb reg a2, .txb value a3, .stop],
          agenda := rest, host := acc }

/-- R107: HOST issues `MODREG` and BUS completes each byte after any number of polls of its own: one START, two repeated
STARTs, one STOP; the byte read, changed by the masks of `AUX`, is written back, and `RES` holds both (the turns: logs 1, 8 and
9). -/
def Obligations.ModregRun : Prop :=
  ∀ (s : State) (slave : Slave) (reg old : Byte) (a1 a2 a3 a4 a5 a6 : Ack) (p1 p2 p3 p4 p5 p6 p7 : Nat)
    (acc : List HostAccess) (rest : List Turn),
    Ready s → GoesOn slave s → s.host = writeCmd s.params (.modreg slave reg) :: acc →
    let ts := [.host] ++ readTurns p1 p2 p3 a1 a2 a3 ++ byteTurns p4 (.busRx old) ++ List.replicate 6 .seq ++
      byteTurns p5 (.busTx a4) ++ byteTurns p6 (.busTx a5) ++ byteTurns p7 (.busTx a6) ++ [.seq, .seq]
    let new := (old &&& s.aux.extractLsb' 8 8) ||| s.aux.extractLsb' 0 8
    s.agenda = ts ++ rest →
    runSteps ts.length s =
      .next
        { (arbSelect slave s).2 with
          cmd := encode (.modreg slave reg), res := 0#16 ++ old ++ new,
          dp :=
            { s.dp with
              slv := slave, rega := reg, amsk := s.aux.extractLsb' 8 8, omsk := s.aux.extractLsb' 0 8, tmp := old,
              new := new, saveDiv := s.div },
          ctrl := { mst := false, tx := false, txak := true },
          stat := { busy := false, arbl := false, ifl := false, rxak := ackRxak a6 }, dbuf := new,
          busTrace := s.busTrace ++
            [.start, .txb (slave ++ 0#1) a1, .txb reg a2, .restart, .txb (slave ++ 1#1) a3, .rxb old .nack, .restart,
              .txb (slave ++ 0#1) a4, .txb reg a5, .txb new a6, .stop],
          agenda := rest, host := acc }

/-- R99: while no byte completes and `IF` is 0, `WAITB` as master times out after exactly 200 polls, 405 steps in all: the
count stands at 200, the byte in flight is abandoned by a STOP, and the recovery is recorded (one micro-step a step:
log 1; SEQ's turn with the agenda empty: log 3; the count of steps: log 9). -/
def Obligations.WaitbTimesOut : Prop :=
  ∀ s : State, s.seq = .run 0x18 0 → s.cmd = encode .waitb → s.agenda = [] → s.stat.ifl = false → s.ctrl.mst = true →
    runSteps 405 s =
      .next
        { s with
          seq := .idle, lockcnt := 200, ctrl := { s.ctrl with mst := false, tx := false },
          stat := { s.stat with busy := false, arbl := false }, xfer := .none,
          busTrace := s.busTrace ++ [.stop], esr := { s.esr with recov := true } }

/-- R99: the wait always ends: whatever the other agents do, short of a reset, by SEQ's 405th turn `WAITB` has come back
to `IDLE` (the turns: log 1; the number 405: log 9). -/
def Obligations.WaitbAlwaysEnds : Prop :=
  ∀ (s : State) (ts rest : List Turn), LockOk s → s.cmd = encode .waitb → (∃ k : BitVec 6, s.seq = .run 0x18 k ∧ k.toNat < 7) →
    s.agenda = ts ++ rest → 405 ≤ ts.count .seq → Turn.reset ∉ ts →
    ∃ n t, n ≤ ts.length ∧ runSteps n s = .next t ∧ t.seq = .idle

/-! ## The arbiter -/

/-- R110: the hash in closed form, and that it is not injective. -/
def Obligations.HashClosedForm : Prop :=
  (∀ (port : BitVec 3) (cpin dpin : BitVec 5),
    (wiringHash port cpin dpin).toNat = 450179 + 529 * port.toNat + 23 * cpin.toNat + dpin.toNat) ∧
  wiringHash 4 24 25 = 452872 ∧ wiringHash 4 0 24 = wiringHash 4 1 1 ∧ wiringHash 0 23 0 = wiringHash 1 0 0

/-- R111, R140: `PREP` fills one entry of the table and changes no other, or raises the first of its assertions. -/
def Obligations.PrepFillsAnEntry : Prop :=
  ∀ (index : BitVec 3) (slave : Slave),
    let i := Instr.prep index slave
    let clean := fun s : State => s.aux.extractLsb' 27 5 = 0#5 ∧ s.aux.extractLsb' 16 8 = 0#8 ∧ (s.aux.extractLsb' 24 3 : BitVec 3).toNat < 5
    (Runs i 0 (fun s => ¬ clean s) (halted 5)) ∧ (Runs i 0 (fun s => clean s ∧ s.arb.configured = true) (halted 6)) ∧
    ∀ s : State, s.seq = .run 0x30 0 → clean s → s.arb.configured = false →
      ∃ table : Vector Entry 8, exec i s = .next (ended { s with arb := { s.arb with etab := table } }) ∧
        (∀ (j : Nat) (h : j < 8), j ≠ index.toNat → table[j] = s.arb.etab[j]) ∧
        table[index.toNat]'index.isLt =
          { prepared := true, slave := slave, port := s.aux.extractLsb' 24 3, cpin := s.aux.extractLsb' 11 5,
            cmux := s.aux.extractLsb' 8 3, dpin := s.aux.extractLsb' 3 5, dmux := s.aux.extractLsb' 0 3,
            hash := wiringHash (s.aux.extractLsb' 24 3) (s.aux.extractLsb' 11 5) (s.aux.extractLsb' 3 5) }

/-- R112, R140: `CONFIG` installs a table of prepared entries and connects entry 0's two pins, clock pin first, with `RES` 0; a
second `CONFIG`, a count out of range and an unprepared entry raise their assertions. -/
def Obligations.ConfigInstallsTheTable : Prop :=
  ∀ n : BitVec 4,
    let i := Instr.config n
    let ready := fun s : State => 1 ≤ n.toNat ∧ n.toNat ≤ 8 ∧ ∀ (j : Nat) (h : j < 8), j < n.toNat → s.arb.etab[j].prepared = true
    Runs i 0 (fun s => s.arb.configured = true) (halted 6) ∧
    Runs i 0 (fun s => s.arb.configured = false ∧ ¬ ready s) (halted 2) ∧
    Runs i 0 (fun s => s.arb.configured = false ∧ ready s) fun s =>
      let e := s.arb.etab[0]
      ended
        { s with
          res := 0,
          arb :=
            { s.arb with
              entryCount := n, configured := true, lastAddr := 0#1 ++ e.slave, lastHash := e.hash, lastIdx := 0 },
          pmux := Store.write (Store.write s.pmux (32 * e.port.toNat + e.cpin.toNat) e.cmux) (32 * e.port.toNat + e.dpin.toNat) e.dmux,
          pinTrace := s.pinTrace ++
            [{ port := e.port, pin := e.cpin, mux := e.cmux }, { port := e.port, pin := e.dpin, mux := e.dmux }] }

/-- R113: the entry that `Select` finds: the first of the installed entries with the slave's address. -/
def Sys2Proof.Machine.FirstMatch (s : State) (slave : Slave) (j : Nat) : Prop :=
  j < s.arb.entryCount.toNat ∧ (s.arb.entry j).slave = slave ∧ ∀ i, i < j → (s.arb.entry i).slave ≠ slave

/-- R113, R114 (1) to (3): `SELECT` answers 0 with nothing touched for the slave selected last, 1 with nothing touched for an
unknown slave, 0 with only the bookkeeping changed for an entry of the same wiring hash; else it takes the previous entry's
pins, if there is one, to plain input and connects the new entry's. -/
def Obligations.SelectChangesTheWiring : Prop :=
  ∀ slave : Slave,
    let i := Instr.select slave
    let fast := fun s : State => s.arb.lastAddr = 0#1 ++ s.dp.slv
    let pick := fun (j : Nat) (s : State) =>
      { s with
        res := 0,
        arb := { s.arb with lastAddr := 0#1 ++ s.dp.slv, lastHash := (s.arb.entry j).hash, lastIdx := BitVec.ofNat 8 j } }
    (Runs i 0 fast fun s => ended { s with res := 0 }) ∧
    (Runs i 0 (fun s => ¬ fast s ∧ ∀ j, j < s.arb.entryCount.toNat → (s.arb.entry j).slave ≠ s.dp.slv) fun s =>
      ended { s with res := 1 }) ∧
    ∀ j : Nat,
      (Runs i 0 (fun s => ¬ fast s ∧ FirstMatch s s.dp.slv j ∧ s.arb.lastIdx ≠ 0xFF ∧ (s.arb.entry j).hash = s.arb.lastHash)
        fun s => ended (pick j s)) ∧
      (Runs i 0 (fun s => ¬ fast s ∧ FirstMatch s s.dp.slv j ∧ s.arb.lastIdx = 0xFF) fun s =>
        let e := s.arb.entry j
        ended (pick j (pinWrite e.port e.dpin e.dmux (pinWrite e.port e.cpin e.cmux s)))) ∧
      (Runs i 0 (fun s => ¬ fast s ∧ FirstMatch s s.dp.slv j ∧ s.arb.lastIdx ≠ 0xFF ∧ (s.arb.entry j).hash ≠ s.arb.lastHash)
        fun s =>
          let e := s.arb.entry j
          let p := s.arb.entry s.arb.lastIdx.toNat
          ended (pick j (pinWrite e.port e.dpin e.dmux (pinWrite e.port e.cpin e.cmux
            (pinWrite p.port p.dpin 1 (pinWrite p.port p.cpin 1 s))))))

/-- R114 (4): in a table without colliding hashes, with the last selected entry wired, a successful `Select` leaves the pins
of the slave's first entry on that entry's mux values and the previous entry's other pins on plain input. -/
def Obligations.SelectWiresTheSlave : Prop :=
  ∀ (s : State) (slave : Slave) (j : Nat),
    ArbOk s.arb → CollisionFree s.arb → (s.arb.lastIdx ≠ 0xFF → Wired (s.arb.entry s.arb.lastIdx.toNat) s) →
    FirstMatch s slave j → ((s.arb.entry j).cpin = (s.arb.entry j).dpin → (s.arb.entry j).cmux = (s.arb.entry j).dmux) →
    let r := arbSelect slave s
    let e := s.arb.entry j
    let p := s.arb.entry s.arb.lastIdx.toNat
    r.1 = 0 ∧ Wired e r.2 ∧ r.2.arb.lastIdx.toNat = j ∧
    (s.arb.lastIdx ≠ 0xFF → ∀ pin : BitVec 5, pin = p.cpin ∨ pin = p.dpin →
      ¬ (p.port = e.port ∧ (pin = e.cpin ∨ pin = e.dpin)) → pmuxAt r.2 p.port.toNat pin.toNat = 1)

/-- R114 (5): no step changes a pin that is not a pin of an installed entry. -/
def Obligations.OnlyInstalledPinsChange : Prop :=
  ∀ s t : State, ArbOk s.arb → step s = .next t → ∀ key : Nat, Store.read t.pmux key ≠ Store.read s.pmux key →
    ∃ j, j < t.arb.entryCount.toNat ∧
      (key = 32 * (t.arb.entry j).port.toNat + (t.arb.entry j).cpin.toNat ∨
        key = 32 * (t.arb.entry j).port.toNat + (t.arb.entry j).dpin.toNat)

/-! ## The ring buffer -/

/-- Ring `k` replaced by `q`. -/
def Sys2Proof.Machine.withRing (k : Inst) (q : RingBuf) (s : State) : State :=
  { s with rb := if k = 0 then { s.rb with rx := q } else { s.rb with tx := q } }

/-- R116: `RB.INIT` accepts the powers of two from 1 to 1024 and empties the ring, its storage kept; it rejects any other
capacity with status 1 and no change. -/
def Obligations.RbInitAcceptsPowersOfTwo : Prop :=
  ∀ k : Inst,
    (∀ p : Nat, p ≤ 10 → Runs (.rbInit k) 0 (fun s => s.aux.toNat = 2 ^ p) fun s =>
      ended
        { withRing k { init := true, cap := s.aux, mask := s.aux - 1, w := 0, r := 0, st := (s.rb.get k).st } s with
          res := 0 }) ∧
    Runs (.rbInit k) 0 (fun s => ∀ p : Nat, p ≤ 10 → s.aux.toNat ≠ 2 ^ p) fun s => ended { s with res := 1 }

/-- R117: `RB.PUSH` stores the byte at the masked write index and advances the index; a full ring raises `RING_OVERRUN`. -/
def Obligations.RbPushStores : Prop :=
  ∀ (k : Inst) (byte : Byte),
    (Runs (.rbPush k byte) 0 (fun s => (s.rb.get k).init = true ∧ (s.rb.get k).held.toNat < (s.rb.get k).cap.toNat)
      fun s =>
        let q := s.rb.get k
        ended (withRing k { q with st := Store.write q.st (q.w &&& q.mask).toNat byte, w := q.w + 1 } s)) ∧
    Runs (.rbPush k byte) 0 (fun s => (s.rb.get k).init = true ∧ (s.rb.get k).cap.toNat ≤ (s.rb.get k).held.toNat)
      (halted 4)

/-- R118: `RB.POP` leaves the byte at the masked read index in `RES` and advances the index; a reader past the writer raises
`RING_READER_OUTRAN` after the index has advanced, `RES` unchanged. What a slot nothing has written gives is the free value of
the next draw (logs 13 and 14). -/
def Obligations.RbPopTakes : Prop :=
  ∀ k : Inst,
    let popped := fun s : State => withRing k { s.rb.get k with r := (s.rb.get k).r + 1 } { s with draws := s.draws + 1 }
    (Runs (.rbPop k) 0
      (fun s => (s.rb.get k).init = true ∧
        ((s.rb.get k).w - ((s.rb.get k).r + 1)).toNat ≤ (s.rb.get k).cap.toNat)
      fun s =>
        let q := s.rb.get k
        ended { popped s with res := (readByte q.st (q.r &&& q.mask).toNat s.draws).setWidth 32 }) ∧
    Runs (.rbPop k) 0
      (fun s => (s.rb.get k).init = true ∧ (s.rb.get k).cap.toNat < ((s.rb.get k).w - ((s.rb.get k).r + 1)).toNat)
      fun s => halted 3 (popped s)

/-- R119 to R124: the three queries answer; the three waits check the ring, hold while it is empty, full or not empty, and
then end. -/
def Obligations.RingQueriesAndWaits : Prop :=
  ∀ k : Inst,
    let ready := fun s : State => (s.rb.get k).init = true
    let empty := fun s : State => (s.rb.get k).w = (s.rb.get k).r
    let full := fun s : State => (s.rb.get k).cap.toNat ≤ ((s.rb.get k).w - (s.rb.get k).r).toNat
    let hold := fun (i : Instr) (c : State → Prop) =>
      Runs i 0 ready (atStep i 1) ∧ (Runs i 1 c fun s => s) ∧ Runs i 1 (fun s => ¬ c s) (atStep i 2) ∧ DoneAt i 2
    (Runs (.rbCount k) 0 ready fun s => ended { s with res := (s.rb.get k).w - (s.rb.get k).r }) ∧
    (Runs (.rbEmpty k) 0 ready fun s => ended { s with res := if (s.rb.get k).w = (s.rb.get k).r then 1 else 0 }) ∧
    (Runs (.rbFull k) 0 ready fun s =>
      ended { s with res := if (s.rb.get k).cap.toNat ≤ ((s.rb.get k).w - (s.rb.get k).r).toNat then 1 else 0 }) ∧
    hold (.rbWaitne k) empty ∧ hold (.rbWaitnf k) full ∧ hold (.rbWaite k) fun s => ¬ empty s

/-- R137 code 7, R140: every ring command but `RB.INIT` raises `RING_UNINIT` on an instance not initialised. -/
def Obligations.UninitialisedRingHalts : Prop :=
  ∀ (k : Inst) (byte : Byte) (i : Instr),
    i ∈ [.rbPush k byte, .rbPop k, .rbCount k, .rbEmpty k, .rbFull k, .rbWaitne k, .rbWaitnf k, .rbWaite k] →
    Runs i 0 (fun s => (s.rb.get k).init = false) (halted 7)

/-- R127: on an initialised empty ring, any number of pushes up to the capacity and as many pops give the pushed bytes in
order, wherever the free-running indices stand. -/
def Obligations.PoppedBytesEqualPushedBytes : Prop :=
  ∀ (k : Inst) (s : State) (bs : List Byte), s.seq = .idle → (s.rb.get k).init = true → RingOk (s.rb.get k) →
    (s.rb.get k).w = (s.rb.get k).r → bs.length ≤ (s.rb.get k).cap.toNat →
    ∃ t u, pushAll k bs s = some t ∧
      popAll k bs.length t = some (bs.map (fun b => b.setWidth 32), u) ∧ (u.rb.get k).w = (u.rb.get k).r

/-! ## The bounded FIFO -/

/-- Bounded FIFO `k` replaced by `f`. -/
def Sys2Proof.Machine.withFifo (k : Inst) (f : BoundedFifo) (s : State) : State :=
  { s with bf := if k = 0 then { s.bf with rx := f } else { s.bf with tx := f } }

/-- R130, R128, R129: `BF.ENQ` copies as many bytes of `XBUF` as fit, in two segments, and answers their number; a full FIFO
takes nothing. What a byte nothing has written gives is the free value of the next draw (logs 13 and 14). -/
def Obligations.BfEnqCopiesIn : Prop :=
  ∀ (k : Inst) (n : BitVec 16),
    (Runs (.bfEnq k n) 0 (fun s => (s.bf.get k).full = true) fun s => ended { s with res := 0 }) ∧
    Runs (.bfEnq k n) 0 (fun s => (s.bf.get k).full = false) fun s =>
      let f := s.bf.get k
      let held := if f.rc.toNat ≤ f.wc.toNat then f.wc.toNat - f.rc.toNat else 1024 - (f.rc.toNat - f.wc.toNat)
      let m := min n.toNat (1024 - held)
      let s1 := min m (1024 - f.wc.toNat)
      let bytes := readBytes s.mem 0x400 m s.draws
      let wc := BitVec.ofNat 10 (f.wc.toNat + m)
      ended
        { withFifo k
            { st := writeBytes (writeBytes f.st f.wc.toNat (bytes.take s1)) 0 (bytes.drop s1), wc := wc, rc := f.rc,
              full := decide (0 < m ∧ wc = f.rc), count := BitVec.ofNat 11 (held + m) } s with
          draws := s.draws + m, res := BitVec.ofNat 32 m }

/-- R131, R128, R129: `BF.DEQ` copies as many bytes to `XBUF` as are held, in two segments, and answers their number; an
empty FIFO gives nothing. What a byte nothing has written gives is the free value of the next draw (logs 13 and 14). -/
def Obligations.BfDeqCopiesOut : Prop :=
  ∀ (k : Inst) (n : BitVec 16),
    (Runs (.bfDeq k n) 0 (fun s => (s.bf.get k).length = 0) fun s => ended { s with res := 0 }) ∧
    Runs (.bfDeq k n) 0 (fun s => (s.bf.get k).length ≠ 0) fun s =>
      let f := s.bf.get k
      let m := min n.toNat f.length
      let s1 := min m (1024 - f.rc.toNat)
      let bytes := readBytes f.st f.rc.toNat s1 s.draws ++ readBytes f.st 0 (m - s1) (s.draws + s1)
      ended
        { withFifo k
            { f with
              rc := BitVec.ofNat 10 (f.rc.toNat + m), full := if 0 < m then false else f.full,
              count := BitVec.ofNat 11 (f.length - m) } s with
          mem := writeBytes s.mem 0x400 bytes, draws := s.draws + m, res := BitVec.ofNat 32 m }

/-- R128, R132, R133: `BF.LEN` answers the length by the rule's three arms, `BF.FULL` the flag. -/
def Obligations.BfQueriesAnswer : Prop :=
  ∀ k : Inst,
    (Runs (.bfLen k) 0 (fun s => (s.bf.get k).full = true) fun s => ended { s with res := 1024 }) ∧
    (Runs (.bfLen k) 0 (fun s => (s.bf.get k).full = false ∧ (s.bf.get k).rc.toNat ≤ (s.bf.get k).wc.toNat) fun s =>
      ended { s with res := ((s.bf.get k).wc - (s.bf.get k).rc).setWidth 32 }) ∧
    (Runs (.bfLen k) 0 (fun s => (s.bf.get k).full = false ∧ (s.bf.get k).wc.toNat < (s.bf.get k).rc.toNat) fun s =>
      ended { s with res := 1024 - ((s.bf.get k).rc - (s.bf.get k).wc).setWidth 32 }) ∧
    Runs (.bfFull k) 0 anyState fun s => ended { s with res := if (s.bf.get k).full then 1 else 0 }

/-- R135 (3): what `BF.ENQ k, a` takes from `XBUF` into an empty FIFO, `BF.DEQ k, a` brings back into `XBUF`, whatever HOST has
written there in between, wherever the cursors stand. A byte of `XBUF` that nothing has written does not stop the enqueue: it
gives a free value (logs 13 and 14), of which nothing is said here. -/
def Obligations.EnqueuedBytesComeBack : Prop :=
  ∀ (k : Inst) (s : State) (a : BitVec 16) (between : Memory), s.seq = .idle → FifoOk (s.bf.get k) →
    (s.bf.get k).length = 0 → a.toNat ≤ 1024 →
    ∃ t u, runOne (.bfEnq k a) s = .next t ∧ t.res = a.setWidth 32 ∧
      runOne (.bfDeq k a) { t with mem := between } = .next u ∧ u.res = a.setWidth 32 ∧ (u.bf.get k).length = 0 ∧
      ∀ (j : Nat) (b : Byte), j < a.toNat → Store.read s.mem (0x400 + j) = some b → Store.read u.mem (0x400 + j) = some b

/-! ## BUS, LINK, RESET and HALT -/

/-- R54, R55, R57, R58: what BUS does, each step only where its rule enables it: a byte completes, another master takes or
releases the bus, another master wins arbitration. Where the rule of its step does not enable it, the turn leaves the state as
it is: that is the model's choice (log 2). -/
def Obligations.BusSteps : Prop :=
  (∀ (s : State) (b : Byte) (a : Ack), s.xfer = .tx b →
    takeTurn (.busTx a) s =
      .next
        { s with
          busTrace := s.busTrace ++ [.txb b a], stat := { s.stat with rxak := decide (a = .nack), ifl := true },
          xfer := .none }) ∧
  (∀ (s : State) (a : Ack), (∀ b : Byte, s.xfer ≠ .tx b) → takeTurn (.busTx a) s = .next s) ∧
  (∀ (s : State) (m : Ack) (d : Byte), s.xfer = .rx m →
    takeTurn (.busRx d) s =
      .next
        { s with dbuf := d, busTrace := s.busTrace ++ [.rxb d m], stat := { s.stat with ifl := true }, xfer := .none }) ∧
  (∀ (s : State) (d : Byte), (∀ m : Ack, s.xfer ≠ .rx m) → takeTurn (.busRx d) s = .next s) ∧
  (∀ (s : State) (taken : Bool),
    (s.params.multiMaster = true → s.ctrl.mst = false →
      takeTurn (.busBusy taken) s = .next { s with stat := { s.stat with busy := taken } }) ∧
    (s.params.multiMaster = false ∨ s.ctrl.mst = true → takeTurn (.busBusy taken) s = .next s)) ∧
  ∀ s : State,
    (s.params.multiMaster = true → s.ctrl.mst = true →
      takeTurn .busArbLost s =
        .next
          { s with
            stat := { s.stat with arbl := true, ifl := true }, ctrl := { s.ctrl with mst := false }, xfer := .none }) ∧
    (s.params.multiMaster = false ∨ s.ctrl.mst = false → takeTurn .busArbLost s = .next s)

/-- R125, R126: LINK's two handlers in variant A. The count of draws and the turn without a step are the model's (logs 2, 13
and 14). -/
def Obligations.LinkServesTheRings : Prop :=
  ∀ s : State, s.params.variant = .a → s.imask = false → s.seq ≠ .halt →
    (∀ b : Byte,
      (s.rb.rx.init = false ∨ s.rb.rx.cap.toNat ≤ (s.rb.rx.w - s.rb.rx.r).toNat → takeTurn (.linkRx b) s = .next s) ∧
      (s.rb.rx.init = true → (s.rb.rx.w - s.rb.rx.r).toNat < s.rb.rx.cap.toNat →
        takeTurn (.linkRx b) s =
          .next (withRing 0
            { s.rb.rx with st := Store.write s.rb.rx.st (s.rb.rx.w &&& s.rb.rx.mask).toNat b, w := s.rb.rx.w + 1 } s))) ∧
    (s.txie = false → takeTurn .linkTx s = .next s) ∧
    (s.txie = true → s.rb.tx.init = false ∨ s.rb.tx.w = s.rb.tx.r → takeTurn .linkTx s = .next { s with txie := false }) ∧
    (s.txie = true → s.rb.tx.init = true → s.rb.tx.w ≠ s.rb.tx.r →
      takeTurn .linkTx s =
        .next
          { withRing 1 { s.rb.tx with r := s.rb.tx.r + 1 } s with
            linkOut := s.linkOut ++ [readByte s.rb.tx.st (s.rb.tx.r &&& s.rb.tx.mask).toNat s.draws],
            draws := s.draws + 1, txie := decide (s.rb.tx.w ≠ s.rb.tx.r + 1) })

/-- R134: LINK's two handlers in variant B, on FIFOs that satisfy the state invariant; the transmit event is enabled only while
`TXIE` is 1. The count of draws and the turn without
a step are the model's (logs 2, 13 and 14). -/
def Obligations.LinkServesTheFifos : Prop :=
  ∀ s : State, s.params.variant = .b → s.imask = false → s.seq ≠ .halt → FifosOk s →
    (∀ b : Byte,
      (s.bf.rx.full = true → takeTurn (.linkRx b) s = .next s) ∧
      (s.bf.rx.full = false →
        takeTurn (.linkRx b) s =
          .next (withFifo 0
            { s.bf.rx with
              st := Store.write s.bf.rx.st s.bf.rx.wc.toNat b, wc := s.bf.rx.wc + 1,
              full := decide (s.bf.rx.wc + 1 = s.bf.rx.rc), count := s.bf.rx.count + 1 } s))) ∧
    (s.txie = false → takeTurn .linkTx s = .next s) ∧
    (s.txie = true → s.bf.tx.length = 0 → takeTurn .linkTx s = .next { s with txie := false }) ∧
    (s.txie = true → s.bf.tx.length ≠ 0 →
      takeTurn .linkTx s =
        .next
          { withFifo 1 { s.bf.tx with full := false, rc := s.bf.tx.rc + 1, count := s.bf.tx.count - 1 } s with
            linkOut := s.linkOut ++ [readByte s.bf.tx.st s.bf.tx.rc.toNat s.draws], draws := s.draws + 1,
            txie := decide (s.bf.tx.length ≠ 1) })

/-- R143, R32: in either variant LINK touches nothing but the RX buffer by its receive event, and the TX buffer, `TXIE` and
its byte sink by its transmit event; it has no step while masked or halted (a turn
without a step leaves the state as it is: log 2). -/
def Obligations.LinkTouchesOnlyItsFifos : Prop :=
  ∀ s : State,
    (∀ b : Byte, ∃ (q : RingBuf) (f : BoundedFifo),
      takeTurn (.linkRx b) s = .next { s with rb := { s.rb with rx := q }, bf := { s.bf with rx := f } } ∧
      q.r = s.rb.rx.r ∧ f.rc = s.bf.rx.rc) ∧
    (∃ (q : RingBuf) (f : BoundedFifo) (on : Bool) (out : List Byte) (n : Nat),
      takeTurn .linkTx s =
        .next
          { s with
            rb := { s.rb with tx := q }, bf := { s.bf with tx := f }, txie := on, linkOut := s.linkOut ++ out,
            draws := n } ∧
      (on = true → s.txie = true) ∧ q.w = s.rb.tx.w ∧ q.st = s.rb.tx.st ∧ f.wc = s.bf.tx.wc ∧ f.st = s.bf.tx.st) ∧
    (s.imask = true ∨ s.seq = .halt → ∀ b : Byte, takeTurn (.linkRx b) s = .next s ∧ takeTurn .linkTx s = .next s)

/-- R149, R42: from any state, `HALT` and the middle of a command included, RESET leaves every piece of the block's state at
its reset value, with the pin-mux map as it was. -/
def Obligations.ResetLeavesTheResetState : Prop :=
  ∀ s : State, ∃ t, takeTurn .reset s = .next t ∧
    t.cmd = 0 ∧ t.aux = 0 ∧ t.res = 0 ∧ t.seq = .idle ∧ t.div = 0 ∧ t.ctrl = { mst := false, tx := false, txak := false } ∧
    t.stat = { busy := false, arbl := false, ifl := false, rxak := false } ∧ t.dbuf = 0 ∧ t.xfer = .none ∧
    t.esr = { fatal := false, recov := false, fcode := 0 } ∧ t.lockcnt = 0 ∧ t.txie = false ∧ t.imask = false ∧
    (∀ (j : Nat) (h : j < 8), t.arb.etab[j].prepared = false) ∧ t.arb.entryCount = 0 ∧ t.arb.configured = false ∧
    t.arb.lastAddr = 0xFF ∧ t.arb.lastHash = 0 ∧ t.arb.lastIdx = 0xFF ∧
    (∀ k : Inst, (t.rb.get k).init = false ∧ (t.rb.get k).cap = 0 ∧ (t.rb.get k).mask = 0 ∧ (t.rb.get k).w = 0 ∧
      (t.rb.get k).r = 0) ∧
    (∀ k : Inst, (t.bf.get k).wc = 0 ∧ (t.bf.get k).rc = 0 ∧ (t.bf.get k).full = false ∧ (t.bf.get k).count = 0) ∧
    t.busTrace = [] ∧ t.pinTrace = [] ∧ t.pmux = s.pmux

/-- R138, R139, R33: `HALT` is final: short of a reset every step from it leaves `SEQ`, `ESR`, `CMD`, `AUX`, `RES`, the datapath
registers, `DIV`, `TX` and `TXAK` of `CTRL`, `LOCKCNT`, `TXIE`, the arbiter's table, the pin-mux, the memories and LINK's FIFOs as
they are. BUS goes on: it may change `STAT`, `DBUF`, `XFER` and the bus trace, and with other masters `CTRL.MST`; no step of
another agent changes `CTRL`, `STAT`, `DBUF` or the bus trace (HOST's read of `DATA` may still start a byte: log 20). With
nothing left for HOST and the environment to do the run is finished, the stop `halted` (log 4), exactly where no byte is in
flight; a run with one is not over (log 33). -/
def Obligations.HaltIsFinal : Prop :=
  (∀ s : State, s.seq = .halt → s.agenda = [] → s.host = [] →
    (s.xfer = .none → step s = .fault .halted) ∧ (s.xfer ≠ .none → step s = .next s)) ∧
  ∀ s t : State, s.seq = .halt → s.agenda.head? ≠ some .reset → step s = .next t →
    t.seq = .halt ∧ t.esr = s.esr ∧ t.cmd = s.cmd ∧ t.aux = s.aux ∧ t.res = s.res ∧ t.dp = s.dp ∧ t.div = s.div ∧
    t.ctrl.tx = s.ctrl.tx ∧ t.ctrl.txak = s.ctrl.txak ∧ (s.params.multiMaster = false → t.ctrl = s.ctrl) ∧
    t.lockcnt = s.lockcnt ∧ t.txie = s.txie ∧ t.imask = s.imask ∧ t.arb = s.arb ∧ t.pmux = s.pmux ∧
    t.pinTrace = s.pinTrace ∧ t.rb = s.rb ∧ t.bf = s.bf ∧ t.mem = s.mem ∧ t.linkOut = s.linkOut ∧
    match s.agenda.head? with
    | some (.busTx _) | some (.busRx _) | some (.busBusy _) | some .busArbLost => True
    | _ => t.ctrl = s.ctrl ∧ t.stat = s.stat ∧ t.dbuf = s.dbuf ∧ t.busTrace = s.busTrace

/-- R24, R30, R98, R99, R144: `RECOV` is set by the timeout of `WAITB` and by `RESETBUS` and by nothing else; short of a reset
`LOCKCNT` changes only where `WAITB` zeroes it or counts a poll. -/
def Obligations.RecoveryStatusChangesOnlyInItsCommands : Prop :=
  (∀ s t : State, step s = .next t → s.esr.recov = false → t.esr.recov = true →
    s.seq = .run 0x18 4 ∨ s.seq = .run 0x17 2) ∧
  ∀ s t : State, s.agenda.head? ≠ some .reset → step s = .next t → t.lockcnt ≠ s.lockcnt →
    (s.seq = .run 0x18 0 ∧ t.lockcnt = 0) ∨ (s.seq = .run 0x18 2 ∧ t.lockcnt = s.lockcnt + 1)

/-- R20: a command that does not name `RES` in its rule leaves `RES` unchanged, at every micro-step. -/
def Obligations.OtherCommandsKeepRes : Prop :=
  ∀ (i : Instr) (s t : State), exec i s = .next t →
    (match i with
      | .st .. | .aand .. | .aor .. | .axor .. | .bfi .. | .waitbusy | .start | .sendb _ | .rstart | .rxmode _ | .drvclk | .stop
      | .resetbus | .waitb | .wrreg .. | .prep .. | .rbPush .. | .rbWaitne _ | .rbWaitnf _ | .rbWaite _ => True
      | _ => False) →
    t.res = s.res

/-! ## Invariants that every step keeps -/

/-- All the invariants hold in the state after reset. -/
def Obligations.ResetStateIsGood : Prop :=
  SeqOk State.reset ∧ HaltOk State.reset ∧ LockOk State.reset ∧ RingsOk State.reset ∧ FifosOk State.reset ∧
    MemoriesOk State.reset ∧ BusOk State.reset ∧ XferOk State.reset ∧ MaskOk State.reset ∧ ArbOk State.reset.arb ∧
    OperandsOk State.reset

/-- R21, R22, R23, R67: SEQ stands at a micro-step of the command in `CMD`, and the datapath registers, the masks of `MODREG`
among them, hold that command's operands throughout; short of a reset a step under a running command leaves `CMD` as it is,
and while the command goes on it is the same command and `AUX` is as it was. -/
def Obligations.EveryStepKeepsCommand : Prop :=
  ∀ s t : State, SeqOk s → OperandsOk s → step s = .next t →
    SeqOk t ∧ OperandsOk t ∧
      ∀ op k, s.seq = .run op k → s.agenda.head? ≠ some .reset →
        t.cmd = s.cmd ∧ ∀ op' k', t.seq = .run op' k' → op' = op ∧ t.aux = s.aux

/-- R29, R30, R138, R139: `HALT`, `FATAL` and `FCODE` stay together, and `LOCKCNT` never exceeds 200. -/
def Obligations.EveryStepKeepsStatus : Prop :=
  ∀ s t : State, HaltOk s → LockOk s → step s = .next t → HaltOk t ∧ LockOk t

/-- R38, R39, R116, R127, R128: an initialised ring keeps a power-of-two capacity, its mask, and at most that many bytes; in a
bounded FIFO `full` implies equal cursors and `count` is the length. -/
def Obligations.EveryStepKeepsBuffers : Prop :=
  ∀ s t : State, RingsOk s → FifosOk s → step s = .next t → RingsOk t ∧ FifosOk t

/-- The memories keep the model's canonical form (log 13). -/
def Obligations.EveryStepKeepsMemories : Prop := ∀ s t : State, MemoriesOk s → step s = .next t → MemoriesOk t

/-- R57, R50, U9: with no other master, `BUSY` is 1 exactly while the block is master and `ARBL` is never set; a byte is in
flight only while the block is master. -/
def Obligations.EveryStepKeepsBus : Prop :=
  ∀ s t : State, BusOk s → XferOk s → step s = .next t → BusOk t ∧ XferOk t

/-- R35, R36, R110 to R113: the arbiter's table and memo stay consistent, and the interrupt mask is clear between steps
(R129). -/
def Obligations.EveryStepKeepsArbiterAndMask : Prop :=
  ∀ s t : State, ArbOk s.arb → MaskOk s → step s = .next t → ArbOk t.arb ∧ MaskOk t

end
end

