-- ==== Sys2Proof/Laws/State.lean ====
section
/-! SUPPORT. One lemma per field per update of the state, true by rfl, so that no later proof unfolds a record update. -/

namespace Sys2Proof.Machine

/-! ## `State.advance` -/

@[simp] theorem advance_cmd (s : State) : (s.advance).cmd = s.cmd := rfl
@[simp] theorem advance_aux (s : State) : (s.advance).aux = s.aux := rfl
@[simp] theorem advance_res (s : State) : (s.advance).res = s.res := rfl
@[simp] theorem advance_dp (s : State) : (s.advance).dp = s.dp := rfl
@[simp] theorem advance_seq (s : State) : (s.advance).seq = s.seq.next := rfl
@[simp] theorem advance_div (s : State) : (s.advance).div = s.div := rfl
@[simp] theorem advance_ctrl (s : State) : (s.advance).ctrl = s.ctrl := rfl
@[simp] theorem advance_stat (s : State) : (s.advance).stat = s.stat := rfl
@[simp] theorem advance_dbuf (s : State) : (s.advance).dbuf = s.dbuf := rfl
@[simp] theorem advance_esr (s : State) : (s.advance).esr = s.esr := rfl
@[simp] theorem advance_lockcnt (s : State) : (s.advance).lockcnt = s.lockcnt := rfl
@[simp] theorem advance_txie (s : State) : (s.advance).txie = s.txie := rfl
@[simp] theorem advance_imask (s : State) : (s.advance).imask = s.imask := rfl
@[simp] theorem advance_xfer (s : State) : (s.advance).xfer = s.xfer := rfl
@[simp] theorem advance_arb (s : State) : (s.advance).arb = s.arb := rfl
@[simp] theorem advance_pmux (s : State) : (s.advance).pmux = s.pmux := rfl
@[simp] theorem advance_rb (s : State) : (s.advance).rb = s.rb := rfl
@[simp] theorem advance_bf (s : State) : (s.advance).bf = s.bf := rfl
@[simp] theorem advance_mem (s : State) : (s.advance).mem = s.mem := rfl
@[simp] theorem advance_busTrace (s : State) : (s.advance).busTrace = s.busTrace := rfl
@[simp] theorem advance_pinTrace (s : State) : (s.advance).pinTrace = s.pinTrace := rfl
@[simp] theorem advance_linkOut (s : State) : (s.advance).linkOut = s.linkOut := rfl
@[simp] theorem advance_params (s : State) : (s.advance).params = s.params := rfl
@[simp] theorem advance_agenda (s : State) : (s.advance).agenda = s.agenda := rfl
@[simp] theorem advance_host (s : State) : (s.advance).host = s.host := rfl
@[simp] theorem advance_hostLog (s : State) : (s.advance).hostLog = s.hostLog := rfl
@[simp] theorem advance_draws (s : State) : (s.advance).draws = s.draws := rfl

/-! ## `State.goto` -/

@[simp] theorem goto_cmd (k : BitVec 6) (s : State) : (s.goto k).cmd = s.cmd := rfl
@[simp] theorem goto_aux (k : BitVec 6) (s : State) : (s.goto k).aux = s.aux := rfl
@[simp] theorem goto_res (k : BitVec 6) (s : State) : (s.goto k).res = s.res := rfl
@[simp] theorem goto_dp (k : BitVec 6) (s : State) : (s.goto k).dp = s.dp := rfl
@[simp] theorem goto_seq (k : BitVec 6) (s : State) : (s.goto k).seq = s.seq.at k := rfl
@[simp] theorem goto_div (k : BitVec 6) (s : State) : (s.goto k).div = s.div := rfl
@[simp] theorem goto_ctrl (k : BitVec 6) (s : State) : (s.goto k).ctrl = s.ctrl := rfl
@[simp] theorem goto_stat (k : BitVec 6) (s : State) : (s.goto k).stat = s.stat := rfl
@[simp] theorem goto_dbuf (k : BitVec 6) (s : State) : (s.goto k).dbuf = s.dbuf := rfl
@[simp] theorem goto_esr (k : BitVec 6) (s : State) : (s.goto k).esr = s.esr := rfl
@[simp] theorem goto_lockcnt (k : BitVec 6) (s : State) : (s.goto k).lockcnt = s.lockcnt := rfl
@[simp] theorem goto_txie (k : BitVec 6) (s : State) : (s.goto k).txie = s.txie := rfl
@[simp] theorem goto_imask (k : BitVec 6) (s : State) : (s.goto k).imask = s.imask := rfl
@[simp] theorem goto_xfer (k : BitVec 6) (s : State) : (s.goto k).xfer = s.xfer := rfl
@[simp] theorem goto_arb (k : BitVec 6) (s : State) : (s.goto k).arb = s.arb := rfl
@[simp] theorem goto_pmux (k : BitVec 6) (s : State) : (s.goto k).pmux = s.pmux := rfl
@[simp] theorem goto_rb (k : BitVec 6) (s : State) : (s.goto k).rb = s.rb := rfl
@[simp] theorem goto_bf (k : BitVec 6) (s : State) : (s.goto k).bf = s.bf := rfl
@[simp] theorem goto_mem (k : BitVec 6) (s : State) : (s.goto k).mem = s.mem := rfl
@[simp] theorem goto_busTrace (k : BitVec 6) (s : State) : (s.goto k).busTrace = s.busTrace := rfl
@[simp] theorem goto_pinTrace (k : BitVec 6) (s : State) : (s.goto k).pinTrace = s.pinTrace := rfl
@[simp] theorem goto_linkOut (k : BitVec 6) (s : State) : (s.goto k).linkOut = s.linkOut := rfl
@[simp] theorem goto_params (k : BitVec 6) (s : State) : (s.goto k).params = s.params := rfl
@[simp] theorem goto_agenda (k : BitVec 6) (s : State) : (s.goto k).agenda = s.agenda := rfl
@[simp] theorem goto_host (k : BitVec 6) (s : State) : (s.goto k).host = s.host := rfl
@[simp] theorem goto_hostLog (k : BitVec 6) (s : State) : (s.goto k).hostLog = s.hostLog := rfl
@[simp] theorem goto_draws (k : BitVec 6) (s : State) : (s.goto k).draws = s.draws := rfl

/-! ## `State.finish` -/

@[simp] theorem finish_cmd (s : State) : (s.finish).cmd = s.cmd := rfl
@[simp] theorem finish_aux (s : State) : (s.finish).aux = s.aux := rfl
@[simp] theorem finish_res (s : State) : (s.finish).res = s.res := rfl
@[simp] theorem finish_dp (s : State) : (s.finish).dp = s.dp := rfl
@[simp] theorem finish_seq (s : State) : (s.finish).seq = .idle := rfl
@[simp] theorem finish_div (s : State) : (s.finish).div = s.div := rfl
@[simp] theorem finish_ctrl (s : State) : (s.finish).ctrl = s.ctrl := rfl
@[simp] theorem finish_stat (s : State) : (s.finish).stat = s.stat := rfl
@[simp] theorem finish_dbuf (s : State) : (s.finish).dbuf = s.dbuf := rfl
@[simp] theorem finish_esr (s : State) : (s.finish).esr = s.esr := rfl
@[simp] theorem finish_lockcnt (s : State) : (s.finish).lockcnt = s.lockcnt := rfl
@[simp] theorem finish_txie (s : State) : (s.finish).txie = s.txie := rfl
@[simp] theorem finish_imask (s : State) : (s.finish).imask = s.imask := rfl
@[simp] theorem finish_xfer (s : State) : (s.finish).xfer = s.xfer := rfl
@[simp] theorem finish_arb (s : State) : (s.finish).arb = s.arb := rfl
@[simp] theorem finish_pmux (s : State) : (s.finish).pmux = s.pmux := rfl
@[simp] theorem finish_rb (s : State) : (s.finish).rb = s.rb := rfl
@[simp] theorem finish_bf (s : State) : (s.finish).bf = s.bf := rfl
@[simp] theorem finish_mem (s : State) : (s.finish).mem = s.mem := rfl
@[simp] theorem finish_busTrace (s : State) : (s.finish).busTrace = s.busTrace := rfl
@[simp] theorem finish_pinTrace (s : State) : (s.finish).pinTrace = s.pinTrace := rfl
@[simp] theorem finish_linkOut (s : State) : (s.finish).linkOut = s.linkOut := rfl
@[simp] theorem finish_params (s : State) : (s.finish).params = s.params := rfl
@[simp] theorem finish_agenda (s : State) : (s.finish).agenda = s.agenda := rfl
@[simp] theorem finish_host (s : State) : (s.finish).host = s.host := rfl
@[simp] theorem finish_hostLog (s : State) : (s.finish).hostLog = s.hostLog := rfl
@[simp] theorem finish_draws (s : State) : (s.finish).draws = s.draws := rfl

/-! ## `State.setRes` -/

@[simp] theorem setRes_cmd (v : Word) (s : State) : (s.setRes v).cmd = s.cmd := rfl
@[simp] theorem setRes_aux (v : Word) (s : State) : (s.setRes v).aux = s.aux := rfl
@[simp] theorem setRes_res (v : Word) (s : State) : (s.setRes v).res = v := rfl
@[simp] theorem setRes_dp (v : Word) (s : State) : (s.setRes v).dp = s.dp := rfl
@[simp] theorem setRes_seq (v : Word) (s : State) : (s.setRes v).seq = s.seq := rfl
@[simp] theorem setRes_div (v : Word) (s : State) : (s.setRes v).div = s.div := rfl
@[simp] theorem setRes_ctrl (v : Word) (s : State) : (s.setRes v).ctrl = s.ctrl := rfl
@[simp] theorem setRes_stat (v : Word) (s : State) : (s.setRes v).stat = s.stat := rfl
@[simp] theorem setRes_dbuf (v : Word) (s : State) : (s.setRes v).dbuf = s.dbuf := rfl
@[simp] theorem setRes_esr (v : Word) (s : State) : (s.setRes v).esr = s.esr := rfl
@[simp] theorem setRes_lockcnt (v : Word) (s : State) : (s.setRes v).lockcnt = s.lockcnt := rfl
@[simp] theorem setRes_txie (v : Word) (s : State) : (s.setRes v).txie = s.txie := rfl
@[simp] theorem setRes_imask (v : Word) (s : State) : (s.setRes v).imask = s.imask := rfl
@[simp] theorem setRes_xfer (v : Word) (s : State) : (s.setRes v).xfer = s.xfer := rfl
@[simp] theorem setRes_arb (v : Word) (s : State) : (s.setRes v).arb = s.arb := rfl
@[simp] theorem setRes_pmux (v : Word) (s : State) : (s.setRes v).pmux = s.pmux := rfl
@[simp] theorem setRes_rb (v : Word) (s : State) : (s.setRes v).rb = s.rb := rfl
@[simp] theorem setRes_bf (v : Word) (s : State) : (s.setRes v).bf = s.bf := rfl
@[simp] theorem setRes_mem (v : Word) (s : State) : (s.setRes v).mem = s.mem := rfl
@[simp] theorem setRes_busTrace (v : Word) (s : State) : (s.setRes v).busTrace = s.busTrace := rfl
@[simp] theorem setRes_pinTrace (v : Word) (s : State) : (s.setRes v).pinTrace = s.pinTrace := rfl
@[simp] theorem setRes_linkOut (v : Word) (s : State) : (s.setRes v).linkOut = s.linkOut := rfl
@[simp] theorem setRes_params (v : Word) (s : State) : (s.setRes v).params = s.params := rfl
@[simp] theorem setRes_agenda (v : Word) (s : State) : (s.setRes v).agenda = s.agenda := rfl
@[simp] theorem setRes_host (v : Word) (s : State) : (s.setRes v).host = s.host := rfl
@[simp] theorem setRes_hostLog (v : Word) (s : State) : (s.setRes v).hostLog = s.hostLog := rfl
@[simp] theorem setRes_draws (v : Word) (s : State) : (s.setRes v).draws = s.draws := rfl

/-! ## `State.raise` -/

@[simp] theorem raise_cmd (c : FatalCode) (s : State) : (s.raise c).cmd = s.cmd := rfl
@[simp] theorem raise_aux (c : FatalCode) (s : State) : (s.raise c).aux = s.aux := rfl
@[simp] theorem raise_res (c : FatalCode) (s : State) : (s.raise c).res = s.res := rfl
@[simp] theorem raise_dp (c : FatalCode) (s : State) : (s.raise c).dp = s.dp := rfl
@[simp] theorem raise_seq (c : FatalCode) (s : State) : (s.raise c).seq = .halt := rfl
@[simp] theorem raise_div (c : FatalCode) (s : State) : (s.raise c).div = s.div := rfl
@[simp] theorem raise_ctrl (c : FatalCode) (s : State) : (s.raise c).ctrl = s.ctrl := rfl
@[simp] theorem raise_stat (c : FatalCode) (s : State) : (s.raise c).stat = s.stat := rfl
@[simp] theorem raise_dbuf (c : FatalCode) (s : State) : (s.raise c).dbuf = s.dbuf := rfl
@[simp] theorem raise_esr (c : FatalCode) (s : State) : (s.raise c).esr = { s.esr with fatal := true, fcode := c.code } := rfl
@[simp] theorem raise_lockcnt (c : FatalCode) (s : State) : (s.raise c).lockcnt = s.lockcnt := rfl
@[simp] theorem raise_txie (c : FatalCode) (s : State) : (s.raise c).txie = s.txie := rfl
@[simp] theorem raise_imask (c : FatalCode) (s : State) : (s.raise c).imask = s.imask := rfl
@[simp] theorem raise_xfer (c : FatalCode) (s : State) : (s.raise c).xfer = s.xfer := rfl
@[simp] theorem raise_arb (c : FatalCode) (s : State) : (s.raise c).arb = s.arb := rfl
@[simp] theorem raise_pmux (c : FatalCode) (s : State) : (s.raise c).pmux = s.pmux := rfl
@[simp] theorem raise_rb (c : FatalCode) (s : State) : (s.raise c).rb = s.rb := rfl
@[simp] theorem raise_bf (c : FatalCode) (s : State) : (s.raise c).bf = s.bf := rfl
@[simp] theorem raise_mem (c : FatalCode) (s : State) : (s.raise c).mem = s.mem := rfl
@[simp] theorem raise_busTrace (c : FatalCode) (s : State) : (s.raise c).busTrace = s.busTrace := rfl
@[simp] theorem raise_pinTrace (c : FatalCode) (s : State) : (s.raise c).pinTrace = s.pinTrace := rfl
@[simp] theorem raise_linkOut (c : FatalCode) (s : State) : (s.raise c).linkOut = s.linkOut := rfl
@[simp] theorem raise_params (c : FatalCode) (s : State) : (s.raise c).params = s.params := rfl
@[simp] theorem raise_agenda (c : FatalCode) (s : State) : (s.raise c).agenda = s.agenda := rfl
@[simp] theorem raise_host (c : FatalCode) (s : State) : (s.raise c).host = s.host := rfl
@[simp] theorem raise_hostLog (c : FatalCode) (s : State) : (s.raise c).hostLog = s.hostLog := rfl
@[simp] theorem raise_draws (c : FatalCode) (s : State) : (s.raise c).draws = s.draws := rfl

/-! ## `State.emit` -/

@[simp] theorem emit_cmd (e : BusEvent) (s : State) : (s.emit e).cmd = s.cmd := rfl
@[simp] theorem emit_aux (e : BusEvent) (s : State) : (s.emit e).aux = s.aux := rfl
@[simp] theorem emit_res (e : BusEvent) (s : State) : (s.emit e).res = s.res := rfl
@[simp] theorem emit_dp (e : BusEvent) (s : State) : (s.emit e).dp = s.dp := rfl
@[simp] theorem emit_seq (e : BusEvent) (s : State) : (s.emit e).seq = s.seq := rfl
@[simp] theorem emit_div (e : BusEvent) (s : State) : (s.emit e).div = s.div := rfl
@[simp] theorem emit_ctrl (e : BusEvent) (s : State) : (s.emit e).ctrl = s.ctrl := rfl
@[simp] theorem emit_stat (e : BusEvent) (s : State) : (s.emit e).stat = s.stat := rfl
@[simp] theorem emit_dbuf (e : BusEvent) (s : State) : (s.emit e).dbuf = s.dbuf := rfl
@[simp] theorem emit_esr (e : BusEvent) (s : State) : (s.emit e).esr = s.esr := rfl
@[simp] theorem emit_lockcnt (e : BusEvent) (s : State) : (s.emit e).lockcnt = s.lockcnt := rfl
@[simp] theorem emit_txie (e : BusEvent) (s : State) : (s.emit e).txie = s.txie := rfl
@[simp] theorem emit_imask (e : BusEvent) (s : State) : (s.emit e).imask = s.imask := rfl
@[simp] theorem emit_xfer (e : BusEvent) (s : State) : (s.emit e).xfer = s.xfer := rfl
@[simp] theorem emit_arb (e : BusEvent) (s : State) : (s.emit e).arb = s.arb := rfl
@[simp] theorem emit_pmux (e : BusEvent) (s : State) : (s.emit e).pmux = s.pmux := rfl
@[simp] theorem emit_rb (e : BusEvent) (s : State) : (s.emit e).rb = s.rb := rfl
@[simp] theorem emit_bf (e : BusEvent) (s : State) : (s.emit e).bf = s.bf := rfl
@[simp] theorem emit_mem (e : BusEvent) (s : State) : (s.emit e).mem = s.mem := rfl
@[simp] theorem emit_busTrace (e : BusEvent) (s : State) : (s.emit e).busTrace = s.busTrace ++ [e] := rfl
@[simp] theorem emit_pinTrace (e : BusEvent) (s : State) : (s.emit e).pinTrace = s.pinTrace := rfl
@[simp] theorem emit_linkOut (e : BusEvent) (s : State) : (s.emit e).linkOut = s.linkOut := rfl
@[simp] theorem emit_params (e : BusEvent) (s : State) : (s.emit e).params = s.params := rfl
@[simp] theorem emit_agenda (e : BusEvent) (s : State) : (s.emit e).agenda = s.agenda := rfl
@[simp] theorem emit_host (e : BusEvent) (s : State) : (s.emit e).host = s.host := rfl
@[simp] theorem emit_hostLog (e : BusEvent) (s : State) : (s.emit e).hostLog = s.hostLog := rfl
@[simp] theorem emit_draws (e : BusEvent) (s : State) : (s.emit e).draws = s.draws := rfl

/-! ## `State.setRing` -/

@[simp] theorem setRing_cmd (k : Inst) (q : RingBuf) (s : State) : (s.setRing k q).cmd = s.cmd := rfl
@[simp] theorem setRing_aux (k : Inst) (q : RingBuf) (s : State) : (s.setRing k q).aux = s.aux := rfl
@[simp] theorem setRing_res (k : Inst) (q : RingBuf) (s : State) : (s.setRing k q).res = s.res := rfl
@[simp] theorem setRing_dp (k : Inst) (q : RingBuf) (s : State) : (s.setRing k q).dp = s.dp := rfl
@[simp] theorem setRing_seq (k : Inst) (q : RingBuf) (s : State) : (s.setRing k q).seq = s.seq := rfl
@[simp] theorem setRing_div (k : Inst) (q : RingBuf) (s : State) : (s.setRing k q).div = s.div := rfl
@[simp] theorem setRing_ctrl (k : Inst) (q : RingBuf) (s : State) : (s.setRing k q).ctrl = s.ctrl := rfl
@[simp] theorem setRing_stat (k : Inst) (q : RingBuf) (s : State) : (s.setRing k q).stat = s.stat := rfl
@[simp] theorem setRing_dbuf (k : Inst) (q : RingBuf) (s : State) : (s.setRing k q).dbuf = s.dbuf := rfl
@[simp] theorem setRing_esr (k : Inst) (q : RingBuf) (s : State) : (s.setRing k q).esr = s.esr := rfl
@[simp] theorem setRing_lockcnt (k : Inst) (q : RingBuf) (s : State) : (s.setRing k q).lockcnt = s.lockcnt := rfl
@[simp] theorem setRing_txie (k : Inst) (q : RingBuf) (s : State) : (s.setRing k q).txie = s.txie := rfl
@[simp] theorem setRing_imask (k : Inst) (q : RingBuf) (s : State) : (s.setRing k q).imask = s.imask := rfl
@[simp] theorem setRing_xfer (k : Inst) (q : RingBuf) (s : State) : (s.setRing k q).xfer = s.xfer := rfl
@[simp] theorem setRing_arb (k : Inst) (q : RingBuf) (s : State) : (s.setRing k q).arb = s.arb := rfl
@[simp] theorem setRing_pmux (k : Inst) (q : RingBuf) (s : State) : (s.setRing k q).pmux = s.pmux := rfl
@[simp] theorem setRing_rb (k : Inst) (q : RingBuf) (s : State) : (s.setRing k q).rb = s.rb.set k q := rfl
@[simp] theorem setRing_bf (k : Inst) (q : RingBuf) (s : State) : (s.setRing k q).bf = s.bf := rfl
@[simp] theorem setRing_mem (k : Inst) (q : RingBuf) (s : State) : (s.setRing k q).mem = s.mem := rfl
@[simp] theorem setRing_busTrace (k : Inst) (q : RingBuf) (s : State) : (s.setRing k q).busTrace = s.busTrace := rfl
@[simp] theorem setRing_pinTrace (k : Inst) (q : RingBuf) (s : State) : (s.setRing k q).pinTrace = s.pinTrace := rfl
@[simp] theorem setRing_linkOut (k : Inst) (q : RingBuf) (s : State) : (s.setRing k q).linkOut = s.linkOut := rfl
@[simp] theorem setRing_params (k : Inst) (q : RingBuf) (s : State) : (s.setRing k q).params = s.params := rfl
@[simp] theorem setRing_agenda (k : Inst) (q : RingBuf) (s : State) : (s.setRing k q).agenda = s.agenda := rfl
@[simp] theorem setRing_host (k : Inst) (q : RingBuf) (s : State) : (s.setRing k q).host = s.host := rfl
@[simp] theorem setRing_hostLog (k : Inst) (q : RingBuf) (s : State) : (s.setRing k q).hostLog = s.hostLog := rfl
@[simp] theorem setRing_draws (k : Inst) (q : RingBuf) (s : State) : (s.setRing k q).draws = s.draws := rfl

/-! ## `State.setBf` -/

@[simp] theorem setBf_cmd (k : Inst) (f : BoundedFifo) (s : State) : (s.setBf k f).cmd = s.cmd := rfl
@[simp] theorem setBf_aux (k : Inst) (f : BoundedFifo) (s : State) : (s.setBf k f).aux = s.aux := rfl
@[simp] theorem setBf_res (k : Inst) (f : BoundedFifo) (s : State) : (s.setBf k f).res = s.res := rfl
@[simp] theorem setBf_dp (k : Inst) (f : BoundedFifo) (s : State) : (s.setBf k f).dp = s.dp := rfl
@[simp] theorem setBf_seq (k : Inst) (f : BoundedFifo) (s : State) : (s.setBf k f).seq = s.seq := rfl
@[simp] theorem setBf_div (k : Inst) (f : BoundedFifo) (s : State) : (s.setBf k f).div = s.div := rfl
@[simp] theorem setBf_ctrl (k : Inst) (f : BoundedFifo) (s : State) : (s.setBf k f).ctrl = s.ctrl := rfl
@[simp] theorem setBf_stat (k : Inst) (f : BoundedFifo) (s : State) : (s.setBf k f).stat = s.stat := rfl
@[simp] theorem setBf_dbuf (k : Inst) (f : BoundedFifo) (s : State) : (s.setBf k f).dbuf = s.dbuf := rfl
@[simp] theorem setBf_esr (k : Inst) (f : BoundedFifo) (s : State) : (s.setBf k f).esr = s.esr := rfl
@[simp] theorem setBf_lockcnt (k : Inst) (f : BoundedFifo) (s : State) : (s.setBf k f).lockcnt = s.lockcnt := rfl
@[simp] theorem setBf_txie (k : Inst) (f : BoundedFifo) (s : State) : (s.setBf k f).txie = s.txie := rfl
@[simp] theorem setBf_imask (k : Inst) (f : BoundedFifo) (s : State) : (s.setBf k f).imask = s.imask := rfl
@[simp] theorem setBf_xfer (k : Inst) (f : BoundedFifo) (s : State) : (s.setBf k f).xfer = s.xfer := rfl
@[simp] theorem setBf_arb (k : Inst) (f : BoundedFifo) (s : State) : (s.setBf k f).arb = s.arb := rfl
@[simp] theorem setBf_pmux (k : Inst) (f : BoundedFifo) (s : State) : (s.setBf k f).pmux = s.pmux := rfl
@[simp] theorem setBf_rb (k : Inst) (f : BoundedFifo) (s : State) : (s.setBf k f).rb = s.rb := rfl
@[simp] theorem setBf_bf (k : Inst) (f : BoundedFifo) (s : State) : (s.setBf k f).bf = s.bf.set k f := rfl
@[simp] theorem setBf_mem (k : Inst) (f : BoundedFifo) (s : State) : (s.setBf k f).mem = s.mem := rfl
@[simp] theorem setBf_busTrace (k : Inst) (f : BoundedFifo) (s : State) : (s.setBf k f).busTrace = s.busTrace := rfl
@[simp] theorem setBf_pinTrace (k : Inst) (f : BoundedFifo) (s : State) : (s.setBf k f).pinTrace = s.pinTrace := rfl
@[simp] theorem setBf_linkOut (k : Inst) (f : BoundedFifo) (s : State) : (s.setBf k f).linkOut = s.linkOut := rfl
@[simp] theorem setBf_params (k : Inst) (f : BoundedFifo) (s : State) : (s.setBf k f).params = s.params := rfl
@[simp] theorem setBf_agenda (k : Inst) (f : BoundedFifo) (s : State) : (s.setBf k f).agenda = s.agenda := rfl
@[simp] theorem setBf_host (k : Inst) (f : BoundedFifo) (s : State) : (s.setBf k f).host = s.host := rfl
@[simp] theorem setBf_hostLog (k : Inst) (f : BoundedFifo) (s : State) : (s.setBf k f).hostLog = s.hostLog := rfl
@[simp] theorem setBf_draws (k : Inst) (f : BoundedFifo) (s : State) : (s.setBf k f).draws = s.draws := rfl

/-! ## `setDirection` -/

@[simp] theorem setDirection_cmd (v : Byte) (s : State) : (setDirection v s).cmd = s.cmd := rfl
@[simp] theorem setDirection_aux (v : Byte) (s : State) : (setDirection v s).aux = s.aux := rfl
@[simp] theorem setDirection_res (v : Byte) (s : State) : (setDirection v s).res = s.res := rfl
@[simp] theorem setDirection_dp (v : Byte) (s : State) : (setDirection v s).dp = s.dp := rfl
@[simp] theorem setDirection_seq (v : Byte) (s : State) : (setDirection v s).seq = s.seq := rfl
@[simp] theorem setDirection_div (v : Byte) (s : State) : (setDirection v s).div = s.div := rfl
@[simp] theorem setDirection_ctrl (v : Byte) (s : State) : (setDirection v s).ctrl = { s.ctrl with tx := v.getLsbD 4, txak := v.getLsbD 3 } := rfl
@[simp] theorem setDirection_stat (v : Byte) (s : State) : (setDirection v s).stat = s.stat := rfl
@[simp] theorem setDirection_dbuf (v : Byte) (s : State) : (setDirection v s).dbuf = s.dbuf := rfl
@[simp] theorem setDirection_esr (v : Byte) (s : State) : (setDirection v s).esr = s.esr := rfl
@[simp] theorem setDirection_lockcnt (v : Byte) (s : State) : (setDirection v s).lockcnt = s.lockcnt := rfl
@[simp] theorem setDirection_txie (v : Byte) (s : State) : (setDirection v s).txie = s.txie := rfl
@[simp] theorem setDirection_imask (v : Byte) (s : State) : (setDirection v s).imask = s.imask := rfl
@[simp] theorem setDirection_xfer (v : Byte) (s : State) : (setDirection v s).xfer = s.xfer := rfl
@[simp] theorem setDirection_arb (v : Byte) (s : State) : (setDirection v s).arb = s.arb := rfl
@[simp] theorem setDirection_pmux (v : Byte) (s : State) : (setDirection v s).pmux = s.pmux := rfl
@[simp] theorem setDirection_rb (v : Byte) (s : State) : (setDirection v s).rb = s.rb := rfl
@[simp] theorem setDirection_bf (v : Byte) (s : State) : (setDirection v s).bf = s.bf := rfl
@[simp] theorem setDirection_mem (v : Byte) (s : State) : (setDirection v s).mem = s.mem := rfl
@[simp] theorem setDirection_busTrace (v : Byte) (s : State) : (setDirection v s).busTrace = s.busTrace := rfl
@[simp] theorem setDirection_pinTrace (v : Byte) (s : State) : (setDirection v s).pinTrace = s.pinTrace := rfl
@[simp] theorem setDirection_linkOut (v : Byte) (s : State) : (setDirection v s).linkOut = s.linkOut := rfl
@[simp] theorem setDirection_params (v : Byte) (s : State) : (setDirection v s).params = s.params := rfl
@[simp] theorem setDirection_agenda (v : Byte) (s : State) : (setDirection v s).agenda = s.agenda := rfl
@[simp] theorem setDirection_host (v : Byte) (s : State) : (setDirection v s).host = s.host := rfl
@[simp] theorem setDirection_hostLog (v : Byte) (s : State) : (setDirection v s).hostLog = s.hostLog := rfl
@[simp] theorem setDirection_draws (v : Byte) (s : State) : (setDirection v s).draws = s.draws := rfl

/-! ## `stopBus` -/

@[simp] theorem stopBus_cmd (s : State) : (stopBus s).cmd = s.cmd := rfl
@[simp] theorem stopBus_aux (s : State) : (stopBus s).aux = s.aux := rfl
@[simp] theorem stopBus_res (s : State) : (stopBus s).res = s.res := rfl
@[simp] theorem stopBus_dp (s : State) : (stopBus s).dp = s.dp := rfl
@[simp] theorem stopBus_seq (s : State) : (stopBus s).seq = s.seq := rfl
@[simp] theorem stopBus_div (s : State) : (stopBus s).div = s.div := rfl
@[simp] theorem stopBus_ctrl (s : State) : (stopBus s).ctrl = { s.ctrl with mst := false } := rfl
@[simp] theorem stopBus_stat (s : State) : (stopBus s).stat = { s.stat with busy := false } := rfl
@[simp] theorem stopBus_dbuf (s : State) : (stopBus s).dbuf = s.dbuf := rfl
@[simp] theorem stopBus_esr (s : State) : (stopBus s).esr = s.esr := rfl
@[simp] theorem stopBus_lockcnt (s : State) : (stopBus s).lockcnt = s.lockcnt := rfl
@[simp] theorem stopBus_txie (s : State) : (stopBus s).txie = s.txie := rfl
@[simp] theorem stopBus_imask (s : State) : (stopBus s).imask = s.imask := rfl
@[simp] theorem stopBus_xfer (s : State) : (stopBus s).xfer = .none := rfl
@[simp] theorem stopBus_arb (s : State) : (stopBus s).arb = s.arb := rfl
@[simp] theorem stopBus_pmux (s : State) : (stopBus s).pmux = s.pmux := rfl
@[simp] theorem stopBus_rb (s : State) : (stopBus s).rb = s.rb := rfl
@[simp] theorem stopBus_bf (s : State) : (stopBus s).bf = s.bf := rfl
@[simp] theorem stopBus_mem (s : State) : (stopBus s).mem = s.mem := rfl
@[simp] theorem stopBus_busTrace (s : State) : (stopBus s).busTrace = s.busTrace ++ [.stop] := rfl
@[simp] theorem stopBus_pinTrace (s : State) : (stopBus s).pinTrace = s.pinTrace := rfl
@[simp] theorem stopBus_linkOut (s : State) : (stopBus s).linkOut = s.linkOut := rfl
@[simp] theorem stopBus_params (s : State) : (stopBus s).params = s.params := rfl
@[simp] theorem stopBus_agenda (s : State) : (stopBus s).agenda = s.agenda := rfl
@[simp] theorem stopBus_host (s : State) : (stopBus s).host = s.host := rfl
@[simp] theorem stopBus_hostLog (s : State) : (stopBus s).hostLog = s.hostLog := rfl
@[simp] theorem stopBus_draws (s : State) : (stopBus s).draws = s.draws := rfl

/-! ## `setRecov` -/

@[simp] theorem setRecov_cmd (s : State) : (setRecov s).cmd = s.cmd := rfl
@[simp] theorem setRecov_aux (s : State) : (setRecov s).aux = s.aux := rfl
@[simp] theorem setRecov_res (s : State) : (setRecov s).res = s.res := rfl
@[simp] theorem setRecov_dp (s : State) : (setRecov s).dp = s.dp := rfl
@[simp] theorem setRecov_seq (s : State) : (setRecov s).seq = s.seq := rfl
@[simp] theorem setRecov_div (s : State) : (setRecov s).div = s.div := rfl
@[simp] theorem setRecov_ctrl (s : State) : (setRecov s).ctrl = s.ctrl := rfl
@[simp] theorem setRecov_stat (s : State) : (setRecov s).stat = s.stat := rfl
@[simp] theorem setRecov_dbuf (s : State) : (setRecov s).dbuf = s.dbuf := rfl
@[simp] theorem setRecov_esr (s : State) : (setRecov s).esr = { s.esr with recov := true } := rfl
@[simp] theorem setRecov_lockcnt (s : State) : (setRecov s).lockcnt = s.lockcnt := rfl
@[simp] theorem setRecov_txie (s : State) : (setRecov s).txie = s.txie := rfl
@[simp] theorem setRecov_imask (s : State) : (setRecov s).imask = s.imask := rfl
@[simp] theorem setRecov_xfer (s : State) : (setRecov s).xfer = s.xfer := rfl
@[simp] theorem setRecov_arb (s : State) : (setRecov s).arb = s.arb := rfl
@[simp] theorem setRecov_pmux (s : State) : (setRecov s).pmux = s.pmux := rfl
@[simp] theorem setRecov_rb (s : State) : (setRecov s).rb = s.rb := rfl
@[simp] theorem setRecov_bf (s : State) : (setRecov s).bf = s.bf := rfl
@[simp] theorem setRecov_mem (s : State) : (setRecov s).mem = s.mem := rfl
@[simp] theorem setRecov_busTrace (s : State) : (setRecov s).busTrace = s.busTrace := rfl
@[simp] theorem setRecov_pinTrace (s : State) : (setRecov s).pinTrace = s.pinTrace := rfl
@[simp] theorem setRecov_linkOut (s : State) : (setRecov s).linkOut = s.linkOut := rfl
@[simp] theorem setRecov_params (s : State) : (setRecov s).params = s.params := rfl
@[simp] theorem setRecov_agenda (s : State) : (setRecov s).agenda = s.agenda := rfl
@[simp] theorem setRecov_host (s : State) : (setRecov s).host = s.host := rfl
@[simp] theorem setRecov_hostLog (s : State) : (setRecov s).hostLog = s.hostLog := rfl
@[simp] theorem setRecov_draws (s : State) : (setRecov s).draws = s.draws := rfl

/-! ## `pinWrite` -/

@[simp] theorem pinWrite_cmd (p : BitVec 3) (n : BitVec 5) (m : BitVec 3) (s : State) : (pinWrite p n m s).cmd = s.cmd := rfl
@[simp] theorem pinWrite_aux (p : BitVec 3) (n : BitVec 5) (m : BitVec 3) (s : State) : (pinWrite p n m s).aux = s.aux := rfl
@[simp] theorem pinWrite_res (p : BitVec 3) (n : BitVec 5) (m : BitVec 3) (s : State) : (pinWrite p n m s).res = s.res := rfl
@[simp] theorem pinWrite_dp (p : BitVec 3) (n : BitVec 5) (m : BitVec 3) (s : State) : (pinWrite p n m s).dp = s.dp := rfl
@[simp] theorem pinWrite_seq (p : BitVec 3) (n : BitVec 5) (m : BitVec 3) (s : State) : (pinWrite p n m s).seq = s.seq := rfl
@[simp] theorem pinWrite_div (p : BitVec 3) (n : BitVec 5) (m : BitVec 3) (s : State) : (pinWrite p n m s).div = s.div := rfl
@[simp] theorem pinWrite_ctrl (p : BitVec 3) (n : BitVec 5) (m : BitVec 3) (s : State) : (pinWrite p n m s).ctrl = s.ctrl := rfl
@[simp] theorem pinWrite_stat (p : BitVec 3) (n : BitVec 5) (m : BitVec 3) (s : State) : (pinWrite p n m s).stat = s.stat := rfl
@[simp] theorem pinWrite_dbuf (p : BitVec 3) (n : BitVec 5) (m : BitVec 3) (s : State) : (pinWrite p n m s).dbuf = s.dbuf := rfl
@[simp] theorem pinWrite_esr (p : BitVec 3) (n : BitVec 5) (m : BitVec 3) (s : State) : (pinWrite p n m s).esr = s.esr := rfl
@[simp] theorem pinWrite_lockcnt (p : BitVec 3) (n : BitVec 5) (m : BitVec 3) (s : State) : (pinWrite p n m s).lockcnt = s.lockcnt := rfl
@[simp] theorem pinWrite_txie (p : BitVec 3) (n : BitVec 5) (m : BitVec 3) (s : State) : (pinWrite p n m s).txie = s.txie := rfl
@[simp] theorem pinWrite_imask (p : BitVec 3) (n : BitVec 5) (m : BitVec 3) (s : State) : (pinWrite p n m s).imask = s.imask := rfl
@[simp] theorem pinWrite_xfer (p : BitVec 3) (n : BitVec 5) (m : BitVec 3) (s : State) : (pinWrite p n m s).xfer = s.xfer := rfl
@[simp] theorem pinWrite_arb (p : BitVec 3) (n : BitVec 5) (m : BitVec 3) (s : State) : (pinWrite p n m s).arb = s.arb := rfl
@[simp] theorem pinWrite_pmux (p : BitVec 3) (n : BitVec 5) (m : BitVec 3) (s : State) : (pinWrite p n m s).pmux = Store.write s.pmux (pinKey p.toNat n.toNat) m := rfl
@[simp] theorem pinWrite_rb (p : BitVec 3) (n : BitVec 5) (m : BitVec 3) (s : State) : (pinWrite p n m s).rb = s.rb := rfl
@[simp] theorem pinWrite_bf (p : BitVec 3) (n : BitVec 5) (m : BitVec 3) (s : State) : (pinWrite p n m s).bf = s.bf := rfl
@[simp] theorem pinWrite_mem (p : BitVec 3) (n : BitVec 5) (m : BitVec 3) (s : State) : (pinWrite p n m s).mem = s.mem := rfl
@[simp] theorem pinWrite_busTrace (p : BitVec 3) (n : BitVec 5) (m : BitVec 3) (s : State) : (pinWrite p n m s).busTrace = s.busTrace := rfl
@[simp] theorem pinWrite_pinTrace (p : BitVec 3) (n : BitVec 5) (m : BitVec 3) (s : State) : (pinWrite p n m s).pinTrace = s.pinTrace ++ [{ port := p, pin := n, mux := m }] := rfl
@[simp] theorem pinWrite_linkOut (p : BitVec 3) (n : BitVec 5) (m : BitVec 3) (s : State) : (pinWrite p n m s).linkOut = s.linkOut := rfl
@[simp] theorem pinWrite_params (p : BitVec 3) (n : BitVec 5) (m : BitVec 3) (s : State) : (pinWrite p n m s).params = s.params := rfl
@[simp] theorem pinWrite_agenda (p : BitVec 3) (n : BitVec 5) (m : BitVec 3) (s : State) : (pinWrite p n m s).agenda = s.agenda := rfl
@[simp] theorem pinWrite_host (p : BitVec 3) (n : BitVec 5) (m : BitVec 3) (s : State) : (pinWrite p n m s).host = s.host := rfl
@[simp] theorem pinWrite_hostLog (p : BitVec 3) (n : BitVec 5) (m : BitVec 3) (s : State) : (pinWrite p n m s).hostLog = s.hostLog := rfl
@[simp] theorem pinWrite_draws (p : BitVec 3) (n : BitVec 5) (m : BitVec 3) (s : State) : (pinWrite p n m s).draws = s.draws := rfl

/-! ## `remember` -/

@[simp] theorem remember_cmd (sl : Slave) (j : Nat) (s : State) : (remember sl j s).cmd = s.cmd := rfl
@[simp] theorem remember_aux (sl : Slave) (j : Nat) (s : State) : (remember sl j s).aux = s.aux := rfl
@[simp] theorem remember_res (sl : Slave) (j : Nat) (s : State) : (remember sl j s).res = s.res := rfl
@[simp] theorem remember_dp (sl : Slave) (j : Nat) (s : State) : (remember sl j s).dp = s.dp := rfl
@[simp] theorem remember_seq (sl : Slave) (j : Nat) (s : State) : (remember sl j s).seq = s.seq := rfl
@[simp] theorem remember_div (sl : Slave) (j : Nat) (s : State) : (remember sl j s).div = s.div := rfl
@[simp] theorem remember_ctrl (sl : Slave) (j : Nat) (s : State) : (remember sl j s).ctrl = s.ctrl := rfl
@[simp] theorem remember_stat (sl : Slave) (j : Nat) (s : State) : (remember sl j s).stat = s.stat := rfl
@[simp] theorem remember_dbuf (sl : Slave) (j : Nat) (s : State) : (remember sl j s).dbuf = s.dbuf := rfl
@[simp] theorem remember_esr (sl : Slave) (j : Nat) (s : State) : (remember sl j s).esr = s.esr := rfl
@[simp] theorem remember_lockcnt (sl : Slave) (j : Nat) (s : State) : (remember sl j s).lockcnt = s.lockcnt := rfl
@[simp] theorem remember_txie (sl : Slave) (j : Nat) (s : State) : (remember sl j s).txie = s.txie := rfl
@[simp] theorem remember_imask (sl : Slave) (j : Nat) (s : State) : (remember sl j s).imask = s.imask := rfl
@[simp] theorem remember_xfer (sl : Slave) (j : Nat) (s : State) : (remember sl j s).xfer = s.xfer := rfl
@[simp] theorem remember_arb (sl : Slave) (j : Nat) (s : State) : (remember sl j s).arb = { s.arb with lastAddr := sl.setWidth 8, lastHash := (s.arb.entry j).hash, lastIdx := BitVec.ofNat 8 j } := rfl
@[simp] theorem remember_pmux (sl : Slave) (j : Nat) (s : State) : (remember sl j s).pmux = s.pmux := rfl
@[simp] theorem remember_rb (sl : Slave) (j : Nat) (s : State) : (remember sl j s).rb = s.rb := rfl
@[simp] theorem remember_bf (sl : Slave) (j : Nat) (s : State) : (remember sl j s).bf = s.bf := rfl
@[simp] theorem remember_mem (sl : Slave) (j : Nat) (s : State) : (remember sl j s).mem = s.mem := rfl
@[simp] theorem remember_busTrace (sl : Slave) (j : Nat) (s : State) : (remember sl j s).busTrace = s.busTrace := rfl
@[simp] theorem remember_pinTrace (sl : Slave) (j : Nat) (s : State) : (remember sl j s).pinTrace = s.pinTrace := rfl
@[simp] theorem remember_linkOut (sl : Slave) (j : Nat) (s : State) : (remember sl j s).linkOut = s.linkOut := rfl
@[simp] theorem remember_params (sl : Slave) (j : Nat) (s : State) : (remember sl j s).params = s.params := rfl
@[simp] theorem remember_agenda (sl : Slave) (j : Nat) (s : State) : (remember sl j s).agenda = s.agenda := rfl
@[simp] theorem remember_host (sl : Slave) (j : Nat) (s : State) : (remember sl j s).host = s.host := rfl
@[simp] theorem remember_hostLog (sl : Slave) (j : Nat) (s : State) : (remember sl j s).hostLog = s.hostLog := rfl
@[simp] theorem remember_draws (sl : Slave) (j : Nat) (s : State) : (remember sl j s).draws = s.draws := rfl

/-! ## `installTable` -/

@[simp] theorem installTable_cmd (n : BitVec 4) (s : State) : (installTable n s).cmd = s.cmd := rfl
@[simp] theorem installTable_aux (n : BitVec 4) (s : State) : (installTable n s).aux = s.aux := rfl
@[simp] theorem installTable_res (n : BitVec 4) (s : State) : (installTable n s).res = s.res := rfl
@[simp] theorem installTable_dp (n : BitVec 4) (s : State) : (installTable n s).dp = s.dp := rfl
@[simp] theorem installTable_seq (n : BitVec 4) (s : State) : (installTable n s).seq = s.seq := rfl
@[simp] theorem installTable_div (n : BitVec 4) (s : State) : (installTable n s).div = s.div := rfl
@[simp] theorem installTable_ctrl (n : BitVec 4) (s : State) : (installTable n s).ctrl = s.ctrl := rfl
@[simp] theorem installTable_stat (n : BitVec 4) (s : State) : (installTable n s).stat = s.stat := rfl
@[simp] theorem installTable_dbuf (n : BitVec 4) (s : State) : (installTable n s).dbuf = s.dbuf := rfl
@[simp] theorem installTable_esr (n : BitVec 4) (s : State) : (installTable n s).esr = s.esr := rfl
@[simp] theorem installTable_lockcnt (n : BitVec 4) (s : State) : (installTable n s).lockcnt = s.lockcnt := rfl
@[simp] theorem installTable_txie (n : BitVec 4) (s : State) : (installTable n s).txie = s.txie := rfl
@[simp] theorem installTable_imask (n : BitVec 4) (s : State) : (installTable n s).imask = s.imask := rfl
@[simp] theorem installTable_xfer (n : BitVec 4) (s : State) : (installTable n s).xfer = s.xfer := rfl
@[simp] theorem installTable_arb (n : BitVec 4) (s : State) : (installTable n s).arb = { s.arb with entryCount := n, configured := true, lastAddr := 0xFF, lastHash := 0, lastIdx := 0xFF } := rfl
@[simp] theorem installTable_pmux (n : BitVec 4) (s : State) : (installTable n s).pmux = s.pmux := rfl
@[simp] theorem installTable_rb (n : BitVec 4) (s : State) : (installTable n s).rb = s.rb := rfl
@[simp] theorem installTable_bf (n : BitVec 4) (s : State) : (installTable n s).bf = s.bf := rfl
@[simp] theorem installTable_mem (n : BitVec 4) (s : State) : (installTable n s).mem = s.mem := rfl
@[simp] theorem installTable_busTrace (n : BitVec 4) (s : State) : (installTable n s).busTrace = s.busTrace := rfl
@[simp] theorem installTable_pinTrace (n : BitVec 4) (s : State) : (installTable n s).pinTrace = s.pinTrace := rfl
@[simp] theorem installTable_linkOut (n : BitVec 4) (s : State) : (installTable n s).linkOut = s.linkOut := rfl
@[simp] theorem installTable_params (n : BitVec 4) (s : State) : (installTable n s).params = s.params := rfl
@[simp] theorem installTable_agenda (n : BitVec 4) (s : State) : (installTable n s).agenda = s.agenda := rfl
@[simp] theorem installTable_host (n : BitVec 4) (s : State) : (installTable n s).host = s.host := rfl
@[simp] theorem installTable_hostLog (n : BitVec 4) (s : State) : (installTable n s).hostLog = s.hostLog := rfl
@[simp] theorem installTable_draws (n : BitVec 4) (s : State) : (installTable n s).draws = s.draws := rfl

/-! ## The sequencer's state, the barrier and the FIFO instances -/

@[simp] theorem seq_next_run (op : BitVec 8) (k : BitVec 6) : (SeqState.run op k).next = .run op (k + 1) := rfl
@[simp] theorem seq_at_run (op : BitVec 8) (j k : BitVec 6) : (SeqState.run op j).at k = .run op k := rfl
@[simp] theorem barrier_eq (s : State) : s.barrier = s := rfl
@[simp] theorem get_zero {α : Type} (f : Instances α) : f.get 0 = f.rx := rfl
@[simp] theorem get_one {α : Type} (f : Instances α) : f.get 1 = f.tx := rfl
@[simp] theorem set_zero {α : Type} (f : Instances α) (x : α) : f.set 0 x = { f with rx := x } := rfl
@[simp] theorem set_one {α : Type} (f : Instances α) (x : α) : f.set 1 x = { f with tx := x } := rfl

/-- What was put into an instance is what it holds. -/
@[simp] theorem get_set_same {α : Type} (f : Instances α) (k : Inst) (x : α) : (f.set k x).get k = x := by
  unfold Instances.get Instances.set
  split <;> rfl

/-- An instance number is 0 or 1. -/
theorem inst_cases (k : Inst) : k = 0 ∨ k = 1 := by
  revert k
  decide

/-- Replacing one instance leaves the other. -/
theorem get_set_other {α : Type} (f : Instances α) {j k : Inst} (x : α) (h : j ≠ k) : (f.set k x).get j = f.get j := by
  unfold Instances.get Instances.set
  rcases inst_cases j with rfl | rfl <;> rcases inst_cases k with rfl | rfl <;> simp_all

end Sys2Proof.Machine
end

