-- ==== Sys2Proof/Laws/Memory.lean ====
section
/-! SUPPORT. The laws of the memories: read after write, every operation keeps the canonical form, and how many bytes the
block operations handle. -/

namespace Sys2Proof.Machine

variable {α : Type}

@[simp] theorem read_nil (a : Nat) : Store.read ([] : Store α) a = none := rfl

@[simp] theorem read_cons (b : Nat) (u : α) (t : Store α) (a : Nat) :
    Store.read ((b, u) :: t) a = if a = b then some u else Store.read t a := rfl

/-- A read after a write to the same address gives the value written. -/
@[simp] theorem read_write_same (m : Store α) (a : Nat) (v : α) : Store.read (Store.write m a v) a = some v := by
  induction m with
  | nil => simp [Store.write]
  | cons c t ih =>
    obtain ⟨b, u⟩ := c
    unfold Store.write
    split
    · simp
    · split
      · simp
      · rename_i h
        simp [h, ih]

/-- A write leaves every other address alone. -/
theorem read_write_other (m : Store α) {a b : Nat} (v : α) (h : b ≠ a) :
    Store.read (Store.write m a v) b = Store.read m b := by
  induction m with
  | nil => simp [Store.write, h]
  | cons c t ih =>
    obtain ⟨d, u⟩ := c
    unfold Store.write
    split
    · simp [h]
    · split
      · rename_i hd
        subst hd
        simp [h]
      · simp [ih]

/-- Every cell of a memory in canonical form lies above an address that lies below its first cell. -/
theorem wf_cons_iff (c : Nat × α) (t : Store α) :
    Store.wf (c :: t) = true ↔ (∀ d ∈ t.head?, c.1 < d.1) ∧ Store.wf t = true := by
  cases t with
  | nil => simp [Store.wf]
  | cons d t => simp [Store.wf]

/-- The first address after a write is the written one or the old first. -/
theorem write_head (m : Store α) (a : Nat) (v : α) (d : Nat × α) (hd : d ∈ (Store.write m a v).head?) :
    d.1 = a ∨ ∃ e ∈ m.head?, e.1 = d.1 ∧ e.1 < a := by
  cases m with
  | nil =>
    simp [Store.write] at hd
    subst hd
    exact .inl rfl
  | cons c t =>
    obtain ⟨b, u⟩ := c
    unfold Store.write at hd
    split at hd
    · simp at hd; subst hd; exact .inl rfl
    · split at hd
      · simp at hd; subst hd; exact .inl rfl
      · simp at hd; subst hd
        exact .inr ⟨(b, u), by simp, rfl, by simp; omega⟩

/-- A write keeps the canonical form. -/
theorem write_wf (m : Store α) (a : Nat) (v : α) (h : Store.wf m = true) : Store.wf (Store.write m a v) = true := by
  induction m with
  | nil => simp [Store.write, Store.wf]
  | cons c t ih =>
    obtain ⟨b, u⟩ := c
    obtain ⟨hlt, ht⟩ := (wf_cons_iff (b, u) t).1 h
    unfold Store.write
    split
    · rename_i hab
      exact (wf_cons_iff _ _).2 ⟨by simpa using hab, h⟩
    · split
      · rename_i _ hab
        subst hab
        exact (wf_cons_iff _ _).2 ⟨hlt, ht⟩
      · refine (wf_cons_iff _ _).2 ⟨fun d hd => ?_, ih ht⟩
        rcases write_head t a v d hd with h1 | ⟨e, he, h1, -⟩
        · simp only [h1]
          omega
        · have := hlt e he
          simp only at this ⊢
          omega

/-- A block write keeps the canonical form. -/
theorem writeBytes_wf (bs : List Byte) (m : Memory) (a : Nat) (h : Memory.wf m = true) :
    Memory.wf (writeBytes m a bs) = true := by
  induction bs generalizing m a with
  | nil => exact h
  | cons b t ih => exact ih _ _ (write_wf m a b h)

/-- A block write leaves every address outside the block alone. -/
theorem read_writeBytes_other (bs : List Byte) (m : Memory) (a b : Nat) (h : b < a ∨ a + bs.length ≤ b) :
    Store.read (writeBytes m a bs) b = Store.read m b := by
  induction bs generalizing m a with
  | nil => rfl
  | cons x t ih =>
    simp only [List.length_cons] at h
    simp only [writeBytes]
    rw [ih _ _ (by omega), read_write_other _ _ (by omega)]

/-- A block write stores its bytes in order. -/
theorem read_writeBytes_inside (bs : List Byte) (m : Memory) (a i : Nat) (h : i < bs.length) :
    Store.read (writeBytes m a bs) (a + i) = some bs[i] := by
  induction bs generalizing m a i with
  | nil => simp at h
  | cons x t ih =>
    simp only [writeBytes]
    cases i with
    | zero => rw [read_writeBytes_other _ _ _ _ (by omega)]; simp
    | succ i =>
      have := ih (Store.write m a x) (a + 1) i (by simpa using h)
      rw [show a + (i + 1) = a + 1 + i by omega]
      simpa using this

@[simp] theorem readBytes_length (m : Memory) (a len n : Nat) : (readBytes m a len n).length = len := by
  induction len generalizing a n with
  | zero => rfl
  | succ k ih => simp [readBytes, ih]

/-- The `i`-th byte of a block read. -/
theorem readBytes_get (m : Memory) (a len n i : Nat) (h : i < len) :
    (readBytes m a len n)[i]'(by simpa using h) = readByte m (a + i) (n + i) := by
  induction len generalizing a n i with
  | zero => omega
  | succ k ih =>
    cases i with
    | zero => rfl
    | succ i =>
      have := ih (a + 1) (n + 1) i (by omega)
      simp only [readBytes, List.getElem_cons_succ, this]
      congr 1 <;> omega

@[simp] theorem leBytes_length (n : Nat) (v : Word) : (leBytes n v).length = n := by
  induction n generalizing v with
  | zero => rfl
  | succ k ih => simp [leBytes, ih]

end Sys2Proof.Machine
end

