-- ==== Sys2Proof/Laws/Encoding.lean ====
section
/-! SUPPORT. The fields of a packed word are the fields it was packed from (30_encoding.md R70, R71): the lemmas that
statements about the encoding cite instead of unfolding the concatenations. -/

namespace Sys2Proof

theorem bv_ext_getLsbD {w : Nat} {x y : BitVec w} (h : ∀ i, i < w → x.getLsbD i = y.getLsbD i) : x = y :=
  BitVec.eq_of_getLsbD_eq fun i hi => h i hi

@[simp] theorem opc_packP (op a b c : Byte) : opc (packP op a b c) = op := by
  refine bv_ext_getLsbD fun i hi => ?_
  simp only [opc, packP, BitVec.getLsbD_extractLsb', BitVec.getLsbD_append]
  simp [hi, show ¬ 24 + i < 8 by omega, show ¬ 24 + i - 8 < 8 by omega, show ¬ 24 + i - 8 - 8 < 8 by omega,
    show 24 + i - 8 - 8 - 8 = i by omega]

@[simp] theorem opA_packP (op a b c : Byte) : opA (packP op a b c) = a := by
  refine bv_ext_getLsbD fun i hi => ?_
  simp only [opA, packP, BitVec.getLsbD_extractLsb', BitVec.getLsbD_append]
  simp [hi, show ¬ 16 + i < 8 by omega, show ¬ 16 + i - 8 < 8 by omega,
    show 16 + i - 8 - 8 = i by omega]

@[simp] theorem opB_packP (op a b c : Byte) : opB (packP op a b c) = b := by
  refine bv_ext_getLsbD fun i hi => ?_
  simp only [opB, packP, BitVec.getLsbD_extractLsb', BitVec.getLsbD_append]
  simp [hi, show ¬ 8 + i < 8 by omega, show 8 + i - 8 = i by omega]

@[simp] theorem opC_packP (op a b c : Byte) : opC (packP op a b c) = c := by
  refine bv_ext_getLsbD fun i hi => ?_
  simp only [opC, packP, BitVec.getLsbD_extractLsb', BitVec.getLsbD_append]
  simp [hi]

@[simp] theorem opc_packR (op : Byte) (sz : Size) (pos wm1 : BitVec 5) (addr : Offset) :
    opc (packR op sz pos wm1 addr) = op := by
  refine bv_ext_getLsbD fun i hi => ?_
  simp only [opc, packR, BitVec.getLsbD_extractLsb', BitVec.getLsbD_append]
  simp [hi, show ¬ 24 + i < 12 by omega, show ¬ 24 + i - 12 < 5 by omega, show ¬ 24 + i - 12 - 5 < 5 by omega,
    show ¬ 24 + i - 12 - 5 - 5 < 2 by omega, show 24 + i - 12 - 5 - 5 - 2 = i by omega]

@[simp] theorem opSZ_packR (op : Byte) (sz : Size) (pos wm1 : BitVec 5) (addr : Offset) :
    opSZ (packR op sz pos wm1 addr) = sz.code := by
  refine bv_ext_getLsbD fun i hi => ?_
  simp only [opSZ, packR, BitVec.getLsbD_extractLsb', BitVec.getLsbD_append]
  simp [hi, show ¬ 22 + i < 12 by omega, show ¬ 22 + i - 12 < 5 by omega, show ¬ 22 + i - 12 - 5 < 5 by omega,
    show 22 + i - 12 - 5 - 5 = i by omega]

@[simp] theorem opPOS_packR (op : Byte) (sz : Size) (pos wm1 : BitVec 5) (addr : Offset) :
    opPOS (packR op sz pos wm1 addr) = pos := by
  refine bv_ext_getLsbD fun i hi => ?_
  simp only [opPOS, packR, BitVec.getLsbD_extractLsb', BitVec.getLsbD_append]
  simp [hi, show ¬ 17 + i < 12 by omega, show ¬ 17 + i - 12 < 5 by omega, show 17 + i - 12 - 5 = i by omega]

@[simp] theorem opWM1_packR (op : Byte) (sz : Size) (pos wm1 : BitVec 5) (addr : Offset) :
    opWM1 (packR op sz pos wm1 addr) = wm1 := by
  refine bv_ext_getLsbD fun i hi => ?_
  simp only [opWM1, packR, BitVec.getLsbD_extractLsb', BitVec.getLsbD_append]
  simp [hi, show ¬ 12 + i < 12 by omega]

@[simp] theorem opADDR_packR (op : Byte) (sz : Size) (pos wm1 : BitVec 5) (addr : Offset) :
    opADDR (packR op sz pos wm1 addr) = addr := by
  refine bv_ext_getLsbD fun i hi => ?_
  simp only [opADDR, packR, BitVec.getLsbD_extractLsb', BitVec.getLsbD_append]
  simp [hi]

/-- The size code is read back as the size. -/
@[simp] theorem sizeOf_code (sz : Size) : sizeOf? sz.code = some sz := by
  cases sz <;> decide

/-- A slave address in an operand byte is read back. -/
@[simp] theorem slaveOf_setWidth (sl : Slave) : slaveOf? (sl.setWidth 8) = some sl := by
  revert sl
  decide

/-- An instance in an operand byte is read back. -/
@[simp] theorem instOf_setWidth (k : Inst) : instOf? (k.setWidth 8) = some k := by
  revert k
  decide

/-- A word of format P is the opcode and operand bytes at their places (R70). -/
theorem packP_toNat (op a b c : Byte) :
    (packP op a b c).toNat = op.toNat * 2 ^ 24 + a.toNat * 2 ^ 16 + b.toNat * 2 ^ 8 + c.toNat := by
  have ha := a.isLt
  have hb := b.isLt
  have hc := c.isLt
  simp only [packP, BitVec.toNat_append]
  rw [← Nat.shiftLeft_add_eq_or_of_lt hc, ← Nat.shiftLeft_add_eq_or_of_lt hb, ← Nat.shiftLeft_add_eq_or_of_lt ha]
  simp only [Nat.shiftLeft_eq]
  omega

end Sys2Proof
end

