-- ==== Sys2Proof/Laws/Ops.lean ====
section
/-! SUPPORT. For each shared operation, what it can do, said once: the sequencer's control, the register words, the
accesses to the module registers, the micro-steps of the engine primitives, the agents' turns. Later proofs cite these and
do not unfold the operations. -/

namespace Sys2Proof.Machine

/-! ## The sequencer's control -/

/-- At `IDLE` a command is accepted (10_state.md R23). -/
theorem command_idle (op : Byte) (load : State → Datapath) (prog : List MicroOp) (s : State) (h : s.seq = .idle) :
    command op load prog s = .next { s with dp := load s, seq := .run op 0 } := by
  simp [command, h]

/-- At `(op, k)` micro-step `k` runs (00_scope.md R17). -/
theorem command_run (op : Byte) (load : State → Datapath) (prog : List MicroOp) (s : State) (k : BitVec 6) (m : MicroOp)
    (h : s.seq = .run op k) (hm : prog[k.toNat]? = some m) : command op load prog s = toResult (m s) := by
  simp [command, h, hm]

/-- A next state of a command is its acceptance or a micro-step of its own. -/
theorem command_next {op : Byte} {load : State → Datapath} {prog : List MicroOp} {s t : State}
    (h : command op load prog s = .next t) :
    (s.seq = .idle ∧ t = { s with dp := load s, seq := .run op 0 }) ∨
      ∃ (k : BitVec 6) (m : MicroOp), s.seq = .run op k ∧ prog[k.toNat]? = some m ∧ m s = .ok t := by
  unfold command at h
  split at h
  · exact .inl ⟨‹_›, by simpa using h.symm⟩
  · simp at h
  · rename_i o k hs
    split at h
    · rename_i ho
      subst ho
      split at h
      · rename_i m hm
        refine .inr ⟨k, m, hs, hm, ?_⟩
        cases hr : m s with
        | ok u => simpa [toResult, hr] using h
        | error f => simp [toResult, hr] at h
      · simp at h
    · simp at h

@[simp] theorem toResult_ok (s : State) : toResult (.ok s) = .next s := rfl
@[simp] theorem toResult_error (f : Fault) : toResult (.error f) = .fault f := rfl
@[simp] theorem thenAdvance_ok (s : State) : thenAdvance (.ok s) = .ok s.advance := rfl
@[simp] theorem thenAdvance_error (f : Fault) : thenAdvance (.error f) = .error f := rfl
@[simp] theorem thenFinish_ok (s : State) : thenFinish (.ok s) = .ok s.finish := rfl
@[simp] theorem thenFinish_error (f : Fault) : thenFinish (.error f) = .error f := rfl
@[simp] theorem next_run (op : Byte) (k : BitVec 6) : (SeqState.run op k).next = .run op (k + 1) := rfl
@[simp] theorem at_run (op : Byte) (k j : BitVec 6) : (SeqState.run op k).at j = .run op j := rfl

/-! ## The words of the status registers -/

@[simp] theorem ctrlWord_mst (c : Ctrl) : c.word[5] = c.mst := by
  obtain ⟨a, b, d⟩ := c
  cases a <;> cases b <;> cases d <;> rfl
@[simp] theorem ctrlWord_tx (c : Ctrl) : c.word[4] = c.tx := by
  obtain ⟨a, b, d⟩ := c
  cases a <;> cases b <;> cases d <;> rfl
@[simp] theorem ctrlWord_txak (c : Ctrl) : c.word[3] = c.txak := by
  obtain ⟨a, b, d⟩ := c
  cases a <;> cases b <;> cases d <;> rfl
@[simp] theorem ctrlWord_rsta (c : Ctrl) : c.word[2] = false := by
  obtain ⟨a, b, d⟩ := c
  cases a <;> cases b <;> cases d <;> rfl
@[simp] theorem statWord_if (t : Stat) : t.word[1] = t.ifl := by
  obtain ⟨a, b, d, e⟩ := t
  cases a <;> cases b <;> cases d <;> cases e <;> rfl
@[simp] theorem statWord_arbl (t : Stat) : t.word[4] = t.arbl := by
  obtain ⟨a, b, d, e⟩ := t
  cases a <;> cases b <;> cases d <;> cases e <;> rfl

/-! ## Accesses to the module registers -/

/-- `AOR` on `CTRL` is a write of the bits read with the operand's bits added (R84). -/
theorem opOr_ctrl (v : Word) (s : State) : opOr ctrlOff .b v s = writeCtrl (s.ctrl.word ||| v.setWidth 8) s := by
  simp [opOr, rmw, memRead, memWrite, region, ctrlOff]

/-- `AAND` on `CTRL` (R83). -/
theorem opAnd_ctrl (v : Word) (s : State) : opAnd ctrlOff .b v s = writeCtrl (s.ctrl.word &&& v.setWidth 8) s := by
  simp [opAnd, rmw, memRead, memWrite, region, ctrlOff]

/-- `AND` on `DIV` (R83). -/
theorem opAnd_div (v : Word) (s : State) : opAnd divOff .b v s = .ok { s with div := s.div &&& v.setWidth 8 } := by
  simp [opAnd, rmw, memRead, memWrite, region, divOff]

/-- `AOR` on `STAT` clears `IF` and `ARBL` whatever the operand (R84, R156). -/
theorem opOr_stat (v : Word) (s : State) :
    opOr statOff .b v s = .ok { s with stat := { s.stat with ifl := false, arbl := false } } := by
  simp [opOr, rmw, memRead, memWrite, region, statOff, Stat.written]
  exact ⟨fun a b => absurd a (by simp [b]), fun a b => absurd a (by simp [b])⟩

/-- A write of `CTRL` that does not strobe `RSTA` completes (R50). -/
theorem writeCtrl_plain (v : Byte) (s : State) (h : v.getLsbD 2 = false) : writeCtrl v s = .ok (writeCtrlBits v s) := by
  simp only [writeCtrl, h]
  rfl

/-! ## The micro-steps of the primitives -/

/-- The flag clear (R90). -/
@[simp] theorem mClearIf_eq (s : State) :
    mClearIf s = .ok { s with stat := { s.stat with ifl := false, arbl := false } }.advance := by
  simp [mClearIf, opOr_stat]

/-- `START` with the bus free (R92). -/
theorem mStart_free (s : State) (h : s.ctrl.mst = false) (hb : s.stat.busy = false) :
    mStart s =
      .ok { s with
            ctrl := { s.ctrl with mst := true, tx := true }, stat := { s.stat with busy := true },
            busTrace := s.busTrace ++ [BusEvent.start] }.advance := by
  simp [mStart, opOr_ctrl, writeCtrl, writeCtrlBits, startBus, setDirection, h, hb]

/-- `START` on a bus that another master holds (R92). -/
theorem mStart_lost (s : State) (h : s.ctrl.mst = false) (hb : s.stat.busy = true) :
    mStart s =
      .ok { s with ctrl := { s.ctrl with tx := true }, stat := { s.stat with arbl := true, ifl := true } }.advance := by
  simp [mStart, opOr_ctrl, writeCtrl, writeCtrlBits, startBus, setDirection, h, hb]

/-- `START` as master (R92). -/
theorem mStart_master (s : State) (h : s.ctrl.mst = true) :
    mStart s = .ok { s with ctrl := { s.ctrl with tx := true } }.advance := by
  simp [mStart, opOr_ctrl, writeCtrl, writeCtrlBits, setDirection, h]

/-- The forced Stop's and `STOP`'s store as master (R97). -/
theorem opStop_master (s : State) (h : s.ctrl.mst = true) :
    opAnd ctrlOff .b 0xCF s =
      .ok { s with
            ctrl := { s.ctrl with mst := false, tx := false }, stat := { s.stat with busy := false }, xfer := .none,
            busTrace := s.busTrace ++ [BusEvent.stop] } := by
  simp [opAnd_ctrl, writeCtrl, writeCtrlBits, stopBus, setDirection, h]

/-- The same store when not master (R97). -/
theorem opStop_other (s : State) (h : s.ctrl.mst = false) :
    opAnd ctrlOff .b 0xCF s = .ok { s with ctrl := { s.ctrl with tx := false } } := by
  simp [opAnd_ctrl, writeCtrl, writeCtrlBits, setDirection, h]

/-- `STOP` as master (R97). -/
theorem mStop_master (s : State) (h : s.ctrl.mst = true) :
    mStop s =
      .ok { s with
            ctrl := { s.ctrl with mst := false, tx := false }, stat := { s.stat with busy := false }, xfer := .none,
            busTrace := s.busTrace ++ [BusEvent.stop] }.advance := by
  rw [mStop, opStop_master s h]
  rfl

/-- `STOP` when not master (R97). -/
theorem mStop_other (s : State) (h : s.ctrl.mst = false) :
    mStop s = .ok { s with ctrl := { s.ctrl with tx := false } }.advance := by
  rw [mStop, opStop_other s h]
  rfl

/-- "disable ack" (R105 step 9). -/
@[simp] theorem mNoAck_eq (s : State) : mNoAck s = .ok { s with ctrl := { s.ctrl with txak := true } }.advance := by
  rcases h : s.ctrl.mst <;> simp [mNoAck, opOr_ctrl, writeCtrl, writeCtrlBits, setDirection, h]

/-- `RXMODE` (R95). -/
@[simp] theorem mRxMode_eq (ack : BitVec 1) (s : State) :
    mRxMode ack s = .ok { s with ctrl := { s.ctrl with tx := false, txak := decide (ack = 0) } }.advance := by
  have hm : fieldMask .b 3#5 1#5 = 24#32 := by decide
  have ha : ack = 0 ∨ ack = 1 := by revert ack; decide
  rcases h : s.ctrl.mst <;> rcases ha with rfl | rfl <;>
    simp [mRxMode, opInsert, rmw, memRead, memWrite, region, ctrlOff, hm, writeCtrl, writeCtrlBits, setDirection, h]

/-- The save of `DIV` (R94 step 0). -/
@[simp] theorem mSaveDiv_eq (s : State) : mSaveDiv s = .ok { s with dp := { s.dp with saveDiv := s.div } }.advance := by
  simp [mSaveDiv, memRead, region, divOff]

/-- The multiplier forced to 1 (R94 step 1). -/
@[simp] theorem mUnityDiv_eq (s : State) : mUnityDiv s = .ok { s with div := s.div &&& 0x3F }.advance := by
  simp [mUnityDiv, opAnd_div]

/-- A divider whose multiplier bits have been cleared has multiplier 1 (R94). -/
@[simp] theorem divMult_unity (d : Byte) : divMult (d &&& 0x3F) = 0 := by
  revert d
  decide

/-- The restore of `DIV` (R94 step 3). -/
@[simp] theorem mRestoreDiv_eq (s : State) : mRestoreDiv s = .ok { s with div := s.dp.saveDiv }.advance := by
  simp [mRestoreDiv, memWrite, region, divOff]

/-- The strobe as master with nothing in flight at multiplier 1 (R94 step 2). -/
theorem mStrobe_master (s : State) (h : s.ctrl.mst = true) (hx : s.xfer = .none) (hd : divMult s.div = 0) :
    mStrobe s =
      .ok { s with ctrl := { s.ctrl with tx := true }, busTrace := s.busTrace ++ [BusEvent.restart] }.advance := by
  simp [mStrobe, opOr_ctrl, writeCtrl, writeCtrlBits, strobeRestart, setDirection, State.emit, h, hx, hd]

/-- The strobe when not master (R94 step 2). -/
theorem mStrobe_other (s : State) (h : s.ctrl.mst = false) :
    mStrobe s = .ok { s with ctrl := { s.ctrl with tx := true } }.advance := by
  simp [mStrobe, opOr_ctrl, writeCtrl, writeCtrlBits, strobeRestart, setDirection, h]

/-- The strobe with a byte in flight (U2). -/
theorem mStrobe_inFlight (s : State) (h : s.ctrl.mst = true) (hx : s.xfer ≠ .none) :
    mStrobe s = .error .byteInFlight := by
  simp [mStrobe, opOr_ctrl, writeCtrl, writeCtrlBits, strobeRestart, setDirection, h, hx]

/-- The strobe at another multiplier (U1). -/
theorem mStrobe_erratum (s : State) (h : s.ctrl.mst = true) (hx : s.xfer = .none) (hd : divMult s.div ≠ 0) :
    mStrobe s = .error .restartAtNonUnityMultiplier := by
  have hd' : ¬ divMult s.div = 0#2 := hd
  simp [mStrobe, opOr_ctrl, writeCtrl, writeCtrlBits, strobeRestart, setDirection, h, hx, hd']

/-- The store of a byte in `DATA` (R93 step 0). -/
theorem mStoreData_eq (b : State → Byte) (s : State) : mStoreData b s = thenAdvance (writeData (b s) s) := by
  simp [mStoreData, memWrite, region, dataOff]

/-- The load of `DATA` (R96, R104). -/
theorem mLoadData_eq (f : Byte → State → State) (s : State) :
    mLoadData f s =
      match readData s with
      | .ok (b, t) => .ok (f b t).advance
      | .error e => .error e := by
  unfold mLoadData
  cases h : readData s <;> simp [memRead, region, dataOff, h]

/-- A store in `DATA` (R52): into flight in master transmit mode, else the buffer alone. -/
theorem writeData_transmit (b : Byte) (s : State) (h : s.ctrl.mst = true) (ht : s.ctrl.tx = true) (hx : s.xfer = .none) :
    writeData b s = .ok { s with dbuf := b, xfer := .tx b } := by
  simp [writeData, h, ht, hx]

theorem writeData_other (b : Byte) (s : State) (h : ¬ (s.ctrl.mst = true ∧ s.ctrl.tx = true)) :
    writeData b s = .ok { s with dbuf := b } := by
  simp [writeData, h]

theorem writeData_inFlight (b : Byte) (s : State) (h : s.ctrl.mst = true) (ht : s.ctrl.tx = true) (hx : s.xfer ≠ .none) :
    writeData b s = .error .byteInFlight := by
  simp [writeData, h, ht, hx]

/-- A load of `DATA` (R53): the next byte started in master receive mode, else the buffer alone. -/
theorem readData_receive (s : State) (h : s.ctrl.mst = true) (ht : s.ctrl.tx = false) (hx : s.xfer = .none) :
    readData s = .ok (s.dbuf, { s with xfer := .rx s.ctrl.answer }) := by
  simp [readData, h, ht, hx]

theorem readData_other (s : State) (h : ¬ (s.ctrl.mst = true ∧ s.ctrl.tx = false)) : readData s = .ok (s.dbuf, s) := by
  simp [readData, h]

theorem readData_inFlight (s : State) (h : s.ctrl.mst = true) (ht : s.ctrl.tx = false) (hx : s.xfer ≠ .none) :
    readData s = .error .byteInFlight := by
  simp [readData, h, ht, hx]

/-! ## The window -/

/-- A read of `DATA` changes nothing but `XFER` (R53). -/
theorem readData_ok {s t : State} {b : Byte} (h : readData s = .ok (b, t)) : ∃ x : Xfer, t = { s with xfer := x } := by
  unfold readData at h
  split at h
  · split at h
    · cases h; exact ⟨_, rfl⟩
    · simp at h
  · cases h; exact ⟨s.xfer, rfl⟩

/-- A read of the window changes nothing but `XFER` (a read of `DATA`) and the count of draws (R48, R53). -/
theorem memRead_ok {off : Offset} {sz : Size} {s t : State} {v : Word} (h : memRead off sz s = .ok (v, t)) :
    ∃ (x : Xfer) (n : Nat), t = { s with xfer := x, draws := n } := by
  unfold memRead at h
  split at h
  all_goals first
    | (cases h; exact ⟨s.xfer, s.draws, rfl⟩)
    | (cases h; exact ⟨s.xfer, _, rfl⟩)
    | skip
  cases hd : readData s with
  | error f => simp [hd] at h
  | ok p =>
    obtain ⟨x, hx⟩ := readData_ok (b := p.1) (t := p.2) hd
    obtain ⟨-, h2⟩ : _ ∧ p.2 = t := by simpa [hd] using h
    exact ⟨x, s.draws, by rw [← h2, hx]⟩

/-- A write of `CTRL` changes only `CTRL`, `STAT`, `XFER` and the bus trace (R50, R51). -/
theorem writeCtrl_ok {v : Byte} {s t : State} (h : writeCtrl v s = .ok t) :
    ∃ (c : Ctrl) (st : Stat) (x : Xfer) (es : List BusEvent),
      t = { s with ctrl := c, stat := st, xfer := x, busTrace := s.busTrace ++ es } := by
  have hb : ∃ (c : Ctrl) (st : Stat) (x : Xfer) (es : List BusEvent),
      writeCtrlBits v s = { s with ctrl := c, stat := st, xfer := x, busTrace := s.busTrace ++ es } := by
    unfold writeCtrlBits startBus stopBus setDirection
    split
    · split
      · exact ⟨_, _, s.xfer, [], by simp only [List.append_nil]; rfl⟩
      · exact ⟨_, _, s.xfer, [.start], rfl⟩
    · split
      · exact ⟨_, _, .none, [.stop], rfl⟩
      · exact ⟨_, s.stat, s.xfer, [], by simp only [List.append_nil]; rfl⟩
  obtain ⟨c, st, x, es, hb⟩ := hb
  unfold writeCtrl strobeRestart at h
  split at h
  · split at h
    · exact ⟨c, st, x, es, by rw [← hb]; simpa using h.symm⟩
    · split at h
      · simp at h
      · split at h
        · simp at h
        · refine ⟨c, st, x, es ++ [.restart], ?_⟩
          have := (Except.ok.inj h).symm
          rw [this, hb]
          simp [State.emit]
  · exact ⟨c, st, x, es, by rw [← hb]; simpa using h.symm⟩

/-- A write of the window changes only the registers of the window, the bus trace and `XBUF` (R44, R48). -/
theorem memWrite_ok {off : Offset} {sz : Size} {v : Word} {s t : State} (h : memWrite off sz v s = .ok t) :
    ∃ (d : Byte) (c : Ctrl) (st : Stat) (b : Byte) (x : Xfer) (cm a : Word) (r : Bool) (i : Bool) (bs : List Byte)
      (es : List BusEvent),
      t = { s with
            div := d, ctrl := c, stat := st, dbuf := b, xfer := x, cmd := cm, aux := a, esr := { s.esr with recov := r },
            txie := i, mem := writeBytes s.mem off.toNat bs, busTrace := s.busTrace ++ es } := by
  unfold memWrite at h
  split at h <;>
    try exact ⟨_, _, _, _, _, _, _, _, _, [], [], by simpa [writeBytes, Esr.written] using (Except.ok.inj h).symm⟩
  · obtain ⟨c, st, x, es, rfl⟩ := writeCtrl_ok h
    exact ⟨s.div, c, st, s.dbuf, x, s.cmd, s.aux, s.esr.recov, s.txie, [], es, rfl⟩
  · unfold writeData at h
    split at h <;> try split at h
    · exact ⟨_, _, _, _, _, _, _, _, _, [], [], by simpa [writeBytes] using (Except.ok.inj h).symm⟩
    · simp at h
    · exact ⟨_, _, _, _, _, _, _, _, _, [], [], by simpa [writeBytes] using (Except.ok.inj h).symm⟩
  · cases h
    exact ⟨s.div, s.ctrl, s.stat, s.dbuf, s.xfer, s.cmd, s.aux, s.esr.recov, s.txie, leBytes sz.bytes v, [],
      by simp only [List.append_nil]⟩

/-! ## Every memory operation keeps the canonical form -/

theorem memWrite_wf {off : Offset} {sz : Size} {v : Word} {s t : State} (h : memWrite off sz v s = .ok t)
    (hw : Memory.wf s.mem = true) : Memory.wf t.mem = true := by
  obtain ⟨d, c, st, b, x, cm, a, r, i, bs, es, rfl⟩ := memWrite_ok h
  exact writeBytes_wf bs s.mem off.toNat hw

theorem memRead_wf {off : Offset} {sz : Size} {v : Word} {s t : State} (h : memRead off sz s = .ok (v, t))
    (hw : Memory.wf s.mem = true) : Memory.wf t.mem = true := by
  obtain ⟨x, n, rfl⟩ := memRead_ok h
  exact hw

theorem ring_put_wf (q : RingBuf) (b : Byte) (h : Memory.wf q.st = true) : Memory.wf (q.put b).st = true :=
  write_wf _ _ _ h

theorem fifo_put_wf (f : BoundedFifo) (bs : List Byte) (h : Memory.wf f.st = true) : Memory.wf (f.put bs).st = true :=
  writeBytes_wf _ _ _ (writeBytes_wf _ _ _ h)

theorem pinWrite_wf (port : BitVec 3) (pin : BitVec 5) (mux : BitVec 3) (s : State) (h : Store.wf s.pmux = true) :
    Store.wf (pinWrite port pin mux s).pmux = true :=
  write_wf _ _ _ h

/-- The memories of the reset state are in canonical form. -/
theorem reset_memories : MemoriesOk State.reset := by
  unfold MemoriesOk
  decide

/-! ## `Select` -/

/-- The `Select` of a transaction that goes on leaves what the arbiter's `Select` leaves, with SEQ one micro-step on; a block
that goes on after a miss has the policy `proceed` (R102, U5). -/
theorem mSelect_ok {s t : State} (h : mSelect s = .ok t) :
    t = (arbSelect s.dp.slv s).2.advance ∧ (s.params.missPolicy = .proceed ∨ (arbSelect s.dp.slv s).1 = 0) := by
  unfold mSelect at h
  dsimp only at h
  split at h
  · simp at h
  · refine ⟨(Except.ok.inj h).symm, ?_⟩
    cases hp : s.params.missPolicy <;> simp_all

/-- A `Select` changes only the memo, the pins and the pin trace (43_arbiter.md R113). -/
theorem arbSelect_frame (sl : Slave) (s : State) :
    ∃ (l i : BitVec 8) (g : Word) (p : Store (BitVec 3)) (w : List PinWrite),
      (arbSelect sl s).2 =
        { s with arb := { s.arb with lastAddr := l, lastHash := g, lastIdx := i }, pmux := p, pinTrace := s.pinTrace ++ w } := by
  unfold arbSelect
  split
  · exact ⟨s.arb.lastAddr, s.arb.lastIdx, s.arb.lastHash, s.pmux, [], by simp⟩
  · split
    · exact ⟨s.arb.lastAddr, s.arb.lastIdx, s.arb.lastHash, s.pmux, [], by simp⟩
    · unfold remember remux writePins pinWrite
      simp only
      split
      · split
        · exact ⟨_, _, _, _, [_, _, _, _], by simp only [List.append_assoc, List.cons_append, List.nil_append]; rfl⟩
        · exact ⟨_, _, _, _, [_, _], by simp only [List.append_assoc, List.cons_append, List.nil_append]; rfl⟩
      · exact ⟨_, _, _, s.pmux, [], by simp only [List.append_nil]; rfl⟩

end Sys2Proof.Machine
end

