-- ==== Sys2Proof/Machine/Environment.lean ====
section
/-! DEFINITION. What the environment may promise about an endless run: `ENV.bus_live`, weak fairness of BUS (20_memory.md R56),
and `ENV.max_polls_per_byte`, a bound on the polls of one byte (70_reset_and_hazards.md R160). Both parameters stand in
`Params`; a promise is about a whole run, so it is a predicate on the endless choice of turns and not a case of `step`
(log 28). -/

namespace Sys2Proof.Machine

/-- An endless choice of turns: which agent makes the `n`-th step, with the environment's choices in it (00_scope.md R18). -/
abbrev Schedule := Nat → Turn

/-- The state before the `n`-th turn of the schedule, handed out one at a time; none once the machine has stopped. -/
def State.along (sched : Schedule) (s : State) (n : Nat) : Option State :=
  match n with
  | 0 => some s
  | k + 1 =>
    match State.along sched s k with
    | none => none
    | some t =>
      match step { t with agenda := [sched k] } with
      | .next u => some u
      | .fault _ => none
      | .refused _ => none

/-- The turn is BUS's completion of the transfer (R54, R55). -/
def completes (x : Xfer) (turn : Turn) : Bool :=
  match x, turn with
  | .tx _, .busTx _ => true
  | .rx _, .busRx _ => true
  | _, _ => false

/-- BUS is weakly fair: a byte in flight is eventually completed, if it is not abandoned and the machine does not stop (R56). -/
def BusFair (sched : Schedule) (s : State) : Prop :=
  ∀ n t, s.along sched n = some t → t.xfer ≠ .none →
    ∃ m, n ≤ m ∧ ∀ u, s.along sched m = some u → u.xfer = .none ∨ completes u.xfer (sched m) = true

/-- SEQ never stops stepping. -/
def SeqFair (sched : Schedule) : Prop := ∀ n, ∃ m, n ≤ m ∧ sched m = .seq

/-- The micro-steps of the command of opcode `op` that hold until `IF` is 1, the unbounded waits of 41_engine_primitives.md R90
(numbers: log 8). -/
def waitIfSteps (op : Byte) : List (BitVec 6) :=
  if op = 0x12 ∨ op = 0x15 then [1]
  else if op = 0x20 then [4, 7, 14, 18]
  else if op = 0x21 then [6, 9, 16, 20, 25, 30, 39, 42, 49, 53]
  else if op = 0x22 then [4, 7, 10]
  else if op = 0x23 then [4, 7, 14, 18, 27, 30, 33]
  else []

/-- SEQ stands at an unbounded wait on `IF`. -/
def atWaitIf (q : SeqState) : Bool :=
  match q with
  | .run op k => (waitIfSteps op).contains k
  | .idle => false
  | .halt => false

/-- SEQ stands at a poll of `IF`: an unbounded wait, or the poll of `WAITB` (R99 step 1). -/
def atPoll (q : SeqState) : Bool := atWaitIf q || q == .run 0x18 1

/-- The turn is a poll that finds `IF` 0. -/
def failedPoll (turn : Turn) (s : State) : Bool := turn == .seq && atPoll s.seq && !s.stat.ifl

/-- How many of the `d` turns from the `n`-th on are polls that find `IF` 0. -/
def failedPolls (sched : Schedule) (s : State) (n d : Nat) : Nat :=
  ((List.range d).filter fun j => ((s.along sched (n + j)).map (failedPoll (sched (n + j)))).getD false).length

/-- While one byte is in flight at most `bound` polls find `IF` 0 (R160). -/
def PollsBounded (bound : Nat) (sched : Schedule) (s : State) : Prop :=
  ∀ n d, (∀ j, j < d → ∃ t, s.along sched (n + j) = some t ∧ t.xfer ≠ .none) → failedPolls sched s n d ≤ bound

/-- The run from `s` keeps the promises that its environment's parameters make (R10, R56, R160). -/
def Promised (sched : Schedule) (s : State) : Prop :=
  (s.params.busLive = true → BusFair sched s) ∧
    ∀ bound, s.params.maxPollsPerByte = some bound → PollsBounded bound sched s

end Sys2Proof.Machine
end

