-- ==== Sys2Proof/Laws/Environment.lean ====
section
/-! SUPPORT. What `ENV.bus_live` decides (20_memory.md R56): with it every unbounded wait on `IF` with a byte in flight ends;
without it such a wait may hold for ever, a step that answers the same state. -/

namespace Sys2Proof.Machine

/-- A wait on `IF` runs as `WaitIF`'s first micro-step (41_engine_primitives.md R90). -/
theorem exec_atWaitIf (i : Instr) (s : State) (k : BitVec 6) (hs : s.seq = .run i.opcode k)
    (hk : (waitIfSteps i.opcode).contains k = true) : exec i s = .next (if s.stat.ifl then s.advance else s) := by
  have done : ∀ (op : Byte) (load : State → Datapath) (prog : List MicroOp), s.seq = .run op k →
      prog[k.toNat]? = some mWaitIf → command op load prog s = .next (if s.stat.ifl then s.advance else s) :=
    fun op load prog h hm => by rw [command_run _ _ _ _ _ _ h hm]; rfl
  cases i <;> simp [waitIfSteps, Instr.opcode] at hk
  case sendb => subst hk; rw [exec, execSendb]; exact done _ _ _ hs rfl
  case drvclk => subst hk; exact done _ _ _ hs rfl
  case rdreg => rcases hk with rfl | rfl | rfl | rfl <;> exact done _ _ _ hs rfl
  case rdregs =>
    rcases hk with rfl | rfl | rfl | rfl | rfl | rfl | rfl | rfl | rfl | rfl <;> exact done _ _ _ hs rfl
  case wrreg => rw [exec, execWrreg]; rcases hk with rfl | rfl | rfl <;> exact done _ _ _ hs rfl
  case modreg => rw [exec, execModreg]; rcases hk with rfl | rfl | rfl | rfl | rfl | rfl | rfl <;> exact done _ _ _ hs rfl

/-- At a wait on `IF` SEQ's turn goes on when `IF` is 1 and holds when it is 0. -/
theorem seqTurn_atWaitIf (s : State) (hok : SeqOk s) (hw : atWaitIf s.seq = true) :
    seqTurn s = .next (if s.stat.ifl then s.advance else s) := by
  cases hq : s.seq with
  | idle => simp [hq, atWaitIf] at hw
  | halt => simp [hq, atWaitIf] at hw
  | run op k =>
    obtain ⟨i, hd, rfl, -⟩ := hok op k hq
    simp only [seqTurn, hq, hd]
    exact exec_atWaitIf i s k hq (by simpa [hq, atWaitIf] using hw)

/-- A stuck flag: with `IF` 0 and no other agent's turn, an unbounded wait answers the same state, any number of times. It is a
hang and not a final state (R56, U8). -/
theorem stuckFlag_hangs (s : State) (hok : SeqOk s) (hw : atWaitIf s.seq = true) (hif : s.stat.ifl = false)
    (ha : s.agenda = []) (n : Nat) : runSteps n s = .next s := by
  have hstep : step s = .next s := by
    have h := seqTurn_atWaitIf s hok hw
    cases hq : s.seq with
    | idle => simp [hq, atWaitIf] at hw
    | halt => simp [hq, atWaitIf] at hw
    | run op k => simpa [step, ha, defaultTurn, hq, hif] using h
  induction n with
  | zero => rfl
  | succ m ih => simpa [runSteps, hstep] using ih

/-- The wait that holds in `t` still holds in `u`: SEQ and its command are where they were, and `IF` has come or the byte is
still in flight. -/
structure Waiting (t u : State) : Prop where
  seq : u.seq = t.seq
  cmd : u.cmd = t.cmd
  params : u.params = t.params
  flag : u.stat.ifl = true ∨ u.xfer = t.xfer

theorem Waiting.seqOk {t u : State} (h : Waiting t u) (hok : SeqOk t) : SeqOk u := by
  intro op k hu
  rw [h.cmd, h.params]
  exact hok op k (h.seq ▸ hu)

/-- While a command runs HOST's access to the window is held (R23). -/
theorem windowAccess_running {s : State} {op : Byte} {k : BitVec 6} {a : HostAccess} {off : Offset} {rest : List HostAccess}
    (h : s.seq = .run op k) : windowAccess a off rest s = .next s := by
  simp [windowAccess, h]

/-- While a command runs HOST's turn changes nothing but the list of accesses HOST has still to make (R23). -/
theorem hostTurn_running {s : State} {op : Byte} {k : BitVec 6} (h : s.seq = .run op k) :
    ∃ acc, hostTurn s = .next { s with host := acc } := by
  unfold hostTurn
  split
  · exact ⟨s.host, rfl⟩
  · split
    · exact ⟨s.host, windowAccess_running h⟩
    · exact ⟨_, rfl⟩

/-- What LINK leaves alone (60_exceptions.md R143). -/
theorem linkRx_frame (b : Byte) (s : State) :
    (linkRx b s).seq = s.seq ∧ (linkRx b s).cmd = s.cmd ∧ (linkRx b s).params = s.params ∧ (linkRx b s).stat = s.stat ∧
      (linkRx b s).xfer = s.xfer := by
  unfold linkRx
  split
  · split
    · unfold ringReceive; split
      · simp
      · split <;> simp [State.barrier]
    · unfold critical fifoReceive; split <;> simp
  · simp

/-- What LINK leaves alone (60_exceptions.md R143). -/
theorem linkTx_frame (s : State) :
    (linkTx s).seq = s.seq ∧ (linkTx s).cmd = s.cmd ∧ (linkTx s).params = s.params ∧ (linkTx s).stat = s.stat ∧
      (linkTx s).xfer = s.xfer := by
  unfold linkTx
  split
  · split
    · unfold ringTransmit; split <;> simp [State.barrier]
    · unfold critical fifoTransmit; split <;> simp
  · simp

/-- While SEQ waits on `IF`, every turn but a reset and but SEQ's own poll of a set flag keeps the wait, and a set flag stays
set. -/
theorem waiting_turn {t u : State} {turn : Turn} (hok : SeqOk t) (hw : atWaitIf t.seq = true) (h : Waiting t u)
    (hr : turn ≠ .reset) (hp : turn = .seq → u.stat.ifl = false) :
    ∃ v, step { u with agenda := [turn] } = .next v ∧ Waiting t v ∧ (u.stat.ifl = true → v.stat.ifl = true) ∧
      (u.xfer = t.xfer → completes t.xfer turn = true → v.stat.ifl = true) := by
  obtain ⟨op, k, hq⟩ : ∃ op k, t.seq = .run op k := by
    cases hq : t.seq with
    | idle => simp [hq, atWaitIf] at hw
    | halt => simp [hq, atWaitIf] at hw
    | run op k => exact ⟨op, k, rfl⟩
  have keep : ∀ v : State, v.seq = u.seq → v.cmd = u.cmd → v.params = u.params → v.stat = u.stat → v.xfer = u.xfer →
      completes t.xfer turn = false → Waiting t v ∧ (u.stat.ifl = true → v.stat.ifl = true) ∧
        (u.xfer = t.xfer → completes t.xfer turn = true → v.stat.ifl = true) :=
    fun v h1 h2 h3 h4 h5 hc =>
      ⟨⟨h1.trans h.seq, h2.trans h.cmd, h3.trans h.params, by rw [h4, h5]; exact h.flag⟩, fun hi => by rw [h4]; exact hi,
        fun _ h' => by simp [hc] at h'⟩
  have other : (∀ a, turn ≠ .busTx a) → (∀ d, turn ≠ .busRx d) → completes t.xfer turn = false := by
    intro h1 h2
    cases turn <;> cases t.xfer <;> simp_all [completes]
  cases turn with
  | seq =>
    refine ⟨{ u with agenda := [] }, ?_, keep _ rfl rfl rfl rfl rfl (other (by simp) (by simp))⟩
    have hu : Waiting t { u with agenda := [] } := ⟨h.seq, h.cmd, h.params, h.flag⟩
    have := seqTurn_atWaitIf _ (hu.seqOk hok) (by rw [hu.seq]; exact hw)
    simpa [step, takeTurn, hp rfl] using this
  | host =>
    obtain ⟨acc, ha⟩ := hostTurn_running (s := { u with agenda := [] }) (h.seq.trans hq)
    exact ⟨_, ha, keep _ rfl rfl rfl rfl rfl (other (by simp) (by simp))⟩
  | busTx a =>
    refine ⟨_, rfl, ?_⟩
    cases hx : u.xfer with
    | none => simpa [busTx, hx] using
        ⟨⟨h.seq, h.cmd, h.params, by simpa [hx] using h.flag⟩, fun e => by simp [← e, completes]⟩
    | tx b => simp [busTx]; exact ⟨h.seq, h.cmd, h.params, .inl rfl⟩
    | rx m => simpa [busTx, hx] using
        ⟨⟨h.seq, h.cmd, h.params, by simpa [hx] using h.flag⟩, fun e => by simp [← e, completes]⟩
  | busRx d =>
    refine ⟨_, rfl, ?_⟩
    cases hx : u.xfer with
    | none => simpa [busRx, hx] using
        ⟨⟨h.seq, h.cmd, h.params, by simpa [hx] using h.flag⟩, fun e => by simp [← e, completes]⟩
    | tx b => simpa [busRx, hx] using
        ⟨⟨h.seq, h.cmd, h.params, by simpa [hx] using h.flag⟩, fun e => by simp [← e, completes]⟩
    | rx m => simp [busRx]; exact ⟨h.seq, h.cmd, h.params, .inl rfl⟩
  | busBusy taken =>
    refine ⟨_, rfl, ⟨?_, ?_, ?_, ?_⟩, ?_, ?_⟩ <;> unfold busBusy <;> split <;>
      simp_all [h.seq, h.cmd, h.params, h.flag]
  | busArbLost =>
    refine ⟨_, rfl, ⟨?_, ?_, ?_, ?_⟩, ?_, ?_⟩ <;> unfold busArbLost <;> split <;>
      simp_all [h.seq, h.cmd, h.params, h.flag]
  | linkRx b =>
    obtain ⟨h1, h2, h3, h4, h5⟩ := linkRx_frame b { u with agenda := [] }
    exact ⟨_, rfl, keep _ h1 h2 h3 h4 h5 (other (by simp) (by simp))⟩
  | linkTx =>
    obtain ⟨h1, h2, h3, h4, h5⟩ := linkTx_frame { u with agenda := [] }
    exact ⟨_, rfl, keep _ h1 h2 h3 h4 h5 (other (by simp) (by simp))⟩
  | reset => exact absurd rfl hr

/-- One more turn of a run. -/
theorem along_succ {sched : Schedule} {s t u : State} {n : Nat} (h : s.along sched n = some t)
    (hs : step { t with agenda := [sched n] } = .next u) : s.along sched (n + 1) = some u := by
  simp [State.along, h, hs]

/-- From a waiting state on, either SEQ polls a set flag within `d` turns or the wait still holds after them. -/
theorem waiting_along {sched : Schedule} {s t u : State} {n : Nat} (hok : SeqOk t) (hw : atWaitIf t.seq = true)
    (hr : ∀ m, sched m ≠ .reset) (hn : s.along sched n = some u) (h : Waiting t u) (d : Nat) :
    (∃ m v, n ≤ m ∧ s.along sched m = some v ∧ Waiting t v ∧ v.stat.ifl = true ∧ sched m = .seq) ∨
      ∃ v, s.along sched (n + d) = some v ∧ Waiting t v ∧ (u.stat.ifl = true → v.stat.ifl = true) := by
  induction d with
  | zero => exact .inr ⟨u, hn, h, id⟩
  | succ d ih =>
    obtain found | ⟨v, hv, hwait, hif⟩ := ih
    · exact .inl found
    · by_cases hpoll : sched (n + d) = .seq ∧ v.stat.ifl = true
      · exact .inl ⟨n + d, v, by omega, hv, hwait, hpoll.2, hpoll.1⟩
      · obtain ⟨x, hx, hwx, hfx, -⟩ := waiting_turn hok hw hwait (hr (n + d)) fun e => by simpa [e] using hpoll
        exact .inr ⟨x, along_succ hv hx, hwx, fun e => hfx (hif e)⟩

/-- With a weakly fair BUS every unbounded wait on `IF` with a byte in flight ends, short of a reset, as long as SEQ keeps
stepping (R56). -/
theorem liveBus_ends_wait {sched : Schedule} {s t : State} {n : Nat} (hbus : BusFair sched s) (hseq : SeqFair sched)
    (hr : ∀ m, sched m ≠ .reset) (hn : s.along sched n = some t) (hok : SeqOk t) (hw : atWaitIf t.seq = true)
    (hx : t.xfer ≠ .none) :
    ∃ m u, n ≤ m ∧ s.along sched (m + 1) = some u ∧ u.seq = t.seq.next := by
  have ends : (∃ m v, n ≤ m ∧ s.along sched m = some v ∧ Waiting t v ∧ v.stat.ifl = true ∧ sched m = .seq) →
      ∃ m u, n ≤ m ∧ s.along sched (m + 1) = some u ∧ u.seq = t.seq.next := by
    rintro ⟨m, v, hm, hv, hwait, hif, hs⟩
    have hv' : Waiting t { v with agenda := [] } := ⟨hwait.seq, hwait.cmd, hwait.params, hwait.flag⟩
    have := seqTurn_atWaitIf _ (hv'.seqOk hok) (by rw [hv'.seq]; exact hw)
    exact ⟨m, _, hm, along_succ hv (by simpa [step, hs, takeTurn, hif] using this), by simp [State.advance, hwait.seq]⟩
  obtain ⟨m, hm, hfair⟩ := hbus n t hn hx
  obtain ⟨d, rfl⟩ := Nat.exists_eq_add_of_le hm
  obtain found | ⟨v, hv, hwait, -⟩ := waiting_along hok hw hr hn ⟨rfl, rfl, rfl, .inr rfl⟩ d
  · exact ends found
  · -- the flag is set at `n + d + 1` at the latest, unless SEQ polls it set before
    by_cases hpoll : sched (n + d) = .seq ∧ v.stat.ifl = true
    · exact ends ⟨n + d, v, hm, hv, hwait, hpoll.2, hpoll.1⟩
    · obtain ⟨x, hstep, hwx, hkeep, hset⟩ := waiting_turn hok hw hwait (hr (n + d)) fun e => by simpa [e] using hpoll
      have hif : x.stat.ifl = true := by
        rcases hwait.flag with hf | hxv
        · exact hkeep hf
        · rcases hfair v hv with h0 | hc
          · exact absurd (hxv.symm.trans h0) hx
          · exact hset hxv (hxv ▸ hc)
      have hnext := along_succ hv hstep
      obtain ⟨m', hm', hs'⟩ := hseq (n + d + 1)
      obtain ⟨e, rfl⟩ := Nat.exists_eq_add_of_le hm'
      obtain ⟨m, y, h1, h2⟩ | ⟨y, hy, hwy, hfy⟩ := waiting_along hok hw hr hnext hwx e
      · exact ends ⟨m, y, by omega, h2⟩
      · exact ends ⟨_, y, by omega, hy, hwy, hfy hif, hs'⟩

end Sys2Proof.Machine
end

