-- ==== Sys2Proof/Laws/PerInstr.lean ====
section
/-! SUPPORT. Statements about every instruction as syntax, one lemma per constructor. -/

namespace Sys2Proof.Laws

/-- The word of a command carries its opcode in bits 31:24 (30_encoding.md R69, R74). -/
def OpcodeByte.Statement (i : Instr) : Prop := opc (encode i) = i.opcode

/-- A well-formed command's word matches its row of the opcode table (30_encoding.md R74, R75). -/
def TableRow.Statement (i : Instr) : Prop := encode i &&& i.rowMask = i.rowMatch

/-- A word of format P under a row's mask, operand byte by operand byte. -/
theorem rowP {op a b c : Byte} {m : Word} (ma mb mc : Byte) (hm : m = packP 0xFF ma mb mc) (ha : a &&& ma = 0)
    (hb : b &&& mb = 0) (hc : c &&& mc = 0) : packP op a b c &&& m = packP op 0 0 0 := by
  have h : op &&& 0xFF#8 = op := BitVec.and_allOnes
  subst hm
  show (op ++ a ++ b ++ c : BitVec (8 + 8 + 8 + 8)) &&& (0xFF#8 ++ ma ++ mb ++ mc) = op ++ 0#8 ++ 0#8 ++ 0#8
  rw [BitVec.and_append, BitVec.and_append, BitVec.and_append, ha, hb, hc, h]
  rfl

/-- An opcode above zero fields is the same word in both formats. -/
theorem packR_zero (op : Byte) : packR op .b 0 0 0 = packP op 0 0 0 := by
  revert op
  decide

/-- A word of format R under the mask of a row without a bit field. -/
theorem rowR (op : Byte) (sz : Size) (addr : Offset) :
    packR op sz 0 0 addr &&& 0xFF3FF000 = packP op 0 0 0 := by
  have h : op &&& 0xFF#8 = op := BitVec.and_allOnes
  have hm : (0xFF3FF000 : Word) = 0xFF#8 ++ 0#2 ++ 31#5 ++ 31#5 ++ 0#12 := by decide
  rw [hm, ← packR_zero]
  show (op ++ sz.code ++ 0#5 ++ 0#5 ++ addr : BitVec (8 + 2 + 5 + 5 + 12)) &&& (0xFF#8 ++ 0#2 ++ 31#5 ++ 31#5 ++ 0#12) =
    op ++ 0#2 ++ 0#5 ++ 0#5 ++ 0#12
  rw [BitVec.and_append, BitVec.and_append, BitVec.and_append, BitVec.and_append, h]
  simp only [BitVec.and_zero, BitVec.zero_and]

/-- A word of format R under the mask of a row with a bit field. -/
theorem rowF (op : Byte) (sz : Size) (pos wm1 : BitVec 5) (addr : Offset) :
    packR op sz pos wm1 addr &&& 0xFF000000 = packP op 0 0 0 := by
  have h : op &&& 0xFF#8 = op := BitVec.and_allOnes
  have hm : (0xFF000000 : Word) = 0xFF#8 ++ 0#2 ++ 0#5 ++ 0#5 ++ 0#12 := by decide
  rw [hm, ← packR_zero]
  show (op ++ sz.code ++ pos ++ wm1 ++ addr : BitVec (8 + 2 + 5 + 5 + 12)) &&& (0xFF#8 ++ 0#2 ++ 0#5 ++ 0#5 ++ 0#12) =
    op ++ 0#2 ++ 0#5 ++ 0#5 ++ 0#12
  rw [BitVec.and_append, BitVec.and_append, BitVec.and_append, BitVec.and_append, h]
  simp only [BitVec.and_zero]

theorem slave_and (x : Slave) : x.setWidth 8 &&& 0x80#8 = 0 := by revert x; decide
theorem inst_and (x : Inst) : x.setWidth 8 &&& 0xFE#8 = 0 := by revert x; decide
theorem index_and (x : BitVec 3) : x.setWidth 8 &&& 0xF8#8 = 0 := by revert x; decide
theorem count_and (x : BitVec 4) : x.setWidth 8 &&& 0xF0#8 = 0 := by revert x; decide

theorem OpcodeByte.ld (sz : Size) (addr : Offset) : OpcodeByte.Statement (.ld sz addr) := opc_packR ..
theorem OpcodeByte.st (sz : Size) (addr : Offset) : OpcodeByte.Statement (.st sz addr) := opc_packR ..
theorem OpcodeByte.aand (sz : Size) (addr : Offset) : OpcodeByte.Statement (.aand sz addr) := opc_packR ..
theorem OpcodeByte.aor (sz : Size) (addr : Offset) : OpcodeByte.Statement (.aor sz addr) := opc_packR ..
theorem OpcodeByte.axor (sz : Size) (addr : Offset) : OpcodeByte.Statement (.axor sz addr) := opc_packR ..
theorem OpcodeByte.bfi (sz : Size) (pos : BitVec 5) (wm1 : BitVec 5) (addr : Offset) : OpcodeByte.Statement (.bfi sz pos wm1 addr) := opc_packR ..
theorem OpcodeByte.ubfx (sz : Size) (pos : BitVec 5) (wm1 : BitVec 5) (addr : Offset) : OpcodeByte.Statement (.ubfx sz pos wm1 addr) := opc_packR ..
theorem OpcodeByte.waitbusy : OpcodeByte.Statement .waitbusy := opc_packP ..
theorem OpcodeByte.start : OpcodeByte.Statement .start := opc_packP ..
theorem OpcodeByte.sendb (byte : Byte) : OpcodeByte.Statement (.sendb byte) := opc_packP ..
theorem OpcodeByte.rstart : OpcodeByte.Statement .rstart := opc_packP ..
theorem OpcodeByte.rxmode (ack : BitVec 1) : OpcodeByte.Statement (.rxmode ack) := opc_packP ..
theorem OpcodeByte.drvclk : OpcodeByte.Statement .drvclk := opc_packP ..
theorem OpcodeByte.stop : OpcodeByte.Statement .stop := opc_packP ..
theorem OpcodeByte.resetbus : OpcodeByte.Statement .resetbus := opc_packP ..
theorem OpcodeByte.waitb : OpcodeByte.Statement .waitb := opc_packP ..
theorem OpcodeByte.rdreg (slave : Slave) (reg : Byte) : OpcodeByte.Statement (.rdreg slave reg) := opc_packP ..
theorem OpcodeByte.rdregs (slave : Slave) (startReg : Byte) (count : Byte) : OpcodeByte.Statement (.rdregs slave startReg count) := opc_packP ..
theorem OpcodeByte.wrreg (slave : Slave) (reg : Byte) (value : Byte) : OpcodeByte.Statement (.wrreg slave reg value) := opc_packP ..
theorem OpcodeByte.modreg (slave : Slave) (reg : Byte) : OpcodeByte.Statement (.modreg slave reg) := opc_packP ..
theorem OpcodeByte.prep (index : BitVec 3) (slave : Slave) : OpcodeByte.Statement (.prep index slave) := opc_packP ..
theorem OpcodeByte.config (count : BitVec 4) : OpcodeByte.Statement (.config count) := opc_packP ..
theorem OpcodeByte.select (slave : Slave) : OpcodeByte.Statement (.select slave) := opc_packP ..
theorem OpcodeByte.rbInit (k : Inst) : OpcodeByte.Statement (.rbInit k) := opc_packP ..
theorem OpcodeByte.rbPush (k : Inst) (byte : Byte) : OpcodeByte.Statement (.rbPush k byte) := opc_packP ..
theorem OpcodeByte.rbPop (k : Inst) : OpcodeByte.Statement (.rbPop k) := opc_packP ..
theorem OpcodeByte.rbCount (k : Inst) : OpcodeByte.Statement (.rbCount k) := opc_packP ..
theorem OpcodeByte.rbEmpty (k : Inst) : OpcodeByte.Statement (.rbEmpty k) := opc_packP ..
theorem OpcodeByte.rbFull (k : Inst) : OpcodeByte.Statement (.rbFull k) := opc_packP ..
theorem OpcodeByte.rbWaitne (k : Inst) : OpcodeByte.Statement (.rbWaitne k) := opc_packP ..
theorem OpcodeByte.rbWaitnf (k : Inst) : OpcodeByte.Statement (.rbWaitnf k) := opc_packP ..
theorem OpcodeByte.rbWaite (k : Inst) : OpcodeByte.Statement (.rbWaite k) := opc_packP ..
theorem OpcodeByte.bfEnq (k : Inst) (n : BitVec 16) : OpcodeByte.Statement (.bfEnq k n) := opc_packP ..
theorem OpcodeByte.bfDeq (k : Inst) (n : BitVec 16) : OpcodeByte.Statement (.bfDeq k n) := opc_packP ..
theorem OpcodeByte.bfLen (k : Inst) : OpcodeByte.Statement (.bfLen k) := opc_packP ..
theorem OpcodeByte.bfFull (k : Inst) : OpcodeByte.Statement (.bfFull k) := opc_packP ..

theorem TableRow.ld (sz : Size) (addr : Offset) : TableRow.Statement (.ld sz addr) :=
  rowR ..
theorem TableRow.st (sz : Size) (addr : Offset) : TableRow.Statement (.st sz addr) :=
  rowR ..
theorem TableRow.aand (sz : Size) (addr : Offset) : TableRow.Statement (.aand sz addr) :=
  rowR ..
theorem TableRow.aor (sz : Size) (addr : Offset) : TableRow.Statement (.aor sz addr) :=
  rowR ..
theorem TableRow.axor (sz : Size) (addr : Offset) : TableRow.Statement (.axor sz addr) :=
  rowR ..
theorem TableRow.bfi (sz : Size) (pos : BitVec 5) (wm1 : BitVec 5) (addr : Offset) : TableRow.Statement (.bfi sz pos wm1 addr) :=
  rowF ..
theorem TableRow.ubfx (sz : Size) (pos : BitVec 5) (wm1 : BitVec 5) (addr : Offset) : TableRow.Statement (.ubfx sz pos wm1 addr) :=
  rowF ..
theorem TableRow.waitbusy : TableRow.Statement .waitbusy :=
  rowP 255 255 255 (by rfl) rfl rfl rfl
theorem TableRow.start : TableRow.Statement .start :=
  rowP 255 255 255 (by rfl) rfl rfl rfl
theorem TableRow.sendb (byte : Byte) : TableRow.Statement (.sendb byte) :=
  rowP 255 255 0 (by rfl) rfl rfl BitVec.and_zero
theorem TableRow.rstart : TableRow.Statement .rstart :=
  rowP 255 255 255 (by rfl) rfl rfl rfl
theorem TableRow.rxmode (ack : BitVec 1) : TableRow.Statement (.rxmode ack) :=
  rowP 255 255 0xFE (by rfl) rfl rfl (inst_and ack)
theorem TableRow.drvclk : TableRow.Statement .drvclk :=
  rowP 255 255 255 (by rfl) rfl rfl rfl
theorem TableRow.stop : TableRow.Statement .stop :=
  rowP 255 255 255 (by rfl) rfl rfl rfl
theorem TableRow.resetbus : TableRow.Statement .resetbus :=
  rowP 255 255 255 (by rfl) rfl rfl rfl
theorem TableRow.waitb : TableRow.Statement .waitb :=
  rowP 255 255 255 (by rfl) rfl rfl rfl
theorem TableRow.rdreg (slave : Slave) (reg : Byte) : TableRow.Statement (.rdreg slave reg) :=
  rowP 0x80 0 0xFF (by rfl) (slave_and slave) BitVec.and_zero rfl
theorem TableRow.rdregs (slave : Slave) (startReg : Byte) (count : Byte) : TableRow.Statement (.rdregs slave startReg count) :=
  rowP 0x80 0 0 (by rfl) (slave_and slave) BitVec.and_zero BitVec.and_zero
theorem TableRow.wrreg (slave : Slave) (reg : Byte) (value : Byte) : TableRow.Statement (.wrreg slave reg value) :=
  rowP 0x80 0 0 (by rfl) (slave_and slave) BitVec.and_zero BitVec.and_zero
theorem TableRow.modreg (slave : Slave) (reg : Byte) : TableRow.Statement (.modreg slave reg) :=
  rowP 0x80 0 0xFF (by rfl) (slave_and slave) BitVec.and_zero rfl
theorem TableRow.prep (index : BitVec 3) (slave : Slave) : TableRow.Statement (.prep index slave) :=
  rowP 0xF8 0x80 0xFF (by rfl) (index_and index) (slave_and slave) rfl
theorem TableRow.config (count : BitVec 4) : TableRow.Statement (.config count) :=
  rowP 0xFF 0xFF 0xF0 (by rfl) rfl rfl (count_and count)
theorem TableRow.select (slave : Slave) : TableRow.Statement (.select slave) :=
  rowP 0xFF 0x80 0xFF (by rfl) rfl (slave_and slave) rfl
theorem TableRow.rbInit (k : Inst) : TableRow.Statement (.rbInit k) :=
  rowP 0xFE 0xFF 0xFF (by rfl) (inst_and k) rfl rfl
theorem TableRow.rbPush (k : Inst) (byte : Byte) : TableRow.Statement (.rbPush k byte) :=
  rowP 0xFE 0xFF 0 (by rfl) (inst_and k) rfl BitVec.and_zero
theorem TableRow.rbPop (k : Inst) : TableRow.Statement (.rbPop k) :=
  rowP 0xFE 0xFF 0xFF (by rfl) (inst_and k) rfl rfl
theorem TableRow.rbCount (k : Inst) : TableRow.Statement (.rbCount k) :=
  rowP 0xFE 0xFF 0xFF (by rfl) (inst_and k) rfl rfl
theorem TableRow.rbEmpty (k : Inst) : TableRow.Statement (.rbEmpty k) :=
  rowP 0xFE 0xFF 0xFF (by rfl) (inst_and k) rfl rfl
theorem TableRow.rbFull (k : Inst) : TableRow.Statement (.rbFull k) :=
  rowP 0xFE 0xFF 0xFF (by rfl) (inst_and k) rfl rfl
theorem TableRow.rbWaitne (k : Inst) : TableRow.Statement (.rbWaitne k) :=
  rowP 0xFE 0xFF 0xFF (by rfl) (inst_and k) rfl rfl
theorem TableRow.rbWaitnf (k : Inst) : TableRow.Statement (.rbWaitnf k) :=
  rowP 0xFE 0xFF 0xFF (by rfl) (inst_and k) rfl rfl
theorem TableRow.rbWaite (k : Inst) : TableRow.Statement (.rbWaite k) :=
  rowP 0xFE 0xFF 0xFF (by rfl) (inst_and k) rfl rfl
theorem TableRow.bfEnq (k : Inst) (n : BitVec 16) : TableRow.Statement (.bfEnq k n) :=
  rowP 0xFE 0 0 (by rfl) (inst_and k) BitVec.and_zero BitVec.and_zero
theorem TableRow.bfDeq (k : Inst) (n : BitVec 16) : TableRow.Statement (.bfDeq k n) :=
  rowP 0xFE 0 0 (by rfl) (inst_and k) BitVec.and_zero BitVec.and_zero
theorem TableRow.bfLen (k : Inst) : TableRow.Statement (.bfLen k) :=
  rowP 0xFE 0xFF 0xFF (by rfl) (inst_and k) rfl rfl
theorem TableRow.bfFull (k : Inst) : TableRow.Statement (.bfFull k) :=
  rowP 0xFE 0xFF 0xFF (by rfl) (inst_and k) rfl rfl

end Sys2Proof.Laws
end

