-- ==== Sys2Proof/Laws/Window.lean ====
section
/-! SUPPORT. The map of the window (20_memory.md R44), said once by cases, and what the access checks amount to (R46,
40_register_access.md R80). -/

namespace Sys2Proof.Machine

/-- A host address is that of window offset `off` exactly where the window shows `off` there, wherever `BASE` is (R43, R44). -/
theorem offsetOf_eq_some_iff (p : Params) (addr : Nat) (off : Offset) :
    p.offsetOf addr = some off ↔ addr = p.address off := by
  unfold Params.offsetOf Params.address Config.windowSize
  split
  · rw [Option.some.injEq]; bv_omega
  · simp only [reduceCtorEq, false_iff]; omega

@[simp] theorem offsetOf_address (p : Params) (off : Offset) : p.offsetOf (p.address off) = some off :=
  (offsetOf_eq_some_iff p _ off).mpr rfl

/-- A host address that is no offset's lies outside the window. -/
theorem offsetOf_eq_none_iff (p : Params) (addr : Nat) : p.offsetOf addr = none ↔ ∀ off, addr ≠ p.address off := by
  simp [Option.eq_none_iff_forall_ne_some, offsetOf_eq_some_iff]

/-- The map of R44, region by region: at every offset exactly one of these holds. -/
theorem region_cases (v : FifoVariant) (off : Offset) :
    ((off.toNat = 0x000 ∨ (0x005 ≤ off.toNat ∧ off.toNat < 0x008)) ∧ region v off = .reservedByte) ∨
    (off.toNat = 0x001 ∧ region v off = .div) ∨ (off.toNat = 0x002 ∧ region v off = .ctrl) ∨
    (off.toNat = 0x003 ∧ region v off = .stat) ∨ (off.toNat = 0x004 ∧ region v off = .data) ∨
    ((0x008 ≤ off.toNat ∧ off.toNat < 0x00C) ∧ region v off = .cmd) ∨
    ((0x00C ≤ off.toNat ∧ off.toNat < 0x010) ∧ region v off = .aux) ∨
    ((0x010 ≤ off.toNat ∧ off.toNat < 0x014) ∧ region v off = .res) ∨
    ((0x014 ≤ off.toNat ∧ off.toNat < 0x018) ∧ region v off = .esr) ∨
    ((0x018 ≤ off.toNat ∧ off.toNat < 0x01C) ∧ region v off = .lockcnt) ∨
    ((0x01C ≤ off.toNat ∧ off.toNat < 0x020) ∧ region v off = .linkctl) ∨
    ((0x100 ≤ off.toNat ∧ off.toNat < 0x200) ∧ region v off = .rbuf) ∨
    ((v = .b ∧ 0x400 ≤ off.toNat ∧ off.toNat < 0x800) ∧ region v off = .xbuf) ∨
    ((0x020 ≤ off.toNat ∧ ¬ (0x100 ≤ off.toNat ∧ off.toNat < 0x200) ∧
      ¬ (v = .b ∧ 0x400 ≤ off.toNat ∧ off.toNat < 0x800)) ∧ region v off = .reserved) := by
  unfold region
  generalize off.toNat = a
  dsimp only
  by_cases h0 : a = 0x000
  · simp [h0]
  by_cases h1 : a = 0x001
  · simp [h1]
  by_cases h2 : a = 0x002
  · simp [h2]
  by_cases h3 : a = 0x003
  · simp [h3]
  by_cases h4 : a = 0x004
  · simp [h4]
  rw [if_neg h0, if_neg h1, if_neg h2, if_neg h3, if_neg h4]
  by_cases h5 : a < 0x008
  · rw [if_pos h5]; left; exact ⟨by omega, rfl⟩
  rw [if_neg h5]
  by_cases h6 : a < 0x00C
  · rw [if_pos h6]; right; right; right; right; right; left; exact ⟨by omega, rfl⟩
  rw [if_neg h6]
  by_cases h7 : a < 0x010
  · rw [if_pos h7]; right; right; right; right; right; right; left; exact ⟨by omega, rfl⟩
  rw [if_neg h7]
  by_cases h8 : a < 0x014
  · rw [if_pos h8]; right; right; right; right; right; right; right; left; exact ⟨by omega, rfl⟩
  rw [if_neg h8]
  by_cases h9 : a < 0x018
  · rw [if_pos h9]; right; right; right; right; right; right; right; right; left; exact ⟨by omega, rfl⟩
  rw [if_neg h9]
  by_cases h10 : a < 0x01C
  · rw [if_pos h10]; right; right; right; right; right; right; right; right; right; left; exact ⟨by omega, rfl⟩
  rw [if_neg h10]
  by_cases h11 : a < 0x020
  · rw [if_pos h11]; right; right; right; right; right; right; right; right; right; right; left; exact ⟨by omega, rfl⟩
  rw [if_neg h11]
  iterate 11 right
  by_cases h12 : a < 0x100
  · rw [if_pos h12]; right; right; exact ⟨by omega, rfl⟩
  rw [if_neg h12]
  by_cases h13 : a < 0x200
  · rw [if_pos h13]; left; exact ⟨by omega, rfl⟩
  rw [if_neg h13]
  right
  by_cases h14 : a < 0x400
  · rw [if_pos h14]; right; exact ⟨by omega, rfl⟩
  rw [if_neg h14]
  by_cases h15 : a < 0x800
  · rw [if_pos h15]
    cases v
    · right; exact ⟨by simp; omega, rfl⟩
    · left; exact ⟨⟨rfl, by omega⟩, rfl⟩
  rw [if_neg h15]
  right; exact ⟨by omega, rfl⟩

/-- The check of R46: natural alignment, one byte below 0x008, four bytes from there to 0x01F. -/
theorem accessOk_iff (v : FifoVariant) (off : Offset) (sz : Size) : accessOk v off sz = true ↔ AccessAllowed off sz := by
  simp only [accessOk, AccessAllowed, Bool.and_eq_true, beq_iff_eq]
  refine and_congr Iff.rfl ?_
  rcases region_cases v off with h | h | h | h | h | h | h | h | h | h | h | h | h | h <;> rw [h.2] <;>
    have h := h.1 <;> cases sz <;> simp [Region.allows, Size.bytes] <;> omega

/-- The check of R80. -/
theorem commandAccessOk_iff (v : FifoVariant) (off : Offset) (sz : Size) (isRmw : Bool) :
    commandAccessOk v off sz isRmw = true ↔
      AccessAllowed off sz ∧ off ≠ 0x008 ∧ (isRmw = true → off ≠ 0x004) := by
  simp only [commandAccessOk, Bool.and_eq_true, accessOk_iff]
  have e8 : off = 0x008 ↔ off.toNat = 8 := by rw [← BitVec.toNat_inj]; rfl
  have e4 : off = 0x004 ↔ off.toNat = 4 := by rw [← BitVec.toNat_inj]; rfl
  rw [ne_eq, ne_eq, e8, e4]
  unfold AccessAllowed
  rcases region_cases v off with h | h | h | h | h | h | h | h | h | h | h | h | h | h <;> rw [h.2] <;>
    have h := h.1 <;> cases sz <;> cases isRmw <;> simp [Size.bytes] <;> omega

end Sys2Proof.Machine
end

