-- ==== Sys2Proof/Tests/Slice0.lean ====
section
/-! SUPPORT. The modeller's own tests: words and results written out from the spec (95_test_vectors.md and the rules, never
from the model), the ill-formed terms that WellFormed refuses, the first step of every row, and for every statement with
hypotheses a concrete state and operands that meet them (`witness_<statement>`). -/

namespace Sys2Proof.Tests

open Sys2Proof Sys2Proof.Machine

/-! ## Decoding and encoding: words of 95_test_vectors.md section 3 -/

/-- The word decodes to the command, and the command encodes to the word. -/
def agrees (p : Word × Instr) : Bool := decodeWord p.1 == some p.2 && encode p.2 == p.1

theorem test_words_register_access :
    [(0x00000003#32, Instr.ld .b 0x003), (0x00800100#32, .ld .w 0x100), (0x00400100#32, .ld .h 0x100),
      (0x01000004#32, .st .b 0x004), (0x0180001C#32, .st .w 0x01C), (0x02000002#32, .aand .b 0x002),
      (0x03000003#32, .aor .b 0x003), (0x04000002#32, .axor .b 0x002), (0x05061002#32, .bfi .b 3 1 0x002),
      (0x05BE001C#32, .bfi .w 31 0 0x01C), (0x06020003#32, .ubfx .b 1 0 0x003)].all agrees = true := by decide

theorem test_words_primitives :
    [(0x10000000#32, Instr.waitbusy), (0x11000000#32, .start), (0x1200003A#32, .sendb 0x3A), (0x13000000#32, .rstart),
      (0x14000000#32, .rxmode 0), (0x14000001#32, .rxmode 1), (0x15000000#32, .drvclk), (0x16000000#32, .stop),
      (0x17000000#32, .resetbus), (0x18000000#32, .waitb)].all agrees = true := by decide

theorem test_words_transactions :
    [(0x201D0D00#32, Instr.rdreg 0x1D 0x0D), (0x211D0103#32, .rdregs 0x1D 0x01 3), (0x211D0100#32, .rdregs 0x1D 0x01 0),
      (0x221D2A01#32, .wrreg 0x1D 0x2A 0x01), (0x231D2A00#32, .modreg 0x1D 0x2A)].all agrees = true := by decide

theorem test_words_arbiter :
    [(0x30003A00#32, Instr.prep 0 0x3A), (0x30024800#32, .prep 2 0x48), (0x31000003#32, .config 3),
      (0x31000009#32, .config 9), (0x32004800#32, .select 0x48)].all agrees = true := by decide

theorem test_words_ring :
    [(0x40010000#32, Instr.rbInit 1), (0x41010061#32, .rbPush 1 0x61), (0x42000000#32, .rbPop 0),
      (0x43000000#32, .rbCount 0), (0x44000000#32, .rbEmpty 0), (0x45000000#32, .rbFull 0), (0x46000000#32, .rbWaitne 0),
      (0x47000000#32, .rbWaitnf 0), (0x48010000#32, .rbWaite 1)].all agrees = true := by decide

theorem test_words_bounded :
    [(0x50000400#32, Instr.bfEnq 0 1024), (0x510003FC#32, .bfDeq 0 1020), (0x52010000#32, .bfLen 1),
      (0x53000000#32, .bfFull 0)].all agrees = true := by decide

theorem test_illegal_words :
    [0x07000000#32, 0x19000000#32, 0x24000000#32, 0x33000000#32, 0x49000000#32, 0x54000000#32, 0x60000000#32,
      0xFFFFFFFF#32, 0x11000001#32, 0x14000002#32, 0x20800000#32, 0x201D0D01#32, 0x3200BA00#32, 0x30083A00#32,
      0x31000010#32, 0x40020000#32, 0x00C00003#32, 0x00020003#32, 0x050E1002#32, 0x06008003#32,
      0x0641F100#32].all (fun w => decodeWord w == none) = true := by decide

theorem test_units_of_the_variants :
    decode .a 0x50000010 = none ∧ decode .b 0x42000000 = none ∧ decode .b 0x50000010 = some (.bfEnq 0 16) ∧
      decode .a 0x42000000 = some (.rbPop 0) := by decide

/-! ## WellFormed: one ill-formed term for each check, and the terms at the bounds -/

theorem test_wellFormed_refuses_field_too_wide :
    (Instr.bfi .b 7 1 0x002).wellFormed .a = false ∧ (Instr.ubfx .h 0 31 0x100).wellFormed .a = false := by decide

theorem test_wellFormed_refuses_unit_not_built :
    (Instr.rbPop 0).wellFormed .b = false ∧ (Instr.bfEnq 0 16).wellFormed .a = false := by decide

theorem test_wellFormed_admits_bounds :
    (Instr.bfi .w 31 0 0x01C).wellFormed .b = true ∧ (Instr.ubfx .w 0 31 0x010).wellFormed .a = true ∧
      (Instr.rbPop 0).wellFormed .a = true ∧ (Instr.bfEnq 0 16).wellFormed .b = true := by decide

/-! ## The first step of every row after reset -/

/-- The very next step runs the word as a command and answers a next state. -/
def runsFirst (w : Nat) : Bool :=
  match step (State.reset.withFetchWord 32 w) with
  | .next _ => true
  | .fault _ => false
  | .refused _ => false

theorem test_every_row_steps :
    [0x00000003, 0x01000004, 0x02000002, 0x03000003, 0x04000002, 0x05061002, 0x06020003, 0x10000000, 0x11000000,
      0x1200003A, 0x13000000, 0x14000001, 0x15000000, 0x16000000, 0x17000000, 0x18000000, 0x201D0D00, 0x211D0103,
      0x221D2A01, 0x231D2A00, 0x30003A00, 0x31000003, 0x32004800, 0x40010000, 0x41010061, 0x42000000, 0x43000000,
      0x44000000, 0x45000000, 0x46000000, 0x47000000, 0x48010000, 0x50000400, 0x510003FC, 0x52010000,
      0x53000000].all runsFirst = true := by decide

/-! ## One command or micro-step on a small state -/

/-- What `f` sees in the next state. -/
def after {α : Type} (f : State → α) (r : Result) : Option α :=
  match r with
  | .next t => some (f t)
  | .fault _ => none
  | .refused _ => none

/-- A state with these bits of `CTRL` and `STAT`. -/
def withBits (mst tx txak busy arbl ifl : Bool) : State :=
  { State.reset with
    ctrl := { mst := mst, tx := tx, txak := txak }
    stat := { busy := busy, arbl := arbl, ifl := ifl, rxak := false } }

/-- `s` with SEQ at micro-step `k` of command `i`. -/
def standing (i : Instr) (k : BitVec 6) (s : State) : State := { s with seq := .run i.opcode k }

/-- V3.1: `STAT = 0x22` loaded. -/
theorem test_ld_stat : after (fun t => t.res) (runOne (.ld .b 0x003) (withBits false false false true false true)) = some 0x22 := by
  decide

/-- V3.8: four bytes of `RBUF` in little-endian order. -/
theorem test_ld_rbuf_word :
    after (fun t => t.res)
      (runOne (.ld .w 0x100) { State.reset with mem := [(0x100, 0x11), (0x101, 0x22), (0x102, 0x33), (0x103, 0x44)] }) =
      some 0x44332211 := by decide

/-- V3.2: `DIV` takes the low byte of `AUX`. -/
theorem test_st_div : after (fun t => t.div) (runOne (.st .b 0x001) { State.reset with aux := 0x80 }) = some 0x80 := by decide

/-- R52: as master transmitter a store in `DATA` puts the byte into flight. -/
theorem test_st_data :
    after (fun t => (t.dbuf, t.xfer)) (runOne (.st .b 0x004) { withBits true true false true false false with aux := 0x55 }) =
      some (0x55, .tx 0x55) := by decide

/-- V3.3: `CTRL = 0x30` and 0xCF: a STOP. -/
theorem test_aand_ctrl_stops :
    after (fun t => (t.ctrl.word, t.stat.word, t.busTrace))
      (runOne (.aand .b 0x002) { withBits true true false true false false with aux := 0xCF }) =
      some (0, 0, [.stop]) := by decide

/-- V3.4: `STAT = 0x32` and 0x02: `IF` and `ARBL` both cleared. -/
theorem test_aor_stat :
    after (fun t => t.stat.word) (runOne (.aor .b 0x003) { withBits false false false true true true with aux := 0x02 }) =
      some 0x20 := by decide

/-- V3.17: `CTRL = 0x30` and 0x30: no START. -/
theorem test_aor_ctrl_already_master :
    after (fun t => (t.ctrl.word, t.busTrace))
      (runOne (.aor .b 0x002) { withBits true true false true false false with aux := 0x30 }) = some (0x30, []) := by decide

/-- V3.5: `CTRL = 0x20` and 0x08. -/
theorem test_axor_ctrl :
    after (fun t => (t.ctrl.word, t.busTrace))
      (runOne (.axor .b 0x002) { withBits true false false true false false with aux := 0x08 }) = some (0x28, []) := by decide

/-- V3.6: `CTRL = 0x30`, the field 4:3 from 0x08. -/
theorem test_bfi_ctrl :
    after (fun t => (t.ctrl.word, t.busTrace))
      (runOne (.bfi .b 3 1 0x002) { withBits true true false true false false with aux := 0x08 }) = some (0x28, []) := by decide

/-- V3.7: `STAT = 0x22`, bit 1. -/
theorem test_ubfx_stat :
    after (fun t => (t.res, t.stat.word)) (runOne (.ubfx .b 1 0 0x003) (withBits false false false true false true)) =
      some (1, 0x22) := by decide

/-- V3.12, V3.15, V3.16: misaligned, `CMD`, read-modify-write of `DATA`. -/
theorem test_bad_accesses :
    after (fun t => (t.esr.word, t.seq)) (runOne (.ld .w 0x002) State.reset) = some (0x81, .halt) ∧
    after (fun t => (t.esr.word, t.seq)) (runOne (.st .w 0x008) State.reset) = some (0x81, .halt) ∧
    after (fun t => (t.esr.word, t.seq)) (runOne (.aor .b 0x004) State.reset) = some (0x81, .halt) := by decide

/-- V4.1. -/
theorem test_waitbusy : after (fun t => t.seq) (exec .waitbusy (standing .waitbusy 0 State.reset)) = some (.run 0x10 1) := by
  decide

/-- V4.2: `CTRL = 0x30`, `STAT = 0x20`, a START. -/
theorem test_start :
    after (fun t => (t.ctrl.word, t.stat.word, t.busTrace)) (exec .start (standing .start 0 State.reset)) =
      some (0x30, 0x20, [.start]) := by decide

/-- V4.3, the first micro-step: the byte accepted from the command into flight. -/
theorem test_sendb :
    after (fun t => (t.dbuf, t.xfer)) (runOne (.sendb 0x3A) (withBits true true false true false false)) =
      some (0x3A, .tx 0x3A) := by decide

/-- V4.6: the multiplier forced to 1, the strobe sets `TX` and keeps `TXAK`. -/
theorem test_rstart_unity :
    after (fun t => t.div) (exec .rstart (standing .rstart 1 { State.reset with div := 0xD4 })) = some 0x14 := by decide

theorem test_rstart_strobe :
    after (fun t => (t.ctrl.word, t.busTrace))
      (exec .rstart (standing .rstart 2 { withBits true false true true false false with div := 0x14 })) =
      some (0x38, [.restart]) := by decide

/-- V4.7 and V4.8. -/
theorem test_rxmode :
    after (fun t => t.ctrl.word) (runOne (.rxmode 0) (withBits true true false true false false)) = some 0x28 ∧
    after (fun t => t.ctrl.word) (runOne (.rxmode 1) (withBits true true true true false false)) = some 0x20 := by decide

/-- V4.9, the first micro-step: with `CTRL = 0x28` the read starts a byte to be answered NACK. -/
theorem test_drvclk :
    after (fun t => (t.xfer, t.res)) (runOne .drvclk (withBits true false true true false false)) =
      some (.rx .nack, 0) := by decide

/-- V4.10 and V4.11. -/
theorem test_stop :
    after (fun t => (t.ctrl.word, t.stat.word, t.busTrace)) (runOne .stop (withBits true false true true false false)) =
      some (0x08, 0, [.stop]) ∧
    after (fun t => (t.ctrl.word, t.busTrace)) (runOne .stop State.reset) = some (0, []) := by decide

/-- V4.12. -/
theorem test_resetbus :
    after (fun t => t.stat.word) (exec .resetbus (standing .resetbus 0 (withBits false false false true true true))) =
      some 0x20 ∧
    after (fun t => t.esr.word) (exec .resetbus (standing .resetbus 2 State.reset)) = some 0x02 := by decide

/-- V4.15 and V4.16: the 200th count leads to the forced Start, the 199th back to the poll. -/
theorem test_waitb_bound :
    after (fun t => (t.lockcnt, t.seq)) (exec .waitb (standing .waitb 2 { State.reset with lockcnt := 198 })) =
      some (199, .run 0x18 1) ∧
    after (fun t => (t.lockcnt, t.seq)) (exec .waitb (standing .waitb 2 { State.reset with lockcnt := 199 })) =
      some (200, .run 0x18 3) := by decide

/-- V4.18: the forced Stop after the forced Start. -/
theorem test_waitb_forced_stop :
    after (fun t => (t.ctrl.word, t.esr.word, t.busTrace))
      (exec .waitb (standing .waitb 4 (withBits true true false true false false))) = some (0, 0x02, [.stop]) := by decide

/-- V5.1: the first address byte of `RDREG 0x1D` is 0x3A, the read address 0x3B. -/
theorem test_rdreg_addresses :
    after (fun t => t.xfer)
      (exec (.rdreg 0x1D 0x0D) (standing (.rdreg 0x1D 0x0D) 3
        { withBits true true false true false false with dp := { Datapath.reset with slv := 0x1D } })) = some (.tx 0x3A) ∧
    after (fun t => t.xfer)
      (exec (.rdreg 0x1D 0x0D) (standing (.rdreg 0x1D 0x0D) 13
        { withBits true true false true false false with dp := { Datapath.reset with slv := 0x1D } })) = some (.tx 0x3B) := by
  decide

/-- V5.6: a zero-length read; R23 loads `SLV` and `REGA` at acceptance, R138 has them as before at `HALT`. -/
theorem test_rdregs_zero :
    let s := { State.reset with dp := { Datapath.reset with slv := 0x48, rega := 0x77 } }
    after (fun t => (t.dp.slv, t.dp.rega)) (exec (.rdregs 0x1D 0x01 0) s) = some (0x1D, 0x01) ∧
    after (fun t => (t.esr.word, t.seq, t.dp.slv, t.dp.rega, t.res)) (runOne (.rdregs 0x1D 0x01 0) s) =
      some (0x11, .halt, 0x48, 0x77, 0) := by decide

/-- V5.5: `RDREGS` of one byte goes to its one-byte arm. -/
theorem test_rdregs_one :
    after (fun t => t.seq) (exec (.rdregs 0x1D 0x0D 1) (standing (.rdregs 0x1D 0x0D 1) 1 State.reset)) =
      some (.run 0x21 35) := by decide

/-- V5.7: `WRREG` sends its value last. -/
theorem test_wrreg_value :
    after (fun t => t.xfer)
      (exec (.wrreg 0x1D 0x2A 0x01) (standing (.wrreg 0x1D 0x2A 0x01) 9
        { withBits true true false true false false with dp := { Datapath.reset with val := 0x01 } })) = some (.tx 0x01) := by
  decide

/-- V5.8: 0x18 with masks 0xFE and 0x01 is 0x19, and `RES` is 0x1819. -/
theorem test_modreg_modify :
    after (fun t => t.dp.new)
      (exec (.modreg 0x1D 0x2A) (standing (.modreg 0x1D 0x2A) 25
        { State.reset with dp := { Datapath.reset with tmp := 0x18, amsk := 0xFE, omsk := 0x01 } })) = some 0x19 ∧
    after (fun t => t.res)
      (exec (.modreg 0x1D 0x2A) (standing (.modreg 0x1D 0x2A) 36
        { State.reset with dp := { Datapath.reset with tmp := 0x18, new := 0x19 } })) = some 0x1819 := by decide

/-- The entry of V6.1. -/
def entry3A : Entry :=
  { prepared := true, slave := 0x3A, port := 4, cpin := 24, cmux := 5, dpin := 25, dmux := 5, hash := 0x0006E908 }

/-- The entry of the vectors with `AUX = 0x0200525A`, slave 0x48. -/
def entry48 : Entry :=
  { prepared := true, slave := 0x48, port := 2, cpin := 10, cmux := 2, dpin := 11, dmux := 2, hash := 0x0006E396 }

/-- A table of two prepared entries, the first selected, its pins wired. -/
def tabled : State :=
  { State.reset with
    arb :=
      { etab := ((Vector.replicate 8 Entry.reset).set 0 entry3A).set 1 entry48, entryCount := 2, configured := true,
        lastAddr := 0x3A, lastHash := 0x0006E908, lastIdx := 0 }
    pmux := [(152, 5), (153, 5)] }

/-- The same two entries prepared and not yet installed. -/
def preparedOnly : State :=
  { tabled with
    arb := { tabled.arb with entryCount := 0, configured := false, lastAddr := 0xFF, lastHash := 0, lastIdx := 0xFF }
    pmux := [] }

/-- V6.1. -/
theorem test_prep :
    after (fun t => t.arb.entry 0) (runOne (.prep 0 0x3A) { State.reset with aux := 0x0400C5CD }) = some entry3A := by decide

/-- V6.11 and the reserved bit of section 3. -/
theorem test_prep_bad_aux :
    after (fun t => t.esr.word) (runOne (.prep 0 0x3A) { State.reset with aux := 0x0500C5CD }) = some 0x51 ∧
    after (fun t => t.esr.word) (runOne (.prep 0 0x3A) { State.reset with aux := 0x0801C5CD }) = some 0x51 := by decide

/-- V6.2: two pin writes, clock pin first. -/
theorem test_config :
    after (fun t => (t.res, t.arb.lastAddr, t.arb.lastIdx, t.pinTrace)) (runOne (.config 1) preparedOnly) =
      some (0, 0x3A, 0, [⟨4, 24, 5⟩, ⟨4, 25, 5⟩]) := by decide

/-- V6.5, V6.8 and V6.9. -/
theorem test_config_asserts :
    after (fun t => t.esr.word) (runOne (.config 1) State.reset) = some 0x21 ∧
    after (fun t => (t.esr.word, t.pinTrace)) (runOne (.config 3) preparedOnly) = some (0x21, []) ∧
    after (fun t => t.esr.word) (runOne (.config 1) tabled) = some 0x61 := by decide

/-- V6.3 and V6.4. -/
theorem test_select_fast_and_miss :
    after (fun t => (t.res, t.pinTrace)) (runOne (.select 0x3A) tabled) = some (0, []) ∧
    after (fun t => (t.res, t.arb.lastAddr, t.pinTrace)) (runOne (.select 0x10) tabled) = some (1, 0x3A, []) := by decide

/-- R113: the previous pins to plain input, then the new pins, clock pin first. -/
theorem test_select_remux :
    after (fun t => (t.res, t.arb.lastIdx, t.pinTrace)) (runOne (.select 0x48) tabled) =
      some (0, 1, [⟨4, 24, 1⟩, ⟨4, 25, 1⟩, ⟨2, 10, 2⟩, ⟨2, 11, 2⟩]) := by decide

/-- Ring 0 of capacity 4 with these indices and storage. -/
def ring4 (w r : Word) (st : Memory) : State :=
  { State.reset with
    rb := { State.reset.rb with rx := { init := true, cap := 4, mask := 3, w := w, r := r, st := st } } }

/-- V7.1: 1024 accepted, 3 and 2048 rejected. -/
theorem test_rbInit :
    after (fun t => (t.res, t.rb.rx.cap)) (runOne (.rbInit 0) { State.reset with aux := 1024 }) = some (0, 1024) ∧
    after (fun t => (t.res, t.rb.rx.init)) (runOne (.rbInit 0) { State.reset with aux := 3 }) = some (1, false) ∧
    after (fun t => (t.res, t.rb.rx.init)) (runOne (.rbInit 0) { State.reset with aux := 2048 }) = some (1, false) := by decide

/-- V7.5: the first push at `w = 0xFFFFFFFE` goes to slot 2. -/
theorem test_rbPush :
    after (fun t => (t.rb.rx.w, t.rb.rx.st)) (runOne (.rbPush 0 1) (ring4 0xFFFFFFFE 0xFFFFFFFE [])) =
      some (0xFFFFFFFF, [(2, 1)]) := by decide

/-- V7.7 and V7.8. -/
theorem test_rbPush_asserts :
    after (fun t => (t.esr.word, t.rb.rx.w)) (runOne (.rbPush 0 5) (ring4 2 0xFFFFFFFE [])) = some (0x41, 2) ∧
    after (fun t => t.esr.word) (runOne (.rbPush 1 0x61) State.reset) = some 0x71 := by decide

/-- V7.3b and V7.6. -/
theorem test_rbPop :
    after (fun t => (t.res, t.rb.rx.r)) (runOne (.rbPop 0) (ring4 4 3 [(3, 0x64)])) = some (0x64, 4) ∧
    after (fun t => (t.esr.word, t.rb.rx.r, t.res)) (runOne (.rbPop 0) (ring4 4 4 [])) = some (0x31, 5, 0) := by decide

/-- V7.5: the count across the wrap, and full. -/
theorem test_ring_queries :
    after (fun t => t.res) (runOne (.rbCount 0) (ring4 2 0xFFFFFFFE [])) = some 4 ∧
    after (fun t => t.res) (runOne (.rbFull 0) (ring4 2 0xFFFFFFFE [])) = some 1 ∧
    after (fun t => t.res) (runOne (.rbEmpty 0) (ring4 4 4 [])) = some 1 := by decide

/-- V7.11 and V7.12, and the wait for an empty ring. -/
theorem test_ring_waits :
    after (fun t => t.seq) (exec (.rbWaitne 0) (standing (.rbWaitne 0) 1 (ring4 4 4 []))) = some (.run 0x46 1) ∧
    after (fun t => t.seq) (exec (.rbWaitnf 0) (standing (.rbWaitnf 0) 1 (ring4 4 4 []))) = some (.run 0x47 2) ∧
    after (fun t => t.seq) (exec (.rbWaite 0) (standing (.rbWaite 0) 1 (ring4 4 4 []))) = some (.run 0x48 2) := by decide

/-- Bounded FIFO 0 with these cursors, in a block of variant B. -/
def fifo (wc rc : BitVec 10) (full : Bool) (count : BitVec 11) (st mem : Memory) : State :=
  { State.resetWith { variant := .b, multiMaster := false } with
    bf := { State.reset.bf with rx := { wc := wc, rc := rc, full := full, count := count, st := st } }, mem := mem }

/-- V8.4 with its wrap, on six bytes of room: 4 bytes to the top of the storage, 2 to its bottom; then full. -/
theorem test_bfEnq :
    after (fun t => (t.res, t.bf.rx.wc, t.bf.rx.full, t.bf.rx.count))
      (runOne (.bfEnq 0 8) (fifo 1020 2 false 1018 [] [])) = some (6, 2, true, 1024) ∧
    after (fun t => (t.res, t.bf.rx.wc)) (runOne (.bfEnq 0 1) (fifo 8 8 true 1024 [] [])) = some (0, 8) := by decide

/-- V8.6: a dequeue of more than is held gives what is held and empties the FIFO. -/
theorem test_bfDeq :
    after (fun t => (t.res, t.mem, t.bf.rx.rc, t.bf.rx.count))
      (runOne (.bfDeq 0 100) (fifo 8 4 false 4 [(4, 0xA8), (5, 0xA9), (6, 0xAA), (7, 0xAB)] [])) =
      some (4, [(0x400, 0xA8), (0x401, 0xA9), (0x402, 0xAA), (0x403, 0xAB)], 8, 0) := by decide

/-- V8.3 and V8.9. -/
theorem test_bfLen :
    after (fun t => t.res) (runOne (.bfLen 0) (fifo 1020 8 false 1012 [] [])) = some 1012 ∧
    after (fun t => t.res) (runOne (.bfLen 0) (fifo 4 1000 false 28 [] [])) = some 28 := by decide

/-- V8.13 and its opposite. -/
theorem test_bfFull :
    after (fun t => t.res) (runOne (.bfFull 0) (fifo 6 1000 false 30 [] [])) = some 0 ∧
    after (fun t => t.res) (runOne (.bfFull 0) (fifo 8 8 true 1024 [] [])) = some 1 := by decide

/-! ## The other agents -/

/-- R75, R138: HOST writes an illegal word. -/
theorem test_illegal_word_halts :
    after (fun t => (t.cmd, t.esr.word, t.seq)) (step { State.reset with host := [.write 0x008 .w 0x07000000] }) =
      some (0x07000000, 0x51, .halt) := by decide

/-- V7.4: a byte for a full ring is dropped. -/
theorem test_link_drops :
    after (fun t => (t.rb.rx.w, t.rb.rx.st)) (takeTurn (.linkRx 0x65) (ring4 4 0 [])) = some (4, []) := by decide

/-- V7.13: the byte that empties the buffer switches the trigger off. -/
theorem test_link_transmits :
    after (fun t => (t.linkOut, t.rb.tx.r, t.txie))
      (takeTurn .linkTx
        { State.reset with
          rb := { State.reset.rb with tx := { init := true, cap := 4, mask := 3, w := 1, r := 0, st := [(0, 3)] } },
          txie := true }) = some ([3], 1, false) := by decide

/-- R79: `MODREG 0x1D, 0x2A` with masks 0xFE and 0x01, and `PREP` with the wiring of V6.1, as a host writes them. -/
theorem test_pseudo :
    (Pseudo.modreg 0x1D 0x2A 0xFE 0x01).expand Params.default = [.write 0x00C .w 0x0000FE01, .write 0x008 .w 0x231D2A00] ∧
    (Pseudo.prep 0 0x3A 4 24 5 25 5).expand Params.default = [.write 0x00C .w 0x0400C5CD, .write 0x008 .w 0x30003A00] := by decide

/-! ## Witnesses: the hypotheses of each statement can be met -/

/-- State `s` meets the hypotheses of `Runs i k pre` and of `StopsAt i k pre`. -/
def Meets (i : Instr) (k : BitVec 6) (pre : State → Prop) (s : State) : Prop := s.seq = .run i.opcode k ∧ pre s

/-- As master in receive mode, with or without a byte in flight. -/
def receiving (x : Xfer) : State := { withBits true false false true false false with xfer := x }

/-- As master in transmit mode, with or without a byte in flight. -/
def sending (x : Xfer) : State := { withBits true true false true false false with xfer := x }

/-- The clauses of `WaitBusyAt`. -/
def MetWaitBusy (i : Instr) (k : BitVec 6) : Prop :=
  Meets i k (fun s => s.stat.busy = false) (standing i k State.reset) ∧
  Meets i k (fun s => s.stat.busy = true) (standing i k (withBits false false false true false false))

theorem metWaitBusy (i : Instr) (k : BitVec 6) : MetWaitBusy i k := ⟨⟨rfl, rfl⟩, rfl, rfl⟩

/-- The clauses of `WaitIfAt`. -/
def MetWaitIf (i : Instr) (k : BitVec 6) : Prop :=
  Meets i k (fun s => s.stat.ifl = true) (standing i k (withBits false false false false false true)) ∧
  Meets i k (fun s => s.stat.ifl = false) (standing i k State.reset) ∧
  Meets i (k + 1) anyState (standing i (k + 1) State.reset)

theorem metWaitIf (i : Instr) (k : BitVec 6) : MetWaitIf i k := ⟨⟨rfl, rfl⟩, ⟨rfl, rfl⟩, rfl, trivial⟩

/-- The clauses of `StartAt`. -/
def MetStart (i : Instr) (k : BitVec 6) : Prop :=
  Meets i k (fun s => s.ctrl.mst = false ∧ s.stat.busy = false) (standing i k State.reset) ∧
  Meets i k (fun s => s.ctrl.mst = false ∧ s.stat.busy = true)
    (standing i k (withBits false false false true false false)) ∧
  Meets i k (fun s => s.ctrl.mst = true) (standing i k (sending .none))

theorem metStart (i : Instr) (k : BitVec 6) : MetStart i k := ⟨⟨rfl, rfl, rfl⟩, ⟨rfl, rfl, rfl⟩, rfl, rfl⟩

/-- The clauses of `StopAt`. -/
def MetStop (i : Instr) (k : BitVec 6) : Prop :=
  Meets i k (fun s => s.ctrl.mst = true) (standing i k (sending (.tx 0xFF))) ∧
  Meets i k (fun s => s.ctrl.mst = false) (standing i k State.reset)

theorem metStop (i : Instr) (k : BitVec 6) : MetStop i k := ⟨⟨rfl, rfl⟩, rfl, rfl⟩

/-- The clauses of `SendAt`. -/
def MetSend (i : Instr) (k : BitVec 6) : Prop :=
  Meets i k (fun s => masterTransmit s ∧ s.xfer = .none) (standing i k (sending .none)) ∧
  Meets i k (fun s => ¬ masterTransmit s) (standing i k State.reset) ∧
  Meets i k (fun s => masterTransmit s ∧ s.xfer ≠ .none) (standing i k (sending (.tx 0))) ∧ MetWaitIf i (k + 1)

theorem metSend (i : Instr) (k : BitVec 6) : MetSend i k :=
  ⟨⟨rfl, ⟨rfl, rfl⟩, rfl⟩, ⟨rfl, fun h => nomatch h.1⟩, ⟨rfl, ⟨rfl, rfl⟩, fun h => nomatch h⟩, metWaitIf i (k + 1)⟩

/-- The clauses of `LoadAt`. -/
def MetLoad (i : Instr) (k : BitVec 6) : Prop :=
  Meets i k (fun s => masterReceive s ∧ s.xfer = .none) (standing i k (receiving .none)) ∧
  Meets i k (fun s => ¬ masterReceive s) (standing i k State.reset) ∧
  Meets i k (fun s => masterReceive s ∧ s.xfer ≠ .none) (standing i k (receiving (.rx .ack)))

theorem metLoad (i : Instr) (k : BitVec 6) : MetLoad i k :=
  ⟨⟨rfl, ⟨rfl, rfl⟩, rfl⟩, ⟨rfl, fun h => nomatch h.1⟩, rfl, ⟨rfl, rfl⟩, fun h => nomatch h⟩

/-- The clauses of `DriveAt`. -/
def MetDrive (i : Instr) (k : BitVec 6) : Prop := MetLoad i k ∧ MetWaitIf i (k + 1)

theorem metDrive (i : Instr) (k : BitVec 6) : MetDrive i k := ⟨metLoad i k, metWaitIf i (k + 1)⟩

/-- The clauses of `RestartAt`: `DIV` at 0x3F (the largest rate at multiplier 1) and at 0x40 (the least other multiplier). -/
def MetRestart (i : Instr) (k : BitVec 6) : Prop :=
  Meets i k anyState (standing i k State.reset) ∧ Meets i (k + 1) anyState (standing i (k + 1) State.reset) ∧
  Meets i (k + 2) (fun s => s.ctrl.mst = true ∧ s.xfer = .none ∧ divMult s.div = 0)
    (standing i (k + 2) { sending .none with div := 0x3F }) ∧
  Meets i (k + 2) (fun s => s.ctrl.mst = false) (standing i (k + 2) State.reset) ∧
  Meets i (k + 2) (fun s => s.ctrl.mst = true ∧ s.xfer ≠ .none) (standing i (k + 2) (sending (.tx 0))) ∧
  Meets i (k + 2) (fun s => s.ctrl.mst = true ∧ s.xfer = .none ∧ divMult s.div ≠ 0)
    (standing i (k + 2) { sending .none with div := 0x40 }) ∧
  Meets i (k + 3) anyState (standing i (k + 3) State.reset)

theorem metRestart (i : Instr) (k : BitVec 6) : MetRestart i k :=
  ⟨⟨rfl, trivial⟩, ⟨rfl, trivial⟩, ⟨rfl, rfl, rfl, show divMult 0x3F = 0 by decide⟩, ⟨rfl, rfl⟩,
    ⟨rfl, rfl, fun h => nomatch h⟩, ⟨rfl, rfl, rfl, show divMult 0x40 ≠ 0 by decide⟩, rfl, trivial⟩

/-- A micro-step that every state takes. -/
def MetAny (i : Instr) (k : BitVec 6) : Prop := Meets i k anyState (standing i k State.reset)

theorem metAny (i : Instr) (k : BitVec 6) : MetAny i k := ⟨rfl, trivial⟩

/-- A block that stops on a miss, with an empty table. -/
def missing : State := State.resetWith { variant := .a, multiMaster := false, missPolicy := .fault }

/-- A block that stops on a miss, with the slave in its table. -/
def found : State :=
  { tabled with params := { missing.params with base := 0x40066000 }, dp := { State.reset.dp with slv := 0x3A } }

/-- The clauses of `SelectAt`: a miss with the policy `proceed`, a hit and a miss with the policy `fault`. -/
def MetSelect (i : Instr) (k : BitVec 6) : Prop :=
  Meets i k (fun s => GoesOn s.dp.slv s) (standing i k State.reset) ∧
  Meets i k (fun s => GoesOn s.dp.slv s) (standing i k found) ∧
  Meets i k (fun s => s.params.missPolicy = .fault ∧ (arbSelect s.dp.slv s).1 ≠ 0) (standing i k missing)

theorem metSelect (i : Instr) (k : BitVec 6) : MetSelect i k :=
  ⟨⟨rfl, .inl rfl⟩, ⟨rfl, .inr rfl⟩, rfl, rfl, fun h => nomatch (show (1 : Word) = 0 from h)⟩

/-- The clauses of `AddressAt`. -/
def MetAddress (i : Instr) (k : BitVec 6) : Prop :=
  MetSelect i k ∧ MetWaitBusy i (k + 1) ∧ MetStart i (k + 2) ∧ MetSend i (k + 3) ∧ MetSend i (k + 6)

theorem metAddress (i : Instr) (k : BitVec 6) : MetAddress i k :=
  ⟨metSelect _ _, metWaitBusy _ _, metStart _ _, metSend _ _, metSend _ _⟩

/-- The clauses of `ReadAt`. -/
def MetRead (i : Instr) (k : BitVec 6) : Prop :=
  MetAddress i k ∧ MetRestart i (k + 9) ∧ MetSend i (k + 13) ∧ MetAny i (k + 16) ∧ MetDrive i (k + 17) ∧
    MetStop i (k + 20) ∧ MetLoad i (k + 21)

theorem metRead (i : Instr) (k : BitVec 6) : MetRead i k :=
  ⟨metAddress _ _, metRestart _ _, metSend _ _, metAny _ _, metDrive _ _, metStop _ _, metLoad _ _⟩

theorem witness_WaitbusyStartStopMicroSteps :
    MetWaitBusy .waitbusy 0 ∧ MetAny .waitbusy 1 ∧ MetStart .start 0 ∧ MetAny .start 1 ∧ MetStop .stop 0 ∧ MetAny .stop 1 :=
  ⟨metWaitBusy _ _, metAny _ _, metStart _ _, metAny _ _, metStop _ _, metAny _ _⟩

theorem witness_SendbDrvclkMicroSteps :
    MetSend (.sendb 0xFF) 0 ∧ MetAny (.sendb 0xFF) 3 ∧ MetDrive .drvclk 0 ∧ MetAny .drvclk 3 :=
  ⟨metSend _ _, metAny _ _, metDrive _ _, metAny _ _⟩

theorem witness_RstartRxmodeResetbusMicroSteps :
    MetRestart .rstart 0 ∧ MetAny .rstart 4 ∧ MetAny (.rxmode 0) 0 ∧ MetAny (.rxmode 1) 0 ∧ MetAny (.rxmode 1) 1 ∧
      MetAny .resetbus 0 ∧ MetAny .resetbus 1 ∧ MetAny .resetbus 2 ∧ MetAny .resetbus 3 :=
  ⟨metRestart _ _, metAny _ _, metAny _ _, metAny _ _, metAny _ _, metAny _ _, metAny _ _, metAny _ _, metAny _ _⟩

theorem witness_WaitbMicroSteps :
    MetAny .waitb 0 ∧ MetAny .waitb 5 ∧ MetAny .waitb 6 ∧ MetStart .waitb 3 ∧ MetStop .waitb 4 ∧
    Meets .waitb 1 (fun s => s.stat.ifl = true) (standing .waitb 1 (withBits false false false false false true)) ∧
    Meets .waitb 1 (fun s => s.stat.ifl = false) (standing .waitb 1 State.reset) ∧
    Meets .waitb 2 (fun s => s.lockcnt.toNat + 1 < 200) (standing .waitb 2 { State.reset with lockcnt := 198 }) ∧
    Meets .waitb 2 (fun s => s.lockcnt.toNat = 199) (standing .waitb 2 { State.reset with lockcnt := 199 }) :=
  ⟨metAny _ _, metAny _ _, metAny _ _, metStart _ _, metStop _ _, ⟨rfl, rfl⟩, ⟨rfl, rfl⟩, ⟨rfl, by decide⟩, rfl,
    by decide⟩

theorem witness_RdregWrregMicroSteps :
    MetRead (.rdreg 0x7F 0xFF) 0 ∧ MetAny (.rdreg 0x7F 0xFF) 22 ∧ MetAddress (.wrreg 0 0 0xFF) 0 ∧
      MetSend (.wrreg 0 0 0xFF) 9 ∧ MetStop (.wrreg 0 0 0xFF) 12 ∧ MetAny (.wrreg 0 0 0xFF) 13 :=
  ⟨metRead _ _, metAny _ _, metAddress _ _, metSend _ _, metStop _ _, metAny _ _⟩

/-- Both sides of each test of `RDREGS`: 0, 1 and 255 bytes, and the count of middle bytes at 0 and at 253. -/
theorem witness_RdregsMicroSteps :
    State.reset.seq = .idle ∧ Meets (.rdregs 0x1D 0 0) 0 (fun _ => (0 : Byte) = 0) (standing (.rdregs 0x1D 0 0) 0 State.reset) ∧
    Meets (.rdregs 0x1D 0 1) 0 (fun _ => (1 : Byte) ≠ 0) (standing (.rdregs 0x1D 0 1) 0 State.reset) ∧
    Meets (.rdregs 0x1D 0 1) 1 (fun _ => (1 : Byte) = 1) (standing (.rdregs 0x1D 0 1) 1 State.reset) ∧
    Meets (.rdregs 0x1D 0 255) 1 (fun _ => (255 : Byte) ≠ 1) (standing (.rdregs 0x1D 0 255) 1 State.reset) ∧
    Meets (.rdregs 0x1D 0 2) 23 (fun s => s.dp.cnt = 0) (standing (.rdregs 0x1D 0 2) 23 State.reset) ∧
    Meets (.rdregs 0x1D 0 255) 23 (fun s => s.dp.cnt ≠ 0)
      (standing (.rdregs 0x1D 0 255) 23 { State.reset with dp := { Datapath.reset with cnt := 253 } }) ∧
    MetAddress (.rdregs 0x1D 0 255) 2 ∧ MetRestart (.rdregs 0x1D 0 255) 11 ∧ MetSend (.rdregs 0x1D 0 255) 15 ∧
    MetAny (.rdregs 0x1D 0 255) 18 ∧ MetDrive (.rdregs 0x1D 0 255) 19 ∧ MetAny (.rdregs 0x1D 0 255) 22 ∧
    MetLoad (.rdregs 0x1D 0 255) 24 ∧ MetWaitIf (.rdregs 0x1D 0 255) 25 ∧ MetAny (.rdregs 0x1D 0 255) 27 ∧
    MetAny (.rdregs 0x1D 0 255) 28 ∧ MetLoad (.rdregs 0x1D 0 255) 29 ∧ MetWaitIf (.rdregs 0x1D 0 255) 30 ∧
    MetStop (.rdregs 0x1D 0 255) 32 ∧ MetLoad (.rdregs 0x1D 0 255) 33 ∧ MetAny (.rdregs 0x1D 0 255) 34 ∧
    MetRead (.rdregs 0x1D 0 1) 35 ∧ MetAny (.rdregs 0x1D 0 1) 57 :=
  ⟨rfl, ⟨rfl, rfl⟩, ⟨rfl, by decide⟩, ⟨rfl, rfl⟩, ⟨rfl, by decide⟩, ⟨rfl, rfl⟩, ⟨rfl, by decide⟩, metAddress _ _, metRestart _ _,
    metSend _ _, metAny _ _, metDrive _ _, metAny _ _, metLoad _ _, metWaitIf _ _, metAny _ _, metAny _ _, metLoad _ _,
    metWaitIf _ _, metStop _ _, metLoad _ _, metAny _ _, metRead _ _, metAny _ _⟩

theorem witness_ModregMicroSteps :
    MetAddress (.modreg 0x1D 0x2A) 0 ∧ MetRestart (.modreg 0x1D 0x2A) 9 ∧ MetSend (.modreg 0x1D 0x2A) 13 ∧
    MetAny (.modreg 0x1D 0x2A) 16 ∧ MetDrive (.modreg 0x1D 0x2A) 17 ∧ MetRestart (.modreg 0x1D 0x2A) 20 ∧
    MetLoad (.modreg 0x1D 0x2A) 24 ∧ MetAny (.modreg 0x1D 0x2A) 25 ∧ MetSend (.modreg 0x1D 0x2A) 26 ∧
    MetSend (.modreg 0x1D 0x2A) 29 ∧ MetSend (.modreg 0x1D 0x2A) 32 ∧ MetStop (.modreg 0x1D 0x2A) 35 ∧
    MetAny (.modreg 0x1D 0x2A) 36 :=
  ⟨metAddress _ _, metRestart _ _, metSend _ _, metAny _ _, metDrive _ _, metRestart _ _, metLoad _ _, metAny _ _,
    metSend _ _, metSend _ _, metSend _ _, metStop _ _, metAny _ _⟩

/-! ### Encoding and the window -/

theorem witness_DecodeOfEncode :
    (Instr.bfi .w 31 0 0xFFF).wellFormed .a = true ∧ (Instr.bfEnq 1 0xFFFF).wellFormed .b = true ∧
      (Instr.rbPush 1 0xFF).wellFormed .a = true := by decide

theorem witness_EncodeOfDecode :
    decode .a 0x05BE001C = some (.bfi .w 31 0 0x01C) ∧ decode .b 0x53000000 = some (.bfFull 0) := by decide

/-- A word of each of the five kinds, the first and the last of the opcodes outside the map, and one of no kind. -/
theorem witness_IllegalWordsAreTheFiveKinds :
    Illegal .a 0x07000000 ∧ Illegal .a 0xFF000000 ∧ Illegal .a 0x11000001 ∧ Illegal .b 0x00C00003 ∧
    Illegal .a 0x050E1002 ∧ Illegal .b 0x42000000 ∧ Illegal .a 0x50000010 ∧ ¬ Illegal .a 0x05BE001C ∧
    (let s := { State.reset with host := [.write 0x008 .w 0x07000000] }
     s.seq = .idle ∧ s.host = .write (s.params.address 0x008) .w 0x07000000 :: [] ∧ Illegal s.params.variant 0x07000000) := by
  refine ⟨?_, ?_, ?_, ?_, ?_, ?_, ?_, ?_, rfl, rfl, ?_⟩ <;> (unfold Illegal; decide)

/-- Accesses at the bounds of their ranges. -/
theorem allowed_accesses :
    AccessAllowed 0x000 .b ∧ AccessAllowed 0x007 .b ∧ AccessAllowed 0x00C .w ∧ AccessAllowed 0x01C .w ∧
    AccessAllowed 0x020 .h ∧ AccessAllowed 0x1FE .h ∧ AccessAllowed 0x7FC .w ∧ AccessAllowed 0xFFF .b ∧
    ¬ AccessAllowed 0x002 .w ∧ ¬ AccessAllowed 0x000 .w ∧ ¬ AccessAllowed 0x010 .b ∧ ¬ AccessAllowed 0x101 .h ∧
    ¬ AccessAllowed 0xFFE .w := by
  refine ⟨?_, ?_, ?_, ?_, ?_, ?_, ?_, ?_, ?_, ?_, ?_, ?_, ?_⟩ <;> (unfold AccessAllowed; decide)

theorem witness_LdLoadsRes :
    (AccessAllowed 0x1FC .w ∧ (0x1FC : Offset) ≠ 0x004 ∧ (0x1FC : Offset) ≠ 0x008 ∧ MetAny (.ld .w 0x1FC) 0) ∧
    MetLoad (.ld .b 0x004) 0 := by
  refine ⟨⟨?_, ?_, ?_, metAny _ _⟩, metLoad _ _⟩ <;> (try unfold AccessAllowed) <;> decide

theorem witness_StStores :
    (AccessAllowed 0x7FC .w ∧ (0x7FC : Offset) ≠ 0x002 ∧ (0x7FC : Offset) ≠ 0x004 ∧ (0x7FC : Offset) ≠ 0x008 ∧
      MetAny (.st .w 0x7FC) 0) ∧
    MetSend (.st .b 0x004) 0 := by
  refine ⟨⟨?_, ?_, ?_, ?_, metAny _ _⟩, metSend _ _⟩ <;> (try unfold AccessAllowed) <;> decide

/-- A state for each of the nine clauses of `StoresCtrl`, on a command whose value is the low byte of `AUX`. -/
theorem witness_StoreInCtrl :
    let i := Instr.st .b 0x002
    let v := fun s : State => s.aux.extractLsb' 0 8
    let ask := fun (s : State) (x : Word) => standing i 0 { s with aux := x }
    Meets i 0 (fun s => s.ctrl.mst = false ∧ (v s).getLsbD 5 = false) (ask State.reset 0x1C) ∧
    Meets i 0 (fun s => s.ctrl.mst = false ∧ (v s).getLsbD 5 = true ∧ s.stat.busy = true)
      (ask (withBits false false false true false false) 0x24) ∧
    Meets i 0 (fun s => s.ctrl.mst = false ∧ (v s).getLsbD 5 = true ∧ s.stat.busy = false ∧ (v s).getLsbD 2 = false)
      (ask State.reset 0x30) ∧
    Meets i 0 (fun s => s.ctrl.mst = true ∧ (v s).getLsbD 5 = false) (ask (sending (.tx 0)) 0x04) ∧
    Meets i 0 (fun s => s.ctrl.mst = true ∧ (v s).getLsbD 5 = true ∧ (v s).getLsbD 2 = false) (ask (sending (.tx 0)) 0x20) ∧
    Meets i 0
      (fun s => s.ctrl.mst = true ∧ (v s).getLsbD 5 = true ∧ (v s).getLsbD 2 = true ∧ s.xfer = .none ∧ divMult s.div = 0)
      (ask { sending .none with div := 0x3F } 0x34) ∧
    Meets i 0
      (fun s => s.ctrl.mst = false ∧ s.stat.busy = false ∧ (v s).getLsbD 5 = true ∧ (v s).getLsbD 2 = true ∧
        s.xfer = .none ∧ divMult s.div = 0)
      (ask { State.reset with div := 0x3F } 0x34) ∧
    Meets i 0
      (fun s => (s.ctrl.mst = true ∨ s.stat.busy = false) ∧ (v s).getLsbD 5 = true ∧ (v s).getLsbD 2 = true ∧
        s.xfer ≠ .none)
      (ask (sending (.tx 0)) 0x34) ∧
    Meets i 0
      (fun s => (s.ctrl.mst = true ∨ s.stat.busy = false) ∧ (v s).getLsbD 5 = true ∧ (v s).getLsbD 2 = true ∧
        s.xfer = .none ∧ divMult s.div ≠ 0)
      (ask { sending .none with div := 0x40 } 0x34) := by
  unfold Meets; decide

theorem witness_AtomicOperationsReadAndStore :
    AccessAllowed 0x400 .h ∧ (0x400 : Offset) ≠ 0x002 ∧ (0x400 : Offset) ≠ 0x004 ∧ (0x400 : Offset) ≠ 0x008 ∧
      MetAny (.aand .h 0x400) 0 ∧ MetAny (.aor .h 0x400) 0 ∧ MetAny (.axor .h 0x400) 0 ∧
      MetAny (.aor .b 0x003) 0 ∧ MetAny (.aand .b 0x003) 0 ∧ MetAny (.axor .b 0x003) 0 := by
  refine ⟨?_, ?_, ?_, ?_, metAny _ _, metAny _ _, metAny _ _, metAny _ _, metAny _ _, metAny _ _⟩ <;>
    (try unfold AccessAllowed) <;> decide

/-- The value that `BFI` of bits 5:2 stores in a `CTRL` that shows 0. -/
def insertedCtrl (s : State) : Byte := (s.aux.extractLsb' 0 8 &&& 0x3C) ||| (ctrlByte s &&& 0xC3)

/-- `AAND` and `AXOR` as master, `AOR` and `BFI` from idle, at `CTRL`; and the field condition of `BFI` at 4 bits from bit 2. -/
theorem witness_AtomicOperationsOnCtrl :
    Meets (.aand .b 0x002) 0 (fun s => s.ctrl.mst = true ∧ (ctrlByte s &&& s.aux.extractLsb' 0 8).getLsbD 5 = false)
      (standing (.aand .b 0x002) 0 { sending .none with aux := 0xCF }) ∧
    Meets (.aor .b 0x002) 0
      (fun s => s.ctrl.mst = false ∧ (ctrlByte s ||| s.aux.extractLsb' 0 8).getLsbD 5 = true ∧ s.stat.busy = false ∧
        (ctrlByte s ||| s.aux.extractLsb' 0 8).getLsbD 2 = false)
      (standing (.aor .b 0x002) 0 { State.reset with aux := 0x30 }) ∧
    Meets (.axor .b 0x002) 0 (fun s => s.ctrl.mst = true ∧ (ctrlByte s ^^^ s.aux.extractLsb' 0 8).getLsbD 5 = false)
      (standing (.axor .b 0x002) 0 { sending .none with aux := 0x20 }) ∧
    (2#5).toNat + (3#5).toNat + 1 ≤ 8 ∧
    Meets (.bfi .b 2 3 0x002) 0
      (fun s => s.ctrl.mst = false ∧ s.stat.busy = false ∧ (insertedCtrl s).getLsbD 5 = true ∧
        (insertedCtrl s).getLsbD 2 = true ∧ s.xfer = .none ∧ divMult s.div = 0)
      (standing (.bfi .b 2 3 0x002) 0 { State.reset with aux := 0x34 }) := by
  unfold Meets; decide

theorem insertedCtrl_bits (s : State) (b : Nat) (h : b < 8) :
    (insertedCtrl s).getLsbD b =
      if (2#5).toNat ≤ b ∧ b ≤ (2#5).toNat + (3#5).toNat then s.aux.getLsbD b else (ctrlByte s).getLsbD b := by
  unfold insertedCtrl
  interval_cases b <;> simp

/-- Fields that end at the top bit of their access. -/
theorem witness_BfiInsertsInPlace :
    AccessAllowed 0x001 .b ∧ (3#5).toNat + (4#5).toNat + 1 ≤ 8 * Size.b.bytes ∧
    (let s := standing (.bfi .b 3 4 0x001) 0 { State.reset with aux := 0xFF, div := 0x05 }
     s.seq = .run 0x05 0 ∧
      ∀ b, b < 8 * Size.b.bytes → (0xFD : Word).getLsbD b =
        if (3#5).toNat ≤ b ∧ b ≤ (3#5).toNat + (4#5).toNat then s.aux.getLsbD b else (windowValue s 0x001 .b).getLsbD b) ∧
    AccessAllowed 0x01C .w ∧ (31#5).toNat + (0#5).toNat + 1 ≤ 8 * Size.w.bytes := by
  unfold AccessAllowed; decide

theorem witness_UbfxExtracts :
    AccessAllowed 0x001 .b ∧ (6#5).toNat + (1#5).toNat + 1 ≤ 8 * Size.b.bytes ∧
    (let s := standing (.ubfx .b 6 1 0x001) 0 { State.reset with div := 0xD4 }
     s.seq = .run 0x06 0 ∧
      ∀ b, b < 32 → (3 : Word).getLsbD b =
        (decide (b ≤ (1#5).toNat) && (windowValue s 0x001 .b).getLsbD ((6#5).toNat + b))) := by
  unfold AccessAllowed; decide

theorem witness_BadAccessHalts :
    ¬ AccessAllowed 0x002 .w ∧ MetAny (.ld .w 0x002) 0 ∧ MetAny (.st .w 0x008) 0 ∧ MetAny (.aand .w 0x008) 0 ∧
      MetAny (.aor .b 0x004) 0 ∧ MetAny (.axor .b 0x004) 0 ∧ MetAny (.bfi .b 0 0 0x004) 0 ∧ MetAny (.ubfx .b 0 0 0x004) 0 := by
  refine ⟨?_, metAny _ _, metAny _ _, metAny _ _, metAny _ _, metAny _ _, metAny _ _, metAny _ _⟩
  unfold AccessAllowed; decide

/-- Reads at `IDLE` and in `HALT`, of `DATA` in each case, and of a size not allowed; writes of `CTRL`, `DATA`, `AUX`, of a size
not allowed, in `HALT`, and while a command runs. -/
theorem witness_HostAccessesTheWindow :
    (let s := { State.reset with host := [.read 0x010 .w] }
     (s.seq = .idle ∨ s.seq = .halt) ∧ s.host = .read (s.params.address 0x010) .w :: [] ∧ AccessAllowed 0x010 .w) ∧
    (let s := { receiving .none with host := [.read 0x004 .b], seq := .halt }
     (s.seq = .idle ∨ s.seq = .halt) ∧ s.host = .read (s.params.address 0x004) .b :: [] ∧ AccessAllowed 0x004 .b ∧
      masterReceive s ∧ s.xfer = .none) ∧
    (let s := { receiving (.rx .ack) with host := [.read 0x004 .b] }
     (s.seq = .idle ∨ s.seq = .halt) ∧ s.host = .read (s.params.address 0x004) .b :: [] ∧ masterReceive s ∧
      s.xfer ≠ .none) ∧
    ({ State.reset with host := [.read 0x002 .w] }.host = .read 0x002 .w :: [] ∧ ¬ AccessAllowed 0x002 .w) ∧
    (let s := { State.reset with host := [.write 0x002 .b 0x30, .write 0x004 .b 0x3A, .write 0x00C .w 1] }
     s.seq = .idle ∧ s.host = .write (s.params.address 0x002) .b 0x30 :: [.write 0x004 .b 0x3A, .write 0x00C .w 1]) ∧
    (let s := { State.reset with host := [.write 0x00C .w 1] }
     s.seq = .idle ∧ s.host = .write (s.params.address 0x00C) .w 1 :: [] ∧ AccessAllowed 0x00C .w) ∧
    (let s := { State.reset with host := [.write 0x00C .b 1] }
     s.seq = .idle ∧ s.host = .write (s.params.address 0x00C) .b 1 :: [] ∧ ¬ AccessAllowed 0x00C .b) ∧
    (let s := { State.reset with host := [.write 0x00C .w 1], seq := .halt }
     s.seq = .halt ∧ s.host = .write (s.params.address 0x00C) .w 1 :: []) ∧
    (standing .waitb 0 State.reset).seq = .run 0x18 0 ∧ (standing .waitb 0 State.reset).host = [] := by
  unfold AccessAllowed masterReceive; decide

/-- The clauses on a held access and on an access outside the window, with `BASE` not 0. -/
theorem witness_HostAccessesTheWindow_address :
    (let s := { standing .waitb 0 found with host := [.read 0x40066FFF .b] }
     s.seq = .run 0x18 0 ∧ ∃ a rest off, s.host = a :: rest ∧ a.addr = s.params.address off) ∧
    (let s := { found with host := [.write 0x40067000 .b 1] }
     s.host = .write 0x40067000 .b 1 :: [] ∧ ∀ off, (HostAccess.write 0x40067000 .b 1).addr ≠ s.params.address off) := by
  refine ⟨⟨rfl, _, _, 0xFFF, rfl, rfl⟩, rfl, fun off h => ?_⟩
  exact nomatch ((offsetOf_eq_some_iff found.params 0x40067000 off).mpr h)

/-- U5: on a miss the transaction stops under the policy `fault`; with the slave in the table it goes on. -/
theorem test_select_miss_policy :
    exec (.rdreg 0x1D 0x0D) (standing (.rdreg 0x1D 0x0D) 0 missing) = .fault .selectMiss ∧
    after (fun t => t.seq) (exec (.rdreg 0x3A 0x0D) (standing (.rdreg 0x3A 0x0D) 0 found)) = some (.run 0x20 1) :=
  ⟨rfl, by decide⟩

/-- R44: `BASE` moves the window: a write of `AUX` 0x40066000 up, and a write just below the window. -/
theorem test_base :
    after (fun t => (t.aux, t.host)) (step { found with host := [.write 0x4006600C .w 7] }) = some (7, []) ∧
    after (fun t => (t.aux, t.host)) (step { found with host := [.write 0x40065FFF .b 7] }) = some (0, []) := by decide

theorem witness_AcceptanceLoadsOperands : State.reset.seq = .idle ∧ exec (.sendb 0xFF) State.reset =
    .next { State.reset with dp := loaded (.sendb 0xFF) State.reset, seq := .run (Instr.sendb 0xFF).opcode 0 } := ⟨rfl, rfl⟩

theorem witness_StepRunsTheDecodedCommand :
    (let s := { standing .waitb 0 State.reset with cmd := 0x18000000, agenda := [.seq, .host] }
     s.seq = .run 0x18 0 ∧ decode s.params.variant s.cmd = some .waitb ∧ s.agenda = .seq :: [.host]) ∧
    (let s := { standing .waitb 0 State.reset with cmd := 0x18000000 }
     s.seq = .run 0x18 0 ∧ decode s.params.variant s.cmd = some .waitb ∧ s.agenda = []) ∧
    (let s := { State.reset with host := [.write 0x008 .w 0x18000000] }
     s.seq = .idle ∧ s.host = .write (s.params.address 0x008) .w 0x18000000 :: [] ∧ decode s.params.variant 0x18000000 = some .waitb ∧
      s.agenda = []) := by decide

/-! ### Whole runs -/

/-- A state ready for a transaction, with this access of HOST and these turns. -/
def readyFor (i : Instr) (ts : List Turn) : State := { State.reset with host := [writeCmd Params.default i], agenda := ts }

theorem readyFor_ready (i : Instr) (ts : List Turn) :
    Ready (readyFor i ts) ∧ (∀ slave, GoesOn slave (readyFor i ts)) ∧
      (readyFor i ts).host = writeCmd (readyFor i ts).params i :: [] ∧ (readyFor i ts).agenda = ts :=
  ⟨⟨rfl, rfl, rfl, rfl, rfl⟩, fun _ => .inl rfl, rfl, rfl⟩

/-- V5.1 with BUS completing its bytes after 1, 0, 2 and 3 polls in vain. -/
theorem witness_RdregRun :
    let s := readyFor (.rdreg 0x1D 0x0D)
      (([.host] ++ readTurns 1 0 2 .ack .ack .ack ++ byteTurns 3 (.busRx 0x1A) ++ [.seq, .seq, .seq]) ++ [])
    Ready s ∧ (∀ slave, GoesOn slave s) ∧ s.host = writeCmd s.params (.rdreg 0x1D 0x0D) :: [] ∧
      s.agenda = ([.host] ++ readTurns 1 0 2 .ack .ack .ack ++ byteTurns 3 (.busRx 0x1A) ++ [.seq, .seq, .seq]) ++ [] :=
  readyFor_ready _ _

theorem witness_RdregsOfOneByteRun :
    let ts := [.host, .seq, .seq] ++ readTurns 0 2 0 .ack .ack .nack ++ byteTurns 1 (.busRx 0x1A) ++
      [.seq, .seq, .seq] ++ []
    let s := readyFor (.rdregs 0x1D 0x0D 1) ts
    Ready s ∧ (∀ slave, GoesOn slave s) ∧ s.host = writeCmd s.params (.rdregs 0x1D 0x0D 1) :: [] ∧ s.agenda = ts :=
  readyFor_ready _ _

/-- V5.2 and V5.3: no middle byte, and one. -/
theorem witness_RdregsBurstRun :
    (2 : Byte).toNat = ([] : List (Nat × Byte)).length + 2 ∧ (3 : Byte).toNat = [(1, (0x22 : Byte))].length + 2 ∧
    (let ts := [.host, .seq, .seq] ++ readTurns 0 1 0 .ack .ack .ack ++ byteTurns 2 (.busRx 0x11) ++ [.seq] ++
        middleTurns [(1, 0x22)] ++ [.seq, .seq] ++ byteTurns 0 (.busRx 0x33) ++ [.seq, .seq, .seq] ++ []
     let s := readyFor (.rdregs 0x1D 0x01 3) ts
     Ready s ∧ (∀ slave, GoesOn slave s) ∧ s.host = writeCmd s.params (.rdregs 0x1D 0x01 3) :: [] ∧ s.agenda = ts) :=
  ⟨rfl, rfl, readyFor_ready _ _⟩

theorem witness_WrregRun :
    let ts := [.host] ++ addressTurns 0 1 .ack .ack ++ byteTurns 2 (.busTx .ack) ++ [.seq, .seq] ++ []
    let s := readyFor (.wrreg 0x1D 0x2A 0x01) ts
    Ready s ∧ (∀ slave, GoesOn slave s) ∧ s.host = writeCmd s.params (.wrreg 0x1D 0x2A 0x01) :: [] ∧ s.agenda = ts :=
  readyFor_ready _ _

theorem witness_ModregRun :
    let ts := [.host] ++ readTurns 0 1 0 .ack .ack .ack ++ byteTurns 2 (.busRx 0x18) ++ List.replicate 6 .seq ++
      byteTurns 0 (.busTx .ack) ++ byteTurns 3 (.busTx .ack) ++ byteTurns 0 (.busTx .ack) ++ [.seq, .seq] ++ []
    let s := readyFor (.modreg 0x1D 0x2A) ts
    Ready s ∧ (∀ slave, GoesOn slave s) ∧ s.host = writeCmd s.params (.modreg 0x1D 0x2A) :: [] ∧ s.agenda = ts :=
  readyFor_ready _ _

theorem witness_WaitbTimesOut :
    let s := { standing .waitb 0 (sending (.tx 0x55)) with cmd := 0x18000000 }
    s.seq = .run 0x18 0 ∧ s.cmd = encode .waitb ∧ s.agenda = [] ∧ s.stat.ifl = false ∧ s.ctrl.mst = true := by decide

theorem witness_WaitbAlwaysEnds :
    let ts := List.replicate 405 Turn.seq
    let s := { standing .waitb 0 (sending (.tx 0x55)) with cmd := 0x18000000, agenda := ts ++ [] }
    LockOk s ∧ s.cmd = encode .waitb ∧ (∃ k : BitVec 6, s.seq = .run 0x18 k ∧ k.toNat < 7) ∧ s.agenda = ts ++ [] ∧
      405 ≤ ts.count .seq ∧ Turn.reset ∉ ts := by
  refine ⟨⟨by decide, fun _ => by decide⟩, by decide, ⟨0, rfl, by decide⟩, rfl, ?_, ?_⟩
  · rw [List.count_replicate_self]
  · intro h; exact nomatch List.eq_of_mem_replicate h

/-! ### The arbiter -/

/-- `AUX` with a reserved bit set, with port 5, and clean with port 4; and a table already installed. -/
theorem witness_PrepFillsAnEntry :
    let clean := fun s : State =>
      s.aux.extractLsb' 27 5 = 0#5 ∧ s.aux.extractLsb' 16 8 = 0#8 ∧ (s.aux.extractLsb' 24 3 : BitVec 3).toNat < 5
    let i := Instr.prep 7 0x7F
    Meets i 0 (fun s => ¬ clean s) (standing i 0 { State.reset with aux := 0x0801C5CD }) ∧
    Meets i 0 (fun s => ¬ clean s) (standing i 0 { State.reset with aux := 0x0500C5CD }) ∧
    Meets i 0 (fun s => clean s ∧ s.arb.configured = true) (standing i 0 { tabled with aux := 0x0400C5CD }) ∧
    Meets i 0 (fun s => clean s ∧ s.arb.configured = false) (standing i 0 { State.reset with aux := 0x0400C5CD }) := by
  unfold Meets; decide

theorem preparedOnly_entries (j : Nat) (h : j < 8) (h2 : j < 2) : preparedOnly.arb.etab[j].prepared = true := by
  interval_cases j <;> rfl

/-- Counts 0 and 9, an unprepared entry 2, two prepared entries, and a second `CONFIG`. -/
theorem witness_ConfigInstallsTheTable :
    let ready := fun (n : BitVec 4) (s : State) =>
      1 ≤ n.toNat ∧ n.toNat ≤ 8 ∧ ∀ (j : Nat) (h : j < 8), j < n.toNat → s.arb.etab[j].prepared = true
    Meets (.config 1) 0 (fun s => s.arb.configured = true) (standing (.config 1) 0 tabled) ∧
    Meets (.config 0) 0 (fun s => s.arb.configured = false ∧ ¬ ready 0 s) (standing (.config 0) 0 preparedOnly) ∧
    Meets (.config 9) 0 (fun s => s.arb.configured = false ∧ ¬ ready 9 s) (standing (.config 9) 0 preparedOnly) ∧
    Meets (.config 3) 0 (fun s => s.arb.configured = false ∧ ¬ ready 3 s) (standing (.config 3) 0 preparedOnly) ∧
    Meets (.config 2) 0 (fun s => s.arb.configured = false ∧ ready 2 s) (standing (.config 2) 0 preparedOnly) := by
  refine ⟨⟨rfl, rfl⟩, ⟨rfl, rfl, fun h => ?_⟩, ⟨rfl, rfl, fun h => ?_⟩, ⟨rfl, rfl, fun h => ?_⟩, rfl, rfl, by decide, by decide,
    preparedOnly_entries⟩
  · exact absurd h.1 (by decide)
  · exact absurd h.2.1 (by decide)
  · exact absurd (h.2.2 2 (by decide) (by decide)) (by decide)

theorem tabled_firstMatch : FirstMatch tabled 0x48 1 ∧ FirstMatch tabled 0x3A 0 := by
  refine ⟨⟨by decide, by decide, fun i h => ?_⟩, by decide, by decide, fun i h => absurd h (Nat.not_lt_zero i)⟩
  interval_cases i; decide

/-- `tabled` where the two entries share their wiring. -/
def tabledSame : State :=
  { tabled with arb := { tabled.arb with etab := ((Vector.replicate 8 Entry.reset).set 0 entry3A).set 1 { entry3A with slave := 0x48 } } }

/-- `tabled` with a memo of "none". -/
def tabledFresh : State := { tabled with arb := { tabled.arb with lastAddr := 0xFF, lastHash := 0, lastIdx := 0xFF } }

/-- `s` at the one micro-step of `SELECT slave`. -/
def selecting (slave : Slave) (s : State) : State := standing (.select slave) 0 { s with dp := { s.dp with slv := slave } }

theorem firstMatch_second (s : State) (slave : Slave) (h : 1 < s.arb.entryCount.toNat) (h1 : (s.arb.entry 1).slave = slave)
    (h0 : (s.arb.entry 0).slave ≠ slave) : FirstMatch s slave 1 :=
  ⟨h, h1, fun i hi => by interval_cases i; exact h0⟩

theorem witness_SelectChangesTheWiring :
    let fast := fun s : State => s.arb.lastAddr = 0#1 ++ s.dp.slv
    Meets (.select 0x3A) 0 fast (selecting 0x3A tabled) ∧
    Meets (.select 0x10) 0 (fun s => ¬ fast s ∧ ∀ j, j < s.arb.entryCount.toNat → (s.arb.entry j).slave ≠ s.dp.slv)
      (selecting 0x10 tabled) ∧
    Meets (.select 0x48) 0
      (fun s => ¬ fast s ∧ FirstMatch s s.dp.slv 1 ∧ s.arb.lastIdx ≠ 0xFF ∧ (s.arb.entry 1).hash = s.arb.lastHash)
      (selecting 0x48 tabledSame) ∧
    Meets (.select 0x48) 0 (fun s => ¬ fast s ∧ FirstMatch s s.dp.slv 1 ∧ s.arb.lastIdx = 0xFF)
      (selecting 0x48 tabledFresh) ∧
    Meets (.select 0x48) 0
      (fun s => ¬ fast s ∧ FirstMatch s s.dp.slv 1 ∧ s.arb.lastIdx ≠ 0xFF ∧ (s.arb.entry 1).hash ≠ s.arb.lastHash)
      (selecting 0x48 tabled) := by
  refine ⟨⟨rfl, by decide⟩, ⟨rfl, by decide, by decide⟩,
    ⟨rfl, by decide, firstMatch_second _ _ (by decide) (by decide) (by decide), by decide, by decide⟩,
    ⟨rfl, by decide, firstMatch_second _ _ (by decide) (by decide) (by decide), by decide⟩,
    rfl, by decide, firstMatch_second _ _ (by decide) (by decide) (by decide), by decide, by decide⟩

theorem tabled_entry (i : Nat) (h : (tabled.arb.entry i).prepared = true) : i = 0 ∨ i = 1 := by
  by_cases h8 : i < 8
  · revert h; interval_cases i <;> decide
  · simp [Arbiter.entry, h8, Entry.reset] at h

theorem tabled_arbOk : ArbOk tabled.arb := by
  refine ⟨by decide, fun _ => ⟨by decide, by decide, by decide⟩, fun i h => ?_,
    .inr ⟨0x3A, by decide, by decide, by decide⟩⟩
  rcases tabled_entry i h with rfl | rfl <;> decide

theorem tabled_collisionFree : CollisionFree tabled.arb := by
  intro i j hi hj
  have hi2 : i < 2 := hi
  have hj2 : j < 2 := hj
  interval_cases i <;> interval_cases j <;> decide

theorem witness_SelectWiresTheSlave :
    ArbOk tabled.arb ∧ CollisionFree tabled.arb ∧
    (tabled.arb.lastIdx ≠ 0xFF → Wired (tabled.arb.entry tabled.arb.lastIdx.toNat) tabled) ∧ FirstMatch tabled 0x48 1 ∧
    ((tabled.arb.entry 1).cpin = (tabled.arb.entry 1).dpin → (tabled.arb.entry 1).cmux = (tabled.arb.entry 1).dmux) :=
  ⟨tabled_arbOk, tabled_collisionFree, fun _ => ⟨rfl, rfl⟩, tabled_firstMatch.1, fun h => absurd h (by decide)⟩

/-- `SELECT 0x48` about to run its micro-step on `tabled`. -/
def selectTurn : State := { selecting 0x48 tabled with cmd := 0x32004800 }

theorem witness_OnlyInstalledPinsChange :
    ArbOk selectTurn.arb ∧ ∃ t, step selectTurn = .next t ∧ Store.read t.pmux 152 ≠ Store.read selectTurn.pmux 152 :=
  ⟨tabled_arbOk, (arbSelect 0x48 selectTurn).2.setRes 0 |>.finish, rfl, by decide⟩

/-! ### The FIFOs -/

theorem witness_RbInitAcceptsPowersOfTwo :
    Meets (.rbInit 0) 0 (fun s => s.aux.toNat = 2 ^ 0) (standing (.rbInit 0) 0 { State.reset with aux := 1 }) ∧
    Meets (.rbInit 1) 0 (fun s => s.aux.toNat = 2 ^ 10) (standing (.rbInit 1) 0 { State.reset with aux := 1024 }) ∧
    Meets (.rbInit 0) 0 (fun s => ∀ p : Nat, p ≤ 10 → s.aux.toNat ≠ 2 ^ p)
      (standing (.rbInit 0) 0 { State.reset with aux := 2048 }) := by unfold Meets; decide

/-- Ring 0 with room for one more byte, and full. -/
theorem witness_RbPushStores :
    Meets (.rbPush 0 0xFF) 0 (fun s => (s.rb.get 0).init = true ∧ (s.rb.get 0).held.toNat < (s.rb.get 0).cap.toNat)
      (standing (.rbPush 0 0xFF) 0 (ring4 1 0xFFFFFFFE [])) ∧
    Meets (.rbPush 0 0xFF) 0 (fun s => (s.rb.get 0).init = true ∧ (s.rb.get 0).cap.toNat ≤ (s.rb.get 0).held.toNat)
      (standing (.rbPush 0 0xFF) 0 (ring4 2 0xFFFFFFFE [])) := by unfold Meets; decide

/-- Ring 0 with one byte, and empty. -/
theorem witness_RbPopTakes :
    Meets (.rbPop 0) 0
      (fun s => (s.rb.get 0).init = true ∧ ((s.rb.get 0).w - ((s.rb.get 0).r + 1)).toNat ≤ (s.rb.get 0).cap.toNat)
      (standing (.rbPop 0) 0 (ring4 0 0xFFFFFFFF [])) ∧
    Meets (.rbPop 0) 0
      (fun s => (s.rb.get 0).init = true ∧ (s.rb.get 0).cap.toNat < ((s.rb.get 0).w - ((s.rb.get 0).r + 1)).toNat)
      (standing (.rbPop 0) 0 (ring4 4 4 [])) := by unfold Meets; decide

/-- Ring 0 initialised, empty and full. -/
theorem witness_RingQueriesAndWaits :
    Meets (.rbCount 0) 0 (fun s => (s.rb.get 0).init = true) (standing (.rbCount 0) 0 (ring4 4 4 [])) ∧
    Meets (.rbWaitne 0) 1 (fun s => (s.rb.get 0).w = (s.rb.get 0).r) (standing (.rbWaitne 0) 1 (ring4 4 4 [])) ∧
    Meets (.rbWaitne 0) 1 (fun s => ¬ (s.rb.get 0).w = (s.rb.get 0).r) (standing (.rbWaitne 0) 1 (ring4 4 0 [])) ∧
    Meets (.rbWaitnf 0) 1 (fun s => (s.rb.get 0).cap.toNat ≤ ((s.rb.get 0).w - (s.rb.get 0).r).toNat)
      (standing (.rbWaitnf 0) 1 (ring4 4 0 [])) ∧
    Meets (.rbWaitnf 0) 1 (fun s => ¬ (s.rb.get 0).cap.toNat ≤ ((s.rb.get 0).w - (s.rb.get 0).r).toNat)
      (standing (.rbWaitnf 0) 1 (ring4 4 1 [])) ∧
    Meets (.rbWaite 0) 1 (fun s => ¬ (s.rb.get 0).w = (s.rb.get 0).r) (standing (.rbWaite 0) 1 (ring4 4 3 [])) ∧
    MetAny (.rbWaite 0) 2 := by
  refine ⟨⟨rfl, rfl⟩, ⟨rfl, rfl⟩, ⟨rfl, by decide⟩, ⟨rfl, by decide⟩, ⟨rfl, by decide⟩, ⟨rfl, by decide⟩, metAny _ _⟩

theorem witness_UninitialisedRingHalts :
    Instr.rbWaite 1 ∈ [Instr.rbPush 1 0, .rbPop 1, .rbCount 1, .rbEmpty 1, .rbFull 1, .rbWaitne 1, .rbWaitnf 1, .rbWaite 1] ∧
    Meets (.rbWaite 1) 0 (fun s => (s.rb.get 1).init = false) (standing (.rbWaite 1) 0 State.reset) := by
  unfold Meets; decide

theorem ring4_ok (w r : Word) (st : Memory) (h : (w - r).toNat ≤ 4) : RingOk (ring4 w r st).rb.rx :=
  fun _ => ⟨2, by decide, rfl, show (3 : Word) = 4 - 1 by decide, h⟩

theorem witness_PoppedBytesEqualPushedBytes :
    let s := ring4 0xFFFFFFFE 0xFFFFFFFE []
    s.seq = .idle ∧ (s.rb.get 0).init = true ∧ RingOk (s.rb.get 0) ∧ (s.rb.get 0).w = (s.rb.get 0).r ∧
      ([0x61, 0x62, 0x63, 0x64] : List Byte).length ≤ (s.rb.get 0).cap.toNat :=
  ⟨rfl, rfl, ring4_ok _ _ _ (by decide), rfl, by decide⟩

/-- FIFO 0 full, and with 12 bytes of room that wrap; 65535 bytes asked for. -/
theorem witness_BfEnqCopiesIn :
    Meets (.bfEnq 0 0xFFFF) 0 (fun s => (s.bf.get 0).full = true) (standing (.bfEnq 0 0xFFFF) 0 (fifo 8 8 true 1024 [] [])) ∧
    Meets (.bfEnq 0 0xFFFF) 0 (fun s => (s.bf.get 0).full = false)
      (standing (.bfEnq 0 0xFFFF) 0 (fifo 1020 8 false 1012 [] [])) := ⟨⟨rfl, rfl⟩, rfl, rfl⟩

theorem witness_BfDeqCopiesOut :
    Meets (.bfDeq 0 0xFFFF) 0 (fun s => (s.bf.get 0).length = 0) (standing (.bfDeq 0 0xFFFF) 0 (fifo 8 8 false 0 [] [])) ∧
    Meets (.bfDeq 0 0xFFFF) 0 (fun s => (s.bf.get 0).length ≠ 0)
      (standing (.bfDeq 0 0xFFFF) 0 (fifo 8 8 true 1024 [] [])) := ⟨⟨rfl, rfl⟩, rfl, by decide⟩

theorem witness_BfQueriesAnswer :
    Meets (.bfLen 0) 0 (fun s => (s.bf.get 0).full = true) (standing (.bfLen 0) 0 (fifo 8 8 true 1024 [] [])) ∧
    Meets (.bfLen 0) 0 (fun s => (s.bf.get 0).full = false ∧ (s.bf.get 0).rc.toNat ≤ (s.bf.get 0).wc.toNat)
      (standing (.bfLen 0) 0 (fifo 8 8 false 0 [] [])) ∧
    Meets (.bfLen 0) 0 (fun s => (s.bf.get 0).full = false ∧ (s.bf.get 0).wc.toNat < (s.bf.get 0).rc.toNat)
      (standing (.bfLen 0) 0 (fifo 0 1023 false 1 [] [])) ∧
    MetAny (.bfFull 0) 0 := ⟨⟨rfl, rfl⟩, ⟨rfl, rfl, by decide⟩, ⟨rfl, rfl, by decide⟩, metAny _ _⟩

theorem witness_EnqueuedBytesComeBack :
    let s := fifo 1020 1020 false 0 [] [(0x400, 0xA0), (0x7FF, 0xA1)]
    s.seq = .idle ∧ FifoOk (s.bf.get 0) ∧ (s.bf.get 0).length = 0 ∧ (1024 : BitVec 16).toNat ≤ 1024 ∧
      1023 < (1024 : BitVec 16).toNat ∧ Store.read s.mem (0x400 + 1023) = some 0xA1 := by
  refine ⟨rfl, ⟨by decide, by decide⟩, by decide, by decide, by decide, by decide⟩

/-! ### The other agents -/

/-- As master in transmit mode, with other masters on the bus. -/
def contested : State := { sending .none with params := { variant := .a, multiMaster := true } }

theorem witness_BusSteps :
    (sending (.tx 0x3A)).xfer = .tx 0x3A ∧ (receiving (.rx .ack)).xfer = .rx .ack ∧
    (∀ b : Byte, (receiving (.rx .ack)).xfer ≠ .tx b ∧ State.reset.xfer ≠ .tx b) ∧
    (∀ m : Ack, (sending (.tx 0x3A)).xfer ≠ .rx m ∧ State.reset.xfer ≠ .rx m) ∧
    (let s := State.resetWith { variant := .a, multiMaster := true }
     s.params.multiMaster = true ∧ s.ctrl.mst = false) ∧
    (contested.params.multiMaster = true ∧ contested.ctrl.mst = true) ∧ State.reset.params.multiMaster = false :=
  ⟨rfl, rfl, fun _ => ⟨nofun, nofun⟩, fun _ => ⟨nofun, nofun⟩, ⟨rfl, rfl⟩, ⟨rfl, rfl⟩, rfl⟩

theorem witness_LinkServesTheRings :
    (let s := ring4 2 0xFFFFFFFE []
     s.params.variant = .a ∧ s.imask = false ∧ s.seq ≠ .halt ∧ s.rb.rx.cap.toNat ≤ (s.rb.rx.w - s.rb.rx.r).toNat) ∧
    (let s := ring4 1 0xFFFFFFFE []
     s.params.variant = .a ∧ s.imask = false ∧ s.seq ≠ .halt ∧ s.rb.rx.init = true ∧
      (s.rb.rx.w - s.rb.rx.r).toNat < s.rb.rx.cap.toNat) ∧
    (State.reset.txie = false ∧ State.reset.rb.rx.init = false) ∧
    (let s := { State.reset with txie := true }
     s.params.variant = .a ∧ s.imask = false ∧ s.seq ≠ .halt ∧ s.txie = true ∧ s.rb.tx.init = false) ∧
    (let s := { State.reset with rb := { rx := RingBuf.reset, tx := (ring4 4 3 []).rb.rx }, txie := true }
     s.params.variant = .a ∧ s.imask = false ∧ s.seq ≠ .halt ∧ s.txie = true ∧ s.rb.tx.init = true ∧
      s.rb.tx.w ≠ s.rb.tx.r) := by decide

/-- A state of variant B with these receive and transmit FIFOs and the trigger on. -/
def linkB (rx tx : BoundedFifo) : State :=
  { State.resetWith { variant := .b, multiMaster := false } with bf := { rx := rx, tx := tx }, txie := true }

theorem witness_LinkServesTheFifos :
    (let s := linkB (fifo 8 8 true 1024 [] []).bf.rx BoundedFifo.reset
     s.params.variant = .b ∧ s.imask = false ∧ s.seq ≠ .halt ∧ FifosOk s ∧ s.bf.rx.full = true ∧ s.txie = true ∧
      s.bf.tx.length = 0) ∧
    (let s := linkB (fifo 7 8 false 1023 [] []).bf.rx (fifo 0 1023 false 1 [] []).bf.rx
     s.params.variant = .b ∧ s.imask = false ∧ s.seq ≠ .halt ∧ FifosOk s ∧ s.bf.rx.full = false ∧ s.txie = true ∧
      s.bf.tx.length ≠ 0) ∧
    (let s := { linkB BoundedFifo.reset (fifo 0 1023 false 1 [] []).bf.rx with txie := false }
     s.params.variant = .b ∧ s.imask = false ∧ s.seq ≠ .halt ∧ FifosOk s ∧ s.txie = false) := by
  unfold FifosOk FifoOk; decide

theorem witness_LinkTouchesOnlyItsFifos :
    ({ State.reset with imask := true }.imask = true) ∧ ({ State.reset with seq := .halt }.seq = .halt) := ⟨rfl, rfl⟩

/-- HOST's ignored write, and a byte that BUS completes in `HALT`. -/
theorem witness_HaltIsFinal :
    (let s := halted 5 State.reset
     s.seq = .halt ∧ s.agenda = [] ∧ s.host = [] ∧ s.xfer = .none) ∧
    (let s := halted 5 (sending (.tx 0x3A))
     s.seq = .halt ∧ s.agenda = [] ∧ s.host = [] ∧ s.xfer ≠ .none) ∧
    (let s := { halted 8 State.reset with host := [.write 0x00C .w 1] }
     s.seq = .halt ∧ s.agenda.head? ≠ some .reset ∧ step s = .next { s with host := [] }) ∧
    (let s := { halted 8 (receiving (.rx .ack)) with agenda := [.busRx 0x42] }
     s.seq = .halt ∧ s.agenda.head? ≠ some .reset ∧ s.params.multiMaster = false ∧
      after (fun t => (t.dbuf, t.stat.ifl, t.xfer)) (step s) = some (0x42, true, .none)) := by
  refine ⟨⟨rfl, rfl, rfl, rfl⟩, ⟨rfl, rfl, rfl, by decide⟩, ⟨rfl, by decide, rfl⟩, rfl, by decide, rfl, by decide⟩

theorem witness_RecoveryStatusChangesOnlyInItsCommands :
    (let s := { standing .waitb 4 (sending .none) with cmd := 0x18000000 }
     s.esr.recov = false ∧ after (fun t => t.esr.recov) (step s) = some true) ∧
    (let s := { standing .waitb 2 { State.reset with lockcnt := 199 } with cmd := 0x18000000 }
     s.agenda.head? ≠ some .reset ∧ after (fun t => t.lockcnt) (step s) = some 200) := by decide

theorem witness_OtherCommandsKeepRes :
    after (fun t => t.stat.word) (exec .start (standing .start 0 State.reset)) = some 0x20 := by decide

/-! ### The environment's promise -/

/-- `SENDB` waiting for its byte, on a bus that promises to be live. -/
def waitingSend : State :=
  { standing (.sendb 0x3A) 1 (sending (.tx 0x3A)) with
    cmd := 0x1200003A, params := { variant := .a, multiMaster := false, busLive := true } }

/-- BUS completes the byte at once, then SEQ steps for ever. -/
def prompt : Schedule := fun n => if n = 0 then .busTx .ack else .seq

/-- What `waitingSend` ends as. -/
def sentState : State :=
  { waitingSend with
    seq := .idle, xfer := .none, busTrace := [.txb 0x3A .ack], stat := { waitingSend.stat with ifl := false, rxak := false } }

theorem prompt_sends (n : Nat) : waitingSend.along prompt (n + 4) = some sentState := by
  induction n with
  | zero => rfl
  | succ n ih => exact along_succ ih rfl

/-- The promise is kept on this run, so the hypotheses of `liveBus_ends_wait` are met, and the wait ends. -/
theorem test_liveBus_ends_wait :
    Promised prompt waitingSend ∧
      ∃ m u, 0 ≤ m ∧ waitingSend.along prompt (m + 1) = some u ∧ u.seq = waitingSend.seq.next := by
  have fair : BusFair prompt waitingSend := by
    intro n t ht hx
    match n, ht with
    | 0, _ => exact ⟨0, Nat.le_refl 0, fun u hu => .inr (by cases hu; rfl)⟩
    | 1, ht | 2, ht | 3, ht => exact absurd (by cases ht; rfl) hx
    | n + 4, ht => exact absurd (by rw [prompt_sends n] at ht; cases ht; rfl) hx
  refine ⟨⟨fun _ => fair, fun _ h => nomatch h⟩, ?_⟩
  refine liveBus_ends_wait fair (fun n => ⟨n + 1, by omega, rfl⟩) (fun m => ?_) rfl (fun op k h => ?_) rfl nofun
  · unfold prompt; split <;> nofun
  · obtain ⟨rfl, rfl⟩ := SeqState.run.inj h
    exact ⟨.sendb 0x3A, by decide, rfl, by decide⟩

/-! ### The invariants -/

/-- The 200th count of a `WAITB` as master with a byte in flight, a wrapped full ring, a full FIFO, bytes in both memories, an
installed table. -/
def busyState : State :=
  { sending (.tx 0x55) with
    seq := .run 0x18 2, cmd := 0x18000000, lockcnt := 199, arb := tabled.arb, pmux := tabled.pmux,
    rb := (ring4 2 0xFFFFFFFE [(0, 3), (1, 4), (2, 1), (3, 2)]).rb, bf := (fifo 8 8 true 1024 [(0, 1)] []).bf,
    mem := [(0x100, 0x11), (0x7FF, 0x22)] }

/-- The next state of `busyState`. -/
def busyNext : State := { busyState with lockcnt := 200, seq := .run 0x18 3 }

theorem busy_step : step busyState = .next busyNext := rfl

theorem busy_decode (i : Instr) (h : decode busyState.params.variant busyState.cmd = some i) : i = .waitb := by
  have h2 : decode busyState.params.variant busyState.cmd = some .waitb := by decide
  rw [h2] at h; exact (Option.some.inj h).symm

/-- `MODREG` in its first poll, with the masks of `AUX` in the datapath. -/
def maskedState : State :=
  { sending (.tx 0x3A) with
    seq := .run 0x23 4, cmd := 0x231D2A00, aux := 0xF003,
    dp := { State.reset.dp with slv := 0x1D, rega := 0x2A, amsk := 0xF0, omsk := 3 } }

theorem masked_decode (i : Instr) (h : decode maskedState.params.variant maskedState.cmd = some i) :
    i = .modreg 0x1D 0x2A := by
  have h2 : decode maskedState.params.variant maskedState.cmd = some (.modreg 0x1D 0x2A) := by decide
  rw [h2] at h; exact (Option.some.inj h).symm

/-- A step that goes on, and `MODREG` holding at a poll: the command still runs after either. -/
theorem witness_EveryStepKeepsCommand :
    (SeqOk busyState ∧ OperandsOk busyState ∧ step busyState = .next busyNext ∧ busyState.seq = .run 0x18 2 ∧
      busyState.agenda.head? ≠ some .reset ∧ busyNext.seq = .run 0x18 3) ∧
    SeqOk maskedState ∧ OperandsOk maskedState ∧ step maskedState = .next maskedState := by
  refine ⟨⟨fun op k h => ?_, fun i op k _ h => ?_, busy_step, rfl, by decide, rfl⟩, fun op k h => ?_,
    fun i op k _ h => ?_, rfl⟩
  · obtain ⟨rfl, rfl⟩ := SeqState.run.inj h
    exact ⟨.waitb, by decide, rfl, by decide⟩
  · rw [busy_decode i h]; trivial
  · obtain ⟨rfl, rfl⟩ := SeqState.run.inj h
    exact ⟨.modreg 0x1D 0x2A, by decide, rfl, by decide⟩
  · rw [masked_decode i h]; unfold maskedState; decide

theorem witness_EveryStepKeepsStatus : HaltOk busyState ∧ LockOk busyState ∧ step busyState = .next busyNext :=
  ⟨⟨⟨fun h => (nomatch h), fun h => (nomatch h)⟩, fun _ => rfl, fun h => (nomatch h)⟩, ⟨by decide, fun _ => by decide⟩, busy_step⟩

theorem witness_EveryStepKeepsBuffers : RingsOk busyState ∧ FifosOk busyState ∧ step busyState = .next busyNext :=
  ⟨fun _ => ⟨ring4_ok _ _ _ (by decide), fun h => nomatch h⟩,
    ⟨⟨by decide, by decide⟩, by decide, by decide⟩, busy_step⟩

theorem witness_EveryStepKeepsMemories : MemoriesOk busyState ∧ step busyState = .next busyNext :=
  ⟨⟨by decide, by decide, by decide, by decide, by decide, by decide⟩, busy_step⟩

theorem witness_EveryStepKeepsBus : BusOk busyState ∧ XferOk busyState ∧ step busyState = .next busyNext :=
  ⟨fun _ => ⟨rfl, rfl⟩, fun _ => rfl, busy_step⟩

theorem witness_EveryStepKeepsArbiterAndMask :
    ArbOk busyState.arb ∧ MaskOk busyState ∧ step busyState = .next busyNext := ⟨tabled_arbOk, rfl, busy_step⟩

end Sys2Proof.Tests
end

section
/-! PROOFS. Whose step it is (00_scope.md R17, R18) and what HOST's write of `CMD` runs (10_state.md R22, R23): the agenda or
the default names the turn, and SEQ's turn and the acceptance both hand the decoded command to `exec`. -/

namespace Sys2Proof.Machine

/-! ## The turn that a step takes -/

theorem step_agenda_seq {s : State} {rest : List Turn} (ha : s.agenda = .seq :: rest) :
    step s = seqTurn { s with agenda := rest } := by
  simp only [step, ha, takeTurn]

theorem step_default_running {s : State} {op : Byte} {k : BitVec 6} (ha : s.agenda = []) (hs : s.seq = .run op k) :
    step s = seqTurn s := by
  simp only [step, ha, defaultTurn, hs]

theorem step_default_idle {s : State} (ha : s.agenda = []) (hs : s.seq = .idle) : step s = hostTurn s := by
  simp only [step, ha, defaultTurn, hs]

/-! ## The decoded command is given to `exec` -/

theorem seqTurn_decoded {s : State} {i : Instr} {op : Byte} {k : BitVec 6} (hs : s.seq = .run op k)
    (hd : decode s.params.variant s.cmd = some i) : seqTurn s = exec i s := by
  simp only [seqTurn, hs, hd]

theorem acceptCommand_decoded {s : State} {i : Instr} (hd : decode s.params.variant s.cmd = some i) :
    acceptCommand s = exec i s := by
  simp only [acceptCommand, hd]

/-! ## HOST's write of `CMD` at `IDLE` -/

/-- The word at offset 0x008 is `CMD` in both variants (20_memory.md R44). -/
@[simp] theorem region_cmdOffset (v : FifoVariant) : region v 0x008 = .cmd := by
  cases v <;> rfl

@[simp] theorem accessOk_cmdWord (v : FifoVariant) : accessOk v 0x008 .w = true := by
  cases v <;> rfl

theorem memWrite_cmdWord (w : Word) (s : State) : memWrite 0x008 .w w s = .ok { s with cmd := w } := by
  simp only [memWrite, region_cmdOffset]

theorem hostTurn_idle_write {s : State} {off : Offset} {sz : Size} {v : Word} {rest : List HostAccess}
    (hs : s.seq = .idle) (hh : s.host = .write (s.params.address off) sz v :: rest) :
    hostTurn s = hostWrite off sz v { s with host := rest } := by
  simp only [hostTurn, hh, HostAccess.addr, offsetOf_address, windowAccess, hs]

theorem hostWrite_cmdWord (w : Word) (s : State) : hostWrite 0x008 .w w s = acceptCommand { s with cmd := w } := by
  simp only [hostWrite, accessOk_cmdWord, memWrite_cmdWord, region_cmdOffset, if_true]

/-! ## The obligation -/

/-- Settles O15: SEQ's turn, named by the agenda or taken by default, and HOST's write of `CMD` both end in `exec` of the
decoded command. -/
theorem stepRunsTheDecodedCommand : Obligations.StepRunsTheDecodedCommand := by
  refine ⟨fun s i op k rest hs hd ha => ?named, fun s i op k hs hd ha => ?byDefault, fun s i w rest hs hh hd ha => ?issued⟩
  case named => exact (step_agenda_seq ha).trans (seqTurn_decoded (s := { s with agenda := rest }) hs hd)
  case byDefault => exact (step_default_running ha hs).trans (seqTurn_decoded hs hd)
  case issued =>
    calc step s = hostTurn s := step_default_idle ha hs
      _ = hostWrite 0x008 .w w { s with host := rest } := hostTurn_idle_write hs hh
      _ = acceptCommand { s with host := rest, cmd := w } := hostWrite_cmdWord w _
      _ = exec i { s with host := rest, cmd := w } := acceptCommand_decoded hd

end Sys2Proof.Machine
end

section
/-! PROOFS. Every command as a micro-program (00_scope.md R17, 10_state.md R22, R23): the program that `exec` runs for each
instruction, and its acceptance. -/

namespace Sys2Proof.Machine

/-- The micro-program that `exec` gives the sequencer for a command; `exec_eq_command` ties it to the model. -/
def program : Instr → List MicroOp
  | .ld sz addr => [checkedAccess addr sz false (loadInto addr sz fun v => v)]
  | .st sz addr => [checkedAccess addr sz false fun t => memWrite addr sz (lowBits sz t.aux) t]
  | .aand sz addr => [checkedAccess addr sz true fun t => opAnd addr sz (lowBits sz t.aux) t]
  | .aor sz addr => [checkedAccess addr sz true fun t => opOr addr sz (lowBits sz t.aux) t]
  | .axor sz addr => [checkedAccess addr sz true fun t => opXor addr sz (lowBits sz t.aux) t]
  | .bfi sz pos wm1 addr =>
    [checkedAccess addr sz true fun t => opInsert addr sz (fieldMask sz pos wm1) (lowBits sz t.aux) t]
  | .ubfx sz pos wm1 addr =>
    [checkedAccess addr sz true (loadInto addr sz fun v => (v >>> pos.toNat) &&& onesField wm1)]
  | .waitbusy => [mWaitBusy, mDone]
  | .start => [mStart, mDone]
  | .sendb _ => sendByte (fun t => t.dp.val) ++ [mDone]
  | .rstart => repeatedStart ++ [mDone]
  | .rxmode ack => [mRxMode ack, mDone]
  | .drvclk => driveClock ++ [mDone]
  | .stop => [mStop, mDone]
  | .resetbus => [mClearIf, mClearIf, fun t => .ok (setRecov t).advance, mDone]
  | .waitb => [mZeroCount, mPoll, mCount, mStart, mForcedStop, mClearIf, mDone]
  | .rdreg _ _ => readRegister ++ [mDone]
  | .rdregs _ _ count => readRegisters count
  | .wrreg _ _ _ => addressWrite ++ sendByte (fun t => t.dp.val) ++ [mStop, mDone]
  | .modreg _ _ => modifyRegister
  | .prep index slave => [fun t => .ok (prepareEntry index slave t)]
  | .config count => [fun t => .ok (configureTable count t)]
  | .select _ => [fun t => .ok (selectInto t.dp.slv t).finish]
  | .rbInit k => [fun t => .ok (ringInit k t)]
  | .rbPush k byte => [fun t => .ok (onRing k (ringPush k byte) t)]
  | .rbPop k => [fun t => .ok (onRing k (ringPop k) t)]
  | .rbCount k => [fun t => .ok (onRing k (ringQuery fun q => q.held) t)]
  | .rbEmpty k => [fun t => .ok (onRing k (ringQuery fun q => flagWord q.isEmpty) t)]
  | .rbFull k => [fun t => .ok (onRing k (ringQuery fun q => flagWord q.isFull) t)]
  | .rbWaitne k => [mRingCheck k, mRingWait k (fun q => !q.isEmpty), mRingDone]
  | .rbWaitnf k => [mRingCheck k, mRingWait k (fun q => !q.isFull), mRingDone]
  | .rbWaite k => [mRingCheck k, mRingWait k (fun q => q.isEmpty), mRingDone]
  | .bfEnq k n => [fun t => .ok (critical (enqueue k n.toNat) t).finish]
  | .bfDeq k n => [fun t => .ok (critical (dequeue k n.toNat) t).finish]
  | .bfLen k => [fun t => .ok (critical (fun u => u.setRes (BitVec.ofNat 32 (u.bf.get k).length)) t).finish]
  | .bfFull k => [fun t => .ok (critical (fun u => u.setRes (flagWord (u.bf.get k).full)) t).finish]

/-- `exec` is the sequencer's control over the command's opcode, operands and micro-program (R17, R21 to R23). -/
theorem exec_eq_command (i : Instr) (s : State) : exec i s = command i.opcode (loaded i) (program i) s := by
  cases i <;> rfl

/-- Settles O14: every command is a `command`, whose acceptance at `IDLE` is `command_idle`. -/
theorem acceptanceLoadsOperands : Obligations.AcceptanceLoadsOperands :=
  fun i s h => (exec_eq_command i s).trans (command_idle _ _ _ s h)

/-- A next state of a running command is that of the micro-step at which SEQ stands (R22). -/
theorem exec_running {i : Instr} {s t : State} {op : Byte} {k : BitVec 6} (hs : s.seq = .run op k)
    (h : exec i s = .next t) : op = i.opcode ∧ ∃ m, (program i)[k.toNat]? = some m ∧ m s = .ok t := by
  rw [exec_eq_command] at h
  obtain ⟨hidle, -⟩ | ⟨k', m, hrun, hm, ht⟩ := command_next h
  · rw [hs] at hidle; cases hidle
  · obtain ⟨rfl, rfl⟩ := SeqState.run.inj (hs.symm.trans hrun)
    exact ⟨rfl, m, hm, ht⟩

end Sys2Proof.Machine
end

section
/-! PROOFS. The invariants of the claims in the state after reset (10_state.md R42, 70_reset_and_hazards.md R149), for any
parameters of the block. -/

namespace Sys2Proof.Machine

theorem Arbiter.reset_entry (j : Nat) : Arbiter.reset.entry j = Entry.reset := by
  unfold Arbiter.entry
  split
  · exact Vector.getElem_replicate ..
  · rfl

/-- Nothing is installed, prepared or remembered (R42). -/
theorem arbOk_reset : ArbOk Arbiter.reset := by
  refine ⟨fun _ => rfl, fun h => (nomatch h), fun j h => ?_, .inl ⟨rfl, rfl⟩⟩
  rw [Arbiter.reset_entry] at h
  nomatch h

theorem ringOk_reset : RingOk RingBuf.reset := fun h => (nomatch h)

theorem fifoOk_reset : FifoOk BoundedFifo.reset := ⟨fun _ => rfl, rfl⟩

theorem haltOk_resetWith (p : Params) : HaltOk (State.resetWith p) :=
  ⟨⟨fun h => (nomatch h), fun h => (nomatch h)⟩, fun _ => rfl, fun h => (nomatch h)⟩

theorem lockOk_resetWith (p : Params) : LockOk (State.resetWith p) :=
  ⟨Nat.zero_le _, fun _ => (by decide : 0 < Config.waitBound)⟩

/-- Settles O54: SEQ is at `IDLE`, so no command runs, and every component is good by itself. -/
theorem resetStateIsGood : Obligations.ResetStateIsGood :=
  ⟨fun _ _ h => (nomatch h), haltOk_resetWith _, lockOk_resetWith _, fun _ => ⟨ringOk_reset, ringOk_reset⟩,
    ⟨fifoOk_reset, fifoOk_reset⟩, reset_memories, fun _ => ⟨rfl, rfl⟩, fun h => absurd rfl h, rfl, arbOk_reset,
    fun _ _ _ h => (nomatch h)⟩

end Sys2Proof.Machine
end

section
/-! PROOFS. What the operations on one ring, one bounded FIFO and the arbiter keep: their invariants, each operation once
(44_ring_buffer.md R116 to R118, 45_bounded_fifo.md R128 to R131, 43_arbiter.md R111 to R113). -/

namespace Sys2Proof.Machine

/-! ## The ring buffer -/

/-- The capacities that `RB.INIT` accepts are powers of two up to 1024 (R116). -/
theorem exists_pow_of_capacityOk {c : Word} (h : capacityOk c = true) : ∃ p : Nat, p ≤ 10 ∧ c.toNat = 2 ^ p := by
  simp only [capacityOk, Bool.and_eq_true, bne_iff_ne, ne_eq, beq_iff_eq, decide_eq_true_eq] at h
  obtain ⟨⟨hzero, hand⟩, hle⟩ := h
  have hpos : c.toNat ≠ 0 := fun h0 => hzero (BitVec.eq_of_toNat_eq h0)
  have hpred : (c - 1).toNat = c.toNat - 1 := by bv_omega
  have hland : c.toNat &&& (c.toNat - 1) = 0 := by
    rw [← hpred, ← BitVec.toNat_and, hand]; rfl
  obtain ⟨p, hp⟩ := (Nat.and_sub_one_eq_zero_iff_isPowerOfTwo hpos).1 hland
  refine ⟨p, ?_, hp⟩
  have hpow : 2 ^ p ≤ 2 ^ 10 := by rw [← hp]; exact hle
  exact (Nat.pow_le_pow_iff_right (by decide)).1 hpow

theorem ringOk_initWith (q : RingBuf) {c : Word} (h : capacityOk c = true) : RingOk (q.initWith c) := by
  intro _
  obtain ⟨p, hp, hc⟩ := exists_pow_of_capacityOk h
  exact ⟨p, hp, hc, rfl, by simp [RingBuf.initWith, RingBuf.held]⟩

/-- A capacity up to 1024 is far from the wrap of the free-running indices. -/
theorem RingOk.cap_le {q : RingBuf} (h : RingOk q) (hi : q.init = true) : q.cap.toNat ≤ 1024 := by
  obtain ⟨p, hp, hc, -, -⟩ := h hi
  rw [hc]
  exact Nat.pow_le_pow_right (by decide) hp

/-- A ring whose cursors alone have moved is good while it holds no more than its capacity. -/
theorem RingOk.of_held_le {q q' : RingBuf} (h : RingOk q) (hi : q'.init = q.init) (hc : q'.cap = q.cap)
    (hm : q'.mask = q.mask) (hle : q.init = true → q'.held.toNat ≤ q.cap.toNat) : RingOk q' := by
  intro hinit
  obtain ⟨p, hp, hcap, hmask, -⟩ := h (hi ▸ hinit)
  exact ⟨p, hp, hc ▸ hcap, by rw [hm, hc, hmask], hc ▸ hle (hi ▸ hinit)⟩

/-- A push on a ring that is not full (R117). -/
theorem ringOk_put {q : RingBuf} (b : Byte) (h : RingOk q) (hf : q.isFull = false) : RingOk (q.put b) := by
  refine h.of_held_le rfl rfl rfl fun hi => ?_
  have hcap := h.cap_le hi
  have hheld : q.held.toNat < q.cap.toNat := by simpa [RingBuf.isFull] using hf
  simp only [RingBuf.held, RingBuf.put] at hheld ⊢
  bv_omega

/-- A pop whose check after the read passes (R118). -/
theorem ringOk_dropFront {q : RingBuf} (h : RingOk q) (hle : q.dropFront.held.toNat ≤ q.cap.toNat) : RingOk q.dropFront :=
  h.of_held_le rfl rfl rfl fun _ => hle

/-- A byte taken from a ring that is not empty (R126). -/
theorem ringOk_dropFront_of_nonempty {q : RingBuf} (h : RingOk q) (hi : q.init = true) (he : q.isEmpty = false) :
    RingOk q.dropFront := by
  refine ringOk_dropFront h ?_
  obtain ⟨-, -, -, -, hheld⟩ := h hi
  have hne : q.w ≠ q.r := by simpa [RingBuf.isEmpty] using he
  simp only [RingBuf.held, RingBuf.dropFront] at hheld ⊢
  bv_omega

/-! ## The bounded FIFO -/

/-- The length never exceeds the storage (R128). -/
theorem fifo_length_le (f : BoundedFifo) : f.length ≤ 1024 := by
  unfold BoundedFifo.length Config.bfN
  split
  · exact Nat.le_refl _
  · split <;> omega

/-- With `full` clear at least one byte is free (R128). -/
theorem fifo_length_lt {f : BoundedFifo} (h : f.full = false) : f.length < 1024 := by
  unfold BoundedFifo.length Config.bfN
  rw [h, if_neg (by decide)]
  split <;> omega

/-- With `full` clear the length is the distance of the cursors around the storage (R128). -/
theorem fifo_length_eq_mod {f : BoundedFifo} (h : f.full = false) :
    f.length = (f.wc.toNat + 1024 - f.rc.toNat) % 1024 := by
  unfold BoundedFifo.length Config.bfN
  rw [h, if_neg (by decide)]
  split <;> omega

theorem fifo_length_full {f : BoundedFifo} (h : f.full = true) : f.length = 1024 := by
  simp [BoundedFifo.length, h, Config.bfN]

/-- A FIFO is good when its `count` is the length and `full` is set with equal cursors only. -/
theorem fifoOk_of_count {f : BoundedFifo} {n : Nat} (hfull : f.full = true → f.wc = f.rc)
    (hcount : f.count = BitVec.ofNat 11 n) (hn : n ≤ 1024) (hlen : f.length = n) : FifoOk f := by
  refine ⟨hfull, ?_⟩
  rw [hcount, hlen, BitVec.toNat_ofNat]
  omega

/-- Bytes copied into the free space (R130): `full` comes with the last free byte. -/
theorem fifoOk_put {f : BoundedFifo} {bs : List Byte} (hf : f.full = false) (hm : f.length + bs.length ≤ 1024) :
    FifoOk (f.put bs) := by
  have hlen := fifo_length_eq_mod hf
  have hwc : (f.put bs).wc.toNat = (f.wc.toNat + bs.length) % 1024 := by
    simp [BoundedFifo.put, Config.bfN]
  have hfull : (f.put bs).full = (decide (0 < bs.length) && (f.put bs).wc == f.rc) := by
    simp [BoundedFifo.put, hf]
  have hrc : (f.put bs).rc = f.rc := rfl
  refine fifoOk_of_count (n := f.length + bs.length) (fun h => ?_) rfl hm ?_
  · rw [hfull] at h
    exact eq_of_beq (Bool.and_eq_true_iff.1 h).2
  · cases hc : (f.put bs).full with
    | false =>
      rw [fifo_length_eq_mod hc, hwc, hrc]
      have hsep : ¬ (0 < bs.length ∧ (f.put bs).wc.toNat = f.rc.toNat) := by
        rw [hc] at hfull
        simpa [BitVec.toNat_inj] using hfull.symm
      omega
    | true =>
      rw [hc] at hfull
      obtain ⟨hpos, heq⟩ := Bool.and_eq_true_iff.1 hfull.symm
      have heq : (f.put bs).wc.toNat = f.rc.toNat := congrArg BitVec.toNat (eq_of_beq heq)
      have hpos : 0 < bs.length := of_decide_eq_true hpos
      rw [fifo_length_full hc]
      omega

/-- Bytes taken out (R131): any byte taken clears `full`. -/
theorem fifoOk_dropFront {f : BoundedFifo} {m : Nat} (h : FifoOk f) (hm : m ≤ f.length) : FifoOk (f.dropFront m) := by
  have hle := fifo_length_le f
  have hrc : (f.dropFront m).rc.toNat = (f.rc.toNat + m) % 1024 := by simp [BoundedFifo.dropFront, Config.bfN]
  have hwc : (f.dropFront m).wc = f.wc := rfl
  have hfull : (f.dropFront m).full = (f.full && !decide (0 < m)) := rfl
  refine fifoOk_of_count (n := f.length - m) (fun hf => ?_) rfl (by omega) ?_
  · rw [hfull] at hf
    obtain ⟨hold, hzero⟩ : f.full = true ∧ m = 0 := by simpa using hf
    refine (h.1 hold).trans (BitVec.eq_of_toNat_eq ?_)
    rw [hrc]
    omega
  · cases hc : (f.dropFront m).full with
    | true =>
      rw [hc] at hfull
      obtain ⟨hold, hzero⟩ : f.full = true ∧ m = 0 := by simpa using hfull.symm
      rw [fifo_length_full hc, fifo_length_full hold, hzero]
    | false =>
      rw [fifo_length_eq_mod hc, hrc, hwc]
      cases hold : f.full with
      | false =>
        have := fifo_length_eq_mod hold
        omega
      | true =>
        have hpos : 0 < m := by simpa [hc, hold, Nat.pos_iff_ne_zero] using hfull
        have hlen := fifo_length_full hold
        have heq : f.wc.toNat = f.rc.toNat := congrArg BitVec.toNat (h.1 hold)
        omega

/-! ## The arbiter -/

/-- An index that `find` answers is one of the installed entries. -/
theorem Arbiter.find_lt {a : Arbiter} {sl : Slave} {j : Nat} (h : a.find sl = some j) : j < a.entryCount.toNat :=
  List.mem_range.1 (List.mem_of_find?_eq_some h)

theorem Arbiter.find_of_empty {a : Arbiter} (h : a.entryCount = 0) (sl : Slave) : a.find sl = none := by
  simp [Arbiter.find, h]

/-- Before `CONFIG` the memo is "none": no entry can be found. -/
theorem ArbOk.memo_none {a : Arbiter} (h : ArbOk a) (hc : a.configured = false) : a.lastIdx = 0xFF ∧ a.lastAddr = 0xFF := by
  obtain ⟨hempty, -, -, hmemo⟩ := h
  obtain hnone | ⟨sl, -, hfind, -⟩ := hmemo
  · exact hnone
  · rw [Arbiter.find_of_empty (hempty hc)] at hfind
    cases hfind

@[simp] theorem writePins_arb (e : Entry) (c d : BitVec 3) (s : State) : (writePins e c d s).arb = s.arb := rfl

@[simp] theorem remux_arb (j : Nat) (s : State) : (remux j s).arb = s.arb := by
  unfold remux
  dsimp only
  split
  · split <;> rfl
  · rfl

/-- The memo of a `Select` names the entry it found (R113 step 5). -/
theorem arbOk_remember {sl : Slave} {j : Nat} {s : State} (h : ArbOk s.arb) (hf : s.arb.find sl = some j) :
    ArbOk (remember sl j s).arb := by
  obtain ⟨hempty, hfull, hprep, -⟩ := h
  have hj : (BitVec.ofNat 8 j).toNat = j := by
    have := Arbiter.find_lt hf
    rw [BitVec.toNat_ofNat]
    omega
  refine ⟨hempty, hfull, hprep, .inr ⟨sl, rfl, ?_, ?_⟩⟩
  · exact hf.trans (congrArg some hj.symm)
  · exact congrArg (fun n => (s.arb.entry n).hash) hj.symm

/-- `Select` keeps the table and the memo consistent (R113). -/
theorem arbOk_arbSelect (sl : Slave) {s : State} (h : ArbOk s.arb) : ArbOk (arbSelect sl s).2.arb := by
  unfold arbSelect
  split
  · exact h
  · split
    · exact h
    · next j hf =>
      have hr : (remux j s).arb = s.arb := remux_arb j s
      exact arbOk_remember (hr ▸ h) (hr ▸ hf)

theorem writePins_wf (e : Entry) (c d : BitVec 3) {s : State} (h : Store.wf s.pmux = true) :
    Store.wf (writePins e c d s).pmux = true :=
  pinWrite_wf _ _ _ _ (pinWrite_wf _ _ _ _ h)

theorem remux_wf (j : Nat) {s : State} (h : Store.wf s.pmux = true) : Store.wf (remux j s).pmux = true := by
  unfold remux
  dsimp only
  split
  · split
    · exact writePins_wf _ _ _ (writePins_wf _ _ _ h)
    · exact writePins_wf _ _ _ h
  · exact h

/-- `Select` writes pins one at a time (R113, 20_memory.md R61). -/
theorem arbSelect_wf (sl : Slave) {s : State} (h : Store.wf s.pmux = true) : Store.wf (arbSelect sl s).2.pmux = true := by
  unfold arbSelect
  split
  · exact h
  · split
    · exact h
    · exact remux_wf _ h

theorem setEntry_entry (i : BitVec 3) (e : Entry) (s : State) (j : Nat) :
    (setEntry i e s).arb.entry j = if i.toNat = j then e else s.arb.entry j := by
  unfold Arbiter.entry setEntry
  have hi := i.isLt
  split
  · exact Vector.getElem_set (hi := hi) ..
  · rw [if_neg (by omega)]

/-- `PREP` before `CONFIG` fills an entry with the hash of its wiring (R111). -/
theorem arbOk_setEntry {i : BitVec 3} {slave : Slave} {x : Word} {s : State} (h : ArbOk s.arb)
    (hc : s.arb.configured = false) (hp : (auxPort x).toNat < 5) : ArbOk (setEntry i (preparedEntry slave x) s).arb := by
  obtain ⟨hempty, -, hprep, -⟩ := id h
  refine ⟨hempty, fun hconf => absurd (hc.symm.trans hconf) (by decide), fun j hj => ?_, .inl (h.memo_none hc)⟩
  rw [setEntry_entry] at hj ⊢
  split at hj
  · next heq => rw [if_pos heq]; exact ⟨rfl, hp⟩
  · next hne => rw [if_neg hne]; exact hprep j hj

/-- `CONFIG` installs 1 to 8 prepared entries and forgets the memo (R112). -/
theorem arbOk_installTable {n : BitVec 4} {s : State} (h : ArbOk s.arb) (hn : n ≠ 0) (hle : n.toNat ≤ 8)
    (hp : allPrepared s.arb n.toNat = true) : ArbOk (installTable n s).arb := by
  obtain ⟨-, -, hprep, -⟩ := h
  have hpos : n.toNat ≠ 0 := fun h0 => hn (BitVec.eq_of_toNat_eq h0)
  refine ⟨fun hc => (nomatch hc), fun _ => ⟨Nat.one_le_iff_ne_zero.2 hpos, hle, fun j hj => ?_⟩, hprep, .inl ⟨rfl, rfl⟩⟩
  exact List.all_eq_true.1 hp j (List.mem_range.2 hj)

end Sys2Proof.Machine
end

section
/-! PROOFS. What one operation of the block can change, said once: `Change` lists the kinds of change with the condition under
which the model makes each, `Effect` is any number of them, and each invariant of the claims is an induction over `Effect`. -/

namespace Sys2Proof.Machine

/-- The pieces of state that only some steps touch; an `Effect` says which of them it may. -/
inductive Touch where
  | cmd | aux | res | operands | recov | lockcnt | reset

/-- No piece of state that only some steps touch. -/
def Touch.nothing (_ : Touch) : Prop := False

/-- The datapath registers that hold a command's operands (R21) are the same. -/
structure SameOperands (d e : Datapath) : Prop where
  slv : e.slv = d.slv
  rega : e.rega = d.rega
  val : e.val = d.val
  amsk : e.amsk = d.amsk
  omsk : e.omsk = d.omsk

theorem SameOperands.refl (d : Datapath) : SameOperands d d := ⟨rfl, rfl, rfl, rfl, rfl⟩

theorem SameOperands.trans {d e f : Datapath} (h : SameOperands d e) (h' : SameOperands e f) : SameOperands d f :=
  ⟨h'.slv.trans h.slv, h'.rega.trans h.rega, h'.val.trans h.val, h'.amsk.trans h.amsk, h'.omsk.trans h.omsk⟩

/-- One change of the state, with what the model guarantees where it makes it; `W` says which pieces may be touched. -/
inductive Change (W : Touch → Prop) (s : State) : State → Prop
  /-- Registers and records of which no invariant speaks. -/
  | plain (d b : Byte) (x : Bool) (es : List BusEvent) (out : List Byte) (a : List Turn) (h : List HostAccess)
      (l : List HostRead) (n : Nat) :
      Change W s
        { s with
          div := d, dbuf := b, txie := x, busTrace := es, linkOut := out, agenda := a, host := h, hostLog := l, draws := n }
  /-- `CTRL`, `STAT` and `XFER`, by a write of the window or by BUS. -/
  | bus (c : Ctrl) (st : Stat) (x : Xfer) (hb : BusOk s → BusOk { s with ctrl := c, stat := st })
      (hx : XferOk s → XferOk { s with ctrl := c, xfer := x }) :
      Change W s { s with ctrl := c, stat := st, xfer := x }
  | cmd (w : Word) (h : W .cmd) : Change W s { s with cmd := w }
  | aux (w : Word) (h : W .aux) : Change W s { s with aux := w }
  | res (w : Word) (h : W .res) : Change W s { s with res := w }
  | recov (r : Bool) (h : r = true → s.esr.recov = true ∨ W .recov) : Change W s { s with esr := { s.esr with recov := r } }
  | lockcnt (n : Byte) (h : W .lockcnt) : Change W s { s with lockcnt := n }
  /-- The datapath: in `HALT` whatever the precise assertion puts back (60_exceptions.md R138). -/
  | datapath (d : Datapath) (h : s.seq ≠ .halt → W .operands ∨ SameOperands s.dp d) : Change W s { s with dp := d }
  | memory (m : Memory) (h : Memory.wf s.mem = true → Memory.wf m = true) : Change W s { s with mem := m }
  /-- The arbiter, and the pins that a `Select` writes. -/
  | wiring (a : Arbiter) (p : Store (BitVec 3)) (w : List PinWrite) (ha : ArbOk s.arb → ArbOk a)
      (hp : Store.wf s.pmux = true → Store.wf p = true) :
      Change W s { s with arb := a, pmux := p, pinTrace := w }
  /-- A ring; in `HALT` the reader may have outrun the writer (R118). -/
  | ring (k : Inst) (q : RingBuf) (hw : Memory.wf (s.rb.get k).st = true → Memory.wf q.st = true)
      (hq : s.seq ≠ .halt → RingOk (s.rb.get k) → RingOk q) : Change W s (s.setRing k q)
  | fifo (k : Inst) (f : BoundedFifo) (hw : Memory.wf (s.bf.get k).st = true → Memory.wf f.st = true)
      (hf : FifoOk (s.bf.get k) → FifoOk f) : Change W s (s.setBf k f)
  /-- SEQ moves between `IDLE` and micro-steps. -/
  | control (q : SeqState) (hs : s.seq ≠ .halt) (hq : q ≠ .halt) : Change W s { s with seq := q }
  | raise (c : FatalCode) (hs : s.seq ≠ .halt) : Change W s (s.raise c)
  | reset (h : W .reset) : Change W s (resetBlock s)

/-- Any number of changes. -/
def Effect (W : Touch → Prop) (s t : State) : Prop := Relation.ReflTransGen (Change W) s t

variable {W : Touch → Prop} {s t u : State}

theorem Effect.refl (s : State) : Effect W s s := Relation.ReflTransGen.refl

theorem Effect.trans (h : Effect W s t) (h' : Effect W t u) : Effect W s u := Relation.ReflTransGen.trans h h'

theorem Change.effect (h : Change W s t) : Effect W s t := Relation.ReflTransGen.single h

/-- What every change keeps, an effect keeps. -/
theorem Effect.keeps {P : State → Prop} (hP : ∀ {a b : State}, Change W a b → P a → P b) (h : Effect W s t) (hs : P s) :
    P t := by
  induction h with
  | refl => exact hs
  | tail _ hc ih => exact hP hc ih

/-- An effect may touch more. -/
theorem Change.mono {V : Touch → Prop} (hV : ∀ p, W p → V p) (h : Change W s t) : Change V s t := by
  cases h with
  | plain => exact .plain ..
  | bus c st x hb hx => exact .bus c st x hb hx
  | cmd w h => exact .cmd w (hV _ h)
  | aux w h => exact .aux w (hV _ h)
  | res w h => exact .res w (hV _ h)
  | recov r h => exact .recov r fun hr => (h hr).imp_right (hV _)
  | lockcnt n h => exact .lockcnt n (hV _ h)
  | datapath d h => exact .datapath d fun hs => (h hs).imp_left (hV _)
  | memory m h => exact .memory m h
  | wiring a p w ha hp => exact .wiring a p w ha hp
  | ring k q hw hq => exact .ring k q hw hq
  | fifo k f hw hf => exact .fifo k f hw hf
  | control q hs hq => exact .control q hs hq
  | raise c hs => exact .raise c hs
  | reset h => exact .reset (hV _ h)

theorem Effect.mono {V : Touch → Prop} (hV : ∀ p, W p → V p) (h : Effect W s t) : Effect V s t :=
  h.keeps (P := Effect V s) (fun hc hp => hp.trans (hc.mono hV).effect) (Effect.refl s)

/-! ## What an effect leaves alone -/

/-- No step changes the parameters of the block (log 6). -/
theorem Effect.params (h : Effect W s t) : t.params = s.params :=
  h.keeps (P := fun u => u.params = s.params) (fun hc hp => by cases hc <;> exact hp) rfl

/-- Only reset leaves `HALT` (60_exceptions.md R138, R139). -/
theorem Effect.seq_halt (hr : ¬ W .reset) (h : Effect W s t) (hs : s.seq = .halt) : t.seq = .halt :=
  h.keeps (P := fun u => u.seq = .halt)
    (fun hc hp => by
      cases hc with
      | control q hne => exact absurd hp hne
      | raise => rfl
      | reset hw => exact absurd hw hr
      | _ => exact hp)
    hs

theorem Effect.cmd_eq (hw : ¬ W .cmd) (hr : ¬ W .reset) (h : Effect W s t) : t.cmd = s.cmd :=
  h.keeps (P := fun u => u.cmd = s.cmd)
    (fun hc hp => by
      cases hc with
      | cmd _ h => exact absurd h hw
      | reset h => exact absurd h hr
      | _ => exact hp)
    rfl

theorem Effect.aux_eq (hw : ¬ W .aux) (hr : ¬ W .reset) (h : Effect W s t) : t.aux = s.aux :=
  h.keeps (P := fun u => u.aux = s.aux)
    (fun hc hp => by
      cases hc with
      | aux _ h => exact absurd h hw
      | reset h => exact absurd h hr
      | _ => exact hp)
    rfl

theorem Effect.res_eq (hw : ¬ W .res) (hr : ¬ W .reset) (h : Effect W s t) : t.res = s.res :=
  h.keeps (P := fun u => u.res = s.res)
    (fun hc hp => by
      cases hc with
      | res _ h => exact absurd h hw
      | reset h => exact absurd h hr
      | _ => exact hp)
    rfl

theorem Effect.lockcnt_eq (hw : ¬ W .lockcnt) (hr : ¬ W .reset) (h : Effect W s t) : t.lockcnt = s.lockcnt :=
  h.keeps (P := fun u => u.lockcnt = s.lockcnt)
    (fun hc hp => by
      cases hc with
      | lockcnt _ h => exact absurd h hw
      | reset h => exact absurd h hr
      | _ => exact hp)
    rfl

/-- `RECOV` is not set by an effect that may not touch it, nor by a reset (R29). -/
theorem Effect.recov_false (hw : ¬ W .recov) (h : Effect W s t) (hs : s.esr.recov = false) : t.esr.recov = false :=
  h.keeps (P := fun u => u.esr.recov = false)
    (fun hc hp => by
      cases hc with
      | recov r h =>
        refine Bool.eq_false_iff.2 fun hset => ?_
        obtain hold | htouch := h hset
        · exact absurd (hp.symm.trans hold) (by decide)
        · exact hw htouch
      | reset => rfl
      | _ => exact hp)
    hs

/-- The operands stay in the datapath while the block is not halted (R21, R138). -/
theorem Effect.sameOperands (hw : ¬ W .operands) (hr : ¬ W .reset) (h : Effect W s t) (ht : t.seq ≠ .halt) :
    SameOperands s.dp t.dp := by
  refine h.keeps (P := fun u => u.seq ≠ .halt → SameOperands s.dp u.dp) (fun {a b} hc hp hb => ?_)
    (fun _ => SameOperands.refl _) ht
  have ha : a.seq ≠ .halt := fun h0 => hb (Effect.seq_halt hr hc.effect h0)
  cases hc with
  | datapath d h =>
    obtain htouch | hsame := h ha
    · exact absurd htouch hw
    · exact (hp ha).trans hsame
  | reset h => exact absurd h hr
  | _ => exact hp ha

/-! ## What an effect keeps -/

/-- A property of both units of a FIFO, one of which has been replaced. -/
theorem both_set {α : Type} {P : α → Prop} {f : Instances α} {k : Inst} {x : α} (h : P f.rx ∧ P f.tx)
    (hx : P (f.get k) → P x) : P (f.set k x).rx ∧ P (f.set k x).tx := by
  obtain ⟨hrx, htx⟩ := h
  rcases inst_cases k with rfl | rfl
  · exact ⟨hx hrx, htx⟩
  · exact ⟨hrx, hx htx⟩

theorem Effect.memoriesOk (h : Effect W s t) (hs : MemoriesOk s) : MemoriesOk t :=
  h.keeps (P := MemoriesOk)
    (fun hc hp => by
      obtain ⟨hmem, hpmux, hrrx, hrtx, hbrx, hbtx⟩ := hp
      cases hc with
      | memory m h => exact ⟨h hmem, hpmux, hrrx, hrtx, hbrx, hbtx⟩
      | wiring a p w ha hw => exact ⟨hmem, hw hpmux, hrrx, hrtx, hbrx, hbtx⟩
      | ring k q hw hq =>
        obtain ⟨h0, h1⟩ := both_set (P := fun r : RingBuf => Memory.wf r.st = true) ⟨hrrx, hrtx⟩ hw
        exact ⟨hmem, hpmux, h0, h1, hbrx, hbtx⟩
      | fifo k f hw hf =>
        obtain ⟨h0, h1⟩ := both_set (P := fun r : BoundedFifo => Memory.wf r.st = true) ⟨hbrx, hbtx⟩ hw
        exact ⟨hmem, hpmux, hrrx, hrtx, h0, h1⟩
      | reset => exact ⟨rfl, hpmux, rfl, rfl, rfl, rfl⟩
      | _ => exact ⟨hmem, hpmux, hrrx, hrtx, hbrx, hbtx⟩)
    hs

theorem Effect.busOk (h : Effect W s t) (hs : BusOk s) : BusOk t :=
  h.keeps (P := BusOk)
    (fun hc hp => by
      cases hc with
      | bus c st x hb hx => exact hb hp
      | reset => exact fun _ => ⟨rfl, rfl⟩
      | _ => exact hp)
    hs

theorem Effect.xferOk (h : Effect W s t) (hs : XferOk s) : XferOk t :=
  h.keeps (P := XferOk)
    (fun hc hp => by
      cases hc with
      | bus c st x hb hx => exact hx hp
      | reset => exact fun hne => absurd rfl hne
      | _ => exact hp)
    hs

theorem Effect.arbOk (h : Effect W s t) (hs : ArbOk s.arb) : ArbOk t.arb :=
  h.keeps (P := fun u => ArbOk u.arb)
    (fun hc hp => by
      cases hc with
      | wiring a p w ha hw => exact ha hp
      | reset => exact arbOk_reset
      | _ => exact hp)
    hs

theorem Effect.maskOk (h : Effect W s t) (hs : MaskOk s) : MaskOk t :=
  h.keeps (P := MaskOk)
    (fun hc hp => by
      cases hc with
      | reset => rfl
      | _ => exact hp)
    hs

theorem Effect.fifosOk (h : Effect W s t) (hs : FifosOk s) : FifosOk t :=
  h.keeps (P := FifosOk)
    (fun hc hp => by
      cases hc with
      | fifo k f hw hf => exact both_set hp hf
      | reset => exact ⟨fifoOk_reset, fifoOk_reset⟩
      | _ => exact hp)
    hs

theorem Effect.ringsOk (h : Effect W s t) (hs : RingsOk s) : RingsOk t :=
  h.keeps (P := RingsOk)
    (fun hc hp => by
      cases hc with
      | ring k q hw hq => exact fun hne => both_set (hp hne) (hq hne)
      | control q hne => exact fun _ => hp hne
      | raise => exact fun hne => absurd rfl hne
      | reset => exact fun _ => ⟨ringOk_reset, ringOk_reset⟩
      | _ => exact hp)
    hs

/-- The codes of R137 are 1 to 8. -/
theorem fatalCode_range (c : FatalCode) : 1 ≤ c.code.toNat ∧ c.code.toNat ≤ 8 := by
  cases c <;> decide

theorem Effect.haltOk (h : Effect W s t) (hs : HaltOk s) : HaltOk t :=
  h.keeps (P := HaltOk)
    (fun {a _} hc hp => by
      cases hc with
      | control q hne hq =>
        obtain ⟨hiff, hclear, hset⟩ := hp
        exact ⟨iff_of_false hq fun hf => hne (hiff.2 hf), hclear, hset⟩
      | raise c => exact ⟨iff_of_true rfl rfl, fun hf => (nomatch hf), fun _ => fatalCode_range c⟩
      | reset => exact haltOk_resetWith a.params
      | _ => exact hp)
    hs

end Sys2Proof.Machine
end

section
/-! PROOFS. The shared operations as effects: the window, the arbiter's `Select`, the FIFOs, BUS and LINK. None of them moves
SEQ. -/

namespace Sys2Proof.Machine

/-- An operation that has the effect `W` and leaves SEQ where it is. -/
structure Work (W : Touch → Prop) (s t : State) : Prop where
  effect : Effect W s t
  seq : t.seq = s.seq

variable {W : Touch → Prop} {s t u : State}

theorem Work.refl (s : State) : Work W s s := ⟨Effect.refl s, rfl⟩

theorem Work.trans (h : Work W s t) (h' : Work W t u) : Work W s u := ⟨h.effect.trans h'.effect, h'.seq.trans h.seq⟩

theorem Change.work (h : Change W s t) (hq : t.seq = s.seq) : Work W s t := ⟨h.effect, hq⟩

theorem Work.setRes (v : Word) (hw : W .res) (h : Work W s t) : Work W s (t.setRes v) :=
  h.trans (Change.work (.res v hw) rfl)

/-! ## The window -/

theorem readData_work {b : Byte} (h : readData s = .ok (b, t)) : Work W s t := by
  unfold readData at h
  split at h
  · next hrx =>
    split at h
    · cases h
      exact Change.work (.bus s.ctrl s.stat (.rx s.ctrl.answer) id fun _ _ => hrx.1) rfl
    · cases h
  · cases h
    exact Work.refl s

theorem writeData_work {b : Byte} (h : writeData b s = .ok t) : Work W s t := by
  have hbuf : Work W s { s with dbuf := b } := Change.work (.plain s.div b ..) rfl
  unfold writeData at h
  split at h
  · next htx =>
    split at h
    · cases h
      exact hbuf.trans (Change.work (.bus s.ctrl s.stat (.tx b) id fun _ _ => htx.1) rfl)
    · cases h
  · cases h
    exact hbuf

/-- A read of the window draws bytes and may start a reception (R48, R53). -/
theorem memRead_work {off : Offset} {sz : Size} {v : Word} (h : memRead off sz s = .ok (v, t)) : Work W s t := by
  unfold memRead at h
  split at h
  case h_6 =>
    cases hd : readData s with
    | error f => rw [hd] at h; cases h
    | ok p => rw [hd] at h; cases h; exact readData_work hd
  case h_13 => cases h; exact Change.work (.plain ..) rfl
  case h_14 => cases h; exact Change.work (.plain ..) rfl
  all_goals cases h; exact Work.refl s

theorem setDirection_work (v : Byte) (s : State) : Work W s (setDirection v s) :=
  Change.work (.bus { s.ctrl with tx := v.getLsbD 4, txak := v.getLsbD 3 } s.stat s.xfer id id) rfl

/-- With no other master a bus that is busy has this block as its master (R57), so a START finds it free. -/
theorem startBus_work (hm : s.ctrl.mst = false) : Work W s (startBus s) := by
  unfold startBus
  split
  · next hbusy =>
    refine Change.work (.bus s.ctrl { s.stat with arbl := true, ifl := true } s.xfer (fun hok hmm => ?_) id) rfl
    have : s.stat.busy = s.ctrl.mst := (hok hmm).1
    rw [hbusy, hm] at this
    nomatch this
  · have hmaster : Work W s { s with ctrl := { s.ctrl with mst := true }, stat := { s.stat with busy := true } } :=
      Change.work (.bus _ _ s.xfer (fun hok hmm => ⟨rfl, (hok hmm).2⟩) fun _ _ => rfl) rfl
    exact hmaster.trans (Change.work (.plain ..) rfl)

/-- A STOP frees the bus and abandons a byte in flight (R50). -/
theorem stopBus_work (s : State) : Work W s (stopBus s) := by
  have hfree : Work W s
      { s with ctrl := { s.ctrl with mst := false }, stat := { s.stat with busy := false }, xfer := .none } :=
    Change.work (.bus _ _ _ (fun hok hmm => ⟨rfl, (hok hmm).2⟩) fun _ hne => absurd rfl hne) rfl
  exact hfree.trans (Change.work (.plain ..) rfl)

theorem writeCtrlBits_work (v : Byte) (s : State) : Work W s (writeCtrlBits v s) := by
  have hdir : Work W s (setDirection v s) := setDirection_work v s
  unfold writeCtrlBits
  split
  · next hstart => exact hdir.trans (startBus_work hstart.1)
  · split
    · exact hdir.trans (stopBus_work _)
    · exact hdir

theorem strobeRestart_work (h : strobeRestart s = .ok t) : Work W s t := by
  unfold strobeRestart at h
  split at h
  · cases h; exact Work.refl s
  · split at h
    · cases h
    · split at h
      · cases h
      · cases h; exact Change.work (.plain ..) rfl

theorem writeCtrl_work {v : Byte} (h : writeCtrl v s = .ok t) : Work W s t := by
  unfold writeCtrl at h
  split at h
  · exact (writeCtrlBits_work v s).trans (strobeRestart_work h)
  · cases h; exact writeCtrlBits_work v s

/-- A write of `STAT` clears flags (R49). -/
theorem written_work (v : Byte) (s : State) : Work W s { s with stat := s.stat.written v } :=
  Change.work (.bus s.ctrl (s.stat.written v) s.xfer
    (fun hok hmm => ⟨(hok hmm).1, Bool.and_eq_false_iff.2 (.inl (hok hmm).2)⟩) id) rfl

/-- A write of the window may touch `CMD` and `AUX` where it is a write of theirs (R44, R48). -/
theorem memWrite_work {off : Offset} {sz : Size} {v : Word} (hc : region s.params.variant off = .cmd → W .cmd)
    (ha : region s.params.variant off = .aux → W .aux) (h : memWrite off sz v s = .ok t) : Work W s t := by
  unfold memWrite at h
  split at h
  case h_3 => cases h; exact Change.work (.plain ..) rfl
  case h_4 => exact writeCtrl_work h
  case h_5 => cases h; exact written_work _ s
  case h_6 => exact writeData_work h
  case h_7 hr => cases h; exact Change.work (.cmd v (hc hr)) rfl
  case h_8 hr => cases h; exact Change.work (.aux v (ha hr)) rfl
  case h_10 =>
    cases h
    exact Change.work (.recov (s.esr.recov && !v.getLsbD 1) fun hr => .inl (Bool.and_eq_true_iff.1 hr).1) rfl
  case h_12 => cases h; exact Change.work (.plain ..) rfl
  case h_14 => cases h; exact Change.work (.memory _ (writeBytes_wf _ _ _)) rfl
  all_goals cases h; exact Work.refl s

theorem rmw_work {off : Offset} {sz : Size} {g : Word → Word} (hc : region s.params.variant off = .cmd → W .cmd)
    (ha : region s.params.variant off = .aux → W .aux) (h : rmw off sz g s = .ok t) : Work W s t := by
  unfold rmw at h
  split at h
  · next v r hread =>
    have hr : Work W s r := memRead_work hread
    have hp : r.params = s.params := hr.effect.params
    exact hr.trans (memWrite_work (hp ▸ hc) (hp ▸ ha) h)
  · cases h

/-- The module registers lie below `CMD` and `AUX` (R44). -/
theorem region_module (v : FifoVariant) {off : Offset} (h : off.toNat < 8) : region v off ≠ .cmd ∧ region v off ≠ .aux := by
  obtain h | h | h | h | h | h : off.toNat = 0 ∨ off.toNat = 1 ∨ off.toNat = 2 ∨ off.toNat = 3 ∨ off.toNat = 4 ∨
      (5 ≤ off.toNat ∧ off.toNat < 8) := by omega
  case inr.inr.inr.inr.inr =>
    have hr : region v off = .reservedByte := by
      unfold region
      dsimp only
      rw [if_neg (by omega), if_neg (by omega), if_neg (by omega), if_neg (by omega), if_neg (by omega), if_pos h.2]
    rw [hr]
    exact ⟨by decide, by decide⟩
  all_goals simp [region, h]

theorem memWrite_module_work {off : Offset} {sz : Size} {v : Word} (hoff : off.toNat < 8)
    (h : memWrite off sz v s = .ok t) : Work W s t :=
  memWrite_work (fun hr => absurd hr (region_module _ hoff).1) (fun hr => absurd hr (region_module _ hoff).2) h

theorem rmw_module_work {off : Offset} {sz : Size} {g : Word → Word} (hoff : off.toNat < 8) (h : rmw off sz g s = .ok t) :
    Work W s t :=
  rmw_work (fun hr => absurd hr (region_module _ hoff).1) (fun hr => absurd hr (region_module _ hoff).2) h

/-! ## The arbiter -/

theorem arbSelect_work (sl : Slave) (s : State) : Work W s (arbSelect sl s).2 := by
  have harb : ArbOk s.arb → ArbOk (arbSelect sl s).2.arb := arbOk_arbSelect sl
  have hpmux : Store.wf s.pmux = true → Store.wf (arbSelect sl s).2.pmux = true := arbSelect_wf sl
  obtain ⟨l, i, g, p, w, hframe⟩ := arbSelect_frame sl s
  rw [hframe] at harb hpmux ⊢
  exact Change.work (.wiring _ p _ harb hpmux) rfl

theorem selectInto_work (hw : W .res) (sl : Slave) (s : State) : Work W s (selectInto sl s) :=
  (arbSelect_work sl s).setRes _ hw

theorem installTable_work {n : BitVec 4} (hn : n ≠ 0) (hle : n.toNat ≤ 8) (hp : allPrepared s.arb n.toNat = true) :
    Work W s (installTable n s) :=
  Change.work (.wiring _ s.pmux s.pinTrace (fun h => arbOk_installTable h hn hle hp) id) rfl

theorem setEntry_work {i : BitVec 3} {slave : Slave} {x : Word} (hc : s.arb.configured = false) (hp : (auxPort x).toNat < 5) :
    Work W s (setEntry i (preparedEntry slave x) s) :=
  Change.work (.wiring _ s.pmux s.pinTrace (fun h => arbOk_setEntry h hc hp) id) rfl

/-! ## The FIFOs -/

theorem draw_work (n : Nat) (s : State) : Work W s { s with draws := n } := Change.work (.plain ..) rfl

theorem ringPut_work {k : Inst} {b : Byte} (hf : (s.rb.get k).isFull = false) :
    Work W s (s.setRing k ((s.rb.get k).put b)) :=
  Change.work (.ring k _ (ring_put_wf _ b) fun _ h => ringOk_put b h hf) rfl

theorem ringInitWith_work {k : Inst} {c : Word} (hc : capacityOk c = true) :
    Work W s (s.setRing k ((s.rb.get k).initWith c)) :=
  Change.work (.ring k _ id fun _ _ => ringOk_initWith _ hc) rfl

/-- The read index advances: to a good ring, or in `HALT`. -/
theorem ringAdvance_work {k : Inst} (h : s.seq ≠ .halt → RingOk (s.rb.get k) → RingOk (s.rb.get k).dropFront) :
    Work W s (ringAdvance k (s.rb.get k) s) :=
  (draw_work (s.draws + 1) s).trans (Change.work (.ring k _ id h) rfl)

theorem fifoPut_work {k : Inst} {bs : List Byte} (hf : (s.bf.get k).full = false)
    (hm : (s.bf.get k).length + bs.length ≤ 1024) : Work W s (s.setBf k ((s.bf.get k).put bs)) :=
  Change.work (.fifo k _ (fifo_put_wf _ bs) fun _ => fifoOk_put hf hm) rfl

theorem fifoDropFront_work {k : Inst} {m : Nat} (hm : m ≤ (s.bf.get k).length) :
    Work W s (s.setBf k ((s.bf.get k).dropFront m)) :=
  Change.work (.fifo k _ id fun h => fifoOk_dropFront h hm) rfl

/-- The masked critical section leaves no trace of the mask: the body neither reads nor writes it (R129). -/
theorem critical_enqueue (k : Inst) (n : Nat) (s : State) : critical (enqueue k n) s = enqueue k n s := by
  unfold critical enqueue
  dsimp only
  split <;> rfl

theorem critical_dequeue (k : Inst) (n : Nat) (s : State) : critical (dequeue k n) s = dequeue k n s := by
  unfold critical dequeue
  dsimp only
  split <;> rfl

theorem critical_fifoReceive (b : Byte) (s : State) : critical (fifoReceive b) s = fifoReceive b s := by
  unfold critical fifoReceive
  dsimp only
  split <;> rfl

theorem critical_fifoTransmit (s : State) : critical fifoTransmit s = fifoTransmit s := by
  unfold critical fifoTransmit
  dsimp only
  split <;> rfl

theorem enqueue_work (hw : W .res) (k : Inst) (n : Nat) (s : State) : Work W s (enqueue k n s) := by
  unfold enqueue
  dsimp only
  split
  · exact (Work.refl s).setRes _ hw
  · next hf =>
    have hf : (s.bf.get k).full = false := Bool.eq_false_iff.2 hf
    have hm : (s.bf.get k).length + (xbufBytes (enqueueCount (s.bf.get k) n) s).length ≤ 1024 := by
      have := fifo_length_lt hf
      simp only [xbufBytes, readBytes_length, enqueueCount, hf, Bool.false_eq_true, if_false, Config.bfN]
      omega
    have hdraw : Work W s { s with draws := s.draws + enqueueCount (s.bf.get k) n } := draw_work _ s
    exact (hdraw.trans (fifoPut_work (s := { s with draws := _ }) hf hm)).setRes _ hw

theorem dequeue_work (hw : W .res) (k : Inst) (n : Nat) (s : State) : Work W s (dequeue k n s) := by
  unfold dequeue
  dsimp only
  split
  · exact (Work.refl s).setRes _ hw
  · have hm : dequeueCount (s.bf.get k) n ≤ (s.bf.get k).length := Nat.min_le_right _ _
    have hmem : Work W s
        { s with mem := writeBytes s.mem Config.xbufBase ((s.bf.get k).front (dequeueCount (s.bf.get k) n) s.draws) } :=
      Change.work (.memory _ (writeBytes_wf _ _ _)) rfl
    exact ((hmem.trans (draw_work _ _)).trans (fifoDropFront_work (s := { s with mem := _, draws := _ }) hm)).setRes _ hw

/-! ## BUS -/

/-- A byte that completes leaves `BUSY`, `ARBL` and the mode as they are (R54, R55). -/
theorem completed_work {st : Stat} (hbusy : st.busy = s.stat.busy) (harbl : st.arbl = s.stat.arbl) :
    Work W s { s with stat := st, xfer := .none } :=
  Change.work (.bus s.ctrl st .none (fun hok hmm => ⟨hbusy.trans (hok hmm).1, harbl.trans (hok hmm).2⟩)
    fun _ hne => absurd rfl hne) rfl

theorem busTx_work (a : Ack) (s : State) : Work W s (busTx a s) := by
  unfold busTx
  split
  · exact (completed_work (st := { s.stat with rxak := ackRxak a, ifl := true }) rfl rfl).trans
      (Change.work (.plain ..) rfl)
  · exact Work.refl s
  · exact Work.refl s

theorem busRx_work (d : Byte) (s : State) : Work W s (busRx d s) := by
  unfold busRx
  split
  · exact (completed_work (st := { s.stat with ifl := true }) rfl rfl).trans (Change.work (.plain ..) rfl)
  · exact Work.refl s
  · exact Work.refl s

/-- Other masters step only where there are some (R57, R58). -/
theorem busBusy_work (taken : Bool) (s : State) : Work W s (busBusy taken s) := by
  unfold busBusy
  split
  · next h => exact Change.work (.bus s.ctrl _ s.xfer (fun _ hmm => absurd (h.1.symm.trans hmm) (by decide)) id) rfl
  · exact Work.refl s

theorem busArbLost_work (s : State) : Work W s (busArbLost s) := by
  unfold busArbLost
  split
  · next h =>
    exact Change.work (.bus _ _ _ (fun _ hmm => absurd (h.1.symm.trans hmm) (by decide)) fun _ hne => absurd rfl hne) rfl
  · exact Work.refl s

/-! ## LINK -/

theorem ringReceive_work (b : Byte) (s : State) : Work W s (ringReceive b s) := by
  unfold ringReceive
  split
  · exact Work.refl s
  · split
    · exact Work.refl s
    · next hf => exact ringPut_work (k := 0) (Bool.eq_false_iff.2 hf)

theorem ringTransmit_work (s : State) : Work W s (ringTransmit s) := by
  unfold ringTransmit
  split
  · exact Change.work (.plain ..) rfl
  · next h =>
    obtain ⟨hinit, hne⟩ := not_or.1 h
    have hadv : Work W s (ringAdvance 1 (s.rb.get 1) s) :=
      ringAdvance_work fun _ hok =>
        ringOk_dropFront_of_nonempty hok (Bool.not_eq_false _ ▸ hinit) (Bool.eq_false_iff.2 hne)
    exact hadv.trans (Change.work (.plain ..) rfl)

theorem fifoReceive_work (b : Byte) (s : State) : Work W s (fifoReceive b s) := by
  unfold fifoReceive
  split
  · exact Work.refl s
  · next hf =>
    have hf : s.bf.rx.full = false := Bool.eq_false_iff.2 hf
    exact fifoPut_work (k := 0) hf (fifo_length_lt hf)

theorem fifoTransmit_work (s : State) : Work W s (fifoTransmit s) := by
  unfold fifoTransmit
  split
  · exact Change.work (.plain ..) rfl
  · next hne =>
    have hdrop : Work W { s with draws := s.draws + 1 } _ := fifoDropFront_work (k := 1) (Nat.one_le_iff_ne_zero.2 hne)
    exact ((draw_work _ s).trans hdrop).trans (Change.work (.plain ..) rfl)

theorem linkRx_work (b : Byte) (s : State) : Work W s (linkRx b s) := by
  unfold linkRx
  split
  · split
    · exact ringReceive_work b s
    · rw [critical_fifoReceive]
      exact fifoReceive_work b s
  · exact Work.refl s

theorem linkTx_work (s : State) : Work W s (linkTx s) := by
  unfold linkTx
  split
  · split
    · exact ringTransmit_work s
    · rw [critical_fifoTransmit]
      exact fifoTransmit_work s
  · exact Work.refl s

end Sys2Proof.Machine
end

section
/-! PROOFS. What a micro-step can do: its effect, and where it leaves SEQ. One lemma per micro-step of the model, then the
micro-programs from their building blocks. -/

namespace Sys2Proof.Machine

/-- No command runs: SEQ is at `IDLE` or in `HALT`. -/
def AtRest (t : State) : Prop := t.seq = .idle ∨ t.seq = .halt

/-- A micro-step that ends its command. -/
structure Final (W : Touch → Prop) (s t : State) : Prop where
  effect : Effect W s t
  rest : AtRest t

/-- A micro-step of a command of `n` micro-steps: it ends the command, holds, goes on to the next micro-step or jumps. -/
structure Micro (W : Touch → Prop) (n : Nat) (s t : State) : Prop where
  effect : Effect W s t
  moves : AtRest t ∨ t.seq = s.seq ∨ t.seq = s.seq.next ∨ ∃ j : BitVec 6, j.toNat < n ∧ t.seq = s.seq.at j

variable {W : Touch → Prop} {n : Nat} {s u : State}

theorem Final.micro {t : State} (h : Final W s t) : Micro W n s t := ⟨h.effect, .inl h.rest⟩

theorem seq_next_ne_halt {q : SeqState} (h : q ≠ .halt) : q.next ≠ .halt := by
  cases q with
  | halt => exact absurd rfl h
  | idle => exact h
  | run op k => exact SeqState.noConfusion

theorem seq_at_ne_halt {q : SeqState} (j : BitVec 6) (h : q ≠ .halt) : q.at j ≠ .halt := by
  cases q with
  | halt => exact absurd rfl h
  | idle => exact h
  | run op k => exact SeqState.noConfusion

theorem Work.hold (h : Work W s u) : Micro W n s u := ⟨h.effect, .inr (.inl h.seq)⟩

theorem Work.advance (h : Work W s u) (hs : s.seq ≠ .halt) : Micro W n s u.advance := by
  have hu : u.seq ≠ .halt := h.seq ▸ hs
  exact ⟨h.effect.trans (Change.control _ hu (seq_next_ne_halt hu)).effect,
    .inr (.inr (.inl (congrArg SeqState.next h.seq)))⟩

theorem Work.goto {j : BitVec 6} (h : Work W s u) (hs : s.seq ≠ .halt) (hj : j.toNat < n) : Micro W n s (u.goto j) := by
  have hu : u.seq ≠ .halt := h.seq ▸ hs
  exact ⟨h.effect.trans (Change.control _ hu (seq_at_ne_halt j hu)).effect,
    .inr (.inr (.inr ⟨j, hj, congrArg (SeqState.at · j) h.seq⟩))⟩

theorem Work.finish (h : Work W s u) (hs : s.seq ≠ .halt) : Final W s u.finish :=
  ⟨h.effect.trans (Change.control _ (h.seq ▸ hs) SeqState.noConfusion).effect, .inl rfl⟩

theorem Work.raise (c : FatalCode) (h : Work W s u) (hs : s.seq ≠ .halt) : Final W s (u.raise c) :=
  ⟨h.effect.trans (Change.raise c (h.seq ▸ hs)).effect, .inr rfl⟩

theorem raise_final (c : FatalCode) (hs : s.seq ≠ .halt) : Final W s (s.raise c) := (Work.refl s).raise c hs

/-- The micro-operation `m` of a command of `n` micro-steps does what a micro-step may. -/
def Performs (W : Touch → Prop) (n : Nat) (m : MicroOp) : Prop :=
  ∀ s t, s.seq ≠ .halt → m s = .ok t → Micro W n s t

/-- The micro-operation `m` ends its command. -/
def Finishes (W : Touch → Prop) (m : MicroOp) : Prop := ∀ s t, s.seq ≠ .halt → m s = .ok t → Final W s t

theorem performs_ok {g : State → State} (hg : ∀ s, s.seq ≠ .halt → Micro W n s (g s)) : Performs W n fun s => .ok (g s) :=
  fun s _ hs h => Except.ok.inj h ▸ hg s hs

theorem finishes_ok {g : State → State} (hg : ∀ s, s.seq ≠ .halt → Final W s (g s)) : Finishes W fun s => .ok (g s) :=
  fun s _ hs h => Except.ok.inj h ▸ hg s hs

theorem performs_thenAdvance {f : State → Except Fault State} (hf : ∀ s u, f s = .ok u → Work W s u) :
    Performs W n fun s => thenAdvance (f s) := by
  intro s t hs h
  dsimp only at h
  cases hu : f s with
  | error e => rw [hu] at h; cases h
  | ok u => rw [hu] at h; cases h; exact (hf s u hu).advance hs

/-! ## The register-access commands -/

theorem commandAccessOk_ne_cmd {v : FifoVariant} {off : Offset} {sz : Size} {b : Bool}
    (h : commandAccessOk v off sz b = true) : region v off ≠ .cmd := by
  intro hr
  simp [commandAccessOk, hr] at h

/-- A checked access ends its command, by the access or by `BAD_ACCESS` (40_register_access.md R80); it never reaches
`CMD`. -/
theorem checkedAccess_finishes {off : Offset} {sz : Size} {b : Bool} {act : State → Except Fault State}
    (hact : ∀ s u, region s.params.variant off ≠ .cmd → act s = .ok u → Work W s u) :
    Finishes W (checkedAccess off sz b act) := by
  intro s t hs h
  unfold checkedAccess at h
  split at h
  · next hok =>
    cases hu : act s with
    | error e => rw [hu] at h; cases h
    | ok u => rw [hu] at h; cases h; exact (hact s u (commandAccessOk_ne_cmd hok) hu).finish hs
  · cases h
    exact raise_final _ hs

theorem checkedLoad_finishes (hw : W .res) (off : Offset) (sz : Size) (b : Bool) (g : Word → Word) :
    Finishes W (checkedAccess off sz b (loadInto off sz g)) := by
  refine checkedAccess_finishes fun s u _ h => ?_
  unfold loadInto at h
  split at h
  · next hread => cases h; exact (memRead_work hread).setRes _ hw
  · cases h

theorem checkedWrite_finishes (hw : W .aux) (off : Offset) (sz : Size) (b : Bool) (v : State → Word) :
    Finishes W (checkedAccess off sz b fun t => memWrite off sz (v t) t) :=
  checkedAccess_finishes fun _ _ hne h => memWrite_work (fun hr => absurd hr hne) (fun _ => hw) h

/-- `AAND`, `AOR`, `AXOR` and `BFI` are read-modify-writes (R83 to R86). -/
theorem checkedRmw_finishes (hw : W .aux) (off : Offset) (sz : Size) (b : Bool) (g : State → Word → Word) :
    Finishes W (checkedAccess off sz b fun t => rmw off sz (g t) t) :=
  checkedAccess_finishes fun _ _ hne h => rmw_work (fun hr => absurd hr hne) (fun _ => hw) h

/-! ## The engine's micro-steps -/

theorem mDone_finishes : Finishes W mDone := finishes_ok fun s hs => (Work.refl s).finish hs

theorem mWaitBusy_performs : Performs W n mWaitBusy :=
  performs_ok fun s hs => by
    split
    · exact (Work.refl s).hold
    · exact (Work.refl s).advance hs

theorem mWaitIf_performs : Performs W n mWaitIf :=
  performs_ok fun s hs => by
    split
    · exact (Work.refl s).advance hs
    · exact (Work.refl s).hold

theorem mClearIf_performs : Performs W n mClearIf := performs_thenAdvance fun _ _ h => rmw_module_work (by decide) h

theorem mStart_performs : Performs W n mStart := performs_thenAdvance fun _ _ h => rmw_module_work (by decide) h

theorem mStop_performs : Performs W n mStop := performs_thenAdvance fun _ _ h => rmw_module_work (by decide) h

theorem mNoAck_performs : Performs W n mNoAck := performs_thenAdvance fun _ _ h => rmw_module_work (by decide) h

theorem mRxMode_performs (ack : BitVec 1) : Performs W n (mRxMode ack) :=
  performs_thenAdvance fun _ _ h => rmw_module_work (by decide) h

theorem mStoreData_performs (b : State → Byte) : Performs W n (mStoreData b) :=
  performs_thenAdvance fun _ _ h => memWrite_module_work (by decide) h

theorem mLoadData_performs {f : Byte → State → State} (hf : ∀ b s, Work W s (f b s)) : Performs W n (mLoadData f) := by
  intro s t hs h
  unfold mLoadData at h
  split at h
  · next hread => cases h; exact ((memRead_work hread).trans (hf _ _)).advance hs
  · cases h

/-- A change of the datapath that leaves the operands (R21). -/
theorem datapath_work (d : Datapath) (h : SameOperands s.dp d) : Work W s { s with dp := d } :=
  Change.work (.datapath d fun _ => .inr h) rfl

theorem mSaveDiv_performs : Performs W n mSaveDiv := by
  intro s t hs h
  rw [mSaveDiv_eq] at h
  cases h
  exact (datapath_work { s.dp with saveDiv := s.div } ⟨rfl, rfl, rfl, rfl, rfl⟩).advance hs

theorem mUnityDiv_performs : Performs W n mUnityDiv := performs_thenAdvance fun _ _ h => rmw_module_work (by decide) h

theorem mStrobe_performs : Performs W n mStrobe := performs_thenAdvance fun _ _ h => rmw_module_work (by decide) h

theorem mRestoreDiv_performs : Performs W n mRestoreDiv :=
  performs_thenAdvance fun _ _ h => memWrite_module_work (by decide) h

theorem setRecov_work (hw : W .recov) (s : State) : Work W s (setRecov s) :=
  Change.work (.recov true fun _ => .inr hw) rfl

theorem mZeroCount_performs (hw : W .lockcnt) : Performs W n mZeroCount :=
  performs_ok fun _ hs => Work.advance (Change.work (.lockcnt 0 hw) rfl) hs

theorem mPoll_performs (hn : 5 < n) : Performs W n mPoll :=
  performs_ok fun s hs => by
    split
    · exact (Work.refl s).goto hs hn
    · exact (Work.refl s).advance hs

theorem mCount_performs (hw : W .lockcnt) (hn : 1 < n) : Performs W n mCount := by
  refine performs_ok fun s hs => ?_
  have hcount : Work W s { s with lockcnt := s.lockcnt + 1 } := Change.work (.lockcnt _ hw) rfl
  split
  · exact hcount.goto hs hn
  · exact hcount.advance hs

theorem mForcedStop_performs (hw : W .recov) : Performs W n mForcedStop := by
  intro s t hs h
  unfold mForcedStop at h
  split at h
  · next u hu =>
    cases h
    have hstop : Work W s u := rmw_module_work (by decide) hu
    exact (hstop.trans (setRecov_work hw u)).advance hs
  · cases h

/-! ## The transactions' micro-steps -/

theorem mSelect_performs : Performs W n mSelect := by
  intro s t hs h
  obtain ⟨rfl, -⟩ := mSelect_ok h
  exact (arbSelect_work _ s).advance hs

theorem storeBurstByte_work (b : Byte) (s : State) : Work W s (storeBurstByte b s) := by
  have hmem : Work W s { s with mem := Store.write s.mem (Config.rbufBase + s.dp.idx.toNat) b } :=
    Change.work (.memory _ (write_wf _ _ _)) rfl
  exact hmem.trans (datapath_work { s.dp with idx := s.dp.idx + 1 } ⟨rfl, rfl, rfl, rfl, rfl⟩)

theorem saveTmp_work (b : Byte) (s : State) : Work W s (saveTmp b s) :=
  datapath_work { s.dp with tmp := b } ⟨rfl, rfl, rfl, rfl, rfl⟩

/-- The zero-length assertion puts the operands back in `HALT` only (60_exceptions.md R138). -/
theorem mCheckCount_performs (c : Byte) : Performs W n (mCheckCount c) := by
  refine performs_ok fun s hs => ?_
  split
  · have hrestore : Effect W (s.raise .zeroLengthRead) ((restoreTarget s).raise .zeroLengthRead) :=
      (Change.datapath _ fun hne => absurd rfl hne).effect
    exact ⟨(raise_final _ hs).effect.trans hrestore, .inl (.inr rfl)⟩
  · exact (Work.refl s).advance hs

theorem mOneByte_performs (c : Byte) (hn : 35 < n) : Performs W n (mOneByte c) :=
  performs_ok fun s hs => by
    split
    · exact (Work.refl s).goto hs hn
    · exact (Work.refl s).advance hs

theorem mBurstInit_performs (c : Byte) : Performs W n (mBurstInit c) :=
  performs_ok fun s hs =>
    (datapath_work { s.dp with idx := 0, cnt := c - 2 } ⟨rfl, rfl, rfl, rfl, rfl⟩).advance hs

theorem mBurstTest_performs (hn : 28 < n) : Performs W n mBurstTest :=
  performs_ok fun s hs => by
    split
    · exact (Work.refl s).goto hs hn
    · exact (Work.refl s).advance hs

theorem mBurstNext_performs (hn : 23 < n) : Performs W n mBurstNext :=
  performs_ok fun s hs => (datapath_work { s.dp with cnt := s.dp.cnt - 1 } ⟨rfl, rfl, rfl, rfl, rfl⟩).goto hs hn

theorem mBurstDone_finishes (hw : W .res) (c : Byte) : Finishes W (mBurstDone c) :=
  finishes_ok fun s hs => ((Work.refl s).setRes _ hw).finish hs

theorem mOneByteDone_finishes (hw : W .res) : Finishes W mOneByteDone :=
  finishes_ok fun s hs => by
    have hmem : Work W s { s with mem := Store.write s.mem Config.rbufBase (s.res.setWidth 8) } :=
      Change.work (.memory _ (write_wf _ _ _)) rfl
    exact (hmem.setRes 1 hw).finish hs

theorem mModify_performs : Performs W n mModify :=
  performs_ok fun s hs =>
    (datapath_work { s.dp with new := (s.dp.tmp &&& s.dp.amsk) ||| s.dp.omsk } ⟨rfl, rfl, rfl, rfl, rfl⟩).advance hs

theorem mModifyDone_finishes (hw : W .res) : Finishes W mModifyDone :=
  finishes_ok fun s hs => ((Work.refl s).setRes _ hw).finish hs

/-! ## The arbiter's commands -/

theorem prepareEntry_final (index : BitVec 3) (slave : Slave) (hs : s.seq ≠ .halt) :
    Final W s (prepareEntry index slave s) := by
  unfold prepareEntry
  split
  · exact raise_final _ hs
  · split
    · exact raise_final _ hs
    · next hport =>
      split
      · exact raise_final _ hs
      · next hconf => exact (setEntry_work (Bool.eq_false_iff.2 hconf) (Nat.not_le.1 hport)).finish hs

theorem configureTable_final (hw : W .res) (count : BitVec 4) (hs : s.seq ≠ .halt) :
    Final W s (configureTable count s) := by
  unfold configureTable
  split
  · exact raise_final _ hs
  · split
    · exact raise_final _ hs
    · next hcount =>
      obtain ⟨hzero, hle⟩ := not_or.1 hcount
      split
      · exact raise_final _ hs
      · next hprep =>
        have hinst : Work W s (installTable count s) :=
          installTable_work hzero (Nat.not_lt.1 hle) (Bool.eq_true_of_not_eq_false hprep)
        exact (hinst.trans (selectInto_work hw _ _)).finish hs

/-! ## The ring commands -/

/-- A command on an uninitialised ring halts (60_exceptions.md R137 code 7). -/
theorem onRing_final {k : Inst} {act : RingBuf → State → State}
    (hact : Final W s (act (s.rb.get k) s)) (hs : s.seq ≠ .halt) : Final W s (onRing k act s) := by
  unfold onRing
  dsimp only
  split
  · exact hact
  · exact raise_final _ hs

theorem ringInit_final (hw : W .res) (k : Inst) (hs : s.seq ≠ .halt) : Final W s (ringInit k s) := by
  unfold ringInit
  split
  · next hok => exact ((ringInitWith_work hok).setRes 0 hw).finish hs
  · exact ((Work.refl s).setRes 1 hw).finish hs

theorem ringPush_final (k : Inst) (b : Byte) (hs : s.seq ≠ .halt) : Final W s (ringPush k b (s.rb.get k) s) := by
  unfold ringPush
  split
  · exact raise_final _ hs
  · next hf => exact (ringPut_work (Bool.eq_false_iff.2 hf)).finish hs

/-- A pop leaves a ring that holds no more than its capacity, or halts (R118). -/
theorem ringPop_final (hw : W .res) (k : Inst) (hs : s.seq ≠ .halt) : Final W s (ringPop k (s.rb.get k) s) := by
  unfold ringPop
  split
  · have hadv : Work W (s.raise .ringReaderOutran) ((ringAdvance k (s.rb.get k) s).raise .ringReaderOutran) :=
      ringAdvance_work (s := s.raise .ringReaderOutran) fun hne => absurd rfl hne
    exact ⟨(raise_final _ hs).effect.trans hadv.effect, .inr rfl⟩
  · next hle =>
    have hadv : Work W s (ringAdvance k (s.rb.get k) s) :=
      ringAdvance_work fun _ hok => ringOk_dropFront hok (Nat.not_lt.1 hle)
    exact (hadv.setRes _ hw).finish hs

theorem ringQuery_final (hw : W .res) (g : RingBuf → Word) (q : RingBuf) (hs : s.seq ≠ .halt) :
    Final W s (ringQuery g q s) :=
  ((Work.refl s).setRes _ hw).finish hs

theorem mRingCheck_performs (k : Inst) : Performs W n (mRingCheck k) := by
  refine performs_ok fun s hs => ?_
  unfold onRing
  dsimp only
  split
  · exact (Work.refl s).advance hs
  · exact (raise_final _ hs).micro

theorem mRingWait_performs (k : Inst) (c : RingBuf → Bool) : Performs W n (mRingWait k c) :=
  performs_ok fun s hs => by
    split
    · exact (Work.refl s).advance hs
    · exact (Work.refl s).hold

theorem mRingDone_finishes : Finishes W mRingDone := finishes_ok fun s hs => (Work.refl s).finish hs

/-! ## Micro-programs -/

/-- A stretch of a micro-program. -/
def AllPerform (W : Touch → Prop) (n : Nat) (ms : List MicroOp) : Prop := ∀ m ∈ ms, Performs W n m

theorem AllPerform.nil : AllPerform W n [] := fun _ h => nomatch h

theorem AllPerform.cons {m : MicroOp} {ms : List MicroOp} (hm : Performs W n m) (hms : AllPerform W n ms) :
    AllPerform W n (m :: ms) :=
  List.forall_mem_cons.2 ⟨hm, hms⟩

theorem AllPerform.one {m : MicroOp} (hm : Performs W n m) : AllPerform W n [m] := AllPerform.cons hm AllPerform.nil

theorem AllPerform.append {ms ms' : List MicroOp} (h : AllPerform W n ms) (h' : AllPerform W n ms') :
    AllPerform W n (ms ++ ms') :=
  List.forall_mem_append.2 ⟨h, h'⟩

/-- A micro-program: only its last micro-step need end the command. -/
inductive Program (W : Touch → Prop) (n : Nat) : List MicroOp → Prop
  | last {m : MicroOp} (hm : Finishes W m) : Program W n [m]
  | cons {m : MicroOp} {ms : List MicroOp} (hm : Performs W n m) (hms : Program W n ms) : Program W n (m :: ms)

theorem Program.append {ms ms' : List MicroOp} (h : AllPerform W n ms) (h' : Program W n ms') :
    Program W n (ms ++ ms') := by
  induction ms with
  | nil => exact h'
  | cons m ms ih =>
    obtain ⟨hm, hms⟩ := List.forall_mem_cons.1 h
    exact .cons hm (ih hms)

/-- The micro-step at an index ends the command, or it is not the last. -/
theorem Program.get {ms : List MicroOp} {k : Nat} {m : MicroOp} (h : Program W n ms) (hk : ms[k]? = some m) :
    (k + 1 < ms.length ∧ Performs W n m) ∨ Finishes W m := by
  induction h generalizing k with
  | last hm =>
    cases k with
    | zero => cases hk; exact .inr hm
    | succ k => cases hk
  | cons hm hms ih =>
    cases k with
    | zero =>
      cases hk
      refine .inl ⟨?_, hm⟩
      cases hms <;> simp
    | succ k =>
      obtain ⟨hlt, hp⟩ | hf := ih hk
      · exact .inl ⟨Nat.succ_lt_succ hlt, hp⟩
      · exact .inr hf

theorem sendByte_all (b : State → Byte) : AllPerform W n (sendByte b) :=
  .cons (mStoreData_performs b) (.cons mWaitIf_performs (.one mClearIf_performs))

theorem driveClock_all : AllPerform W n driveClock :=
  .cons (mLoadData_performs fun _ s => Work.refl s) (.cons mWaitIf_performs (.one mClearIf_performs))

theorem repeatedStart_all : AllPerform W n repeatedStart :=
  .cons mSaveDiv_performs (.cons mUnityDiv_performs (.cons mStrobe_performs (.one mRestoreDiv_performs)))

theorem addressWrite_all : AllPerform W n addressWrite := by
  have hbegin : AllPerform W n [mSelect, mWaitBusy, mStart] :=
    .cons mSelect_performs (.cons mWaitBusy_performs (.one mStart_performs))
  exact (hbegin.append (sendByte_all _)).append (sendByte_all _)

theorem addressRead_all : AllPerform W n addressRead :=
  (addressWrite_all.append repeatedStart_all).append (sendByte_all _)

theorem readRegister_all (hw : W .res) : AllPerform W n readRegister := by
  have hend : AllPerform W n [mStop, mLoadData fun b t => t.setRes (b.setWidth 32)] :=
    .cons mStop_performs (.one (mLoadData_performs fun _ s => (Work.refl s).setRes _ hw))
  exact ((addressRead_all.append (.one (mRxMode_performs 0))).append driveClock_all).append hend

theorem readRegisters_program (hw : W .res) (c : Byte) : Program W 58 (readRegisters c) := by
  have hstore : Performs W 58 (mLoadData storeBurstByte) := mLoadData_performs storeBurstByte_work
  have hchoice : AllPerform W 58 [mCheckCount c, mOneByte c] :=
    .cons (mCheckCount_performs c) (.one (mOneByte_performs c (by decide)))
  have hloop : AllPerform W 58 [mBurstTest, mLoadData storeBurstByte, mWaitIf, mClearIf, mBurstNext] :=
    .cons (mBurstTest_performs (by decide)) (.cons hstore (.cons mWaitIf_performs (.cons mClearIf_performs
      (.one (mBurstNext_performs (by decide))))))
  have hdone : Performs W 58 (mBurstDone c) := fun s t hs h => (mBurstDone_finishes hw c s t hs h).micro
  have hlast : AllPerform W 58
      [mNoAck, mLoadData storeBurstByte, mWaitIf, mClearIf, mStop, mLoadData storeBurstByte, mBurstDone c] :=
    .cons mNoAck_performs (.cons hstore (.cons mWaitIf_performs (.cons mClearIf_performs (.cons mStop_performs
      (.cons hstore (.one hdone))))))
  have hread : AllPerform W 58 (addressRead ++ [mRxMode 1] ++ driveClock ++ [mBurstInit c]) :=
    ((addressRead_all.append (.one (mRxMode_performs 1))).append driveClock_all).append (.one (mBurstInit_performs c))
  have hburst : AllPerform W 58 (_ ++ _) := ((hchoice.append hread).append hloop).append hlast
  exact .append (hburst.append (readRegister_all hw)) (.last (mOneByteDone_finishes hw))

theorem modifyRegister_program (hw : W .res) : Program W n modifyRegister := by
  have hread : AllPerform W n (addressRead ++ [mRxMode 0] ++ driveClock ++ repeatedStart ++ [mLoadData saveTmp, mModify]) :=
    (((addressRead_all.append (.one (mRxMode_performs 0))).append driveClock_all).append repeatedStart_all).append
      (.cons (mLoadData_performs saveTmp_work) (.one mModify_performs))
  have hwrite := ((hread.append (sendByte_all slvWaddr)).append (sendByte_all fun s => s.dp.rega)).append
    (sendByte_all fun s => s.dp.new)
  exact .append hwrite (.cons mStop_performs (.last (mModifyDone_finishes hw)))

theorem ringWait_program (k : Inst) (c : RingBuf → Bool) : Program W n [mRingCheck k, mRingWait k c, mRingDone] :=
  .cons (mRingCheck_performs k) (.cons (mRingWait_performs k c) (.last mRingDone_finishes))

theorem ring_program {k : Inst} {act : RingBuf → State → State}
    (hact : ∀ s : State, s.seq ≠ .halt → Final W s (act (s.rb.get k) s)) :
    Program W n [fun t => .ok (onRing k act t)] :=
  .last (finishes_ok fun s hs => onRing_final (hact s hs) hs)

/-! ## Every command -/

/-- The commands whose rule does not name `RES` (10_state.md R20, 30_encoding.md R74). -/
def keepsRes : Instr → Prop
  | .st .. | .aand .. | .aor .. | .axor .. | .bfi .. | .waitbusy | .start | .sendb _ | .rstart | .rxmode _ | .drvclk | .stop
  | .resetbus | .waitb | .wrreg .. | .prep .. | .rbPush .. | .rbWaitne _ | .rbWaitnf _ | .rbWaite _ => True
  | _ => False

/-- What micro-step `k` of a command may touch: `AUX` by a store, so in a command of one micro-step; `RES` where the rule
names it; `RECOV` and `LOCKCNT` at the micro-steps of R98 and R99 that do. -/
def touches (i : Instr) (k : Nat) : Touch → Prop
  | .aux => microSteps i = 1
  | .res => ¬ keepsRes i
  | .recov => (i = .waitb ∧ k = 4) ∨ (i = .resetbus ∧ k = 2)
  | .lockcnt => i = .waitb ∧ (k = 0 ∨ k = 2)
  | .cmd | .operands | .reset => False

/-- A micro-step of command `i`: what it touches, and that it ends the command unless another micro-step stands after it. -/
def MicroSpec (i : Instr) (k : Nat) (m : MicroOp) : Prop :=
  (k + 1 < microSteps i ∧ Performs (touches i k) (microSteps i) m) ∨ Finishes (touches i k) m

theorem program_length (i : Instr) : (program i).length = microSteps i := by
  cases i <;> rfl

theorem microSpec_of_program {i : Instr} {k : Nat} {m : MicroOp} (h : Program (touches i k) (microSteps i) (program i))
    (hm : (program i)[k]? = some m) : MicroSpec i k m := by
  have := h.get hm
  rwa [program_length] at this

theorem waitb_microSpec {k : Nat} {m : MicroOp} (hm : (program .waitb)[k]? = some m) : MicroSpec .waitb k m := by
  match k with
  | 0 => cases hm; exact .inl ⟨by decide, mZeroCount_performs ⟨rfl, .inl rfl⟩⟩
  | 1 => cases hm; exact .inl ⟨by decide, mPoll_performs (by decide)⟩
  | 2 => cases hm; exact .inl ⟨by decide, mCount_performs ⟨rfl, .inr rfl⟩ (by decide)⟩
  | 3 => cases hm; exact .inl ⟨by decide, mStart_performs⟩
  | 4 => cases hm; exact .inl ⟨by decide, mForcedStop_performs (.inl ⟨rfl, rfl⟩)⟩
  | 5 => cases hm; exact .inl ⟨by decide, mClearIf_performs⟩
  | 6 => cases hm; exact .inr mDone_finishes
  | _ + 7 => cases hm

theorem resetbus_microSpec {k : Nat} {m : MicroOp} (hm : (program .resetbus)[k]? = some m) : MicroSpec .resetbus k m := by
  match k with
  | 0 => cases hm; exact .inl ⟨by decide, mClearIf_performs⟩
  | 1 => cases hm; exact .inl ⟨by decide, mClearIf_performs⟩
  | 2 =>
    cases hm
    exact .inl ⟨by decide, performs_ok fun s hs => (setRecov_work (.inr ⟨rfl, rfl⟩) s).advance hs⟩
  | 3 => cases hm; exact .inr mDone_finishes
  | _ + 4 => cases hm

/-- Every micro-step of every command. -/
theorem microSpec {i : Instr} {k : Nat} {m : MicroOp} (hm : (program i)[k]? = some m) : MicroSpec i k m := by
  cases i
  case waitb => exact waitb_microSpec hm
  case resetbus => exact resetbus_microSpec hm
  all_goals refine microSpec_of_program ?_ hm
  case ld => exact .last (checkedLoad_finishes id _ _ _ _)
  case ubfx => exact .last (checkedLoad_finishes id _ _ _ _)
  case st => exact .last (checkedWrite_finishes (by exact rfl) _ _ _ _)
  case aand => exact .last (checkedRmw_finishes (by exact rfl) _ _ _ fun _ _ => _)
  case aor => exact .last (checkedRmw_finishes (by exact rfl) _ _ _ fun _ _ => _)
  case axor => exact .last (checkedRmw_finishes (by exact rfl) _ _ _ fun _ _ => _)
  case bfi => exact .last (checkedRmw_finishes (by exact rfl) _ _ _ fun _ _ => _)
  case waitbusy => exact .cons mWaitBusy_performs (.last mDone_finishes)
  case start => exact .cons mStart_performs (.last mDone_finishes)
  case sendb => exact .append (sendByte_all _) (.last mDone_finishes)
  case rstart => exact .append repeatedStart_all (.last mDone_finishes)
  case rxmode => exact .cons (mRxMode_performs _) (.last mDone_finishes)
  case drvclk => exact .append driveClock_all (.last mDone_finishes)
  case stop => exact .cons mStop_performs (.last mDone_finishes)
  case rdreg => exact .append (readRegister_all id) (.last mDone_finishes)
  case rdregs => exact readRegisters_program id _
  case wrreg => exact .append (addressWrite_all.append (sendByte_all _)) (.cons mStop_performs (.last mDone_finishes))
  case modreg => exact modifyRegister_program id
  case prep => exact .last (finishes_ok fun s hs => prepareEntry_final _ _ hs)
  case config => exact .last (finishes_ok fun s hs => configureTable_final id _ hs)
  case select => exact .last (finishes_ok fun s hs => (selectInto_work id _ s).finish hs)
  case rbInit => exact .last (finishes_ok fun s hs => ringInit_final id _ hs)
  case rbPush => exact ring_program fun s hs => ringPush_final _ _ hs
  case rbPop => exact ring_program fun s hs => ringPop_final id _ hs
  case rbCount => exact ring_program fun s hs => ringQuery_final id _ _ hs
  case rbEmpty => exact ring_program fun s hs => ringQuery_final id _ _ hs
  case rbFull => exact ring_program fun s hs => ringQuery_final id _ _ hs
  case rbWaitne => exact ringWait_program _ _
  case rbWaitnf => exact ringWait_program _ _
  case rbWaite => exact ringWait_program _ _
  case bfEnq =>
    exact .last (finishes_ok fun s hs => by rw [critical_enqueue]; exact (enqueue_work id _ _ s).finish hs)
  case bfDeq =>
    exact .last (finishes_ok fun s hs => by rw [critical_dequeue]; exact (dequeue_work id _ _ s).finish hs)
  case bfLen => exact .last (finishes_ok fun s hs => ((Work.refl s).setRes _ id).finish hs)
  case bfFull => exact .last (finishes_ok fun s hs => ((Work.refl s).setRes _ id).finish hs)

/-- Settles O53: a command that does not name `RES` may not touch it at any micro-step, and its acceptance loads the
datapath only. -/
theorem otherCommandsKeepRes : Obligations.OtherCommandsKeepRes := by
  intro i s t h hi
  have hkeeps : keepsRes i := by cases i <;> exact hi
  rw [exec_eq_command] at h
  obtain ⟨-, rfl⟩ | ⟨k, m, hs, hm, ht⟩ := command_next h
  · rfl
  · have hne : s.seq ≠ .halt := by rw [hs]; exact SeqState.noConfusion
    have heffect : Effect (touches i k.toNat) s t :=
      (microSpec hm).elim (fun hp => (hp.2 s t hne ht).effect) fun hf => (hf s t hne ht).effect
    exact heffect.res_eq (fun hn => hn hkeeps) id

end Sys2Proof.Machine
end

section
/-! PROOFS. One step of the machine (00_scope.md R17, R18): a micro-step of the running command, a turn that leaves SEQ where
it is, HOST's access with the acceptance of a command, or a reset. The invariants of the claims follow. -/

namespace Sys2Proof.Machine

/-- What HOST's access may touch: `CMD` and `AUX` by a write, the operands by the acceptance of a command (10_state.md R23). -/
def Touch.host : Touch → Prop
  | .cmd | .aux | .operands => True
  | .res | .recov | .lockcnt | .reset => False

/-- Every piece of state. -/
def Touch.anything (_ : Touch) : Prop := True

/-- The datapath `d` and the operand word hold the operands of command `i` (R21, R67). -/
def Operands (i : Instr) (d : Datapath) (aux : Word) : Prop :=
  match i with
  | .sendb byte => d.val = byte
  | .rdreg slave reg => d.slv = slave ∧ d.rega = reg
  | .rdregs slave startReg _ => d.slv = slave ∧ d.rega = startReg
  | .wrreg slave reg value => d.slv = slave ∧ d.rega = reg ∧ d.val = value
  | .modreg slave reg => d.slv = slave ∧ d.rega = reg ∧ d.amsk = aux.extractLsb' 8 8 ∧ d.omsk = aux.extractLsb' 0 8
  | .select slave => d.slv = slave
  | _ => True

/-- A command has just been accepted: SEQ stands at its micro-step 0 and its operands are loaded (R23). -/
def Accepted (t : State) : Prop :=
  ∃ i, decode t.params.variant t.cmd = some i ∧ t.seq = .run i.opcode 0 ∧ Operands i t.dp t.aux

/-- A step that is no reset. -/
inductive Stepped (s : State) : State → Prop
  /-- SEQ runs micro-step `k` of the command in `CMD`. -/
  | micro {t : State} (i : Instr) (k : BitVec 6) (m : MicroOp) (hs : s.seq = .run i.opcode k)
      (hd : decode s.params.variant s.cmd = some i) (hm : (program i)[k.toNat]? = some m) (ht : m s = .ok t) : Stepped s t
  /-- BUS, LINK, or an agent without a step. -/
  | quiet {t : State} (h : Work Touch.nothing s t) : Stepped s t
  /-- HOST's access while no command runs. -/
  | host {t : State} (hs : AtRest s) (h : Effect Touch.host s t) (ht : AtRest t ∨ Accepted t) : Stepped s t

variable {s t : State}

theorem operandsOk_iff :
    OperandsOk s ↔
      ∀ i op k, s.seq = .run op k → decode s.params.variant s.cmd = some i → Operands i s.dp s.aux := by
  constructor
  all_goals
    intro h i op k hs hd
    have hi := h i op k hs hd
    cases i <;> exact hi

theorem Operands.congr {i : Instr} {d e : Datapath} {aux : Word} (h : SameOperands d e) (hd : Operands i d aux) :
    Operands i e aux := by
  cases i with
  | sendb => exact h.val.trans hd
  | rdreg => exact ⟨h.slv.trans hd.1, h.rega.trans hd.2⟩
  | rdregs => exact ⟨h.slv.trans hd.1, h.rega.trans hd.2⟩
  | wrreg =>
    obtain ⟨hslv, hrega, hval⟩ := hd
    exact ⟨h.slv.trans hslv, h.rega.trans hrega, h.val.trans hval⟩
  | modreg =>
    obtain ⟨hslv, hrega, hamsk, homsk⟩ := hd
    exact ⟨h.slv.trans hslv, h.rega.trans hrega, h.amsk.trans hamsk, h.omsk.trans homsk⟩
  | select => exact h.slv.trans hd
  | _ => trivial

/-- The acceptance loads the operands (R21). -/
theorem operands_loaded (i : Instr) (s : State) : Operands i (loaded i s) s.aux := by
  cases i <;> simp [Operands, loaded]

theorem AtRest.not_run {op : Byte} {k : BitVec 6} (h : AtRest s) : s.seq ≠ .run op k := by
  obtain h | h := h <;> rw [h] <;> exact SeqState.noConfusion

theorem run_ne_halt {op : Byte} {k : BitVec 6} (h : s.seq = .run op k) : s.seq ≠ .halt := by
  rw [h]; exact SeqState.noConfusion

/-! ## SEQ's turn -/

theorem seqTurn_stepped (h : seqTurn s = .next t) : Stepped s t := by
  unfold seqTurn at h
  split at h
  · cases h; exact .quiet (Work.refl s)
  · cases h; exact .quiet (Work.refl s)
  · next op k hs =>
    split at h
    · next i hd =>
      obtain ⟨rfl, m, hm, ht⟩ := exec_running hs h
      exact .micro i k m hs hd hm ht
    · cases h

/-! ## HOST's turn -/

theorem hostRead_work {W : Touch → Prop} {off : Offset} {sz : Size} (h : hostRead off sz s = .next t) : Work W s t := by
  unfold hostRead at h
  split at h
  · split at h
    · next hread => cases h; exact (memRead_work hread).trans (Change.work (.plain ..) rfl)
    · cases h
  · cases h

/-- The acceptance of the word in `CMD`: a command starts, or the word is illegal and the block halts (R23, 30_encoding.md
R75). -/
theorem acceptCommand_effect (hs : s.seq = .idle) (h : acceptCommand s = .next t) :
    Effect Touch.host s t ∧ (AtRest t ∨ Accepted t) := by
  have hne : s.seq ≠ .halt := by rw [hs]; exact SeqState.noConfusion
  unfold acceptCommand at h
  split at h
  · next i hd =>
    rw [acceptanceLoadsOperands i s hs] at h
    cases h
    have hload : Effect Touch.host s { s with dp := loaded i s } := (Change.datapath _ fun _ => .inl trivial).effect
    have hstart : Effect Touch.host { s with dp := loaded i s } { s with dp := loaded i s, seq := .run i.opcode 0 } :=
      Change.effect (.control _ hne SeqState.noConfusion)
    exact ⟨hload.trans hstart, .inr ⟨i, hd, rfl, operands_loaded i s⟩⟩
  · cases h
    exact ⟨(raise_final _ hne).effect, .inl (.inr rfl)⟩

theorem hostWrite_effect {off : Offset} {sz : Size} {v : Word} (hs : s.seq = .idle)
    (h : hostWrite off sz v s = .next t) : Effect Touch.host s t ∧ (AtRest t ∨ Accepted t) := by
  unfold hostWrite at h
  split at h
  · split at h
    · next u hu =>
      have hwrite : Work Touch.host s u := memWrite_work (fun _ => trivial) (fun _ => trivial) hu
      have hidle : u.seq = .idle := hwrite.seq.trans hs
      split at h
      · obtain ⟨heffect, hend⟩ := acceptCommand_effect hidle h
        exact ⟨hwrite.effect.trans heffect, hend⟩
      · cases h
        exact ⟨hwrite.effect, .inl (.inl hidle)⟩
    · cases h
  · cases h

theorem windowAccess_stepped {a : HostAccess} {off : Offset} {rest : List HostAccess}
    (h : windowAccess a off rest s = .next t) : Stepped s t := by
  have htaken {W : Touch → Prop} : Work W s { s with host := rest } := Change.work (.plain ..) rfl
  unfold windowAccess at h
  split at h
  · cases h; exact .quiet (Work.refl s)
  · exact .quiet (htaken.trans (hostRead_work h))
  · next hs =>
    obtain ⟨heffect, hend⟩ := hostWrite_effect (s := { s with host := rest }) hs h
    exact .host (.inl hs) (htaken.effect.trans heffect) hend
  · exact .quiet (htaken.trans (hostRead_work h))
  · cases h; exact .quiet htaken

theorem hostTurn_stepped (h : hostTurn s = .next t) : Stepped s t := by
  unfold hostTurn at h
  split at h
  · cases h; exact .quiet (Work.refl s)
  · split at h
    · exact windowAccess_stepped h
    · cases h; exact .quiet (Change.work (.plain ..) rfl)

/-! ## Any turn -/

theorem takeTurn_stepped {turn : Turn} (hr : turn ≠ .reset) (h : takeTurn turn s = .next t) : Stepped s t := by
  cases turn with
  | seq => exact seqTurn_stepped h
  | host => exact hostTurn_stepped h
  | busTx a => cases h; exact .quiet (busTx_work a s)
  | busRx d => cases h; exact .quiet (busRx_work d s)
  | busBusy taken => cases h; exact .quiet (busBusy_work taken s)
  | busArbLost => cases h; exact .quiet (busArbLost_work s)
  | linkRx b => cases h; exact .quiet (linkRx_work b s)
  | linkTx => cases h; exact .quiet (linkTx_work s)
  | reset => exact absurd rfl hr

theorem defaultTurn_stepped (h : defaultTurn s = .next t) : Stepped s t := by
  unfold defaultTurn at h
  split at h
  · exact seqTurn_stepped h
  · exact hostTurn_stepped h
  · split at h
    · cases h
    · exact hostTurn_stepped h

/-- A step hands out the turn and takes it: a reset, or one of the kinds of `Stepped`. -/
theorem step_cases (h : step s = .next t) :
    ∃ a, Stepped { s with agenda := a } t ∨
      (s.agenda.head? = some .reset ∧ t = resetBlock { s with agenda := a }) := by
  unfold step at h
  split at h
  · next ha => exact ⟨s.agenda, .inl (defaultTurn_stepped h)⟩
  · next turn rest ha =>
    refine ⟨rest, ?_⟩
    by_cases hr : turn = .reset
    · subst hr
      exact .inr ⟨by rw [ha]; rfl, by cases h; rfl⟩
    · exact .inl (takeTurn_stepped hr h)

/-! ## The effect of a step -/

theorem micro_effect {i : Instr} {k : BitVec 6} {m : MicroOp} (hs : s.seq = .run i.opcode k)
    (hm : (program i)[k.toNat]? = some m) (ht : m s = .ok t) : Effect (touches i k.toNat) s t :=
  (microSpec hm).elim (fun hp => (hp.2 s t (run_ne_halt hs) ht).effect) fun hf => (hf s t (run_ne_halt hs) ht).effect

theorem Effect.anything {W : Touch → Prop} (h : Effect W s t) : Effect Touch.anything s t := h.mono fun _ _ => trivial

theorem Stepped.effect (h : Stepped s t) : Effect Touch.anything s t := by
  cases h with
  | micro i k m hs hd hm ht => exact (micro_effect hs hm ht).anything
  | quiet h => exact h.effect.anything
  | host hs h ht => exact h.anything

theorem step_effect (h : step s = .next t) : Effect Touch.anything s t := by
  obtain ⟨a, hstep⟩ := step_cases h
  have hturn : Effect Touch.anything s { s with agenda := a } := (Change.plain ..).effect
  obtain hstep | ⟨-, rfl⟩ := hstep
  · exact hturn.trans hstep.effect
  · exact hturn.trans (Change.reset trivial).effect

/-- Settles O57: rings and bounded FIFOs are replaced by good ones only, and a reader that has outrun its writer halts the
block. -/
theorem everyStepKeepsBuffers : Obligations.EveryStepKeepsBuffers :=
  fun _ _ hrings hfifos h => ⟨(step_effect h).ringsOk hrings, (step_effect h).fifosOk hfifos⟩

/-- Settles O60: `PREP`, `CONFIG` and `Select` keep the table and the memo consistent, and no step leaves the mask set. -/
theorem everyStepKeepsArbiterAndMask : Obligations.EveryStepKeepsArbiterAndMask :=
  fun _ _ harb hmask h => ⟨(step_effect h).arbOk harb, (step_effect h).maskOk hmask⟩

/-- Settles O58: memories are written by `Store.write` only. -/
theorem everyStepKeepsMemories : Obligations.EveryStepKeepsMemories := fun _ _ hs h => (step_effect h).memoriesOk hs

/-- Settles O59: `CTRL`, `STAT` and `XFER` change together, by the rules of the window and of BUS. -/
theorem everyStepKeepsBus : Obligations.EveryStepKeepsBus :=
  fun _ _ hbus hxfer h => ⟨(step_effect h).busOk hbus, (step_effect h).xferOk hxfer⟩

/-! ## `RECOV` and `LOCKCNT` -/

theorem mZeroCount_lockcnt {t : State} (h : mZeroCount s = .ok t) : t.lockcnt = 0 := by
  cases h; rfl

theorem mCount_lockcnt {t : State} (h : mCount s = .ok t) : t.lockcnt = s.lockcnt + 1 := by
  unfold mCount at h
  cases h
  split <;> rfl

/-- `RECOV` goes from 0 to 1 at the forced STOP of `WAITB` and in `RESETBUS` only (R98, R99). -/
theorem Stepped.recov_set (h : Stepped s t) (h0 : s.esr.recov = false) (h1 : t.esr.recov = true) :
    s.seq = .run 0x18 4 ∨ s.seq = .run 0x17 2 := by
  have hset {W : Touch → Prop} (he : Effect W s t) : W .recov := by
    by_contra hw
    exact absurd ((he.recov_false hw h0).symm.trans h1) (by decide)
  cases h with
  | micro i k m hs hd hm ht =>
    obtain ⟨rfl, hk⟩ | ⟨rfl, hk⟩ := hset (micro_effect hs hm ht)
    · obtain rfl : k = 4 := BitVec.eq_of_toNat_eq hk
      exact .inl hs
    · obtain rfl : k = 2 := BitVec.eq_of_toNat_eq hk
      exact .inr hs
  | quiet h => exact absurd (hset h.effect) id
  | host hs h ht => exact absurd (hset h) id

/-- `LOCKCNT` changes where `WAITB` zeroes it and where it counts a poll only (R99). -/
theorem Stepped.lockcnt_change (h : Stepped s t) (hne : t.lockcnt ≠ s.lockcnt) :
    (s.seq = .run 0x18 0 ∧ t.lockcnt = 0) ∨ (s.seq = .run 0x18 2 ∧ t.lockcnt = s.lockcnt + 1) := by
  have htouch {W : Touch → Prop} (he : Effect W s t) (hr : ¬ W .reset) : W .lockcnt := by
    by_contra hw
    exact hne (he.lockcnt_eq hw hr)
  cases h with
  | micro i k m hs hd hm ht =>
    obtain ⟨rfl, hk | hk⟩ := htouch (micro_effect hs hm ht) id
    · obtain rfl : k = 0 := BitVec.eq_of_toNat_eq hk
      cases hm
      exact .inl ⟨hs, mZeroCount_lockcnt ht⟩
    · obtain rfl : k = 2 := BitVec.eq_of_toNat_eq hk
      cases hm
      exact .inr ⟨hs, mCount_lockcnt ht⟩
  | quiet h => exact absurd (htouch h.effect id) id
  | host hs h ht => exact absurd (htouch h id) id

/-- Settles O52: the micro-steps that may touch `RECOV` and `LOCKCNT` are those of R98 and R99. -/
theorem recoveryStatusChangesOnlyInItsCommands : Obligations.RecoveryStatusChangesOnlyInItsCommands := by
  refine ⟨fun s t h h0 h1 => ?recov, fun s t hr h hne => ?lockcnt⟩
  case recov =>
    obtain ⟨a, hstep | ⟨-, rfl⟩⟩ := step_cases h
    · exact hstep.recov_set h0 h1
    · nomatch h1
  case lockcnt =>
    obtain ⟨a, hstep | ⟨hreset, -⟩⟩ := step_cases h
    · exact hstep.lockcnt_change hne
    · exact absurd hreset hr

/-! ## The running command -/

/-- After a micro-step no command runs, or the same one, of more than one micro-step, stands at one of its micro-steps. -/
theorem micro_seq {i : Instr} {k : BitVec 6} {m : MicroOp} (hs : s.seq = .run i.opcode k)
    (hm : (program i)[k.toNat]? = some m) (ht : m s = .ok t) :
    AtRest t ∨ (1 < microSteps i ∧ ∃ k', k'.toNat < microSteps i ∧ t.seq = .run i.opcode k') := by
  obtain ⟨hlt, hp⟩ | hf := microSpec hm
  · have hmulti : 1 < microSteps i := by omega
    obtain hrest | hhold | hnext | ⟨j, hj, hjump⟩ := (hp s t (run_ne_halt hs) ht).moves
    · exact .inl hrest
    · exact .inr ⟨hmulti, k, by omega, hhold.trans hs⟩
    · refine .inr ⟨hmulti, k + 1, ?_, by rw [hnext, hs]; rfl⟩
      rw [BitVec.toNat_add]
      exact (Nat.mod_le _ _).trans_lt hlt
    · exact .inr ⟨hmulti, j, hj, by rw [hjump, hs]; rfl⟩
  · exact .inl (hf s t (run_ne_halt hs) ht).rest

/-- The command in `CMD` stands at one of its micro-steps, with its operands loaded. -/
def Running (i : Instr) (k : BitVec 6) (t : State) : Prop :=
  decode t.params.variant t.cmd = some i ∧ t.seq = .run i.opcode k ∧ k.toNat < microSteps i ∧ Operands i t.dp t.aux

theorem Running.seqOk {i : Instr} {k : BitVec 6} (h : Running i k t) : SeqOk t := by
  obtain ⟨hd, hq, hk, -⟩ := h
  intro op k' hs
  obtain ⟨rfl, rfl⟩ := SeqState.run.inj (hq.symm.trans hs)
  exact ⟨i, hd, rfl, hk⟩

theorem Running.operandsOk {i : Instr} {k : BitVec 6} (h : Running i k t) : OperandsOk t := by
  obtain ⟨hd, -, -, ho⟩ := h
  refine operandsOk_iff.2 fun i' op k' _ hd' => ?_
  obtain rfl : i = i' := Option.some.inj (hd.symm.trans hd')
  exact ho

theorem AtRest.seqOk (h : AtRest t) : SeqOk t := fun _ _ hs => absurd hs h.not_run

theorem AtRest.operandsOk (h : AtRest t) : OperandsOk t := fun _ _ _ hs => absurd hs h.not_run

theorem microSteps_pos (i : Instr) : 0 < microSteps i := by
  cases i <;> exact Nat.succ_pos _

theorem Accepted.running (h : Accepted t) : ∃ i, Running i 0 t := by
  obtain ⟨i, hd, hq, ho⟩ := h
  exact ⟨i, hd, hq, microSteps_pos i, ho⟩

/-- A running command whose micro-step does not end it keeps `AUX` and its operands (R67). -/
theorem micro_running {i : Instr} {k : BitVec 6} {m : MicroOp} (hs : s.seq = .run i.opcode k)
    (hd : decode s.params.variant s.cmd = some i) (ho : Operands i s.dp s.aux) (hm : (program i)[k.toNat]? = some m)
    (ht : m s = .ok t) : AtRest t ∨ (t.aux = s.aux ∧ ∃ k', Running i k' t) := by
  have heffect := micro_effect hs hm ht
  refine (micro_seq hs hm ht).imp_right fun ⟨hmulti, k', hk', hq⟩ => ?_
  have haux : t.aux = s.aux := heffect.aux_eq (fun hone : microSteps i = 1 => by omega) id
  have hsame : SameOperands s.dp t.dp := heffect.sameOperands id id (run_ne_halt hq)
  have hcmd : t.cmd = s.cmd := heffect.cmd_eq id id
  refine ⟨haux, k', ?_, hq, hk', ?_⟩
  · rw [heffect.params, hcmd]; exact hd
  · rw [haux]; exact ho.congr hsame

/-- SEQ, `CMD` and the operands stay where nobody touches them. -/
theorem Work.keepsCommand (h : Work Touch.nothing s t) (hseq : SeqOk s) (hop : OperandsOk s) : SeqOk t ∧ OperandsOk t := by
  have hcmd : t.cmd = s.cmd := h.effect.cmd_eq id id
  have haux : t.aux = s.aux := h.effect.aux_eq id id
  have hparams := h.effect.params
  refine ⟨fun op k hs => ?_, operandsOk_iff.2 fun i op k hs hd => ?_⟩
  · rw [hparams, hcmd]
    exact hseq op k (h.seq ▸ hs)
  · have hsame : SameOperands s.dp t.dp := h.effect.sameOperands id id (run_ne_halt hs)
    rw [hparams, hcmd] at hd
    rw [haux]
    exact (operandsOk_iff.1 hop i op k (h.seq ▸ hs) hd).congr hsame

theorem Stepped.keepsCommand (h : Stepped s t) (hseq : SeqOk s) (hop : OperandsOk s) : SeqOk t ∧ OperandsOk t := by
  cases h with
  | micro i k m hs hd hm ht =>
    obtain hrest | ⟨-, k', hrun⟩ := micro_running hs hd (operandsOk_iff.1 hop i _ _ hs hd) hm ht
    · exact ⟨hrest.seqOk, hrest.operandsOk⟩
    · exact ⟨hrun.seqOk, hrun.operandsOk⟩
  | quiet h => exact h.keepsCommand hseq hop
  | host hs h ht =>
    obtain hrest | hacc := ht
    · exact ⟨hrest.seqOk, hrest.operandsOk⟩
    · obtain ⟨i, hrun⟩ := hacc.running
      exact ⟨hrun.seqOk, hrun.operandsOk⟩

/-- Under a running command `CMD` does not change, nor does `AUX` while it goes on (R67). -/
theorem Stepped.keepsWords (h : Stepped s t) (hop : OperandsOk s) {op : Byte} {k : BitVec 6} (hs : s.seq = .run op k) :
    t.cmd = s.cmd ∧ ∀ op' k', t.seq = .run op' k' → op' = op ∧ t.aux = s.aux := by
  cases h with
  | micro i k m hq hd hm ht =>
    refine ⟨(micro_effect hq hm ht).cmd_eq id id, fun op' k' hq' => ?_⟩
    obtain ⟨rfl, -⟩ := SeqState.run.inj (hs.symm.trans hq)
    obtain hrest | ⟨haux, k'', hrun⟩ := micro_running hq hd (operandsOk_iff.1 hop i _ _ hq hd) hm ht
    · exact absurd hq' hrest.not_run
    · obtain ⟨-, hq'', -, -⟩ := hrun
      exact ⟨(SeqState.run.inj (hq'.symm.trans hq'')).1, haux⟩
  | quiet h =>
    refine ⟨h.effect.cmd_eq id id, fun op' k' hq' => ⟨?_, h.effect.aux_eq id id⟩⟩
    exact (SeqState.run.inj (hq'.symm.trans (h.seq.trans hs))).1
  | host hrest => exact absurd hs hrest.not_run

theorem seqOk_reset (s : State) : SeqOk (resetBlock s) := fun _ _ h => nomatch h

theorem operandsOk_reset (s : State) : OperandsOk (resetBlock s) := fun _ _ _ h => nomatch h

/-- Settles O55: a micro-step leaves the command, its operands and, where it goes on, `AUX`; only HOST's access at rest
changes `CMD`, and what it accepts is loaded. -/
theorem everyStepKeepsCommand : Obligations.EveryStepKeepsCommand := by
  intro s t hseq hop h
  obtain ⟨a, hstep | ⟨hreset, rfl⟩⟩ := step_cases h
  · obtain ⟨hseq', hop'⟩ := hstep.keepsCommand hseq hop
    exact ⟨hseq', hop', fun op k hs _ => hstep.keepsWords hop hs⟩
  · exact ⟨seqOk_reset _, operandsOk_reset _, fun _ _ _ hr => absurd hreset hr⟩

/-! ## The bounded wait -/

/-- SEQ stands at a micro-step of `WAITB` that polls or counts (R99 steps 1 and 2). -/
def Polling (s : State) : Prop := s.seq = .run 0x18 1 ∨ s.seq = .run 0x18 2

theorem lockOk_of_not_polling (h : t.lockcnt.toNat ≤ 200) (hp : ¬ Polling t) : LockOk t := ⟨h, fun hq => absurd hq hp⟩

theorem lockOk_of_lt (h : t.lockcnt.toNat < 200) : LockOk t := ⟨Nat.le_of_lt h, fun _ => h⟩

theorem not_polling_of_run {op : Byte} {k : BitVec 6} (h : t.seq = .run op k) (hne : op ≠ 0x18 ∨ (k ≠ 1 ∧ k ≠ 2)) :
    ¬ Polling t := by
  rintro (hq | hq) <;> obtain ⟨rfl, rfl⟩ := SeqState.run.inj (h.symm.trans hq) <;> simp at hne

theorem AtRest.not_polling (h : AtRest t) : ¬ Polling t := fun hq => hq.elim h.not_run h.not_run

/-- A store to a module register moves SEQ to the next micro-step. -/
theorem rmw_advance_seq {off : Offset} {sz : Size} {g : Word → Word} (hoff : off.toNat < 8)
    (h : thenAdvance (rmw off sz g s) = .ok t) : t.seq = s.seq.next := by
  cases hu : rmw off sz g s with
  | error e => rw [hu] at h; cases h
  | ok u =>
    rw [hu] at h
    cases h
    have hwork : Work Touch.nothing s u := rmw_module_work hoff hu
    exact congrArg SeqState.next hwork.seq

theorem mForcedStop_seq (h : mForcedStop s = .ok t) : t.seq = s.seq.next := by
  unfold mForcedStop at h
  split at h
  · next u hu =>
    cases h
    have hwork : Work Touch.nothing s u := rmw_module_work (by decide) hu
    exact congrArg SeqState.next hwork.seq
  · cases h

/-- The counting micro-step goes back to the poll only below the bound (R99 step 2). -/
theorem mCount_lockOk (hs : s.seq = .run 0x18 2) (hlt : s.lockcnt.toNat < 200) (h : mCount s = .ok t) : LockOk t := by
  have hcount : (s.lockcnt + 1).toNat = s.lockcnt.toNat + 1 := by bv_omega
  unfold mCount at h
  cases h
  split
  · next hbound => exact lockOk_of_lt hbound
  · exact lockOk_of_not_polling (hcount.trans_le hlt)
      (not_polling_of_run (op := 0x18) (k := 3) (by simp [hs]) (.inr (by decide)))

theorem waitb_lockOk {k : BitVec 6} {m : MicroOp} (hs : s.seq = .run 0x18 k) (hm : (program .waitb)[k.toNat]? = some m)
    (ht : m s = .ok t) (hok : LockOk s) : LockOk t := by
  obtain ⟨hle, hpoll⟩ := hok
  have hkept (hk : k.toNat ≠ 0 ∧ k.toNat ≠ 2) : t.lockcnt = s.lockcnt :=
    (micro_effect hs hm ht).lockcnt_eq (fun h => h.2.elim hk.1 hk.2) id
  have hleave (hk : 3 ≤ k.toNat) (hq : t.seq = s.seq.next) : LockOk t := by
    have hend : k.toNat < 7 := by
      have := (List.getElem?_eq_some_iff.1 hm).1
      rwa [program_length] at this
    refine lockOk_of_not_polling (by rw [hkept (by omega)]; exact hle)
      (not_polling_of_run (hq.trans (congrArg SeqState.next hs)) (.inr ?_))
    constructor <;> bv_omega
  match hk : k.toNat, hm with
  | 0, hm =>
    cases hm
    exact lockOk_of_lt (by rw [mZeroCount_lockcnt ht]; decide)
  | 1, hm =>
    obtain rfl : k = 1 := BitVec.eq_of_toNat_eq hk
    exact lockOk_of_lt (by rw [hkept (by omega)]; exact hpoll (.inl hs))
  | 2, hm =>
    obtain rfl : k = 2 := BitVec.eq_of_toNat_eq hk
    cases hm
    exact mCount_lockOk hs (hpoll (.inr hs)) ht
  | 3, hm => cases hm; exact hleave (by omega) (rmw_advance_seq (by decide) ht)
  | 4, hm => cases hm; exact hleave (by omega) (mForcedStop_seq ht)
  | 5, hm => cases hm; exact hleave (by omega) (rmw_advance_seq (by decide) ht)
  | 6, hm =>
    cases hm
    cases ht
    exact lockOk_of_not_polling hle (AtRest.not_polling (.inl rfl))

theorem eq_waitb_of_opcode {i : Instr} (h : i.opcode = 0x18) : i = .waitb := by
  cases i <;> simp [Instr.opcode] at h ⊢

theorem Stepped.lockOk (h : Stepped s t) (hok : LockOk s) : LockOk t := by
  cases h with
  | micro i k m hs hd hm ht =>
    by_cases hi : i = .waitb
    · subst hi
      exact waitb_lockOk hs hm ht hok
    · have hkept : t.lockcnt = s.lockcnt := (micro_effect hs hm ht).lockcnt_eq (fun h => hi h.1) id
      refine lockOk_of_not_polling (by rw [hkept]; exact hok.1) ?_
      obtain hrest | ⟨-, k', -, hq⟩ := micro_seq hs hm ht
      · exact hrest.not_polling
      · exact not_polling_of_run hq (.inl fun hop => hi (eq_waitb_of_opcode hop))
  | quiet h =>
    have hkept : t.lockcnt = s.lockcnt := h.effect.lockcnt_eq id id
    unfold LockOk
    rw [hkept, h.seq]
    exact hok
  | host hs h ht =>
    have hkept : t.lockcnt = s.lockcnt := h.lockcnt_eq id id
    refine lockOk_of_not_polling (by rw [hkept]; exact hok.1) ?_
    obtain hrest | ⟨i, -, hq, -⟩ := ht
    · exact hrest.not_polling
    · exact not_polling_of_run hq (.inr (by decide))

/-- Settles O56: only a fatal assertion enters `HALT` and only a reset leaves it; `WAITB` counts below its bound only. -/
theorem everyStepKeepsStatus : Obligations.EveryStepKeepsStatus := by
  intro s t hhalt hlock h
  refine ⟨(step_effect h).haltOk hhalt, ?_⟩
  obtain ⟨a, hstep | ⟨-, rfl⟩⟩ := step_cases h
  · exact hstep.lockOk hlock
  · exact lockOk_resetWith s.params

end Sys2Proof.Machine
end

section
/-! PROOFS. HOST's accesses to the window (20_memory.md R44 to R53): what `MemRead` answers and `MemWrite` stores, in the words
of the claims, and HOST's turn in every state of SEQ (10_state.md R23, 60_exceptions.md R138). -/

namespace Sys2Proof.Machine

/-! ## The words of the registers, bit by bit -/

theorem ctrl_word_append (c : Ctrl) :
    c.word.setWidth 32 = 0#26 ++ BitVec.ofBool c.mst ++ BitVec.ofBool c.tx ++ BitVec.ofBool c.txak ++ 0#3 := by
  obtain ⟨mst, tx, txak⟩ := c
  cases mst <;> cases tx <;> cases txak <;> rfl

theorem stat_word_append (t : Stat) :
    t.word.setWidth 32 = 0#26 ++ BitVec.ofBool t.busy ++ BitVec.ofBool t.arbl ++ 0#2 ++ BitVec.ofBool t.ifl ++
      BitVec.ofBool t.rxak := by
  obtain ⟨busy, arbl, ifl, rxak⟩ := t
  cases busy <;> cases arbl <;> cases ifl <;> cases rxak <;> rfl

theorem esr_word_append (e : Esr) :
    e.word = 0#24 ++ e.fcode ++ 0#2 ++ BitVec.ofBool e.recov ++ BitVec.ofBool e.fatal := by
  obtain ⟨fatal, recov, fcode⟩ := e
  revert fatal recov fcode
  decide

theorem linkctl_word_append (txie : Bool) : linkctlWord txie = 0#31 ++ BitVec.ofBool txie := by
  cases txie <;> rfl

/-! ## Little-endian values (R45) -/

theorem leValue_one (b0 : Byte) : leValue [b0] = b0.setWidth 32 := by
  simp [leValue]

/-- A byte below a little-endian value. -/
theorem leValue_cons_append {n : Nat} {x : BitVec n} {rest : List Byte} (b : Byte) (h : leValue rest = x.setWidth 32) :
    leValue (b :: rest) = (x ++ b).setWidth 32 := by
  rw [leValue, h, BitVec.setWidth_append_eq_shiftLeft_setWidth_or, BitVec.or_comm]

theorem leValue_two (b0 b1 : Byte) : leValue [b0, b1] = 0#16 ++ b1 ++ b0 := by
  have h1 : leValue [b1] = (0#16 ++ b1).setWidth 32 := leValue_cons_append b1 rfl
  exact (leValue_cons_append b0 h1).trans (BitVec.setWidth_eq _)

theorem leValue_four (b0 b1 b2 b3 : Byte) : leValue [b0, b1, b2, b3] = b3 ++ b2 ++ b1 ++ b0 := by
  have h2 : leValue [b2, b3] = (b3 ++ b2).setWidth 32 := leValue_cons_append b2 (leValue_one b3)
  exact (leValue_cons_append b0 (leValue_cons_append b1 h2)).trans (BitVec.setWidth_eq _)

/-- The bytes of a memory at an access, as the window shows them (R45). -/
def windowBytes (s : State) (off : Offset) (sz : Size) : Word :=
  let m := fun j => readByte s.mem (off.toNat + j) (s.draws + j)
  match sz with
  | .b => (m 0).setWidth 32
  | .h => 0#16 ++ m 1 ++ m 0
  | .w => m 3 ++ m 2 ++ m 1 ++ m 0

theorem leValue_readBytes (s : State) (off : Offset) (sz : Size) :
    leValue (readBytes s.mem off.toNat sz.bytes s.draws) = windowBytes s off sz := by
  cases sz with
  | b => exact leValue_one _
  | h => exact leValue_two _ _
  | w => exact leValue_four _ _ _ _

/-- A byte of a word, as the memory and as the claims cut it out. -/
theorem setWidth_shiftRight (v : Word) (n : Nat) : (v >>> n).setWidth 8 = v.extractLsb' n 8 := by
  ext i hi
  simp

/-! ## Reads -/

variable {s : State} {off : Offset} {sz : Size}

/-- From `CMD` to the end of the registers an allowed access is at a multiple of 4 (R46). -/
theorem AccessAllowed.word_aligned (ha : AccessAllowed off sz) (h8 : 0x008 ≤ off.toNat) (h20 : off.toNat < 0x020) :
    off.toNat % 4 = 0 := by
  obtain ⟨halign, -, hword⟩ := ha
  rw [hword ⟨h8, h20⟩] at halign
  exact halign

theorem afterRead_of_not_memory (h : ¬ inByteMemory s off) : afterRead s off sz = s := by
  have hdraws : windowDraws s off sz = 0 := if_neg h
  unfold afterRead
  rw [hdraws]
  rfl

theorem afterRead_of_memory (h : inByteMemory s off) : afterRead s off sz = { s with draws := s.draws + sz.bytes } := by
  have hdraws : windowDraws s off sz = sz.bytes := if_pos h
  unfold afterRead
  rw [hdraws]

/-- Beyond the registers the window shows the byte memories, and 0 elsewhere (R44). -/
theorem windowValue_beyond (h : 0x020 ≤ off.toNat) :
    windowValue s off sz =
      if (0x100 ≤ off.toNat ∧ off.toNat < 0x200) ∨ (s.params.variant = .b ∧ 0x400 ≤ off.toNat ∧ off.toNat < 0x800) then
        windowBytes s off sz
      else 0 := by
  unfold windowValue
  dsimp only
  rw [if_neg (by omega), if_neg (by omega), if_neg (by omega), if_neg (by omega), if_neg (by omega), if_neg (by omega),
    if_neg (by omega), if_neg (by omega), if_neg (by omega), if_neg (by omega)]
  rfl

/-- A read that changes nothing, below the byte memories. -/
theorem read_register (hlow : off.toNat < 0x100) (hread : memRead off sz s = .ok (windowValue s off sz, s)) :
    memRead off sz s = .ok (windowValue s off sz, afterRead s off sz) := by
  have hm : ¬ inByteMemory s off := by
    rintro (h | h) <;> omega
  rw [hread, afterRead_of_not_memory hm]

/-- A read of a byte memory shows its bytes and draws as many (R45, logs 13 and 14). -/
theorem read_memory (hm : inByteMemory s off)
    (hread : memRead off sz s =
      .ok (leValue (readBytes s.mem off.toNat sz.bytes s.draws), { s with draws := s.draws + sz.bytes })) :
    memRead off sz s = .ok (windowValue s off sz, afterRead s off sz) := by
  have h20 : 0x020 ≤ off.toNat := by
    rcases hm with h | h <;> omega
  rw [hread, windowValue_beyond h20, leValue_readBytes, afterRead_of_memory hm]
  exact congrArg (fun v => Except.ok (v, _)) (if_pos hm).symm

/-- Every allowed read but that of `DATA` as master receiver answers what the window shows and changes nothing but the count of
draws (R44, R48). -/
theorem memRead_window (ha : AccessAllowed off sz) (hd : ¬ (off = 0x004 ∧ masterReceive s)) :
    memRead off sz s = .ok (windowValue s off sz, afterRead s off sz) := by
  have haligned := ha.word_aligned
  rcases region_cases s.params.variant off with
    ⟨h, hr⟩ | ⟨h, hr⟩ | ⟨h, hr⟩ | ⟨h, hr⟩ | ⟨h, hr⟩ | ⟨h, hr⟩ | ⟨h, hr⟩ | ⟨h, hr⟩ | ⟨h, hr⟩ | ⟨h, hr⟩ | ⟨h, hr⟩ | ⟨h, hr⟩ |
      ⟨h, hr⟩ | ⟨h, hr⟩
  · have h : off.toNat = 0 ∨ off.toNat = 5 ∨ off.toNat = 6 ∨ off.toNat = 7 := by omega
    exact read_register (by omega) (by rcases h with h | h | h | h <;> simp [memRead, hr, windowValue, h])
  · exact read_register (by omega) (by simp [memRead, hr, windowValue, h])
  · exact read_register (by omega) (by simp [memRead, hr, windowValue, h, ctrl_word_append])
  · exact read_register (by omega) (by simp [memRead, hr, windowValue, h, stat_word_append])
  · have hoff : off = 0x004 := BitVec.eq_of_toNat_eq h
    have hrx : ¬ (s.ctrl.mst = true ∧ s.ctrl.tx = false) := fun hrx => hd ⟨hoff, hrx⟩
    exact read_register (by omega) (by simp [memRead, hr, windowValue, h, readData_other s hrx])
  · have h : off.toNat = 0x008 := by omega
    exact read_register (by omega) (by simp [memRead, hr, windowValue, h])
  · have h : off.toNat = 0x00C := by omega
    exact read_register (by omega) (by simp [memRead, hr, windowValue, h])
  · have h : off.toNat = 0x010 := by omega
    exact read_register (by omega) (by simp [memRead, hr, windowValue, h])
  · have h : off.toNat = 0x014 := by omega
    exact read_register (by omega) (by simp [memRead, hr, windowValue, h, esr_word_append])
  · have h : off.toNat = 0x018 := by omega
    exact read_register (by omega) (by simp [memRead, hr, windowValue, h])
  · have h : off.toNat = 0x01C := by omega
    exact read_register (by omega) (by simp [memRead, hr, windowValue, h, linkctl_word_append])
  · exact read_memory (.inl h) (by simp only [memRead, hr])
  · exact read_memory (.inr h) (by simp only [memRead, hr])
  · obtain ⟨h20, hrbuf, hxbuf⟩ := h
    have hm : ¬ inByteMemory s off := fun hm => hm.elim hrbuf hxbuf
    rw [afterRead_of_not_memory hm, windowValue_beyond h20, if_neg (fun hm => hm.elim hrbuf hxbuf)]
    simp only [memRead, hr]

/-- The read of `DATA` as master receiver starts the next byte (R53). -/
theorem memRead_data (s : State) :
    memRead dataOff .b s = (readData s).map fun p => (p.1.setWidth 32, p.2) := by
  cases h : readData s <;> simp [memRead, region, dataOff, h, Except.map]

/-! ## Writes -/

theorem setWidth_eq_extractLsb' (v : Word) : v.setWidth 8 = v.extractLsb' 0 8 := by
  rw [← setWidth_shiftRight, BitVec.ushiftRight_zero]

/-- A flag that a 1 clears (R49), as the model and as the claims say it. -/
theorem and_not_eq_ite (flag one : Bool) : (flag && !one) = if one then false else flag := by
  cases one <;> simp

/-- A write of `STAT` in the words of the claims (R49). -/
theorem stat_written_word (t : Stat) (v : Word) :
    t.written (v.setWidth 8) =
      { t with ifl := if v.getLsbD 1 then false else t.ifl, arbl := if v.getLsbD 4 then false else t.arbl } := by
  have hbit (i : Nat) (hi : i < 8) : (v.setWidth 8).getLsbD i = v.getLsbD i := by
    rw [BitVec.getLsbD_setWidth, decide_eq_true hi, Bool.true_and]
  unfold Stat.written
  rw [hbit 1 (by decide), hbit 4 (by decide), and_not_eq_ite, and_not_eq_ite]

/-- A write of `ESR` in the words of the claims (10_state.md R29). -/
theorem esr_written_word (e : Esr) (v : Word) :
    e.written v = { e with recov := if v.getLsbD 1 then false else e.recov } := by
  unfold Esr.written
  rw [and_not_eq_ite]

/-- The bytes that a write of `XBUF` stores, one by one (R45). -/
theorem writeBytes_leBytes (m : Memory) (a : Nat) (v : Word) (sz : Size) :
    writeBytes m a (leBytes sz.bytes v) =
      match sz with
      | .b => Store.write m a (v.extractLsb' 0 8)
      | .h => Store.write (Store.write m a (v.extractLsb' 0 8)) (a + 1) (v.extractLsb' 8 8)
      | .w =>
        Store.write (Store.write (Store.write (Store.write m a (v.extractLsb' 0 8)) (a + 1) (v.extractLsb' 8 8)) (a + 2)
          (v.extractLsb' 16 8)) (a + 3) (v.extractLsb' 24 8) := by
  rw [← setWidth_eq_extractLsb']
  cases sz <;> simp only [Size.bytes, leBytes, writeBytes, ← BitVec.shiftRight_add, setWidth_shiftRight]

/-- Beyond the registers a store reaches `XBUF` only (R44). -/
theorem stored_beyond (v : Word) (h : 0x020 ≤ off.toNat) :
    stored off sz v s =
      if s.params.variant = .b ∧ 0x400 ≤ off.toNat ∧ off.toNat < 0x800 then
        { s with mem := writeBytes s.mem off.toNat (leBytes sz.bytes v) }
      else s := by
  unfold stored
  dsimp only
  rw [if_neg (by omega), if_neg (by omega), if_neg (by omega), if_neg (by omega), if_neg (by omega), writeBytes_leBytes]
  cases sz <;> rfl

/-- Every allowed write but those of `CTRL`, `DATA` and `CMD` stores by its register's rule (R44, R48, R49). -/
theorem memWrite_stored (v : Word) (ha : AccessAllowed off sz) (h2 : off ≠ 0x002) (h4 : off ≠ 0x004) (h8 : off ≠ 0x008) :
    memWrite off sz v s = .ok (stored off sz v s) := by
  have haligned := ha.word_aligned
  rcases region_cases s.params.variant off with
    ⟨h, hr⟩ | ⟨h, hr⟩ | ⟨h, hr⟩ | ⟨h, hr⟩ | ⟨h, hr⟩ | ⟨h, hr⟩ | ⟨h, hr⟩ | ⟨h, hr⟩ | ⟨h, hr⟩ | ⟨h, hr⟩ | ⟨h, hr⟩ | ⟨h, hr⟩ |
      ⟨h, hr⟩ | ⟨h, hr⟩
  · have h : off.toNat = 0 ∨ off.toNat = 5 ∨ off.toNat = 6 ∨ off.toNat = 7 := by omega
    rcases h with h | h | h | h <;> simp [memWrite, hr, stored, h]
  · simp [memWrite, hr, stored, h, setWidth_eq_extractLsb']
  · exact absurd (BitVec.eq_of_toNat_eq h) h2
  · simp [memWrite, hr, stored, h, stat_written_word]
  · exact absurd (BitVec.eq_of_toNat_eq h) h4
  · have h : off.toNat = 0x008 := by omega
    exact absurd (BitVec.eq_of_toNat_eq h) h8
  · have h : off.toNat = 0x00C := by omega
    simp [memWrite, hr, stored, h]
  · have h : off.toNat = 0x010 := by omega
    simp [memWrite, hr, stored, h]
  · have h : off.toNat = 0x014 := by omega
    simp [memWrite, hr, stored, h, esr_written_word]
  · have h : off.toNat = 0x018 := by omega
    simp [memWrite, hr, stored, h]
  · have h : off.toNat = 0x01C := by omega
    simp [memWrite, hr, stored, h]
  · rw [stored_beyond v (by omega), if_neg (by omega)]
    simp only [memWrite, hr]
  · rw [stored_beyond v (by omega), if_pos h]
    simp only [memWrite, hr]
  · obtain ⟨h20, -, hxbuf⟩ := h
    rw [stored_beyond v h20, if_neg hxbuf]
    simp only [memWrite, hr]

/-! ## HOST's store of `CTRL` and `DATA` is that of `ST` -/

/-- `AUX` and SEQ, which a store of a module register neither reads nor writes. -/
def withControl (a : Word) (q : SeqState) (s : State) : State := { s with aux := a, seq := q }

theorem startBus_withControl (a : Word) (q : SeqState) (s : State) :
    startBus (withControl a q s) = withControl a q (startBus s) := by
  unfold startBus
  rw [apply_ite (withControl a q)]
  rfl

theorem writeCtrlBits_withControl (b : Byte) (a : Word) (q : SeqState) (s : State) :
    writeCtrlBits b (withControl a q s) = withControl a q (writeCtrlBits b s) := by
  unfold writeCtrlBits
  rw [apply_ite (withControl a q), apply_ite (withControl a q), ← startBus_withControl]
  rfl

theorem strobeRestart_withControl (a : Word) (q : SeqState) (s : State) :
    strobeRestart (withControl a q s) = (strobeRestart s).map (withControl a q) := by
  unfold strobeRestart
  rw [apply_ite (Except.map (withControl a q)), apply_ite (Except.map (withControl a q)),
    apply_ite (Except.map (withControl a q))]
  rfl

theorem writeCtrl_withControl (b : Byte) (a : Word) (q : SeqState) (s : State) :
    writeCtrl b (withControl a q s) = (writeCtrl b s).map (withControl a q) := by
  unfold writeCtrl
  rw [writeCtrlBits_withControl, strobeRestart_withControl, apply_ite (Except.map (withControl a q))]
  rfl

theorem writeData_withControl (b : Byte) (a : Word) (q : SeqState) (s : State) :
    writeData b (withControl a q s) = (writeData b s).map (withControl a q) := by
  unfold writeData
  rw [apply_ite (Except.map (withControl a q)), apply_ite (Except.map (withControl a q))]
  rfl

/-- `CTRL` or `DATA`. -/
def ModuleOffset (off : Offset) : Prop := off = 0x002 ∨ off = 0x004

theorem memWrite_withControl (hoff : ModuleOffset off) (v a : Word) (q : SeqState) (s : State) :
    memWrite off .b (lowBits .b v) (withControl a q s) = (memWrite off .b v s).map (withControl a q) := by
  have hlow : (lowBits .b v).setWidth 8 = v.setWidth 8 := (BitVec.setWidth_and ..).trans BitVec.and_allOnes
  obtain rfl | rfl := hoff
  · exact (congrArg (writeCtrl · _) hlow).trans (writeCtrl_withControl _ a q s)
  · exact (congrArg (writeData · _) hlow).trans (writeData_withControl _ a q s)

/-- HOST's write of `CTRL` or `DATA` at `IDLE` does what `ST` of the same word does, with `AUX` as it was and SEQ back at
`IDLE` (R48). -/
theorem hostWrite_module (hoff : ModuleOffset off) (v : Word) (hs : s.seq = .idle) :
    hostWrite off .b v s =
      match exec (.st .b off) (withControl v (.run 0x01 0) s) with
      | .next t => .next { t with aux := s.aux }
      | .fault f => .fault f
      | .refused r => .refused r := by
  have hlow : off.toNat < 8 := by obtain rfl | rfl := hoff <;> decide
  have hallowed : AccessAllowed off .b := by
    refine ⟨Nat.mod_one _, fun _ => rfl, fun h => ?_⟩
    omega
  have hcmd : off ≠ 0x008 := fun h => by rw [h] at hlow; exact absurd hlow (by decide)
  have hok : accessOk s.params.variant off .b = true := (accessOk_iff ..).2 hallowed
  have hst : commandAccessOk s.params.variant off .b false = true :=
    (commandAccessOk_iff ..).2 ⟨hallowed, hcmd, fun h => nomatch h⟩
  have hexec : exec (.st .b off) (withControl v (.run 0x01 0) s) =
      toResult (thenFinish ((memWrite off .b v s).map (withControl v (.run 0x01 0)))) := by
    rw [← memWrite_withControl hoff]
    exact congrArg toResult (if_pos hst)
  rw [hexec, hostWrite, if_pos hok]
  cases hw : memWrite off .b v s with
  | error f => rfl
  | ok t =>
    have hwork : Work Touch.nothing s t := memWrite_module_work hlow hw
    have haux : t.aux = s.aux := hwork.effect.aux_eq id id
    have hidle : t.seq = .idle := hwork.seq.trans hs
    have hback : { t with aux := s.aux, seq := .idle } = t := by rw [← haux, ← hidle]
    exact (if_neg (region_module _ hlow).1).trans (congrArg Host.Outcome.next hback.symm)

theorem hostWrite_stored (v : Word) (ha : AccessAllowed off sz) (h2 : off ≠ 0x002) (h4 : off ≠ 0x004) (h8 : off ≠ 0x008) :
    hostWrite off sz v s = .next (stored off sz v s) := by
  have hok : accessOk s.params.variant off sz = true := (accessOk_iff ..).2 ha
  have hst : commandAccessOk s.params.variant off sz false = true :=
    (commandAccessOk_iff ..).2 ⟨ha, h8, fun h => nomatch h⟩
  simp only [hostWrite, if_pos hok, memWrite_stored v ha h2 h4 h8, if_neg (commandAccessOk_ne_cmd hst)]

theorem hostWrite_refused (v : Word) (ha : ¬ AccessAllowed off sz) : hostWrite off sz v s = .refused .hostAccessError :=
  if_neg fun hok => ha ((accessOk_iff ..).1 hok)

/-! ## HOST's reads -/

theorem hostRead_ok {v : Word} {t : State} (ha : AccessAllowed off sz) (h : memRead off sz s = .ok (v, t)) :
    hostRead off sz s = .next { t with hostLog := t.hostLog ++ [{ off := off, sz := sz, value := v }] } := by
  simp only [hostRead, if_pos ((accessOk_iff s.params.variant off sz).2 ha), h]

theorem hostRead_fault {f : Fault} (ha : AccessAllowed off sz) (h : memRead off sz s = .error f) :
    hostRead off sz s = .fault f := by
  simp only [hostRead, if_pos ((accessOk_iff s.params.variant off sz).2 ha), h]

theorem hostRead_refused (ha : ¬ AccessAllowed off sz) : hostRead off sz s = .refused .hostAccessError :=
  if_neg fun hok => ha ((accessOk_iff ..).1 hok)

/-- `DATA` is read one byte at a time (R44). -/
theorem AccessAllowed.data_byte (ha : AccessAllowed dataOff sz) : sz = .b := ha.2.1 (by decide)

theorem data_not_memory (s : State) : ¬ inByteMemory s dataOff := by
  rintro (h | ⟨-, h⟩) <;> exact absurd h (by decide)

/-! ## HOST's turn -/

variable {rest : List HostAccess}

theorem hostTurn_read (hs : AtRest s) (hh : s.host = .read (s.params.address off) sz :: rest) :
    hostTurn s = hostRead off sz { s with host := rest } := by
  obtain hs | hs := hs <;> simp only [hostTurn, hh, HostAccess.addr, offsetOf_address, windowAccess, hs]

theorem hostTurn_halt_write {v : Word} (hs : s.seq = .halt) (hh : s.host = .write (s.params.address off) sz v :: rest) :
    hostTurn s = .next { s with host := rest } := by
  simp only [hostTurn, hh, HostAccess.addr, offsetOf_address, windowAccess, hs]

theorem hostTurn_held {op : Byte} {k : BitVec 6} {a : HostAccess} (hs : s.seq = .run op k) (hh : s.host = a :: rest)
    (ha : a.addr = s.params.address off) : hostTurn s = .next s := by
  simp only [hostTurn, hh, ha, offsetOf_address, windowAccess_running hs]

theorem hostTurn_nothing (hh : s.host = []) : hostTurn s = .next s := by
  simp only [hostTurn, hh]

/-- An access outside the window is not the block's (log 29). -/
theorem hostTurn_outside {a : HostAccess} (hh : s.host = a :: rest) (ha : ∀ off, a.addr ≠ s.params.address off) :
    hostTurn s = .next { s with host := rest } := by
  simp only [hostTurn, hh, (offsetOf_eq_none_iff _ _).2 ha]

/-- HOST's read is answered by what the window shows (R44, R48). -/
theorem hostTurn_read_window (hs : AtRest s) (hh : s.host = .read (s.params.address off) sz :: rest)
    (ha : AccessAllowed off sz) (hd : ¬ (off = 0x004 ∧ masterReceive s)) :
    hostTurn s =
      .next { afterRead s off sz with
        host := rest, hostLog := s.hostLog ++ [{ off := off, sz := sz, value := windowValue s off sz }] } :=
  (hostTurn_read hs hh).trans (hostRead_ok ha (memRead_window (s := { s with host := rest }) ha hd))

/-- HOST's read of `DATA` as master receiver also starts the next byte (R53). -/
theorem hostTurn_read_data (hs : AtRest s) (hh : s.host = .read (s.params.address dataOff) sz :: rest)
    (ha : AccessAllowed dataOff sz) (hm : masterReceive s) (hx : s.xfer = .none) :
    hostTurn s =
      .next { afterRead { s with xfer := .rx s.ctrl.answer } dataOff sz with
        host := rest, hostLog := s.hostLog ++ [{ off := dataOff, sz := sz, value := windowValue s dataOff sz }] } := by
  obtain ⟨hmst, htx⟩ := hm
  obtain rfl := ha.data_byte
  have hread : memRead dataOff .b { s with host := rest } =
      .ok (s.dbuf.setWidth 32, { s with xfer := .rx s.ctrl.answer, host := rest }) := by
    rw [memRead_data, readData_receive { s with host := rest } hmst htx hx]
    rfl
  rw [hostTurn_read hs hh, hostRead_ok ha hread, afterRead_of_not_memory (data_not_memory _)]
  rfl

theorem hostTurn_read_inFlight (hs : AtRest s) (hh : s.host = .read (s.params.address dataOff) sz :: rest)
    (ha : AccessAllowed dataOff sz) (hm : masterReceive s) (hx : s.xfer ≠ .none) :
    hostTurn s = .fault .byteInFlight := by
  obtain ⟨hmst, htx⟩ := hm
  obtain rfl := ha.data_byte
  have hread : memRead dataOff .b { s with host := rest } = .error .byteInFlight := by
    rw [memRead_data, readData_inFlight { s with host := rest } hmst htx hx]
    rfl
  rw [hostTurn_read hs hh, hostRead_fault ha hread]

/-- Settles O13: HOST's turn by the state of SEQ and by its access, each case a lemma above. -/
theorem hostAccessesTheWindow : Obligations.HostAccessesTheWindow := by
  refine ⟨fun s off sz rest hs hh => ?reads, fun s off sz v rest hs hh => ?writes, fun s off sz v rest hs hh => ?ignored,
    fun s op k hs hh => ?held, fun s a rest hh ha => ?outside⟩
  case reads =>
    refine ⟨fun ha hd => hostTurn_read_window hs hh ha hd, ?_, ?_, fun ha => ?_⟩
    · rintro ha rfl hm hx
      exact hostTurn_read_data hs hh ha hm hx
    · rintro ha rfl hm hx
      exact hostTurn_read_inFlight hs hh ha hm hx
    · exact (hostTurn_read hs hh).trans (hostRead_refused ha)
  case writes =>
    have hturn : hostTurn s = hostWrite off sz v { s with host := rest } := hostTurn_idle_write hs hh
    refine ⟨?_, fun ha h2 h4 h8 => hturn.trans (hostWrite_stored v ha h2 h4 h8),
      fun ha => hturn.trans (hostWrite_refused v ha)⟩
    rintro hoff rfl
    exact hturn.trans (hostWrite_module (s := { s with host := rest }) hoff v hs)
  case ignored => exact hostTurn_halt_write hs hh
  case held =>
    obtain hnone | ⟨a, rest, off, hh, ha⟩ := hh
    · exact hostTurn_nothing hnone
    · exact hostTurn_held hs hh ha
  case outside => exact hostTurn_outside hh ha

end Sys2Proof.Machine
end

section
/-! PROOFS. BUS's steps (20_memory.md R54, R55, R57, R58): each one's effect where its rule enables it, and the state left as
it is where the rule does not (log 2). -/

namespace Sys2Proof.Machine

variable {s : State}

/-! ## A byte completes -/

/-- `RXAK` is 1 exactly on a NACK (R54). -/
theorem ackRxak_eq_decide (a : Ack) : ackRxak a = decide (a = .nack) := by
  cases a <;> rfl

theorem busTx_sending {b : Byte} (a : Ack) (hx : s.xfer = .tx b) :
    busTx a s =
      { s with
        busTrace := s.busTrace ++ [.txb b a], stat := { s.stat with rxak := decide (a = .nack), ifl := true },
        xfer := .none } := by
  simp only [busTx, hx, ackRxak_eq_decide]

theorem busTx_not_sending (a : Ack) (hx : ∀ b : Byte, s.xfer ≠ .tx b) : busTx a s = s := by
  cases h : s.xfer with
  | none => simp only [busTx, h]
  | tx b => exact absurd h (hx b)
  | rx m => simp only [busTx, h]

theorem busRx_receiving {m : Ack} (d : Byte) (hx : s.xfer = .rx m) :
    busRx d s =
      { s with
        dbuf := d, busTrace := s.busTrace ++ [.rxb d m], stat := { s.stat with ifl := true }, xfer := .none } := by
  simp only [busRx, hx]

theorem busRx_not_receiving (d : Byte) (hx : ∀ m : Ack, s.xfer ≠ .rx m) : busRx d s = s := by
  cases h : s.xfer with
  | none => simp only [busRx, h]
  | tx b => simp only [busRx, h]
  | rx m => exact absurd h (hx m)

/-! ## Another master -/

theorem busBusy_enabled (taken : Bool) (hmm : s.params.multiMaster = true) (hmst : s.ctrl.mst = false) :
    busBusy taken s = { s with stat := { s.stat with busy := taken } } :=
  if_pos ⟨hmm, hmst⟩

theorem busBusy_disabled (taken : Bool) (h : s.params.multiMaster = false ∨ s.ctrl.mst = true) : busBusy taken s = s := by
  obtain hmm | hmst := h
  · simp [busBusy, hmm]
  · simp [busBusy, hmst]

theorem busArbLost_enabled (hmm : s.params.multiMaster = true) (hmst : s.ctrl.mst = true) :
    busArbLost s =
      { s with
        stat := { s.stat with arbl := true, ifl := true }, ctrl := { s.ctrl with mst := false }, xfer := .none } :=
  if_pos ⟨hmm, hmst⟩

theorem busArbLost_disabled (h : s.params.multiMaster = false ∨ s.ctrl.mst = false) : busArbLost s = s := by
  obtain hmm | hmst := h
  · simp [busArbLost, hmm]
  · simp [busArbLost, hmst]

/-! ## The obligation -/

/-- Settles O46: a turn of BUS always answers a next state, and that state is the one its operation's lemma above gives. -/
theorem busSteps : Obligations.BusSteps := by
  refine ⟨fun s b a hx => ?sent, fun s a hx => ?notSending, fun s m d hx => ?received, fun s d hx => ?notReceiving,
    fun s taken => ⟨fun hmm hmst => ?taken, fun h => ?notTaken⟩, fun s => ⟨fun hmm hmst => ?lost, fun h => ?notLost⟩⟩
  case sent => exact congrArg Host.Outcome.next (busTx_sending a hx)
  case notSending => exact congrArg Host.Outcome.next (busTx_not_sending a hx)
  case received => exact congrArg Host.Outcome.next (busRx_receiving d hx)
  case notReceiving => exact congrArg Host.Outcome.next (busRx_not_receiving d hx)
  case taken => exact congrArg Host.Outcome.next (busBusy_enabled taken hmm hmst)
  case notTaken => exact congrArg Host.Outcome.next (busBusy_disabled taken h)
  case lost => exact congrArg Host.Outcome.next (busArbLost_enabled hmm hmst)
  case notLost => exact congrArg Host.Outcome.next (busArbLost_disabled h)

end Sys2Proof.Machine
end

section
/-! PROOFS. The command encoding (30_encoding.md R69 to R76): the rows of the opcode table with the bits each leaves unused,
what the decoder reads by each row, and from these the round trips and the five kinds of illegal word. -/

namespace Sys2Proof.Machine

/-! ## A word and its fields -/

/-- A word is its opcode and operand bytes at their places (R70). -/
theorem packP_fields (w : Word) : packP (opc w) (opA w) (opB w) (opC w) = w := by
  have hop : w.extractLsb' 24 8 ++ w.extractLsb' 16 8 = w.extractLsb' 16 16 :=
    BitVec.extractLsb'_append_extractLsb'_eq_extractLsb' rfl
  have hlow : w.extractLsb' 16 16 ++ w.extractLsb' 8 8 = w.extractLsb' 8 24 :=
    BitVec.extractLsb'_append_extractLsb'_eq_extractLsb' rfl
  calc packP (opc w) (opA w) (opB w) (opC w)
      = w.extractLsb' 24 8 ++ w.extractLsb' 16 8 ++ w.extractLsb' 8 8 ++ w.extractLsb' 0 8 := rfl
    _ = w.extractLsb' 8 24 ++ w.extractLsb' 0 8 := by rw [hop, hlow]
    _ = w.extractLsb' 0 32 := BitVec.extractLsb'_append_extractLsb'_eq_extractLsb' rfl
    _ = w := BitVec.extractLsb'_eq_self

/-- The 16-bit operand of `BF.ENQ` and `BF.DEQ` is the bytes `B` and `C` (R74). -/
theorem opB_append_opC (w : Word) : opB w ++ opC w = w.extractLsb' 0 16 :=
  BitVec.extractLsb'_append_extractLsb'_eq_extractLsb' rfl

/-- A word is its fields of format R at their places (R71). -/
theorem append_fieldsR (w : Word) : opc w ++ opSZ w ++ opPOS w ++ opWM1 w ++ opADDR w = w := by
  have hsz : w.extractLsb' 24 8 ++ w.extractLsb' 22 2 = w.extractLsb' 22 10 :=
    BitVec.extractLsb'_append_extractLsb'_eq_extractLsb' rfl
  have hpos : w.extractLsb' 22 10 ++ w.extractLsb' 17 5 = w.extractLsb' 17 15 :=
    BitVec.extractLsb'_append_extractLsb'_eq_extractLsb' rfl
  have hwm1 : w.extractLsb' 17 15 ++ w.extractLsb' 12 5 = w.extractLsb' 12 20 :=
    BitVec.extractLsb'_append_extractLsb'_eq_extractLsb' rfl
  calc opc w ++ opSZ w ++ opPOS w ++ opWM1 w ++ opADDR w
      = w.extractLsb' 24 8 ++ w.extractLsb' 22 2 ++ w.extractLsb' 17 5 ++ w.extractLsb' 12 5 ++ w.extractLsb' 0 12 := rfl
    _ = w.extractLsb' 12 20 ++ w.extractLsb' 0 12 := by rw [hsz, hpos, hwm1]
    _ = w.extractLsb' 0 32 := BitVec.extractLsb'_append_extractLsb'_eq_extractLsb' rfl
    _ = w := BitVec.extractLsb'_eq_self

theorem packR_fields {w : Word} {z : Size} (hz : opSZ w = z.code) :
    packR (opc w) z (opPOS w) (opWM1 w) (opADDR w) = w := by
  rw [packR, ← hz]
  exact append_fieldsR w

/-- `SZ` names a size unless it is 3 (R71). -/
theorem sizeCode_cases (x : BitVec 2) : x = 3 ∨ ∃ z : Size, x = z.code := by
  have h : x = 0 ∨ x = 1 ∨ x = 2 ∨ x = 3 := by revert x; decide
  obtain rfl | rfl | rfl | rfl := h
  · exact .inr ⟨.b, rfl⟩
  · exact .inr ⟨.h, rfl⟩
  · exact .inr ⟨.w, rfl⟩
  · exact .inl rfl

theorem code_ne_three (z : Size) : z.code ≠ 3 := by
  cases z <;> decide

/-- The bits of an access as R75 counts them: `8 << SZ`. -/
theorem code_toNat (z : Size) : 8 * 2 ^ z.code.toNat = z.bits := by
  cases z <;> rfl

/-! ## Unused bits -/

theorem packP_and (op a b c mo ma mb mc : Byte) :
    packP op a b c &&& packP mo ma mb mc = packP (op &&& mo) (a &&& ma) (b &&& mb) (c &&& mc) := by
  show (op ++ a ++ b ++ c : BitVec (8 + 8 + 8 + 8)) &&& (mo ++ ma ++ mb ++ mc) = _
  rw [BitVec.and_append, BitVec.and_append, BitVec.and_append]
  rfl

/-- A word has no 1 under a mask of operand bits exactly where none of its operand bytes has. -/
theorem and_packP_eq_zero_iff (w : Word) (ma mb mc : Byte) :
    w &&& packP 0 ma mb mc = 0 ↔ opA w &&& ma = 0#8 ∧ opB w &&& mb = 0#8 ∧ opC w &&& mc = 0#8 := by
  have hand : w &&& packP 0 ma mb mc = packP 0 (opA w &&& ma) (opB w &&& mb) (opC w &&& mc) :=
    calc w &&& packP 0 ma mb mc
        = packP (opc w) (opA w) (opB w) (opC w) &&& packP 0 ma mb mc := by rw [packP_fields]
      _ = packP (opc w &&& 0) (opA w &&& ma) (opB w &&& mb) (opC w &&& mc) := packP_and ..
      _ = packP 0 (opA w &&& ma) (opB w &&& mb) (opC w &&& mc) := congrArg (packP · _ _ _) BitVec.and_zero
  rw [hand]
  constructor
  · intro h
    exact ⟨(opA_packP ..).symm.trans (congrArg opA h), (opB_packP ..).symm.trans (congrArg opB h),
      (opC_packP ..).symm.trans (congrArg opC h)⟩
  · rintro ⟨ha, hb, hc⟩
    rw [ha, hb, hc]
    rfl

/-- The bits that a row of format R without a bit field leaves unused are `POS` and `WM1` (R71). -/
theorem and_fieldBits_eq_zero_iff (w : Word) : w &&& 0x003FF000 = 0 ↔ opPOS w = 0 ∧ opWM1 w = 0 := by
  have hmask : (0x003FF000 : Word) = 0#8 ++ 0#2 ++ 31#5 ++ 31#5 ++ 0#12 := by decide
  have hpos : opPOS w &&& 31#5 = opPOS w := BitVec.and_allOnes
  have hwm1 : opWM1 w &&& 31#5 = opWM1 w := BitVec.and_allOnes
  have hand : w &&& 0x003FF000 = packR 0 .b (opPOS w) (opWM1 w) 0 := by
    rw [hmask]
    conv_lhs => rw [← append_fieldsR w]
    show (_ ++ _ ++ _ ++ _ ++ _ : BitVec (8 + 2 + 5 + 5 + 12)) &&& _ = _
    rw [BitVec.and_append, BitVec.and_append, BitVec.and_append, BitVec.and_append, hpos, hwm1, BitVec.and_zero,
      BitVec.and_zero, BitVec.and_zero]
    rfl
  rw [hand]
  constructor
  · intro h
    exact ⟨(opPOS_packR ..).symm.trans (congrArg opPOS h), (opWM1_packR ..).symm.trans (congrArg opWM1 h)⟩
  · rintro ⟨hp, hw⟩
    rw [hp, hw]
    rfl

/-! ## Operand bytes -/

@[simp] theorem byte_and_all (x : Byte) : x &&& 0xFF#8 = x := BitVec.and_allOnes

/-- Bit 7 of an operand byte with a slave address is unused (R70). -/
theorem slaveOf_eq (x : Byte) : slaveOf? x = if x &&& 0x80#8 = 0#8 then some (x.extractLsb' 0 7) else none := by
  revert x; decide

/-- Bits 7:1 of an operand byte with the number of a FIFO are unused (R74). -/
theorem instOf_eq (x : Byte) : instOf? x = if x &&& 0xFE#8 = 0#8 then some (x.extractLsb' 0 1) else none := by
  revert x; decide

theorem high7_eq_zero_iff (x : Byte) : x.extractLsb' 1 7 = 0#7 ↔ x &&& 0xFE#8 = 0#8 := by revert x; decide
theorem high5_eq_zero_iff (x : Byte) : x.extractLsb' 3 5 = 0#5 ↔ x &&& 0xF8#8 = 0#8 := by revert x; decide
theorem high4_eq_zero_iff (x : Byte) : x.extractLsb' 4 4 = 0#4 ↔ x &&& 0xF0#8 = 0#8 := by revert x; decide

theorem setWidth_low7 {x : Byte} (h : x &&& 0x80#8 = 0#8) : (x.extractLsb' 0 7).setWidth 8 = x := by revert x; decide
theorem setWidth_low4 {x : Byte} (h : x &&& 0xF0#8 = 0#8) : (x.extractLsb' 0 4).setWidth 8 = x := by revert x; decide
theorem setWidth_low3 {x : Byte} (h : x &&& 0xF8#8 = 0#8) : (x.extractLsb' 0 3).setWidth 8 = x := by revert x; decide
theorem setWidth_low1 {x : Byte} (h : x &&& 0xFE#8 = 0#8) : (x.extractLsb' 0 1).setWidth 8 = x := by revert x; decide

/-! ## The rows of the opcode table -/

/-- The rows of R74 in format R without a bit field: opcode and command. -/
inductive AccessRow : Byte → (Size → Offset → Instr) → Prop
  | ld : AccessRow 0x00#8 .ld
  | st : AccessRow 0x01#8 .st
  | aand : AccessRow 0x02#8 .aand
  | aor : AccessRow 0x03#8 .aor
  | axor : AccessRow 0x04#8 .axor

/-- The rows of R74 in format R with a bit field: opcode and command. -/
inductive FieldRow : Byte → (Size → BitVec 5 → BitVec 5 → Offset → Instr) → Prop
  | bfi : FieldRow 0x05#8 .bfi
  | ubfx : FieldRow 0x06#8 .ubfx

/-- The rows of R74 in format P: opcode, the unused bits of the operand bytes `A`, `B` and `C`, and the command that the bytes
stand for. -/
inductive ByteRow : Byte → Byte → Byte → Byte → (Byte → Byte → Byte → Instr) → Prop
  | waitbusy : ByteRow 0x10#8 0xFF#8 0xFF#8 0xFF#8 fun _ _ _ => .waitbusy
  | start : ByteRow 0x11#8 0xFF#8 0xFF#8 0xFF#8 fun _ _ _ => .start
  | sendb : ByteRow 0x12#8 0xFF#8 0xFF#8 0x00#8 fun _ _ c => .sendb c
  | rstart : ByteRow 0x13#8 0xFF#8 0xFF#8 0xFF#8 fun _ _ _ => .rstart
  | rxmode : ByteRow 0x14#8 0xFF#8 0xFF#8 0xFE#8 fun _ _ c => .rxmode (c.extractLsb' 0 1)
  | drvclk : ByteRow 0x15#8 0xFF#8 0xFF#8 0xFF#8 fun _ _ _ => .drvclk
  | stop : ByteRow 0x16#8 0xFF#8 0xFF#8 0xFF#8 fun _ _ _ => .stop
  | resetbus : ByteRow 0x17#8 0xFF#8 0xFF#8 0xFF#8 fun _ _ _ => .resetbus
  | waitb : ByteRow 0x18#8 0xFF#8 0xFF#8 0xFF#8 fun _ _ _ => .waitb
  | rdreg : ByteRow 0x20#8 0x80#8 0x00#8 0xFF#8 fun a b _ => .rdreg (a.extractLsb' 0 7) b
  | rdregs : ByteRow 0x21#8 0x80#8 0x00#8 0x00#8 fun a b c => .rdregs (a.extractLsb' 0 7) b c
  | wrreg : ByteRow 0x22#8 0x80#8 0x00#8 0x00#8 fun a b c => .wrreg (a.extractLsb' 0 7) b c
  | modreg : ByteRow 0x23#8 0x80#8 0x00#8 0xFF#8 fun a b _ => .modreg (a.extractLsb' 0 7) b
  | prep : ByteRow 0x30#8 0xF8#8 0x80#8 0xFF#8 fun a b _ => .prep (a.extractLsb' 0 3) (b.extractLsb' 0 7)
  | config : ByteRow 0x31#8 0xFF#8 0xFF#8 0xF0#8 fun _ _ c => .config (c.extractLsb' 0 4)
  | select : ByteRow 0x32#8 0xFF#8 0x80#8 0xFF#8 fun _ b _ => .select (b.extractLsb' 0 7)
  | rbInit : ByteRow 0x40#8 0xFE#8 0xFF#8 0xFF#8 fun a _ _ => .rbInit (a.extractLsb' 0 1)
  | rbPush : ByteRow 0x41#8 0xFE#8 0xFF#8 0x00#8 fun a _ c => .rbPush (a.extractLsb' 0 1) c
  | rbPop : ByteRow 0x42#8 0xFE#8 0xFF#8 0xFF#8 fun a _ _ => .rbPop (a.extractLsb' 0 1)
  | rbCount : ByteRow 0x43#8 0xFE#8 0xFF#8 0xFF#8 fun a _ _ => .rbCount (a.extractLsb' 0 1)
  | rbEmpty : ByteRow 0x44#8 0xFE#8 0xFF#8 0xFF#8 fun a _ _ => .rbEmpty (a.extractLsb' 0 1)
  | rbFull : ByteRow 0x45#8 0xFE#8 0xFF#8 0xFF#8 fun a _ _ => .rbFull (a.extractLsb' 0 1)
  | rbWaitne : ByteRow 0x46#8 0xFE#8 0xFF#8 0xFF#8 fun a _ _ => .rbWaitne (a.extractLsb' 0 1)
  | rbWaitnf : ByteRow 0x47#8 0xFE#8 0xFF#8 0xFF#8 fun a _ _ => .rbWaitnf (a.extractLsb' 0 1)
  | rbWaite : ByteRow 0x48#8 0xFE#8 0xFF#8 0xFF#8 fun a _ _ => .rbWaite (a.extractLsb' 0 1)
  | bfEnq : ByteRow 0x50#8 0xFE#8 0x00#8 0x00#8 fun a b c => .bfEnq (a.extractLsb' 0 1) (b ++ c)
  | bfDeq : ByteRow 0x51#8 0xFE#8 0x00#8 0x00#8 fun a b c => .bfDeq (a.extractLsb' 0 1) (b ++ c)
  | bfLen : ByteRow 0x52#8 0xFE#8 0xFF#8 0xFF#8 fun a _ _ => .bfLen (a.extractLsb' 0 1)
  | bfFull : ByteRow 0x53#8 0xFE#8 0xFF#8 0xFF#8 fun a _ _ => .bfFull (a.extractLsb' 0 1)

/-- The opcodes of R76 case 1: those that the map of R74 does not hold. -/
def OutsideMap (op : Byte) : Prop :=
  0x07 ≤ op.toNat ∧ op.toNat ≤ 0x0F ∨ 0x19 ≤ op.toNat ∧ op.toNat ≤ 0x1F ∨ 0x24 ≤ op.toNat ∧ op.toNat ≤ 0x2F ∨
    0x33 ≤ op.toNat ∧ op.toNat ≤ 0x3F ∨ 0x49 ≤ op.toNat ∧ op.toNat ≤ 0x4F ∨ 0x54 ≤ op.toNat

theorem opcode_listed_or_outsideMap :
    ∀ op : Byte, OutsideMap op ∨
      op ∈ [0x00#8, 0x01#8, 0x02#8, 0x03#8, 0x04#8, 0x05#8, 0x06#8, 0x10#8, 0x11#8, 0x12#8, 0x13#8, 0x14#8, 0x15#8, 0x16#8,
        0x17#8, 0x18#8, 0x20#8, 0x21#8, 0x22#8, 0x23#8, 0x30#8, 0x31#8, 0x32#8, 0x40#8, 0x41#8, 0x42#8, 0x43#8, 0x44#8,
        0x45#8, 0x46#8, 0x47#8, 0x48#8, 0x50#8, 0x51#8, 0x52#8, 0x53#8] := by
  unfold OutsideMap
  decide

/-- R76 cases 1 to 4: the kinds of illegal word that are the same in both variants. -/
def Malformed (w : Word) : Prop :=
  OutsideMap (opc w) ∨ w &&& unusedBits (opc w) ≠ 0 ∨ ((opc w).toNat ≤ 6 ∧ opSZ w = 3) ∨
    (((opc w).toNat = 5 ∨ (opc w).toNat = 6) ∧ 8 * 2 ^ (opSZ w).toNat < (opPOS w).toNat + (opWM1 w).toNat + 1)

/-- Every opcode of the map has a row. -/
theorem rows_cover (op : Byte) :
    OutsideMap op ∨ (∃ mk, AccessRow op mk) ∨ (∃ mk, FieldRow op mk) ∨ ∃ ma mb mc mk, ByteRow op ma mb mc mk := by
  refine (opcode_listed_or_outsideMap op).imp_right fun hop => ?_
  simp only [List.mem_cons, List.not_mem_nil, or_false] at hop
  rcases hop with rfl | rfl | rfl | rfl | rfl | rfl | rfl | hop
  · exact .inl ⟨_, .ld⟩
  · exact .inl ⟨_, .st⟩
  · exact .inl ⟨_, .aand⟩
  · exact .inl ⟨_, .aor⟩
  · exact .inl ⟨_, .axor⟩
  · exact .inr (.inl ⟨_, .bfi⟩)
  · exact .inr (.inl ⟨_, .ubfx⟩)
  · refine .inr (.inr ?_)
    rcases hop with rfl | rfl | rfl | rfl | rfl | rfl | rfl | rfl | rfl | rfl | rfl | rfl | rfl | rfl | rfl | rfl | rfl | rfl |
      rfl | rfl | rfl | rfl | rfl | rfl | rfl | rfl | rfl | rfl | rfl
    all_goals exact ⟨_, _, _, _, by constructor⟩

/-! ## The decoder, row by row -/

/-- A word whose opcode has no row does not decode (R76 case 1). -/
theorem decodeWord_outsideMap {w : Word} (hout : OutsideMap (opc w)) : decodeWord w = none := by
  unfold decodeWord
  split
  case h_37 => rfl
  all_goals
    rename_i hop
    rw [hop] at hout
    exact absurd hout (by unfold OutsideMap; decide)

theorem decodePlain_eq (i : Instr) (w : Word) :
    decodePlain i w =
      if opA w &&& 0xFF#8 = 0#8 ∧ opB w &&& 0xFF#8 = 0#8 ∧ opC w &&& 0xFF#8 = 0#8 then some i else none := by
  simp only [byte_and_all]
  rfl

theorem slaveOf_map (x : Byte) (f : Slave → Instr) :
    (slaveOf? x).map f = if x &&& 0x80#8 = 0#8 then some (f (x.extractLsb' 0 7)) else none := by
  rw [slaveOf_eq, apply_ite (Option.map f)]
  rfl

theorem instOf_map (x : Byte) (f : Inst → Instr) :
    (instOf? x).map f = if x &&& 0xFE#8 = 0#8 then some (f (x.extractLsb' 0 1)) else none := by
  rw [instOf_eq, apply_ite (Option.map f)]
  rfl

theorem decodeInst_eq (mk : Inst → Instr) (w : Word) :
    decodeInst mk w =
      if opA w &&& 0xFE#8 = 0#8 ∧ opB w &&& 0xFF#8 = 0#8 ∧ opC w &&& 0xFF#8 = 0#8 then
        some (mk ((opA w).extractLsb' 0 1))
      else none := by
  simp only [byte_and_all, decodeInst, instOf_map, ← ite_and, and_comm, BitVec.ofNat_eq_ofNat]

section Rows

variable {op ma mb mc : Byte} {w : Word}

theorem AccessRow.decodeWord_eq {mk : Size → Offset → Instr} (row : AccessRow op mk) (hop : opc w = op) :
    decodeWord w = decodeAccess mk w := by
  cases row <;> simp only [decodeWord, hop]

theorem FieldRow.decodeWord_eq {mk : Size → BitVec 5 → BitVec 5 → Offset → Instr} (row : FieldRow op mk)
    (hop : opc w = op) : decodeWord w = decodeField mk w := by
  cases row <;> simp only [decodeWord, hop]

/-- A word of format P decodes where no unused bit is set (R76 case 2). -/
theorem ByteRow.decodeWord_eq {mk : Byte → Byte → Byte → Instr} (row : ByteRow op ma mb mc mk) (hop : opc w = op) :
    decodeWord w =
      if opA w &&& ma = 0#8 ∧ opB w &&& mb = 0#8 ∧ opC w &&& mc = 0#8 then some (mk (opA w) (opB w) (opC w)) else none := by
  cases row
  case waitbusy | start | rstart | drvclk | stop | resetbus | waitb => simp only [decodeWord, hop, decodePlain_eq]
  case rbInit | rbPop | rbCount | rbEmpty | rbFull | rbWaitne | rbWaitnf | rbWaite | bfLen | bfFull =>
    simp only [decodeWord, hop, decodeInst_eq]
  case sendb | rxmode | config => simp [decodeWord, hop, high7_eq_zero_iff, high4_eq_zero_iff]
  case rdreg | rdregs | wrreg | modreg | select | prep =>
    simp [decodeWord, hop, slaveOf_map, high5_eq_zero_iff, ← ite_and, and_comm, and_left_comm]
  case rbPush | bfEnq | bfDeq => simp [decodeWord, hop, instOf_map, opB_append_opC, ← ite_and, and_comm]

/-! ### The words of a row's commands -/

theorem AccessRow.encode_mk {mk : Size → Offset → Instr} (row : AccessRow op mk) (z : Size) (addr : Offset) :
    encode (mk z addr) = packR op z 0 0 addr ∧ (mk z addr).fits = true := by
  cases row <;> exact ⟨rfl, rfl⟩

theorem FieldRow.encode_mk {mk : Size → BitVec 5 → BitVec 5 → Offset → Instr} (row : FieldRow op mk) (z : Size)
    (pos wm1 : BitVec 5) (addr : Offset) :
    encode (mk z pos wm1 addr) = packR op z pos wm1 addr ∧ (mk z pos wm1 addr).fits = fieldFits z pos wm1 := by
  cases row <;> exact ⟨rfl, rfl⟩

theorem ByteRow.encode_mk {mk : Byte → Byte → Byte → Instr} (row : ByteRow op ma mb mc mk) {a b c : Byte}
    (ha : a &&& ma = 0#8) (hb : b &&& mb = 0#8) (hc : c &&& mc = 0#8) :
    encode (mk a b c) = packP op a b c ∧ (mk a b c).fits = true := by
  have hlow : (b ++ c).extractLsb' 0 8 = c := BitVec.extractLsb'_append_eq_right
  have hhigh : (b ++ c).extractLsb' 8 8 = b := BitVec.extractLsb'_append_eq_left
  cases row
  case waitbusy | start | rstart | drvclk | stop | resetbus | waitb =>
    rw [byte_and_all] at ha hb hc
    subst ha hb hc
    exact ⟨rfl, rfl⟩
  case sendb =>
    rw [byte_and_all] at ha hb
    subst ha hb
    exact ⟨rfl, rfl⟩
  case rxmode =>
    rw [byte_and_all] at ha hb
    subst ha hb
    exact ⟨congrArg (packP _ _ _) (setWidth_low1 hc), rfl⟩
  case config =>
    rw [byte_and_all] at ha hb
    subst ha hb
    exact ⟨congrArg (packP _ _ _) (setWidth_low4 hc), rfl⟩
  case rdreg | modreg =>
    rw [byte_and_all] at hc
    subst hc
    exact ⟨congrArg (packP _ · _ _) (setWidth_low7 ha), rfl⟩
  case rdregs | wrreg => exact ⟨congrArg (packP _ · _ _) (setWidth_low7 ha), rfl⟩
  case prep =>
    rw [byte_and_all] at hc
    subst hc
    exact ⟨congrArg₂ (packP _ · · _) (setWidth_low3 ha) (setWidth_low7 hb), rfl⟩
  case select =>
    rw [byte_and_all] at ha hc
    subst ha hc
    exact ⟨congrArg (packP _ _ · _) (setWidth_low7 hb), rfl⟩
  case rbInit | rbPop | rbCount | rbEmpty | rbFull | rbWaitne | rbWaitnf | rbWaite | bfLen | bfFull =>
    rw [byte_and_all] at hb hc
    subst hb hc
    exact ⟨congrArg (packP _ · _ _) (setWidth_low1 ha), rfl⟩
  case rbPush =>
    rw [byte_and_all] at hb
    subst hb
    exact ⟨congrArg (packP _ · _ _) (setWidth_low1 ha), rfl⟩
  case bfEnq | bfDeq =>
    have hword (op : Byte) :
        packP op ((a.extractLsb' 0 1).setWidth 8) ((b ++ c).extractLsb' 8 8) ((b ++ c).extractLsb' 0 8) = packP op a b c := by
      rw [setWidth_low1 ha, hhigh, hlow]
    exact ⟨hword _, rfl⟩

/-- `SZ = 3` is illegal (R76 case 3). -/
theorem decodeAccess_reserved (mk : Size → Offset → Instr) (h3 : opSZ w = 3) : decodeAccess mk w = none := by
  rw [decodeAccess, h3]
  exact ite_self _

theorem decodeAccess_size (mk : Size → Offset → Instr) {z : Size} (hz : opSZ w = z.code) :
    decodeAccess mk w = if opPOS w = 0 ∧ opWM1 w = 0 then some (mk z (opADDR w)) else none := by
  rw [decodeAccess, hz, sizeOf_code]
  rfl

theorem decodeField_reserved (mk : Size → BitVec 5 → BitVec 5 → Offset → Instr) (h3 : opSZ w = 3) :
    decodeField mk w = none := by
  rw [decodeField, h3]
  rfl

theorem decodeField_size (mk : Size → BitVec 5 → BitVec 5 → Offset → Instr) {z : Size} (hz : opSZ w = z.code) :
    decodeField mk w =
      if fieldFits z (opPOS w) (opWM1 w) = true then some (mk z (opPOS w) (opWM1 w) (opADDR w)) else none := by
  rw [decodeField, hz, sizeOf_code]

theorem AccessRow.encode_of_decodeWord {mk : Size → Offset → Instr} {i : Instr} (row : AccessRow (opc w) mk)
    (hd : decodeWord w = some i) : encode i = w ∧ i.fits = true := by
  rw [row.decodeWord_eq rfl] at hd
  obtain h3 | ⟨z, hz⟩ := sizeCode_cases (opSZ w)
  · rw [decodeAccess_reserved mk h3] at hd
    cases hd
  · rw [decodeAccess_size mk hz, Option.ite_none_right_eq_some] at hd
    obtain ⟨⟨hpos, hwm1⟩, hi⟩ := hd
    obtain ⟨henc, hfits⟩ := row.encode_mk z (opADDR w)
    have hw : packR (opc w) z (opPOS w) (opWM1 w) (opADDR w) = w := packR_fields hz
    rw [hpos, hwm1] at hw
    rw [← Option.some.inj hi]
    exact ⟨henc.trans hw, hfits⟩

theorem FieldRow.encode_of_decodeWord {mk : Size → BitVec 5 → BitVec 5 → Offset → Instr} {i : Instr}
    (row : FieldRow (opc w) mk) (hd : decodeWord w = some i) : encode i = w ∧ i.fits = true := by
  rw [row.decodeWord_eq rfl] at hd
  obtain h3 | ⟨z, hz⟩ := sizeCode_cases (opSZ w)
  · rw [decodeField_reserved mk h3] at hd
    cases hd
  · rw [decodeField_size mk hz, Option.ite_none_right_eq_some] at hd
    obtain ⟨hfield, hi⟩ := hd
    obtain ⟨henc, hfits⟩ := row.encode_mk z (opPOS w) (opWM1 w) (opADDR w)
    rw [← Option.some.inj hi, henc, hfits]
    exact ⟨packR_fields hz, hfield⟩

theorem ByteRow.encode_of_decodeWord {mk : Byte → Byte → Byte → Instr} {i : Instr} (row : ByteRow (opc w) ma mb mc mk)
    (hd : decodeWord w = some i) : encode i = w ∧ i.fits = true := by
  rw [row.decodeWord_eq rfl, Option.ite_none_right_eq_some] at hd
  obtain ⟨⟨ha, hb, hc⟩, hi⟩ := hd
  obtain ⟨henc, hfits⟩ := row.encode_mk ha hb hc
  rw [← Option.some.inj hi, henc]
  exact ⟨packP_fields w, hfits⟩

/-! ### The illegal words of a row (R76 cases 2 to 4) -/

theorem AccessRow.malformed_iff {mk : Size → Offset → Instr} (row : AccessRow (opc w) mk) :
    Malformed w ↔ decodeWord w = none := by
  obtain ⟨hin, hlt, hunused⟩ : ¬ OutsideMap (opc w) ∧ (opc w).toNat < 5 ∧ unusedBits (opc w) = 0x003FF000 := by
    generalize opc w = op at row
    cases row <;> exact ⟨by unfold OutsideMap; decide, by decide, rfl⟩
  have hsz : (opc w).toNat ≤ 6 := by omega
  have hfield : ¬ ((opc w).toNat = 5 ∨ (opc w).toNat = 6) := by omega
  simp only [Malformed, hin, hunused, hsz, hfield, false_or, true_and, false_and, or_false, ne_eq,
    and_fieldBits_eq_zero_iff, row.decodeWord_eq rfl]
  obtain h3 | ⟨z, hz⟩ := sizeCode_cases (opSZ w)
  · simp only [h3, or_true, decodeAccess_reserved]
  · simp only [decodeAccess_size mk hz, hz, code_ne_three, or_false, ite_eq_right_iff, reduceCtorEq, imp_false]

theorem FieldRow.malformed_iff {mk : Size → BitVec 5 → BitVec 5 → Offset → Instr} (row : FieldRow (opc w) mk) :
    Malformed w ↔ decodeWord w = none := by
  obtain ⟨hin, hfield, hunused⟩ :
      ¬ OutsideMap (opc w) ∧ ((opc w).toNat = 5 ∨ (opc w).toNat = 6) ∧ unusedBits (opc w) = 0 := by
    generalize opc w = op at row
    cases row <;> exact ⟨by unfold OutsideMap; decide, by decide, rfl⟩
  have hsz : (opc w).toNat ≤ 6 := by omega
  have hzero : w &&& 0 = 0 := BitVec.and_zero
  simp only [Malformed, hin, hunused, hsz, hfield, hzero, false_or, true_and, ne_eq, not_true, row.decodeWord_eq rfl]
  obtain h3 | ⟨z, hz⟩ := sizeCode_cases (opSZ w)
  · simp only [h3, true_or, decodeField_reserved]
  · simp only [decodeField_size mk hz, hz, code_ne_three, false_or, code_toNat, ite_eq_right_iff, reduceCtorEq, imp_false,
      fieldFits, decide_eq_true_eq, not_le]

theorem ByteRow.malformed_iff {mk : Byte → Byte → Byte → Instr} (row : ByteRow (opc w) ma mb mc mk) :
    Malformed w ↔ decodeWord w = none := by
  obtain ⟨hin, hlt, hunused⟩ :
      ¬ OutsideMap (opc w) ∧ 6 < (opc w).toNat ∧ unusedBits (opc w) = packP 0 ma mb mc := by
    generalize opc w = op at row
    cases row <;> exact ⟨by unfold OutsideMap; decide, by decide, rfl⟩
  have hsz : ¬ (opc w).toNat ≤ 6 := by omega
  have hfield : ¬ ((opc w).toNat = 5 ∨ (opc w).toNat = 6) := by omega
  simp only [Malformed, hin, hunused, hsz, hfield, false_or, false_and, or_false, ne_eq, and_packP_eq_zero_iff,
    row.decodeWord_eq rfl, ite_eq_right_iff, reduceCtorEq, imp_false]

end Rows

/-! ## Round trips -/

/-- A word that decodes is the word of its command, whose bit field fits (R74, R75). -/
theorem encode_of_decodeWord {w : Word} {i : Instr} (hd : decodeWord w = some i) : encode i = w ∧ i.fits = true := by
  obtain hout | ⟨mk, row⟩ | ⟨mk, row⟩ | ⟨ma, mb, mc, mk, row⟩ := rows_cover (opc w)
  · rw [decodeWord_outsideMap hout] at hd
    cases hd
  · exact row.encode_of_decodeWord hd
  · exact row.encode_of_decodeWord hd
  · exact row.encode_of_decodeWord hd

@[simp] theorem decodeAccess_packR (mk : Size → Offset → Instr) (op : Byte) (z : Size) (addr : Offset) :
    decodeAccess mk (packR op z 0 0 addr) = some (mk z addr) := by
  rw [decodeAccess_size mk (opSZ_packR ..), opPOS_packR, opWM1_packR, opADDR_packR]
  rfl

theorem decodeField_packR (mk : Size → BitVec 5 → BitVec 5 → Offset → Instr) (op : Byte) {z : Size} {pos wm1 : BitVec 5}
    (addr : Offset) (hfits : fieldFits z pos wm1 = true) :
    decodeField mk (packR op z pos wm1 addr) = some (mk z pos wm1 addr) := by
  rw [decodeField_size mk (opSZ_packR ..), opPOS_packR, opWM1_packR, opADDR_packR, if_pos hfits]

@[simp] theorem opc_encode (i : Instr) : opc (encode i) = i.opcode := by
  cases i <;> simp only [encode, opc_packR, opc_packP]

@[simp] theorem decodePlain_packP (i : Instr) (op : Byte) : decodePlain i (packP op 0 0 0) = some i := by
  rw [decodePlain, opA_packP, opB_packP, opC_packP]
  rfl

@[simp] theorem decodeInst_packP (mk : Inst → Instr) (op : Byte) (k : Inst) :
    decodeInst mk (packP op (k.setWidth 8) 0 0) = some (mk k) := by
  rw [decodeInst, opA_packP, opB_packP, opC_packP, instOf_setWidth]
  rfl

@[simp] theorem operand16_packP (op a : Byte) (n : BitVec 16) :
    (packP op a (n.extractLsb' 8 8) (n.extractLsb' 0 8)).extractLsb' 0 16 = n := by
  rw [← opB_append_opC, opB_packP, opC_packP]
  exact (BitVec.extractLsb'_append_extractLsb'_eq_extractLsb' rfl).trans BitVec.extractLsb'_eq_self

theorem ack_bits (x : BitVec 1) : (x.setWidth 8).extractLsb' 1 7 = 0#7 ∧ (x.setWidth 8).extractLsb' 0 1 = x := by
  revert x
  decide

theorem count_bits (x : BitVec 4) : (x.setWidth 8).extractLsb' 4 4 = 0#4 ∧ (x.setWidth 8).extractLsb' 0 4 = x := by
  revert x
  decide

theorem index_bits (x : BitVec 3) : (x.setWidth 8).extractLsb' 3 5 = 0#5 ∧ (x.setWidth 8).extractLsb' 0 3 = x := by
  revert x
  decide

/-- The decoder gives a command whose bit field fits back from its word (R74, R75): the opcode picks the command's own line of
the decoder, and that line reads the fields that the word was packed from. -/
theorem decodeWord_encode {i : Instr} (hfits : i.fits = true) : decodeWord (encode i) = some i := by
  rw [decodeWord, opc_encode]
  cases i
  case ld | st | aand | aor | axor => exact decodeAccess_packR ..
  case bfi | ubfx => exact decodeField_packR _ _ _ hfits
  case waitbusy | start | rstart | drvclk | stop | resetbus | waitb => exact decodePlain_packP ..
  case rbInit | rbPop | rbCount | rbEmpty | rbFull | rbWaitne | rbWaitnf | rbWaite | bfLen | bfFull =>
    exact decodeInst_packP ..
  case sendb => simp [encode, Instr.opcode]
  case rxmode => simp [encode, Instr.opcode, ack_bits]
  case config => simp [encode, Instr.opcode, count_bits]
  case rdreg | rdregs | wrreg | modreg | select => simp [encode, Instr.opcode]
  case prep => simp [encode, Instr.opcode, index_bits]
  case rbPush | bfEnq | bfDeq => simp [encode, Instr.opcode]

/-- What `FIFO_VARIANT` adds to the decoder: the command's unit is built (R75). -/
theorem decode_eq_some_iff {v : FifoVariant} {w : Word} {i : Instr} :
    decode v w = some i ↔ decodeWord w = some i ∧ i.built v = true := by
  cases hd : decodeWord w with
  | none => simp [decode, hd]
  | some j =>
    simp only [decode, hd, Option.ite_none_right_eq_some, Option.some.injEq]
    constructor
    · rintro ⟨hb, rfl⟩
      exact ⟨rfl, hb⟩
    · rintro ⟨rfl, hb⟩
      exact ⟨hb, rfl⟩

theorem wellFormed_iff (v : FifoVariant) (i : Instr) : i.wellFormed v = true ↔ i.fits = true ∧ i.built v = true :=
  Bool.and_eq_true_iff

/-- Settles O2, by the round trip of every command and the check of its unit. -/
theorem decodeOfEncode : Obligations.DecodeOfEncode := by
  intro v i hwf
  obtain ⟨hfits, hbuilt⟩ := (wellFormed_iff v i).1 hwf
  exact decode_eq_some_iff.2 ⟨decodeWord_encode hfits, hbuilt⟩

/-- Settles O3, by the round trip of every row's words. -/
theorem encodeOfDecode : Obligations.EncodeOfDecode := by
  intro v w i hd
  obtain ⟨hword, hbuilt⟩ := decode_eq_some_iff.1 hd
  obtain ⟨henc, hfits⟩ := encode_of_decodeWord hword
  exact ⟨henc, (wellFormed_iff v i).2 ⟨hfits, hbuilt⟩⟩

/-- Settles O1: the eight words are fixed, so the decoder is run on each. -/
theorem decodeReadsSpecWords : Obligations.DecodeReadsSpecWords := by
  unfold Obligations.DecodeReadsSpecWords
  decide

/-! ## Illegal words -/

/-- The words that decode in no variant are those of the first four kinds (R76). -/
theorem malformed_iff (w : Word) : Malformed w ↔ decodeWord w = none := by
  obtain hout | ⟨mk, row⟩ | ⟨mk, row⟩ | ⟨ma, mb, mc, mk, row⟩ := rows_cover (opc w)
  · exact ⟨fun _ => decodeWord_outsideMap hout, fun _ => .inl hout⟩
  · exact row.malformed_iff
  · exact row.malformed_iff
  · exact row.malformed_iff

/-- R76 case 5: the opcodes of the unit that a block of variant `v` lacks. -/
def UnitMissing (v : FifoVariant) (op : Byte) : Prop :=
  (0x40 ≤ op.toNat ∧ op.toNat ≤ 0x48 ∧ v = .b) ∨ (0x50 ≤ op.toNat ∧ op.toNat ≤ 0x53 ∧ v = .a)

/-- The five kinds, the last apart (R76). -/
theorem illegal_iff (v : FifoVariant) (w : Word) : Illegal v w ↔ Malformed w ∨ UnitMissing v (opc w) := by
  unfold Illegal Malformed OutsideMap UnitMissing
  simp only [or_assoc]

theorem unit_eq_ring_iff (i : Instr) : i.unit = .ring ↔ 0x40 ≤ i.opcode.toNat ∧ i.opcode.toNat ≤ 0x48 := by
  cases i <;> simp [Instr.unit, Instr.opcode]

theorem unit_eq_bounded_iff (i : Instr) : i.unit = .bounded ↔ 0x50 ≤ i.opcode.toNat ∧ i.opcode.toNat ≤ 0x53 := by
  cases i <;> simp [Instr.unit, Instr.opcode]

/-- The unit of a command is not built exactly where its opcode says so (R3, R69). -/
theorem unitMissing_iff (v : FifoVariant) (i : Instr) : UnitMissing v i.opcode ↔ i.built v = false := by
  unfold UnitMissing
  rw [← and_assoc, ← and_assoc, ← unit_eq_ring_iff, ← unit_eq_bounded_iff]
  unfold Instr.built
  generalize i.unit = u
  cases u <;> cases v <;> decide

/-- The words that do not decode are those of the five kinds (R76). -/
theorem decode_eq_none_iff (v : FifoVariant) (w : Word) : decode v w = none ↔ Illegal v w := by
  rw [illegal_iff, malformed_iff]
  cases hd : decodeWord w with
  | none => simp [decode, hd]
  | some i =>
    obtain ⟨rfl, -⟩ := encode_of_decodeWord hd
    rw [opc_encode, unitMissing_iff]
    simp [decode, hd]

/-- The acceptance of an illegal word is `ILLEGAL_COMMAND` (R75, R138). -/
theorem acceptCommand_illegal {s : State} (hd : decode s.params.variant s.cmd = none) :
    acceptCommand s = .next (halted 5 s) := by
  simp only [acceptCommand, hd]
  rfl

/-- Settles O4: the kinds by `decode_eq_none_iff`, and HOST's write of such a word to `CMD` by the lemmas about its turn. -/
theorem illegalWordsAreTheFiveKinds : Obligations.IllegalWordsAreTheFiveKinds := by
  refine ⟨decode_eq_none_iff, fun s w rest hs hh hill => ?_⟩
  have hd : decode s.params.variant w = none := (decode_eq_none_iff ..).2 hill
  calc takeTurn .host s = hostTurn s := rfl
    _ = hostWrite 0x008 .w w { s with host := rest } := hostTurn_idle_write hs hh
    _ = acceptCommand { s with host := rest, cmd := w } := hostWrite_cmdWord w _
    _ = .next (halted 5 { s with cmd := w, host := rest }) := acceptCommand_illegal hd

end Sys2Proof.Machine
end

section
/-! PROOFS. A register-access command at its micro-step (40_register_access.md R80): the checked access runs or raises
`BAD_ACCESS`; the bits of the data operand and of the field masks (R86, R87); and what a read-modify-write leaves in the window
(20_memory.md R47). -/

namespace Sys2Proof.Machine

variable {i : Instr} {off : Offset} {sz : Size} {isRmw : Bool} {act : State → Except Fault State} {s : State}

/-! ## The one micro-step -/

theorem Runs.congr {k : BitVec 6} {pre : State → Prop} {post post' : State → State} (h : Runs i k pre post)
    (he : ∀ s, post s = post' s) : Runs i k pre post' :=
  fun s hs hpre => (h s hs hpre).trans (congrArg Host.Outcome.next (he s))

/-- A command of one micro-step runs it at its step 0 (10_state.md R22). -/
theorem exec_single {m : MicroOp} (hp : program i = [m]) (hs : s.seq = .run i.opcode 0) : exec i s = toResult (m s) := by
  rw [exec_eq_command]
  exact command_run _ _ _ s 0 m hs (by rw [hp]; rfl)

/-- An access that passes the check of R80 is made, and ends the command. -/
theorem exec_access (hp : program i = [checkedAccess off sz isRmw act]) (hs : s.seq = .run i.opcode 0)
    (hok : AccessAllowed off sz ∧ off ≠ 0x008 ∧ (isRmw = true → off ≠ 0x004)) :
    exec i s = toResult (thenFinish (act s)) := by
  rw [exec_single hp hs, checkedAccess, if_pos ((commandAccessOk_iff ..).2 hok)]

/-- An access that fails the check of R80 is `BAD_ACCESS` (60_exceptions.md R137 code 8). -/
theorem exec_badAccess (hp : program i = [checkedAccess off sz isRmw act]) (hs : s.seq = .run i.opcode 0)
    (hbad : ¬ (AccessAllowed off sz ∧ off ≠ 0x008 ∧ (isRmw = true → off ≠ 0x004))) :
    exec i s = .next (halted 8 s) := by
  rw [exec_single hp hs, checkedAccess, if_neg (mt (commandAccessOk_iff ..).1 hbad)]
  rfl

/-- The module registers take one byte at any offset (20_memory.md R44, R46). -/
theorem accessAllowed_module (h : off.toNat < 0x008) : AccessAllowed off .b :=
  ⟨Nat.mod_one _, fun _ => rfl, fun h' => absurd h'.1 (Nat.not_le.2 h)⟩

/-- A read of a module register draws no byte (log 14). -/
theorem afterRead_module (h : off.toNat < 0x008) : afterRead s off sz = s :=
  afterRead_of_not_memory fun hm => by rcases hm with hm | hm <;> omega

/-! ## The bits of operands and masks -/

theorem size_bits_le (sz : Size) : 8 * sz.bytes ≤ 32 := by
  cases sz <;> decide

/-- The data operand is the low bits of its word (R80). -/
theorem getLsbD_lowBits (sz : Size) (v : Word) {b : Nat} (hb : b < 8 * sz.bytes) :
    (lowBits sz v).getLsbD b = v.getLsbD b := by
  have hlow (m : Nat) (hm : b < m) : (BitVec.ofNat 32 (2 ^ m - 1)).getLsbD b = true := by
    have hb32 : b < 32 := hb.trans_le (size_bits_le sz)
    rw [BitVec.getLsbD_ofNat, Nat.testBit_two_pow_sub_one, decide_eq_true hb32, decide_eq_true hm, Bool.and_self]
  cases sz with
  | b => exact (BitVec.getLsbD_and ..).trans ((congrArg _ (hlow 8 hb)).trans (Bool.and_true _))
  | h => exact (BitVec.getLsbD_and ..).trans ((congrArg _ (hlow 16 hb)).trans (Bool.and_true _))
  | w => rfl

/-- The data operand of a byte access is the low byte of its word (R80). -/
theorem setWidth_lowBits_byte (v : Word) : (lowBits .b v).setWidth 8 = v.extractLsb' 0 8 := by
  refine bv_ext_getLsbD fun b hb => ?_
  rw [BitVec.getLsbD_setWidth, BitVec.getLsbD_extractLsb', getLsbD_lowBits .b v hb, Nat.zero_add]

/-- The right-justified field of `wm1 + 1` ones (R87). -/
theorem getLsbD_onesField (wm1 : BitVec 5) (b : Nat) : (onesField wm1).getLsbD b = decide (b ≤ wm1.toNat) := by
  have hwm1 : wm1.toNat < 32 := wm1.isLt
  rw [onesField, BitVec.getLsbD_ofNat, Nat.testBit_two_pow_sub_one, ← Bool.decide_and, decide_eq_decide]
  omega

/-- The mask of a field that fits has its ones inside the field (R86). -/
theorem getLsbD_fieldMask {pos wm1 : BitVec 5} (hfit : pos.toNat + wm1.toNat + 1 ≤ 8 * sz.bytes) (b : Nat) :
    (fieldMask sz pos wm1).getLsbD b = decide (pos.toNat ≤ b ∧ b ≤ pos.toNat + wm1.toNat) := by
  have hsz : 8 * sz.bytes ≤ 32 := size_bits_le sz
  rw [fieldMask, BitVec.getLsbD_ofNat, Nat.testBit_mod_two_pow, Nat.testBit_mul_two_pow, Nat.testBit_two_pow_sub_one,
    ← Bool.decide_and, ← Bool.decide_and, ← Bool.decide_and, decide_eq_decide, Size.bits]
  omega

/-- What `BFI` stores: the operand's bits inside the field, the location's own outside it (R86). -/
theorem getLsbD_insert {pos wm1 : BitVec 5} (hfit : pos.toNat + wm1.toNat + 1 ≤ 8 * sz.bytes) (t v : Word) {b : Nat}
    (hb : b < 8 * sz.bytes) :
    ((t &&& ~~~fieldMask sz pos wm1) ||| (lowBits sz v &&& fieldMask sz pos wm1)).getLsbD b =
      if pos.toNat ≤ b ∧ b ≤ pos.toNat + wm1.toNat then v.getLsbD b else t.getLsbD b := by
  have hb32 : b < 32 := hb.trans_le (size_bits_le sz)
  rw [BitVec.getLsbD_or, BitVec.getLsbD_and, BitVec.getLsbD_and, BitVec.getLsbD_not, getLsbD_fieldMask hfit,
    getLsbD_lowBits sz v hb]
  by_cases hin : pos.toNat ≤ b ∧ b ≤ pos.toNat + wm1.toNat
  · simp [hin]
  · simp [hin, hb32]

/-- What `UBFX` extracts (R87). -/
theorem getLsbD_extract (t : Word) (pos wm1 : BitVec 5) (b : Nat) :
    ((t >>> pos.toNat) &&& onesField wm1).getLsbD b = (decide (b ≤ wm1.toNat) && t.getLsbD (pos.toNat + b)) := by
  rw [BitVec.getLsbD_and, BitVec.getLsbD_ushiftRight, getLsbD_onesField, Bool.and_comm]

/-! ## A store depends on the bits of its size only -/

theorem leBytes_congr {n : Nat} {x y : Word} (h : ∀ b, b < 8 * n → x.getLsbD b = y.getLsbD b) :
    leBytes n x = leBytes n y := by
  induction n generalizing x y with
  | zero => rfl
  | succ n ih =>
    have hfirst : x.setWidth 8 = y.setWidth 8 := by
      refine bv_ext_getLsbD fun b hb => ?_
      rw [BitVec.getLsbD_setWidth, BitVec.getLsbD_setWidth, h b (by omega)]
    have hrest : leBytes n (x >>> 8) = leBytes n (y >>> 8) := by
      refine ih fun b hb => ?_
      rw [BitVec.getLsbD_ushiftRight, BitVec.getLsbD_ushiftRight, h (8 + b) (by omega)]
    rw [leBytes, leBytes, hfirst, hrest]

theorem stored_congr {x y : Word} (ha : AccessAllowed off sz)
    (h : ∀ b, b < 8 * sz.bytes → x.getLsbD b = y.getLsbD b) : stored off sz x s = stored off sz y s := by
  obtain ⟨-, hbyte, hword⟩ := ha
  obtain hlow | hreg | hbeyond : off.toNat < 0x008 ∨ (0x008 ≤ off.toNat ∧ off.toNat < 0x020) ∨ 0x020 ≤ off.toNat := by
    omega
  · obtain rfl := hbyte hlow
    have hx : x.extractLsb' 0 8 = y.extractLsb' 0 8 := by
      refine bv_ext_getLsbD fun b hb => ?_
      rw [BitVec.getLsbD_extractLsb', BitVec.getLsbD_extractLsb', Nat.zero_add, h b hb]
    unfold stored
    dsimp only
    rw [hx, h 1 (by decide), h 4 (by decide)]
    simp only [show off.toNat ≠ 0x00C by omega, show off.toNat ≠ 0x014 by omega, show off.toNat ≠ 0x01C by omega,
      show ¬ 0x400 ≤ off.toNat by omega, false_and, and_false, if_false]
  · obtain rfl := hword hreg
    rw [bv_ext_getLsbD h]
  · rw [stored_beyond x hbeyond, stored_beyond y hbeyond, leBytes_congr h]

/-! ## Read-modify-writes -/

/-- A read-modify-write stores a word that has the combined bits of what the window shows (R47, R66). -/
theorem rmw_window {g : Word → Word} {x : Word} (ha : AccessAllowed off sz) (h2 : off ≠ 0x002) (h4 : off ≠ 0x004)
    (h8 : off ≠ 0x008) (hx : ∀ b, b < 8 * sz.bytes → (g (windowValue s off sz)).getLsbD b = x.getLsbD b) :
    rmw off sz g s = .ok (stored off sz x (afterRead s off sz)) := by
  rw [rmw, memRead_window ha fun hd => h4 hd.1]
  exact (memWrite_stored _ ha h2 h4 h8).trans (congrArg Except.ok (stored_congr ha hx))

/-- A command that is a read-modify-write by `g`, at every offset but those of `CTRL`, `DATA` and `CMD` (R80). -/
theorem exec_rmw {g : State → Word → Word} {x : Word}
    (hp : program i = [checkedAccess off sz true fun t => rmw off sz (g t) t]) (hs : s.seq = .run i.opcode 0)
    (ha : AccessAllowed off sz) (h2 : off ≠ 0x002) (h4 : off ≠ 0x004) (h8 : off ≠ 0x008)
    (hx : ∀ b, b < 8 * sz.bytes → (g s (windowValue s off sz)).getLsbD b = x.getLsbD b) :
    exec i s = .next (ended (stored off sz x (afterRead s off sz))) := by
  rw [exec_access hp hs ⟨ha, h8, fun _ => h4⟩, rmw_window ha h2 h4 h8 hx]
  rfl

/-- A command that loads `g` of what the window shows, at every offset but those of `DATA` and `CMD` (R81, R87). -/
theorem exec_load {g : Word → Word} (hp : program i = [checkedAccess off sz isRmw (loadInto off sz g)])
    (hs : s.seq = .run i.opcode 0) (ha : AccessAllowed off sz) (h4 : off ≠ 0x004) (h8 : off ≠ 0x008) :
    exec i s = .next (ended { afterRead s off sz with res := g (windowValue s off sz) }) := by
  rw [exec_access hp hs ⟨ha, h8, fun _ => h4⟩, loadInto, memRead_window ha fun hd => h4 hd.1]
  rfl

end Sys2Proof.Machine
end

section
/-! PROOFS. The access check, `LD`, `ST` and the field commands (40_register_access.md R80 to R82, R86, R87), and the
read-modify-writes outside `CTRL` (R83 to R85, 70_reset_and_hazards.md R156). -/

namespace Sys2Proof.Machine

variable {off : Offset} {sz : Size} {s : State}

/-! ## `BAD_ACCESS` -/

/-- Settles O12: each of the seven commands is a checked access (R80). -/
theorem badAccessHalts : Obligations.BadAccessHalts := by
  intro sz pos wm1 addr
  refine ⟨fun hbad => ?access, fun hbad => ?readModifyWrite⟩
  case access =>
    have hno : ¬ (AccessAllowed addr sz ∧ addr ≠ 0x008 ∧ (false = true → addr ≠ 0x004)) := fun ⟨ha, h8, _⟩ =>
      hbad.elim (absurd ha) h8
    exact ⟨fun s hs _ => exec_badAccess rfl hs hno, fun s hs _ => exec_badAccess rfl hs hno⟩
  case readModifyWrite =>
    have hno : ¬ (AccessAllowed addr sz ∧ addr ≠ 0x008 ∧ (true = true → addr ≠ 0x004)) := fun ⟨ha, h8, h4⟩ =>
      hbad.elim (absurd ha) fun h => h.elim h8 (h4 rfl)
    exact ⟨fun s hs _ => exec_badAccess rfl hs hno, fun s hs _ => exec_badAccess rfl hs hno,
      fun s hs _ => exec_badAccess rfl hs hno, fun s hs _ => exec_badAccess rfl hs hno,
      fun s hs _ => exec_badAccess rfl hs hno⟩

/-! ## `DATA` -/

/-- `DATA` may be loaded and stored by a command, one byte at a time (R80). -/
theorem dataAccess : AccessAllowed 0x004 .b ∧ (0x004 : Offset) ≠ 0x008 ∧ (false = true → (0x004 : Offset) ≠ 0x004) :=
  ⟨accessAllowed_module (by decide), by decide, fun h => nomatch h⟩

/-- `LD` of `DATA` is the read of R53 with the byte in `RES`. -/
theorem exec_ld_data (hs : s.seq = .run 0x00 0) :
    exec (.ld .b 0x004) s =
      toResult (thenFinish ((readData s).map fun p => p.2.setRes (p.1.setWidth 32))) := by
  refine (exec_access rfl hs dataAccess).trans (congrArg (fun r => toResult (thenFinish r)) ?_)
  rw [loadInto, show (0x004 : Offset) = dataOff from rfl, memRead_data]
  cases readData s <;> rfl

/-- `ST` of `DATA` is the write of R52. -/
theorem exec_st_data (hs : s.seq = .run 0x01 0) :
    exec (.st .b 0x004) s = toResult (thenFinish (writeData (s.aux.extractLsb' 0 8) s)) := by
  rw [exec_access rfl hs dataAccess, ← setWidth_lowBits_byte]
  rfl

/-! ## `LD` and `ST` -/

/-- Settles O5: `exec_load`, and at `DATA` the three cases of R53. -/
theorem ldLoadsRes : Obligations.LdLoadsRes := by
  refine ⟨fun sz addr ha h4 h8 s hs _ => exec_load rfl hs ha h4 h8, fun s hs hm => ?buffer,
    fun s hs ⟨⟨hmst, htx⟩, hx⟩ => ?receive, fun s hs ⟨⟨hmst, htx⟩, hx⟩ => ?inFlight⟩
  case buffer => rw [exec_ld_data hs, readData_other s hm]; rfl
  case receive => rw [exec_ld_data hs, readData_receive s hmst htx hx]; rfl
  case inFlight => rw [exec_ld_data hs, readData_inFlight s hmst htx hx]; rfl

/-- Settles O6: `memWrite_stored`, and at `DATA` the three cases of R52. -/
theorem stStores : Obligations.StStores := by
  refine ⟨fun sz addr ha h2 h4 h8 s hs _ => ?window, fun s hs hm => ?buffer,
    fun s hs ⟨⟨hmst, htx⟩, hx⟩ => ?transmit, fun s hs ⟨⟨hmst, htx⟩, hx⟩ => ?inFlight⟩
  case window =>
    rw [exec_access rfl hs ⟨ha, h8, fun h => nomatch h⟩, memWrite_stored _ ha h2 h4 h8,
      stored_congr ha fun b hb => getLsbD_lowBits sz s.aux hb]
    rfl
  case buffer => rw [exec_st_data hs, writeData_other _ s hm]; rfl
  case transmit => rw [exec_st_data hs, writeData_transmit _ s hmst htx hx]; rfl
  case inFlight => rw [exec_st_data hs, writeData_inFlight _ s hmst htx hx]; rfl

/-! ## `AAND`, `AOR` and `AXOR` -/

section Window

variable (ha : AccessAllowed off sz) (h2 : off ≠ 0x002) (h4 : off ≠ 0x004) (h8 : off ≠ 0x008)
include ha h2 h4 h8

theorem aand_runs : Runs (.aand sz off) 0 anyState fun s =>
    ended (stored off sz (windowValue s off sz &&& s.aux) (afterRead s off sz)) := by
  intro s hs _
  refine exec_rmw (g := fun u t => t &&& lowBits sz u.aux) rfl hs ha h2 h4 h8 fun b hb => ?_
  rw [BitVec.getLsbD_and, BitVec.getLsbD_and, getLsbD_lowBits sz s.aux hb]

theorem aor_runs : Runs (.aor sz off) 0 anyState fun s =>
    ended (stored off sz (windowValue s off sz ||| s.aux) (afterRead s off sz)) := by
  intro s hs _
  refine exec_rmw (g := fun u t => t ||| lowBits sz u.aux) rfl hs ha h2 h4 h8 fun b hb => ?_
  rw [BitVec.getLsbD_or, BitVec.getLsbD_or, getLsbD_lowBits sz s.aux hb]

theorem axor_runs : Runs (.axor sz off) 0 anyState fun s =>
    ended (stored off sz (windowValue s off sz ^^^ s.aux) (afterRead s off sz)) := by
  intro s hs _
  refine exec_rmw (g := fun u t => t ^^^ lowBits sz u.aux) rfl hs ha h2 h4 h8 fun b hb => ?_
  rw [BitVec.getLsbD_xor, BitVec.getLsbD_xor, getLsbD_lowBits sz s.aux hb]

end Window

/-! ## `STAT` -/

theorem statAllowed : AccessAllowed 0x003 .b := accessAllowed_module (by decide)

/-- `STAT` shows `IF` in bit 1 (10_state.md R27). -/
theorem windowValue_stat_if (s : State) : (windowValue s 0x003 .b).getLsbD 1 = s.stat.ifl := by
  have hw : windowValue s 0x003 .b = s.stat.word.setWidth 32 := (stat_word_append s.stat).symm
  rw [hw]
  exact statWord_if s.stat

/-- `STAT` shows `ARBL` in bit 4 (R27). -/
theorem windowValue_stat_arbl (s : State) : (windowValue s 0x003 .b).getLsbD 4 = s.stat.arbl := by
  have hw : windowValue s 0x003 .b = s.stat.word.setWidth 32 := (stat_word_append s.stat).symm
  rw [hw]
  exact statWord_arbl s.stat

/-- A read-modify-write of `STAT` that combines each bit with the operand's by `g` leaves in `IF` and `ARBL` what `left` says:
a flag whose stored bit is 1 is cleared (20_memory.md R49). -/
theorem stored_stat {x : Word} {g left : Bool → Bool → Bool}
    (hbit : ∀ b, x.getLsbD b = g ((windowValue s 0x003 .b).getLsbD b) (s.aux.getLsbD b))
    (hleft : ∀ flag one, (if g flag one then false else flag) = left flag one) :
    stored 0x003 .b x (afterRead s 0x003 .b) =
      { s with
        stat :=
          { s.stat with ifl := left s.stat.ifl (s.aux.getLsbD 1), arbl := left s.stat.arbl (s.aux.getLsbD 4) } } := by
  have hif : (if x.getLsbD 1 then false else s.stat.ifl) = left s.stat.ifl (s.aux.getLsbD 1) := by
    rw [hbit, windowValue_stat_if, hleft]
  have harbl : (if x.getLsbD 4 then false else s.stat.arbl) = left s.stat.arbl (s.aux.getLsbD 4) := by
    rw [hbit, windowValue_stat_arbl, hleft]
  rw [afterRead_module (by decide), ← hif, ← harbl]
  rfl

/-- Settles O8: the three commands are read-modify-writes of the window; on `STAT` the flag left is a truth table in the flag
read and the operand's bit (R83 to R85, R156). -/
theorem atomicOperationsReadAndStore : Obligations.AtomicOperationsReadAndStore := by
  have hn2 : (0x003 : Offset) ≠ 0x002 := by decide
  have hn4 : (0x003 : Offset) ≠ 0x004 := by decide
  have hn8 : (0x003 : Offset) ≠ 0x008 := by decide
  refine ⟨?aor, ?aand, ?axor, fun sz addr ha h2 h4 h8 =>
    ⟨aand_runs ha h2 h4 h8, aor_runs ha h2 h4 h8, axor_runs ha h2 h4 h8⟩⟩
  case aor =>
    exact (aor_runs statAllowed hn2 hn4 hn8).congr fun s => congrArg ended <|
      stored_stat (g := or) (left := fun _ _ => false) (fun _ => BitVec.getLsbD_or ..) (by decide)
  case aand =>
    exact (aand_runs statAllowed hn2 hn4 hn8).congr fun s => congrArg ended <|
      stored_stat (g := and) (left := fun flag one => flag && !one) (fun _ => BitVec.getLsbD_and ..) (by decide)
  case axor =>
    exact (axor_runs statAllowed hn2 hn4 hn8).congr fun s => congrArg ended <|
      stored_stat (g := xor) (left := fun flag one => flag && one) (fun _ => BitVec.getLsbD_xor ..) (by decide)

/-! ## `BFI` and `UBFX` -/

/-- Settles O10: `BFI` is the read-modify-write by `getLsbD_insert`. -/
theorem bfiInsertsInPlace : Obligations.BfiInsertsInPlace := by
  intro sz pos wm1 addr ha h2 h4 h8 hfit s x hs hx
  refine exec_rmw (g := fun u t => (t &&& ~~~fieldMask sz pos wm1) ||| (lowBits sz u.aux &&& fieldMask sz pos wm1))
    rfl hs ha h2 h4 h8 fun b hb => ?_
  exact (getLsbD_insert hfit _ _ hb).trans (hx b hb).symm

/-- Settles O11: `UBFX` is a load of the field by `getLsbD_extract`. -/
theorem ubfxExtracts : Obligations.UbfxExtracts := by
  intro sz pos wm1 addr ha h4 h8 _ s x hs hx
  have hfield : (windowValue s addr sz >>> pos.toNat) &&& onesField wm1 = x :=
    bv_ext_getLsbD fun b hb => (getLsbD_extract _ pos wm1 b).trans (hx b hb).symm
  rw [← hfield]
  exact exec_load (g := fun v => (v >>> pos.toNat) &&& onesField wm1) rfl hs ha h4 h8

end Sys2Proof.Machine
end

section
/-! PROOFS. A store in `CTRL` (20_memory.md R50, R51): the bits by the old `MST`, the new one and `BUSY`, then the strobe by
the new `MST`; and every command whose access of `CTRL` ends in such a store (40_register_access.md R82 to R86). -/

namespace Sys2Proof.Machine

variable {i : Instr} {v : Byte} {s : State}

/-! ## The bits (R50) -/

/-- The direction and acknowledge bits that a write of `v` leaves (R50). -/
def Ctrl.directed (c : Ctrl) (v : Byte) : Ctrl := { c with tx := v.getLsbD 4, txak := v.getLsbD 3 }

/-- `MST` as it was: only the direction and acknowledge bits. -/
theorem writeCtrlBits_keep (h : s.ctrl.mst = v.getLsbD 5) : writeCtrlBits v s = { s with ctrl := s.ctrl.directed v } := by
  unfold writeCtrlBits
  rw [if_neg (by rw [h]; simp), if_neg (by rw [h]; simp)]
  rfl

/-- `MST` asked for on a bus that is busy: arbitration lost at once. -/
theorem writeCtrlBits_lost (hm : s.ctrl.mst = false) (h5 : v.getLsbD 5 = true) (hb : s.stat.busy = true) :
    writeCtrlBits v s =
      { s with ctrl := s.ctrl.directed v, stat := { s.stat with arbl := true, ifl := true } } := by
  unfold writeCtrlBits startBus
  rw [if_pos ⟨hm, h5⟩]
  exact if_pos hb

/-- `MST` asked for on a free bus: a START. -/
theorem writeCtrlBits_start (hm : s.ctrl.mst = false) (h5 : v.getLsbD 5 = true) (hb : s.stat.busy = false) :
    writeCtrlBits v s =
      { s with
        ctrl := { s.ctrl.directed v with mst := true }, stat := { s.stat with busy := true },
        busTrace := s.busTrace ++ [.start] } := by
  unfold writeCtrlBits startBus
  rw [if_pos ⟨hm, h5⟩]
  exact if_neg (by rw [setDirection_stat, hb]; exact Bool.false_ne_true)

/-- `MST` cleared: a STOP. -/
theorem writeCtrlBits_stop (hm : s.ctrl.mst = true) (h5 : v.getLsbD 5 = false) :
    writeCtrlBits v s =
      { s with
        ctrl := { s.ctrl.directed v with mst := false }, stat := { s.stat with busy := false }, xfer := .none,
        busTrace := s.busTrace ++ [.stop] } := by
  unfold writeCtrlBits
  rw [if_neg (by rw [hm]; simp), if_pos ⟨hm, h5⟩]
  rfl

/-- With `MST` in the value, as master or with the bus free, the block is master afterwards; what is in flight and the divider
stay. -/
theorem writeCtrlBits_master (hm : s.ctrl.mst = true ∨ s.stat.busy = false) (h5 : v.getLsbD 5 = true) :
    (writeCtrlBits v s).ctrl.mst = true ∧ (writeCtrlBits v s).xfer = s.xfer ∧ (writeCtrlBits v s).div = s.div := by
  cases hmst : s.ctrl.mst with
  | true => rw [writeCtrlBits_keep (hmst.trans h5.symm)]; exact ⟨hmst, rfl, rfl⟩
  | false =>
    have hb : s.stat.busy = false := hm.resolve_left (by rw [hmst]; exact Bool.false_ne_true)
    rw [writeCtrlBits_start hmst h5 hb]
    exact ⟨rfl, rfl, rfl⟩

/-! ## The strobe (R51) -/

theorem writeCtrl_strobe (h2 : v.getLsbD 2 = true) : writeCtrl v s = strobeRestart (writeCtrlBits v s) := if_pos h2

/-- Where the block is not master after the write, a strobe does nothing. -/
theorem writeCtrl_notMaster (hm : (writeCtrlBits v s).ctrl.mst = false) : writeCtrl v s = .ok (writeCtrlBits v s) := by
  cases h2 : v.getLsbD 2 with
  | false => exact writeCtrl_plain v s h2
  | true => exact (writeCtrl_strobe h2).trans (if_pos hm)

section Strobe

variable (hm : s.ctrl.mst = true ∨ s.stat.busy = false) (h5 : v.getLsbD 5 = true) (h2 : v.getLsbD 2 = true)
include hm h5 h2

/-- A byte in flight meets the strobe (U2). -/
theorem writeCtrl_strobe_inFlight (hx : s.xfer ≠ .none) : writeCtrl v s = .error .byteInFlight := by
  obtain ⟨hmst, hxfer, -⟩ := writeCtrlBits_master hm h5
  rw [writeCtrl_strobe h2, strobeRestart, if_neg (by simp [hmst]),
    if_pos (by rw [hxfer]; exact hx)]

/-- Another multiplier than 1 meets the strobe (U1). -/
theorem writeCtrl_strobe_erratum (hx : s.xfer = .none) (hd : divMult s.div ≠ 0) :
    writeCtrl v s = .error .restartAtNonUnityMultiplier := by
  obtain ⟨hmst, hxfer, hdiv⟩ := writeCtrlBits_master hm h5
  rw [writeCtrl_strobe h2, strobeRestart, if_neg (by simp [hmst]),
    if_neg (by rw [hxfer]; exact not_not_intro hx), if_pos (by rw [hdiv]; exact hd)]

/-- Else the strobe is a repeated START. -/
theorem writeCtrl_strobe_restart (hx : s.xfer = .none) (hd : divMult s.div = 0) :
    writeCtrl v s = .ok ((writeCtrlBits v s).emit .restart) := by
  obtain ⟨hmst, hxfer, hdiv⟩ := writeCtrlBits_master hm h5
  rw [writeCtrl_strobe h2, strobeRestart, if_neg (by simp [hmst]),
    if_neg (by rw [hxfer]; exact not_not_intro hx), if_neg (by rw [hdiv]; exact not_not_intro hd)]

end Strobe

/-! ## The commands that end in a store in `CTRL` -/

/-- A command whose micro-step is the write of R50 and R51 does what the claims say of a store in `CTRL`, case by case. -/
theorem storesCtrl_of_writeCtrl {v : State → Byte}
    (hw : ∀ s, s.seq = .run i.opcode 0 → exec i s = toResult (thenFinish (writeCtrl (v s) s))) : StoresCtrl i v := by
  have runsTo {s t : State} (hs : s.seq = .run i.opcode 0) (h : writeCtrl (v s) s = .ok t) : exec i s = .next (ended t) := by
    rw [hw s hs, h]; rfl
  have stops {s : State} {f : Fault} (hs : s.seq = .run i.opcode 0) (h : writeCtrl (v s) s = .error f) :
      exec i s = .fault f := by
    rw [hw s hs, h]; rfl
  refine ⟨fun s hs ⟨hm, h5⟩ => runsTo hs ?direction, fun s hs ⟨hm, h5, hb⟩ => runsTo hs ?lost,
    fun s hs ⟨hm, h5, hb, h2⟩ => runsTo hs ?start, fun s hs ⟨hm, h5⟩ => runsTo hs ?stop,
    fun s hs ⟨hm, h5, h2⟩ => runsTo hs ?master, fun s hs ⟨hm, h5, h2, hx, hd⟩ => runsTo hs ?restart,
    fun s hs ⟨hm, hb, h5, h2, hx, hd⟩ => runsTo hs ?startRestart,
    fun s hs ⟨hm, h5, h2, hx⟩ => stops hs (writeCtrl_strobe_inFlight hm h5 h2 hx),
    fun s hs ⟨hm, h5, h2, hx, hd⟩ => stops hs (writeCtrl_strobe_erratum hm h5 h2 hx hd)⟩
  case direction =>
    have hbits := writeCtrlBits_keep (hm.trans h5.symm)
    exact (writeCtrl_notMaster (by rw [hbits]; exact hm)).trans (congrArg Except.ok hbits)
  case lost =>
    have hbits := writeCtrlBits_lost hm h5 hb
    exact (writeCtrl_notMaster (by rw [hbits]; exact hm)).trans (congrArg Except.ok hbits)
  case start => exact (writeCtrl_plain _ s h2).trans (congrArg Except.ok (writeCtrlBits_start hm h5 hb))
  case stop =>
    have hbits := writeCtrlBits_stop hm h5
    exact (writeCtrl_notMaster (by rw [hbits])).trans (congrArg Except.ok hbits)
  case master => exact (writeCtrl_plain _ s h2).trans (congrArg Except.ok (writeCtrlBits_keep (hm.trans h5.symm)))
  case restart =>
    rw [writeCtrl_strobe_restart (.inl hm) h5 h2 hx hd, writeCtrlBits_keep (hm.trans h5.symm)]
    rfl
  case startRestart =>
    rw [writeCtrl_strobe_restart (.inr hb) h5 h2 hx hd, writeCtrlBits_start hm h5 hb]
    simp only [State.emit, List.append_assoc, List.cons_append, List.nil_append]
    rfl

/-- `CTRL` may be accessed by every register-access command, one byte at a time (R80). -/
theorem ctrlAccess (isRmw : Bool) :
    AccessAllowed 0x002 .b ∧ (0x002 : Offset) ≠ 0x008 ∧ (isRmw = true → (0x002 : Offset) ≠ 0x004) :=
  ⟨accessAllowed_module (by decide), by decide, fun _ => by decide⟩

/-- Settles O7: `ST` of `CTRL` is the write of R50 and R51 with the low byte of `AUX`. -/
theorem storeInCtrl : Obligations.StoreInCtrl := by
  refine storesCtrl_of_writeCtrl fun s hs => ?_
  rw [exec_access rfl hs (ctrlAccess false), ← setWidth_lowBits_byte]
  rfl

/-- The bits of what `CTRL` shows. -/
theorem getLsbD_ctrlByte (s : State) {b : Nat} (hb : b < 8) :
    (ctrlByte s).getLsbD b = (windowValue s 0x002 .b).getLsbD b := by
  rw [ctrlByte, BitVec.getLsbD_extractLsb', decide_eq_true hb, Bool.true_and, Nat.zero_add]

/-- A read-modify-write of `CTRL` stores the byte that has the combined bits of what `CTRL` shows. -/
theorem storesCtrl_rmw {g : State → Word → Word} {v : State → Byte}
    (hp : program i = [checkedAccess 0x002 .b true fun t => rmw 0x002 .b (g t) t])
    (hv : ∀ s b, b < 8 → (v s).getLsbD b = (g s (windowValue s 0x002 .b)).getLsbD b) : StoresCtrl i v := by
  refine storesCtrl_of_writeCtrl fun s hs => (exec_access hp hs (ctrlAccess true)).trans ?_
  have hbyte : (g s (windowValue s 0x002 .b)).setWidth 8 = v s := by
    refine bv_ext_getLsbD fun b hb => ?_
    rw [BitVec.getLsbD_setWidth, decide_eq_true hb, Bool.true_and, hv s b hb]
  rw [rmw, memRead_window (ctrlAccess true).1 fun hd => absurd hd.1 (by decide), afterRead_module (by decide)]
  exact congrArg (fun b => toResult (thenFinish (writeCtrl b s))) hbyte

/-- The bits of a byte of `AUX` are those of the data operand (R80). -/
theorem getLsbD_auxByte (s : State) {b : Nat} (hb : b < 8) :
    (s.aux.extractLsb' 0 8).getLsbD b = (lowBits .b s.aux).getLsbD b := by
  rw [getLsbD_lowBits .b s.aux hb, BitVec.getLsbD_extractLsb', decide_eq_true hb, Bool.true_and, Nat.zero_add]

/-- `CTRL` shows 0 in the place of `RSTA` (10_state.md R26). -/
theorem ctrlByte_rsta (s : State) : (ctrlByte s).getLsbD 2 = false := by
  have hw : windowValue s 0x002 .b = s.ctrl.word.setWidth 32 := (ctrl_word_append s.ctrl).symm
  rw [getLsbD_ctrlByte s (by decide), hw]
  exact ctrlWord_rsta s.ctrl

/-- Settles O9: the four commands are read-modify-writes of `CTRL`, and `RSTA` reads as 0. -/
theorem atomicOperationsOnCtrl : Obligations.AtomicOperationsOnCtrl := by
  refine ⟨?aand, ?aor, ?axor, fun pos wm1 v hfit hv => ?bfi, fun s => ?rsta⟩
  case aand =>
    refine storesCtrl_rmw (g := fun u t => t &&& lowBits .b u.aux) rfl fun s b hb => ?_
    rw [BitVec.getLsbD_and, BitVec.getLsbD_and, getLsbD_ctrlByte s hb, getLsbD_auxByte s hb]
  case aor =>
    refine storesCtrl_rmw (g := fun u t => t ||| lowBits .b u.aux) rfl fun s b hb => ?_
    rw [BitVec.getLsbD_or, BitVec.getLsbD_or, getLsbD_ctrlByte s hb, getLsbD_auxByte s hb]
  case axor =>
    refine storesCtrl_rmw (g := fun u t => t ^^^ lowBits .b u.aux) rfl fun s b hb => ?_
    rw [BitVec.getLsbD_xor, BitVec.getLsbD_xor, getLsbD_ctrlByte s hb, getLsbD_auxByte s hb]
  case bfi =>
    refine storesCtrl_rmw
      (g := fun u t => (t &&& ~~~fieldMask .b pos wm1) ||| (lowBits .b u.aux &&& fieldMask .b pos wm1)) rfl
      fun s b hb => ?_
    rw [hv s b hb, getLsbD_insert (sz := .b) hfit _ _ hb, getLsbD_ctrlByte s hb]
  case rsta => rw [BitVec.getLsbD_and, ctrlByte_rsta, Bool.false_and]

end Sys2Proof.Machine
end

section
/-! PROOFS. The micro-steps of the engine primitives (41_engine_primitives.md R90 to R99) wherever they stand in a micro-program:
which micro-operation stands at a micro-step decides what the command does there, so each claim about a stretch of micro-steps
is proved once and serves every command that runs the stretch in place. -/

namespace Sys2Proof.Machine

variable {i : Instr} {k j : BitVec 6} {m : MicroOp} {pre : State → Prop} {post : State → State} {s t : State}

/-! ## A micro-operation at its micro-step -/

/-- The micro-operation `m` stands at micro-step `k` of command `i` (10_state.md R22). -/
def HasMicro (i : Instr) (k : BitVec 6) (m : MicroOp) : Prop := (program i)[k.toNat]? = some m

theorem HasMicro.exec_eq (hm : HasMicro i k m) (hs : s.seq = .run i.opcode k) : exec i s = toResult (m s) :=
  (exec_eq_command i s).trans (command_run _ _ _ s k m hs hm)

theorem goto_eq_atStep (ht : t.seq = .run i.opcode k) : t.goto j = atStep i j t := by
  rw [State.goto, ht]
  rfl

theorem advance_eq_atStep (ht : t.seq = .run i.opcode k) : t.advance = atStep i (k + 1) t := by
  rw [State.advance, ht]
  rfl

theorem HasMicro.runs (hm : HasMicro i k m) (h : ∀ s, s.seq = .run i.opcode k → pre s → m s = .ok (post s)) :
    Runs i k pre post :=
  fun s hs hpre => by rw [hm.exec_eq hs, h s hs hpre, toResult_ok]

/-- A micro-operation that completes moves SEQ to the next micro-step, `j`. -/
theorem HasMicro.runs_next (hm : HasMicro i k m) (hj : k + 1 = j) (hseq : ∀ s, (post s).seq = s.seq)
    (h : ∀ s, pre s → m s = .ok (post s).advance) : Runs i k pre fun s => atStep i j (post s) :=
  hm.runs fun s hs hpre => by rw [h s hpre, advance_eq_atStep ((hseq s).trans hs), hj]

theorem HasMicro.stopsAt {f : Fault} (hm : HasMicro i k m) (h : ∀ s, pre s → m s = .error f) : StopsAt i k pre f :=
  fun s hs hpre => by rw [hm.exec_eq hs, h s hpre, toResult_error]

/-! ## The waits, `START`, `STOP` and the end -/

theorem doneAt (hm : HasMicro i k mDone) : DoneAt i k := hm.runs fun _ _ _ => rfl

theorem waitBusyAt (hm : HasMicro i k mWaitBusy) : WaitBusyAt i k := by
  refine ⟨hm.runs_next rfl (fun _ => rfl) fun s hfree => ?free, hm.runs fun s _ hbusy => ?busy⟩
  case free => rw [mWaitBusy, hfree, if_neg Bool.false_ne_true]
  case busy => rw [mWaitBusy, if_pos hbusy]

theorem waitIfAt (hwait : HasMicro i k mWaitIf) (hclear : HasMicro i (k + 1) mClearIf) : WaitIfAt i k := by
  refine ⟨hwait.runs_next rfl (fun _ => rfl) fun s hset => ?set, hwait.runs fun s _ hclr => ?clear,
    hclear.runs_next (BitVec.add_assoc k 1 1) (fun _ => rfl) fun s _ => mClearIf_eq s⟩
  case set => rw [mWaitIf, if_pos hset]
  case clear => rw [mWaitIf, hclr, if_neg Bool.false_ne_true]

theorem startAt (hm : HasMicro i k mStart) : StartAt i k :=
  ⟨hm.runs_next rfl (fun _ => rfl) fun s ⟨hmst, hfree⟩ => mStart_free s hmst hfree,
    hm.runs_next rfl (fun _ => rfl) fun s ⟨hmst, hbusy⟩ => mStart_lost s hmst hbusy,
    hm.runs_next rfl (fun _ => rfl) fun s hmst => mStart_master s hmst⟩

theorem stopAt (hm : HasMicro i k mStop) : StopAt i k :=
  ⟨hm.runs_next rfl (fun _ => rfl) fun s hmst => mStop_master s hmst,
    hm.runs_next rfl (fun _ => rfl) fun s hmst => mStop_other s hmst⟩

/-- Settles O16: each command is its primitive followed by the end. -/
theorem waitbusyStartStopMicroSteps : Obligations.WaitbusyStartStopMicroSteps :=
  ⟨⟨waitBusyAt rfl, doneAt rfl⟩, ⟨startAt rfl, doneAt rfl⟩, stopAt rfl, doneAt rfl⟩

/-! ## `SENDB` and `DRVCLK` -/

theorem sendAt {b : State → Byte} (hstore : HasMicro i k (mStoreData b)) (hwait : HasMicro i (k + 1) mWaitIf)
    (hclear : HasMicro i (k + 1 + 1) mClearIf) : SendAt i k b := by
  refine ⟨hstore.runs_next rfl (fun _ => rfl) fun s ⟨⟨hmst, htx⟩, hx⟩ => ?transmit,
    hstore.runs_next rfl (fun _ => rfl) fun s hother => ?buffer,
    hstore.stopsAt fun s ⟨⟨hmst, htx⟩, hx⟩ => ?inFlight, waitIfAt hwait hclear⟩
  case transmit => rw [mStoreData_eq, writeData_transmit _ s hmst htx hx, thenAdvance_ok]
  case buffer => rw [mStoreData_eq, writeData_other _ s hother, thenAdvance_ok]
  case inFlight => rw [mStoreData_eq, writeData_inFlight _ s hmst htx hx, thenAdvance_error]

theorem loadAt {f : Byte → State → State} (hf : ∀ b s, (f b s).seq = s.seq) (hm : HasMicro i k (mLoadData f)) :
    LoadAt i k f := by
  refine ⟨hm.runs_next rfl (fun s => hf _ _) fun s ⟨⟨hmst, htx⟩, hx⟩ => ?receive,
    hm.runs_next rfl (fun s => hf _ _) fun s hother => ?buffer, hm.stopsAt fun s ⟨⟨hmst, htx⟩, hx⟩ => ?inFlight⟩
  case receive => rw [mLoadData_eq, readData_receive s hmst htx hx]; rfl
  case buffer => rw [mLoadData_eq, readData_other s hother]
  case inFlight => rw [mLoadData_eq, readData_inFlight s hmst htx hx]

theorem driveAt (hload : HasMicro i k (mLoadData fun _ t => t)) (hwait : HasMicro i (k + 1) mWaitIf)
    (hclear : HasMicro i (k + 1 + 1) mClearIf) : DriveAt i k :=
  ⟨loadAt (fun _ _ => rfl) hload, waitIfAt hwait hclear⟩

/-- Settles O17: the two commands are their primitives followed by the end. -/
theorem sendbDrvclkMicroSteps : Obligations.SendbDrvclkMicroSteps :=
  ⟨fun _ => ⟨sendAt rfl rfl rfl, doneAt rfl⟩, driveAt rfl rfl rfl, doneAt rfl⟩

/-! ## `RSTART`, `RXMODE` and `RESETBUS` -/

theorem restartAt (hsave : HasMicro i k mSaveDiv) (hunity : HasMicro i (k + 1) mUnityDiv)
    (hstrobe : HasMicro i (k + 2) mStrobe) (hrestore : HasMicro i (k + 3) mRestoreDiv) : RestartAt i k :=
  ⟨hsave.runs_next rfl (fun _ => rfl) fun s _ => mSaveDiv_eq s,
    hunity.runs_next (BitVec.add_assoc k 1 1) (fun _ => rfl) fun s _ => mUnityDiv_eq s,
    hstrobe.runs_next (BitVec.add_assoc k 2 1) (fun _ => rfl) fun s ⟨hmst, hx, hd⟩ => mStrobe_master s hmst hx hd,
    hstrobe.runs_next (BitVec.add_assoc k 2 1) (fun _ => rfl) fun s hmst => mStrobe_other s hmst,
    hstrobe.stopsAt fun s ⟨hmst, hx⟩ => mStrobe_inFlight s hmst hx,
    hstrobe.stopsAt fun s ⟨hmst, hx, hd⟩ => mStrobe_erratum s hmst hx hd,
    hrestore.runs_next (BitVec.add_assoc k 3 1) (fun _ => rfl) fun s _ => mRestoreDiv_eq s⟩

theorem rxModeAt {a : BitVec 1} {ack : Bool} (ha : decide (a = 0) = !ack) (hm : HasMicro i k (mRxMode a)) :
    RxModeAt i k ack :=
  hm.runs_next rfl (fun _ => rfl) fun s _ => by rw [mRxMode_eq, ha]

theorem clearIfAt (hm : HasMicro i k mClearIf) (hj : k + 1 = j) :
    Runs i k anyState fun s => atStep i j { s with stat := { s.stat with ifl := false, arbl := false } } :=
  hm.runs_next hj (fun _ => rfl) fun s _ => mClearIf_eq s

/-- Settles O18: `RSTART` and `RXMODE` are their primitives followed by the end, `RESETBUS` two flag clears and the record of the
recovery. -/
theorem rstartRxmodeResetbusMicroSteps : Obligations.RstartRxmodeResetbusMicroSteps := by
  have hrecov : HasMicro .resetbus 2 fun t => .ok (setRecov t).advance := rfl
  exact ⟨⟨restartAt rfl rfl rfl rfl, doneAt rfl⟩, ⟨rxModeAt rfl rfl, rxModeAt rfl rfl, fun _ => doneAt rfl⟩,
    clearIfAt rfl rfl, clearIfAt rfl rfl, hrecov.runs_next rfl (fun _ => rfl) fun _ _ => rfl, doneAt rfl⟩

/-! ## `WAITB` -/

/-- The forced Stop as master (R99 step 4). -/
theorem mForcedStop_master (h : s.ctrl.mst = true) :
    mForcedStop s =
      .ok { s with
            ctrl := { s.ctrl with mst := false, tx := false }, stat := { s.stat with busy := false }, xfer := .none,
            busTrace := s.busTrace ++ [BusEvent.stop], esr := { s.esr with recov := true } }.advance := by
  rw [mForcedStop, opStop_master s h]
  rfl

/-- The forced Stop when not master (R99 step 4). -/
theorem mForcedStop_other (h : s.ctrl.mst = false) :
    mForcedStop s = .ok { s with ctrl := { s.ctrl with tx := false }, esr := { s.esr with recov := true } }.advance := by
  rw [mForcedStop, opStop_other s h]
  rfl

theorem waitb_zero : Runs .waitb 0 anyState fun s => atStep .waitb 1 { s with lockcnt := 0 } :=
  HasMicro.runs_next (m := mZeroCount) rfl rfl (fun _ => rfl) fun _ _ => rfl

theorem waitb_poll_set : Runs .waitb 1 (fun s => s.stat.ifl = true) (atStep .waitb 5) :=
  HasMicro.runs (m := mPoll) rfl fun s hs hset => by rw [mPoll, if_pos hset, goto_eq_atStep hs]

theorem waitb_poll_clear : Runs .waitb 1 (fun s => s.stat.ifl = false) (atStep .waitb 2) :=
  HasMicro.runs_next (m := mPoll) rfl rfl (fun _ => rfl) fun s hclr => by rw [mPoll, hclr, if_neg Bool.false_ne_true]

theorem waitb_count_below :
    Runs .waitb 2 (fun s => s.lockcnt.toNat + 1 < 200) fun s => atStep .waitb 1 { s with lockcnt := s.lockcnt + 1 } := by
  refine HasMicro.runs (m := mCount) rfl fun s hs hlt => ?_
  have hbelow : (s.lockcnt + 1).toNat < Config.waitBound := by unfold Config.waitBound; bv_omega
  exact congrArg Except.ok ((if_pos hbelow).trans (goto_eq_atStep (t := { s with lockcnt := s.lockcnt + 1 }) hs))

theorem waitb_count_bound :
    Runs .waitb 2 (fun s => s.lockcnt.toNat = 199) fun s => atStep .waitb 3 { s with lockcnt := 200 } := by
  refine HasMicro.runs_next (m := mCount) rfl rfl (fun _ => rfl) fun s heq => ?_
  have hcount : s.lockcnt + 1 = 200 := by bv_omega
  have hbound : ¬ (200 : Byte).toNat < Config.waitBound := by decide
  rw [mCount, hcount]
  exact congrArg Except.ok (if_neg hbound)

theorem waitb_start : StartAt .waitb 3 := startAt rfl

theorem waitb_stop_master :
    Runs .waitb 4 (fun s => s.ctrl.mst = true) fun s =>
      atStep .waitb 5
        { s with
          ctrl := { s.ctrl with mst := false, tx := false }, stat := { s.stat with busy := false }, xfer := .none,
          busTrace := s.busTrace ++ [.stop], esr := { s.esr with recov := true } } :=
  HasMicro.runs_next (m := mForcedStop) rfl rfl (fun _ => rfl) fun _ => mForcedStop_master

theorem waitb_stop_other :
    Runs .waitb 4 (fun s => s.ctrl.mst = false) fun s =>
      atStep .waitb 5 { s with ctrl := { s.ctrl with tx := false }, esr := { s.esr with recov := true } } :=
  HasMicro.runs_next (m := mForcedStop) rfl rfl (fun _ => rfl) fun _ => mForcedStop_other

theorem waitb_clear :
    Runs .waitb 5 anyState fun s => atStep .waitb 6 { s with stat := { s.stat with ifl := false, arbl := false } } :=
  clearIfAt rfl rfl

theorem waitb_done : DoneAt .waitb 6 := doneAt rfl

/-- Settles O19: its micro-steps one by one. -/
theorem waitbMicroSteps : Obligations.WaitbMicroSteps :=
  ⟨waitb_zero, waitb_poll_set, waitb_poll_clear, waitb_count_below, waitb_count_bound, waitb_start, waitb_stop_master,
    waitb_stop_other, waitb_clear, waitb_done⟩

end Sys2Proof.Machine
end

section
/-! PROOFS. The bounded wait of `WAITB` (41_engine_primitives.md R99): with SEQ alone it times out after 405 steps, and among any
turns of the other agents it ends by SEQ's 405th. -/

namespace Sys2Proof.Machine

variable {i : Instr} {k j : BitVec 6} {pre : State → Prop} {post : State → State} {s t u : State}

theorem decode_waitb (v : FifoVariant) : decode v (encode .waitb) = some .waitb :=
  decodeOfEncode v .waitb (by cases v <;> rfl)

/-! ## A run in which SEQ alone moves -/

theorem runSteps_succ {n : Nat} (h : step s = .next t) : runSteps (n + 1) s = runSteps n t := by
  rw [runSteps, h]

/-- No turn is handed out and the command in `CMD` is `i`: every step is SEQ's (log 3). -/
def Alone (i : Instr) (s : State) : Prop := s.agenda = [] ∧ decode s.params.variant s.cmd = some i

theorem Alone.run_step {n : Nat} (ha : Alone i u) (hr : Runs i k pre post) (hpre : pre (atStep i k u)) :
    runSteps (n + 1) (atStep i k u) = runSteps n (post (atStep i k u)) := by
  obtain ⟨hagenda, hd⟩ := ha
  have hturn : seqTurn (atStep i k u) = .next (post (atStep i k u)) := by
    rw [seqTurn_decoded (s := atStep i k u) rfl hd, hr _ rfl hpre]
  exact runSteps_succ ((step_default_running (s := atStep i k u) hagenda rfl).trans hturn)

theorem atStep_self (hs : s.seq = .run i.opcode k) : atStep i k s = s := by
  rw [atStep, ← hs]

/-- From a count that is `n + 1` below the bound, `n + 1` polls that find `IF` 0 lead to the forced START (R99 steps 1 and
2). -/
theorem waitb_polls (m : Nat) (ha : Alone .waitb u) (hif : u.stat.ifl = false) {n : Nat} (hn : u.lockcnt.toNat + n = 199) :
    runSteps (m + 2 * (n + 1)) (atStep .waitb 1 u) = runSteps m (atStep .waitb 3 { u with lockcnt := 200 }) := by
  induction n generalizing u with
  | zero =>
    calc runSteps (m + 2) (atStep .waitb 1 u)
      _ = runSteps (m + 1) (atStep .waitb 2 u) := ha.run_step waitb_poll_clear hif
      _ = runSteps m (atStep .waitb 3 { u with lockcnt := 200 }) := ha.run_step waitb_count_bound hn
  | succ n ih =>
    have hbelow : u.lockcnt.toNat + 1 < 200 := by omega
    have hcount : (u.lockcnt + 1).toNat + n = 199 := by bv_omega
    calc runSteps (m + 2 * (n + 1) + 2) (atStep .waitb 1 u)
      _ = runSteps (m + 2 * (n + 1) + 1) (atStep .waitb 2 u) := ha.run_step waitb_poll_clear hif
      _ = runSteps (m + 2 * (n + 1)) (atStep .waitb 1 { u with lockcnt := u.lockcnt + 1 }) :=
        ha.run_step waitb_count_below hbelow
      _ = runSteps m (atStep .waitb 3 { u with lockcnt := 200 }) :=
        ih (u := { u with lockcnt := u.lockcnt + 1 }) ha hif hcount

/-- As master the forced START sets the direction only, the forced Stop releases the bus, and the command ends (R99 steps 3 to
6). -/
theorem waitb_timeout (ha : Alone .waitb u) (hmst : u.ctrl.mst = true) :
    runSteps 4 (atStep .waitb 3 u) =
      .next
        { u with
          seq := .idle, ctrl := { u.ctrl with mst := false, tx := false },
          stat := { u.stat with busy := false, ifl := false, arbl := false }, xfer := .none,
          busTrace := u.busTrace ++ [.stop], esr := { u.esr with recov := true } } := by
  obtain ⟨-, -, hstart⟩ := waitb_start
  calc runSteps 4 (atStep .waitb 3 u)
    _ = runSteps 3 _ := ha.run_step hstart hmst
    _ = runSteps 2 _ := Alone.run_step ha waitb_stop_master hmst
    _ = runSteps 1 _ := Alone.run_step (pre := anyState) ha waitb_clear trivial
    _ = runSteps 0 _ := Alone.run_step (pre := anyState) ha waitb_done trivial

/-- Settles O28: the zeroing of the count, 200 polls with their counts, and the four micro-steps after them. -/
theorem waitbTimesOut : Obligations.WaitbTimesOut := by
  intro s hs hcmd hagenda hif hmst
  have ha : Alone .waitb s := ⟨hagenda, hcmd ▸ decode_waitb _⟩
  have hstat : s.stat = { s.stat with ifl := false } := by rw [← hif]
  calc runSteps 405 s
    _ = runSteps 405 (atStep .waitb 0 s) := by rw [atStep_self hs]
    _ = runSteps 404 (atStep .waitb 1 { s with lockcnt := 0 }) := ha.run_step waitb_zero trivial
    _ = runSteps 4 (atStep .waitb 3 { s with lockcnt := 200 }) :=
      waitb_polls 4 (u := { s with lockcnt := 0 }) (n := 199) ha hif rfl
    _ = _ := waitb_timeout (u := { s with lockcnt := 200 }) ha hmst
    _ = _ := by rw [hstat]

/-! ## The turns of the other agents -/

theorem linkRx_agenda (b : Byte) (s : State) : (linkRx b s).agenda = s.agenda := by
  unfold linkRx
  split
  · split
    · unfold ringReceive; split
      · rfl
      · split <;> rfl
    · rw [critical_fifoReceive]; unfold fifoReceive; split <;> rfl
  · rfl

theorem linkTx_agenda (s : State) : (linkTx s).agenda = s.agenda := by
  unfold linkTx
  split
  · split
    · unfold ringTransmit; split <;> rfl
    · rw [critical_fifoTransmit]; unfold fifoTransmit; split <;> rfl
  · rfl

/-- While a command runs a turn that is neither SEQ's nor a reset moves on without touching the command (00_scope.md R18, R23). -/
theorem takeTurn_other {turn : Turn} {op : Byte} (hs : s.seq = .run op k) (hseq : turn ≠ .seq) (hreset : turn ≠ .reset) :
    ∃ t, takeTurn turn s = .next t ∧ t.agenda = s.agenda ∧ Work Touch.nothing s t := by
  cases turn with
  | seq => exact absurd rfl hseq
  | host =>
    obtain ⟨acc, hhost⟩ := hostTurn_running hs
    exact ⟨_, hhost, rfl, Change.work (.plain ..) rfl⟩
  | busTx a => exact ⟨_, rfl, by unfold busTx; split <;> rfl, busTx_work a s⟩
  | busRx d => exact ⟨_, rfl, by unfold busRx; split <;> rfl, busRx_work d s⟩
  | busBusy taken => exact ⟨_, rfl, by unfold busBusy; split <;> rfl, busBusy_work taken s⟩
  | busArbLost => exact ⟨_, rfl, by unfold busArbLost; split <;> rfl, busArbLost_work s⟩
  | linkRx b => exact ⟨_, rfl, linkRx_agenda b s, linkRx_work b s⟩
  | linkTx => exact ⟨_, rfl, linkTx_agenda s, linkTx_work s⟩
  | reset => exact absurd rfl hreset

/-! ## A run among the turns of all agents -/

/-- SEQ stands at micro-step `k` of `WAITB`, with the count below its bound while it polls. -/
structure InWaitb (k : BitVec 6) (s : State) : Prop where
  seq : s.seq = .run 0x18 k
  bound : k.toNat < 7
  cmd : s.cmd = encode .waitb
  lock : LockOk s

/-- How many turns of SEQ `WAITB` takes at most from micro-step `k` with this count (R99). -/
def waitbTurns (k : BitVec 6) (count : Byte) : Nat :=
  match k.toNat with
  | 0 => 405
  | 1 => 2 * (200 - count.toNat) + 4
  | 2 => 2 * (200 - count.toNat) + 3
  | j => 7 - j

theorem waitbTurns_le (hk : k.toNat < 7) (count : Byte) : waitbTurns k count ≤ 405 := by
  unfold waitbTurns
  split <;> omega

theorem waitbTurns_pos (hk : k.toNat < 7) (count : Byte) : 0 < waitbTurns k count := by
  unfold waitbTurns
  split <;> omega

/-- What a turn of SEQ in `WAITB` brings: the end, or a micro-step with fewer turns to go. -/
def Closer (k : BitVec 6) (s t : State) : Prop :=
  t.agenda = s.agenda ∧
    (t.seq = .idle ∨ ∃ j, InWaitb j t ∧ waitbTurns j t.lockcnt < waitbTurns k s.lockcnt)

theorem InWaitb.seqTurn_eq (h : InWaitb k s) (hr : Runs .waitb k pre post) (hpre : pre s) : seqTurn s = .next (post s) := by
  rw [seqTurn_decoded h.seq (i := .waitb) (by rw [h.cmd]; exact decode_waitb _), hr s h.seq hpre]

/-- A micro-step of `WAITB` that leaves the agenda and `CMD` and moves to a micro-step with fewer turns to go. -/
theorem InWaitb.closer (h : InWaitb k s) (hr : Runs .waitb k pre fun s => atStep .waitb j (post s)) (hpre : pre s)
    (hframe : (post s).agenda = s.agenda ∧ (post s).cmd = s.cmd) (hj : j.toNat < 7)
    (hlt : waitbTurns j (post s).lockcnt < waitbTurns k s.lockcnt) : ∃ t, seqTurn s = .next t ∧ Closer k s t := by
  have hturn := h.seqTurn_eq hr hpre
  have hlock : LockOk (atStep .waitb j (post s)) := (seqTurn_stepped hturn).lockOk h.lock
  exact ⟨_, hturn, hframe.1, .inr ⟨j, ⟨rfl, hj, hframe.2.trans h.cmd, hlock⟩, hlt⟩⟩

/-- SEQ's turn in `WAITB`, micro-step by micro-step (R99). -/
theorem InWaitb.seqTurn_closer (h : InWaitb k s) : ∃ t, seqTurn s = .next t ∧ Closer k s t := by
  obtain ⟨hfree, hlost, hmaster⟩ := waitb_start
  obtain ⟨-, hpolls⟩ : s.lockcnt.toNat ≤ 200 ∧ (Polling s → s.lockcnt.toNat < 200) := h.lock
  have hstep : k = 0 ∨ k = 1 ∨ k = 2 ∨ k = 3 ∨ k = 4 ∨ k = 5 ∨ k = 6 := by have := h.bound; bv_omega
  obtain rfl | rfl | rfl | rfl | rfl | rfl | rfl := hstep
  · exact h.closer waitb_zero trivial ⟨rfl, rfl⟩ (by decide) (by decide : 404 < 405)
  · cases hif : s.stat.ifl with
    | true =>
      exact h.closer waitb_poll_set hif ⟨rfl, rfl⟩ (by decide) (by omega : 2 < 2 * (200 - s.lockcnt.toNat) + 4)
    | false => exact h.closer waitb_poll_clear hif ⟨rfl, rfl⟩ (by decide) (Nat.lt_succ_self _)
  · have hlt : s.lockcnt.toNat < 200 := hpolls (.inr h.seq)
    by_cases hbound : s.lockcnt.toNat = 199
    · exact h.closer waitb_count_bound hbound ⟨rfl, rfl⟩ (by decide) (by omega : 4 < 2 * (200 - s.lockcnt.toNat) + 3)
    · have hcount : 2 * (200 - (s.lockcnt + 1).toNat) + 4 < 2 * (200 - s.lockcnt.toNat) + 3 := by bv_omega
      exact h.closer waitb_count_below (by omega) ⟨rfl, rfl⟩ (by decide) hcount
  · have hfewer : 3 < 4 := by decide
    cases hmst : s.ctrl.mst with
    | true => exact h.closer hmaster hmst ⟨rfl, rfl⟩ (by decide) hfewer
    | false =>
      cases hbusy : s.stat.busy with
      | true => exact h.closer hlost ⟨hmst, hbusy⟩ ⟨rfl, rfl⟩ (by decide) hfewer
      | false => exact h.closer hfree ⟨hmst, hbusy⟩ ⟨rfl, rfl⟩ (by decide) hfewer
  · have hfewer : 2 < 3 := by decide
    cases hmst : s.ctrl.mst with
    | true => exact h.closer waitb_stop_master hmst ⟨rfl, rfl⟩ (by decide) hfewer
    | false => exact h.closer waitb_stop_other hmst ⟨rfl, rfl⟩ (by decide) hfewer
  · exact h.closer waitb_clear trivial ⟨rfl, rfl⟩ (by decide) (by decide : 1 < 2)
  · exact ⟨_, h.seqTurn_eq waitb_done trivial, rfl, .inl rfl⟩

/-- A turn that leaves SEQ, `CMD` and `LOCKCNT` leaves the wait where it is. -/
theorem InWaitb.of_work (h : InWaitb k s) (hw : Work Touch.nothing s t) : InWaitb k t ∧ t.lockcnt = s.lockcnt :=
  ⟨⟨hw.seq.trans h.seq, h.bound, (hw.effect.cmd_eq id id).trans h.cmd, (Stepped.quiet hw).lockOk h.lock⟩,
    hw.effect.lockcnt_eq id id⟩

/-- Handing out the turn leaves the wait where it is. -/
theorem InWaitb.withAgenda (h : InWaitb k s) (a : List Turn) : InWaitb k { s with agenda := a } :=
  ⟨h.seq, h.bound, h.cmd, h.lock⟩

/-- With enough turns of SEQ among those to come, the wait ends within them: induction over the turns, each of SEQ's bringing
the end closer and every other leaving the wait where it is. -/
theorem InWaitb.ends {ts rest : List Turn} (h : InWaitb k s) (hagenda : s.agenda = ts ++ rest)
    (hturns : waitbTurns k s.lockcnt ≤ ts.count .seq) (hreset : Turn.reset ∉ ts) :
    ∃ n t, n ≤ ts.length ∧ runSteps n s = .next t ∧ t.seq = .idle := by
  induction ts generalizing s k with
  | nil =>
    have hpos := waitbTurns_pos h.bound s.lockcnt
    exact absurd hturns (Nat.not_le.2 hpos)
  | cons turn ts ih =>
    have hstep : step s = takeTurn turn { s with agenda := ts ++ rest } := by rw [step, hagenda]; rfl
    obtain ⟨hfirst, hlater⟩ := not_or.1 (mt List.mem_cons.2 hreset)
    have continues {j : BitVec 6} {t : State} (ht : step s = .next t) (hj : InWaitb j t) (ha : t.agenda = ts ++ rest)
        (hle : waitbTurns j t.lockcnt ≤ ts.count .seq) :
        ∃ n u, n ≤ (turn :: ts).length ∧ runSteps n s = .next u ∧ u.seq = .idle := by
      obtain ⟨n, u, hn, hrun, hidle⟩ := ih hj ha hle hlater
      exact ⟨n + 1, u, Nat.succ_le_succ hn, (runSteps_succ ht).trans hrun, hidle⟩
    by_cases hseq : turn = .seq
    · subst hseq
      rw [List.count_cons_self] at hturns
      obtain ⟨t, hturn, ha, hidle | ⟨j, hj, hlt⟩⟩ := (h.withAgenda (ts ++ rest)).seqTurn_closer
      · exact ⟨1, t, Nat.succ_le_succ (Nat.zero_le _), runSteps_succ (hstep.trans hturn), hidle⟩
      · exact continues (hstep.trans hturn) hj ha (Nat.le_of_lt_succ (Nat.lt_of_lt_of_le hlt hturns))
    · rw [List.count_cons_of_ne hseq] at hturns
      obtain ⟨t, hturn, ha, hwork⟩ := takeTurn_other (s := { s with agenda := ts ++ rest }) h.seq hseq (Ne.symm hfirst)
      obtain ⟨hj, hkept⟩ := (h.withAgenda (ts ++ rest)).of_work hwork
      exact continues (hstep.trans hturn) hj ha (by rw [hkept]; exact hturns)

/-- Settles O29: from every micro-step at most 405 turns of SEQ are left. -/
theorem waitbAlwaysEnds : Obligations.WaitbAlwaysEnds := by
  intro s ts rest hlock hcmd ⟨k, hs, hk⟩ hagenda hturns hreset
  exact InWaitb.ends ⟨hs, hk, hcmd, hlock⟩ hagenda ((waitbTurns_le hk _).trans hturns) hreset

end Sys2Proof.Machine
end

section
/-! PROOFS. The micro-steps of the engine transactions (42_engine_transactions.md R102 to R107): the micro-operations of a
block stand one after the other in the micro-programs that run it in place, so the claims about the blocks that the transactions
share are proved once, wherever the block stands. -/

namespace Sys2Proof.Machine

variable {i : Instr} {k : BitVec 6} {ms : List MicroOp} {s : State}

/-! ## Micro-operations in a row -/

/-- The micro-operations `ms` stand at the micro-steps from `k` on of command `i` (10_state.md R22). -/
def HasMicros (i : Instr) (k : BitVec 6) (ms : List MicroOp) : Prop :=
  ∀ n m, ms[n]? = some m → HasMicro i (k + BitVec.ofNat 6 n) m

/-- The micro-step number has 6 bits (10_state.md R22). -/
theorem microSteps_le (i : Instr) : microSteps i ≤ 64 := by
  cases i <;> exact Nat.le_of_ble_eq_true rfl

theorem hasMicros_program (i : Instr) : HasMicros i 0#6 (program i) := by
  intro n m hm
  have hlen : (program i).length ≤ 64 := (program_length i).trans_le (microSteps_le i)
  have hn : n < (program i).length := (List.getElem?_eq_some_iff.1 hm).1
  have hk : (0#6 + BitVec.ofNat 6 n).toNat = n := by
    rw [BitVec.zero_add, BitVec.toNat_ofNat]
    exact Nat.mod_eq_of_lt (Nat.lt_of_lt_of_le hn hlen)
  rw [HasMicro, hk, hm]

/-- A stretch of a row that begins `n` micro-steps in. -/
theorem HasMicros.part {part : List MicroOp} (h : HasMicros i k ms) (n : Nat) (hpart : (ms.drop n).take part.length = part) :
    HasMicros i (k + BitVec.ofNat 6 n) part := by
  intro l m hm
  have hget : ms[n + l]? = some m := by
    have hl : l < part.length := (List.getElem?_eq_some_iff.1 hm).1
    rw [← List.getElem?_drop, ← List.getElem?_take_of_lt hl, hpart, hm]
  rw [BitVec.add_assoc, ← BitVec.ofNat_add]
  exact h _ _ hget

/-- A stretch of the micro-program of `i`. -/
theorem hasMicros (n : Nat) (hpart : ((program i).drop n).take ms.length = ms) :
    HasMicros i (BitVec.ofNat 6 n) ms := by
  rw [← BitVec.zero_add (BitVec.ofNat 6 n)]
  exact (hasMicros_program i).part n hpart

theorem HasMicros.micro {m : MicroOp} (h : HasMicros i k ms) (n : Nat) (hm : ms[n]? = some m) :
    HasMicro i (k + BitVec.ofNat 6 n) m :=
  h n m hm

theorem HasMicros.micro_zero {m : MicroOp} (h : HasMicros i k (m :: ms)) : HasMicro i k m := by
  have hfirst := h.micro 0 rfl
  rwa [BitVec.add_zero] at hfirst

/-- The beginning of a row. -/
theorem HasMicros.first {part : List MicroOp} (h : HasMicros i k ms) (hpart : ms.take part.length = part) :
    HasMicros i k part := by
  rw [← BitVec.add_zero (x := k)]
  exact h.part 0 hpart

/-! ## The blocks of the transactions -/

theorem HasMicros.waitIfAt (h : HasMicros i k waitIf) : WaitIfAt i k :=
  Machine.waitIfAt h.micro_zero (h.micro 1 rfl)

theorem HasMicros.sendAt {b : State → Byte} (h : HasMicros i k (sendByte b)) : SendAt i k b :=
  Machine.sendAt h.micro_zero (h.micro 1 rfl) ((BitVec.add_assoc k 1 1).symm ▸ h.micro 2 rfl)

theorem HasMicros.driveAt (h : HasMicros i k driveClock) : DriveAt i k :=
  Machine.driveAt h.micro_zero (h.micro 1 rfl) ((BitVec.add_assoc k 1 1).symm ▸ h.micro 2 rfl)

theorem HasMicros.restartAt (h : HasMicros i k repeatedStart) : RestartAt i k :=
  Machine.restartAt h.micro_zero (h.micro 1 rfl) (h.micro 2 rfl) (h.micro 3 rfl)

theorem selectAt (hm : HasMicro i k mSelect) : SelectAt i k := by
  refine ⟨hm.runs_next rfl (fun s => ?seq) fun s hgo => ?goes, hm.stopsAt fun s hmiss => if_pos hmiss⟩
  case seq =>
    obtain ⟨_, _, _, _, _, hframe⟩ := arbSelect_frame s.dp.slv s
    rw [hframe]
  case goes =>
    refine if_neg fun ⟨hfault, hmiss⟩ => hgo.elim (fun hproceed => ?_) hmiss
    rw [hproceed] at hfault
    cases hfault

theorem HasMicros.addressAt (h : HasMicros i k addressWrite) : AddressAt i k :=
  ⟨selectAt h.micro_zero, waitBusyAt (h.micro 1 rfl), startAt (h.micro 2 rfl), HasMicros.sendAt (h.part 3 rfl),
    HasMicros.sendAt (h.part 6 rfl)⟩

theorem HasMicros.readAt (h : HasMicros i k readRegister) : ReadAt i k :=
  ⟨HasMicros.addressAt (h.first rfl), HasMicros.restartAt (h.part 9 rfl), HasMicros.sendAt (h.part 13 rfl),
    rxModeAt rfl (h.micro 16 rfl), HasMicros.driveAt (h.part 17 rfl), stopAt (h.micro 20 rfl),
    loadAt (fun _ _ => rfl) (h.micro 21 rfl)⟩

/-- Settles O20: `RDREG` is the read of a register and the end, `WRREG` the address, the value, `STOP` and the end. -/
theorem rdregWrregMicroSteps : Obligations.RdregWrregMicroSteps :=
  ⟨fun _ _ => ⟨HasMicros.readAt (hasMicros 0 rfl), doneAt rfl⟩,
    fun _ _ _ =>
      ⟨HasMicros.addressAt (hasMicros 0 rfl), HasMicros.sendAt (hasMicros 9 rfl), stopAt rfl, doneAt rfl⟩⟩

/-! ## `MODREG` -/

/-- Two bytes below 16 zero bits, as `MODREG` leaves them in `RES` (R107). -/
theorem setWidth_append_bytes (a b : Byte) : (a ++ b : BitVec 16).setWidth 32 = 0#16 ++ a ++ b :=
  (leValue_cons_append b (leValue_one a)).symm.trans (leValue_two b a)

section Modreg

variable {slave : Slave} {reg : Byte}

theorem modreg_modify :
    Runs (.modreg slave reg) 25 anyState fun s =>
      atStep (.modreg slave reg) 26 { s with dp := { s.dp with new := (s.dp.tmp &&& s.dp.amsk) ||| s.dp.omsk } } :=
  HasMicro.runs_next (m := mModify) rfl rfl (fun _ => rfl) fun _ _ => rfl

theorem modreg_done :
    Runs (.modreg slave reg) 36 anyState fun s => ended { s with res := 0#16 ++ s.dp.tmp ++ s.dp.new } :=
  HasMicro.runs (m := mModifyDone) rfl fun s _ _ => by
    rw [mModifyDone, setWidth_append_bytes]
    rfl

end Modreg

/-- Settles O22: the read up to the byte, a repeated START, the byte and its modification, three bytes sent, `STOP` and the
result. -/
theorem modregMicroSteps : Obligations.ModregMicroSteps :=
  fun _ _ =>
    ⟨HasMicros.addressAt (hasMicros 0 rfl), HasMicros.restartAt (hasMicros 9 rfl), HasMicros.sendAt (hasMicros 13 rfl),
      rxModeAt rfl rfl, HasMicros.driveAt (hasMicros 17 rfl), HasMicros.restartAt (hasMicros 20 rfl),
      loadAt (fun _ _ => rfl) rfl, modreg_modify, HasMicros.sendAt (hasMicros 26 rfl), HasMicros.sendAt (hasMicros 29 rfl),
      HasMicros.sendAt (hasMicros 32 rfl), stopAt rfl, modreg_done⟩

/-! ## `RDREGS` -/

section Rdregs

variable {slave : Slave} {reg n : Byte}

theorem rdregs_zero_from_idle (hs : s.seq = .idle) :
    runOne (.rdregs slave reg 0) s =
      .next (halted 1 { s with dp := { s.dp with heldSlv := s.dp.slv, heldRega := s.dp.rega } }) := by
  rw [runOne, acceptanceLoadsOperands _ s hs]
  rfl

theorem rdregs_count_zero :
    Runs (.rdregs slave reg n) 0 (fun _ => n = 0) fun s =>
      halted 1 { s with dp := { s.dp with slv := s.dp.heldSlv, rega := s.dp.heldRega } } :=
  HasMicro.runs (m := mCheckCount n) rfl fun _ _ hn => congrArg Except.ok (if_pos hn)

theorem rdregs_count_nonzero : Runs (.rdregs slave reg n) 0 (fun _ => n ≠ 0) (atStep (.rdregs slave reg n) 1) :=
  HasMicro.runs_next (m := mCheckCount n) rfl rfl (fun _ => rfl) fun _ hn => congrArg Except.ok (if_neg hn)

theorem rdregs_one : Runs (.rdregs slave reg n) 1 (fun _ => n = 1) (atStep (.rdregs slave reg n) 35) :=
  HasMicro.runs (m := mOneByte n) rfl fun _ hs hn =>
    congrArg Except.ok ((if_pos hn).trans (goto_eq_atStep hs))

theorem rdregs_many : Runs (.rdregs slave reg n) 1 (fun _ => n ≠ 1) (atStep (.rdregs slave reg n) 2) :=
  HasMicro.runs_next (m := mOneByte n) rfl rfl (fun _ => rfl) fun _ hn => congrArg Except.ok (if_neg hn)

theorem rdregs_init :
    Runs (.rdregs slave reg n) 22 anyState fun s =>
      atStep (.rdregs slave reg n) 23 { s with dp := { s.dp with idx := 0, cnt := n - 2 } } :=
  HasMicro.runs_next (m := mBurstInit n) rfl rfl (fun _ => rfl) fun _ _ => rfl

theorem rdregs_test_zero :
    Runs (.rdregs slave reg n) 23 (fun s => s.dp.cnt = 0) (atStep (.rdregs slave reg n) 28) :=
  HasMicro.runs (m := mBurstTest) rfl fun _ hs hcnt => congrArg Except.ok ((if_pos hcnt).trans (goto_eq_atStep hs))

theorem rdregs_test_nonzero :
    Runs (.rdregs slave reg n) 23 (fun s => s.dp.cnt ≠ 0) (atStep (.rdregs slave reg n) 24) :=
  HasMicro.runs_next (m := mBurstTest) rfl rfl (fun _ => rfl) fun _ hcnt => congrArg Except.ok (if_neg hcnt)

theorem rdregs_next :
    Runs (.rdregs slave reg n) 27 anyState fun s =>
      atStep (.rdregs slave reg n) 23 { s with dp := { s.dp with cnt := s.dp.cnt - 1 } } :=
  HasMicro.runs (m := mBurstNext) rfl fun s hs _ =>
    congrArg Except.ok (goto_eq_atStep (t := { s with dp := { s.dp with cnt := s.dp.cnt - 1 } }) hs)

theorem rdregs_noAck :
    Runs (.rdregs slave reg n) 28 anyState fun s =>
      atStep (.rdregs slave reg n) 29 { s with ctrl := { s.ctrl with txak := true } } :=
  HasMicro.runs_next (m := mNoAck) rfl rfl (fun _ => rfl) fun s _ => mNoAck_eq s

theorem rdregs_done : Runs (.rdregs slave reg n) 34 anyState fun s => ended { s with res := n.setWidth 32 } :=
  HasMicro.runs (m := mBurstDone n) rfl fun _ _ _ => rfl

theorem rdregs_oneByte_done :
    Runs (.rdregs slave reg n) 57 anyState fun s =>
      ended { s with mem := Store.write s.mem 0x100 (s.res.extractLsb' 0 8), res := 1 } :=
  HasMicro.runs (m := mOneByteDone) rfl fun s _ _ => by
    rw [mOneByteDone, setWidth_eq_extractLsb']
    rfl

end Rdregs

/-- Settles O21: the tests of the count, the burst and the one-byte arm. -/
theorem rdregsMicroSteps : Obligations.RdregsMicroSteps := by
  intro slave reg n i keep
  have hzero (hn : n = 0) (s : State) (hs : s.seq = .idle) :
      runOne i s = .next (halted 1 { s with dp := { s.dp with heldSlv := s.dp.slv, heldRega := s.dp.rega } }) := by
    subst hn
    exact rdregs_zero_from_idle hs
  have hkeep {k : BitVec 6} (hm : HasMicro i k (mLoadData storeBurstByte)) : LoadAt i k keep :=
    loadAt (f := keep) (fun _ _ => rfl) hm
  exact ⟨hzero, rdregs_count_zero, rdregs_count_nonzero, rdregs_one, rdregs_many, HasMicros.addressAt (hasMicros 2 rfl),
    HasMicros.restartAt (hasMicros 11 rfl), HasMicros.sendAt (hasMicros 15 rfl), rxModeAt rfl rfl,
    HasMicros.driveAt (hasMicros 19 rfl), rdregs_init, rdregs_test_zero, rdregs_test_nonzero, hkeep rfl,
    HasMicros.waitIfAt (hasMicros 25 rfl), rdregs_next, rdregs_noAck, hkeep rfl, HasMicros.waitIfAt (hasMicros 30 rfl),
    stopAt rfl, hkeep rfl, rdregs_done, HasMicros.readAt (hasMicros 35 rfl), rdregs_oneByte_done⟩

end Sys2Proof.Machine
end

section
/-! PROOFS. Runs of the engine, block by block (42_engine_transactions.md R102 to R107): what a list of turns makes of a state,
whatever turns follow, and for every block of micro-steps that the transactions share the turns that take the machine
through it and the state they leave. -/

namespace Sys2Proof.Machine

variable {i : Instr} {k : BitVec 6} {pre : State → Prop} {post : State → State} {s t u : State} {ts us : List Turn}

/-! ## Lists of turns -/

/-- The turns `ts` take the machine from `s` to `t` whatever turns follow them (log 1): the agendas of `s` and `t` play no
part. -/
def Reaches (ts : List Turn) (s t : State) : Prop :=
  ∀ rest, runSteps ts.length { s with agenda := ts ++ rest } = .next { t with agenda := rest }

theorem runSteps_add {n : Nat} (m : Nat) (h : runSteps n s = .next t) : runSteps (n + m) s = runSteps m t := by
  induction n generalizing s with
  | zero =>
    obtain rfl : s = t := Host.Outcome.next.inj h
    rw [Nat.zero_add]
  | succ n ih =>
    rw [Nat.succ_add, runSteps]
    rw [runSteps] at h
    split at h
    · exact ih h
    · cases h
    · cases h

theorem Reaches.refl (s : State) : Reaches [] s s := fun _ => rfl

theorem Reaches.trans (hst : Reaches ts s t) (htu : Reaches us t u) : Reaches (ts ++ us) s u := by
  intro rest
  rw [List.length_append, List.append_assoc, runSteps_add _ (hst (us ++ rest))]
  exact htu rest

/-- From a state with these turns and more on its agenda. -/
theorem Reaches.run {rest : List Turn} (h : Reaches ts s t) (hagenda : s.agenda = ts ++ rest) :
    runSteps ts.length s = .next { t with agenda := rest } := by
  have hrun := h rest
  rwa [← hagenda] at hrun

theorem Reaches.turn {turn : Turn} (h : ∀ a, takeTurn turn { s with agenda := a } = .next { t with agenda := a }) :
    Reaches [turn] s t :=
  fun rest => runSteps_succ (h rest)

/-- SEQ's turn at a micro-step that completes (R17). -/
theorem Runs.reaches (hr : Runs i k pre post) (hd : decode s.params.variant s.cmd = some i)
    (hpre : ∀ a, pre { atStep i k s with agenda := a })
    (hpost : ∀ a, post { atStep i k s with agenda := a } = { t with agenda := a }) : Reaches [.seq] (atStep i k s) t := by
  refine Reaches.turn fun a => ?_
  rw [← hpost a]
  exact (seqTurn_decoded (s := { atStep i k s with agenda := a }) rfl hd).trans (hr _ rfl (hpre a))

/-- SEQ's turn at a micro-step that ends the command: `post` gives the state but for `SEQ`. -/
theorem Runs.reaches_end (hr : Runs i k anyState fun s => ended (post s)) (hd : decode s.params.variant s.cmd = some i)
    (hpost : ∀ a, ended (post { atStep i k s with agenda := a }) = { ended (post s) with agenda := a }) :
    Reaches [.seq] (atStep i k s) (ended (post s)) :=
  hr.reaches hd (fun _ => trivial) hpost

/-- SEQ's turn at a micro-step that moves SEQ and changes nothing else. -/
theorem Runs.reaches_jump {j : BitVec 6} (hr : Runs i k pre (atStep i j)) (hd : decode s.params.variant s.cmd = some i)
    (hpre : ∀ a, pre { atStep i k s with agenda := a }) : Reaches [.seq] (atStep i k s) (atStep i j s) :=
  hr.reaches hd hpre fun _ => rfl

/-! ## Acceptance -/

/-- HOST's next access, a write of command `i` to `CMD`, has been made and the command accepted (10_state.md R23). -/
def accepted (i : Instr) (later : List HostAccess) (s : State) : State :=
  { s with cmd := encode i, dp := loaded i s, host := later }

theorem reaches_accepted {later : List HostAccess} (hidle : s.seq = .idle) (hd : decode s.params.variant (encode i) = some i)
    (hhost : s.host = writeCmd s.params i :: later) : Reaches [.host] s (atStep i 0 (accepted i later s)) := by
  refine Reaches.turn fun a => ?_
  have hload : loaded i { s with cmd := encode i, agenda := a, host := later } = loaded i s := by cases i <;> rfl
  calc hostTurn { s with agenda := a }
    _ = hostWrite 0x008 .w (encode i) { s with agenda := a, host := later } :=
      hostTurn_idle_write (s := { s with agenda := a }) hidle hhost
    _ = acceptCommand { s with cmd := encode i, agenda := a, host := later } := hostWrite_cmdWord _ _
    _ = exec i { s with cmd := encode i, agenda := a, host := later } := acceptCommand_decoded hd
    _ = .next { atStep i 0 (accepted i later s) with agenda := a } := by
      rw [acceptanceLoadsOperands i { s with cmd := encode i, agenda := a, host := later } hidle, hload]
      rfl

/-! ## A byte on the bus -/

/-- Command `i` stands in `CMD`, and the block is master in direction `tx` with no byte in flight and no completion flag. -/
structure Master (i : Instr) (tx : Bool) (s : State) : Prop where
  decoded : decode s.params.variant s.cmd = some i
  mst : s.ctrl.mst = true
  direction : s.ctrl.tx = tx
  xfer : s.xfer = .none
  ifl : s.stat.ifl = false

/-- The completion flag and the arbitration-lost bit cleared (R90). -/
def flagsCleared (s : State) : State := { s with stat := { s.stat with ifl := false, arbl := false } }

/-- The byte `b` has been sent and the slave has answered `a` (R93). -/
def sent (b : Byte) (a : Ack) (s : State) : State :=
  { s with
    dbuf := b, stat := { s.stat with rxak := ackRxak a, ifl := false, arbl := false }, xfer := .none,
    busTrace := s.busTrace ++ [.txb b a] }

/-- The byte `d` has been received and answered as `TXAK` says (R96). -/
def received (d : Byte) (s : State) : State :=
  { s with
    dbuf := d, stat := { s.stat with ifl := false, arbl := false }, xfer := .none,
    busTrace := s.busTrace ++ [.rxb d s.ctrl.answer] }

theorem WaitIfAt.reaches_polls (hw : WaitIfAt i k) (hd : decode s.params.variant s.cmd = some i)
    (hif : s.stat.ifl = false) (polls : Nat) : Reaches (List.replicate polls .seq) (atStep i k s) (atStep i k s) := by
  obtain ⟨-, hhold, -⟩ := hw
  induction polls with
  | zero => exact Reaches.refl _
  | succ polls ih => exact (hhold.reaches hd (fun _ => hif) fun _ => rfl).trans ih

/-- A wait on `IF` in which BUS's turn `done` completes the byte after some polls in vain (R90). -/
theorem WaitIfAt.reaches {done : Turn} (hw : WaitIfAt i k) (hds : decode s.params.variant s.cmd = some i)
    (hif : s.stat.ifl = false) (polls : Nat) (hdone : Reaches [done] (atStep i k s) (atStep i k t))
    (hdt : decode t.params.variant t.cmd = some i) (hset : t.stat.ifl = true) :
    Reaches (List.replicate polls .seq ++ [done, .seq, .seq]) (atStep i k s) (atStep i (k + 2) (flagsCleared t)) := by
  have hpolls := hw.reaches_polls hds hif polls
  obtain ⟨hsee, -, hclear⟩ := hw
  have hseen : Reaches [.seq] (atStep i k t) (atStep i (k + 1) t) := hsee.reaches hdt (fun _ => hset) fun _ => rfl
  have hcleared : Reaches [.seq] (atStep i (k + 1) t) (atStep i (k + 2) (flagsCleared t)) :=
    hclear.reaches hdt (fun _ => trivial) fun _ => rfl
  exact hpolls.trans ((hdone.trans hseen).trans hcleared)

/-- `SENDB` in place (R93). -/
theorem SendAt.reaches {b : State → Byte} {v : Byte} (h : SendAt i k b) (hm : Master i true s) (polls : Nat) (a : Ack)
    (hb : ∀ g, b { atStep i k s with agenda := g } = v) :
    Reaches (byteTurns polls (.busTx a)) (atStep i k s) (atStep i (k + 3) (sent v a s)) := by
  obtain ⟨htransmit, -, -, hwait⟩ := h
  let flying : State := { s with dbuf := v, xfer := .tx v }
  have hstart : Reaches [.seq] (atStep i k s) (atStep i (k + 1) flying) :=
    htransmit.reaches hm.decoded (fun _ => ⟨⟨hm.mst, hm.direction⟩, hm.xfer⟩) fun g => by rw [hb g]; rfl
  have hdone : Reaches [.busTx a] (atStep i (k + 1) flying) (atStep i (k + 1) (busTx a flying)) := Reaches.turn fun _ => rfl
  have hwaited := hwait.reaches (s := flying) (t := busTx a flying) hm.decoded hm.ifl polls hdone hm.decoded rfl
  rw [BitVec.add_assoc] at hwaited
  exact hstart.trans hwaited

/-- A read of `DATA` in master receive mode with the wait for the next byte (R96): `t` is what the read makes of the state. -/
theorem LoadAt.reaches {f : Byte → State → State} (h : LoadAt i k f) (hwait : WaitIfAt i (k + 1)) (hs : Master i false s)
    (ht : Master i false t) (polls : Nat) (d : Byte)
    (hf : ∀ g, f s.dbuf { atStep i k s with xfer := .rx s.ctrl.answer, agenda := g } =
      { atStep i k t with xfer := .rx t.ctrl.answer, agenda := g }) :
    Reaches (byteTurns polls (.busRx d)) (atStep i k s) (atStep i (k + 3) (received d t)) := by
  obtain ⟨hreceive, -, -⟩ := h
  let flying : State := { t with xfer := .rx t.ctrl.answer }
  have hstart : Reaches [.seq] (atStep i k s) (atStep i (k + 1) flying) :=
    hreceive.reaches hs.decoded (fun _ => ⟨⟨hs.mst, hs.direction⟩, hs.xfer⟩) fun g =>
      congrArg (atStep i (k + 1)) (hf g)
  have hdone : Reaches [.busRx d] (atStep i (k + 1) flying) (atStep i (k + 1) (busRx d flying)) := Reaches.turn fun _ => rfl
  have hwaited := hwait.reaches (s := flying) (t := busRx d flying) ht.decoded ht.ifl polls hdone ht.decoded rfl
  rw [BitVec.add_assoc] at hwaited
  exact hstart.trans hwaited

/-- A read of `DATA` that starts no byte: `t` is what it makes of the state. -/
theorem LoadAt.reaches_buffer {f : Byte → State → State} (h : LoadAt i k f) (hd : decode s.params.variant s.cmd = some i)
    (hnot : ¬ masterReceive s)
    (hf : ∀ g, f s.dbuf { atStep i k s with agenda := g } = { atStep i k t with agenda := g }) :
    Reaches [.seq] (atStep i k s) (atStep i (k + 1) t) := by
  obtain ⟨-, hbuffer, -⟩ := h
  exact hbuffer.reaches hd (fun _ => hnot) fun g => congrArg (atStep i (k + 1)) (hf g)

/-- `DRVCLK` in place (R96). -/
theorem DriveAt.reaches (h : DriveAt i k) (hm : Master i false s) (polls : Nat) (d : Byte) :
    Reaches (byteTurns polls (.busRx d)) (atStep i k s) (atStep i (k + 3) (received d s)) := by
  obtain ⟨hload, hwait⟩ := h
  exact hload.reaches hwait hm hm polls d fun _ => rfl

theorem Master.sent (h : Master i true s) (b : Byte) (a : Ack) : Master i true (sent b a s) :=
  ⟨h.decoded, h.mst, h.direction, rfl, rfl⟩

theorem Master.received (h : Master i false s) (d : Byte) : Master i false (received d s) :=
  ⟨h.decoded, h.mst, h.direction, rfl, rfl⟩

/-! ## `RSTART`, `RXMODE` and `STOP` -/

/-- A repeated START has been made, with `DIV` saved and restored around it (R94). -/
def restarted (s : State) : State :=
  { s with
    dp := { s.dp with saveDiv := s.div }, ctrl := { s.ctrl with tx := true }, busTrace := s.busTrace ++ [.restart] }

theorem RestartAt.reaches {tx : Bool} (h : RestartAt i k) (hm : Master i tx s) :
    Reaches (List.replicate 4 .seq) (atStep i k s) (atStep i (k + 4) (restarted s)) := by
  obtain ⟨hsave, hunity, hstrobe, -, -, -, hrestore⟩ := h
  let saved : State := { s with dp := { s.dp with saveDiv := s.div } }
  let unity : State := { saved with div := s.div &&& 0x3F }
  let strobed : State := { unity with ctrl := { s.ctrl with tx := true }, busTrace := s.busTrace ++ [.restart] }
  have h0 : Reaches [.seq] (atStep i k s) (atStep i (k + 1) saved) :=
    hsave.reaches hm.decoded (fun _ => trivial) fun _ => rfl
  have h1 : Reaches [.seq] (atStep i (k + 1) saved) (atStep i (k + 2) unity) :=
    hunity.reaches hm.decoded (fun _ => trivial) fun _ => rfl
  have h2 : Reaches [.seq] (atStep i (k + 2) unity) (atStep i (k + 3) strobed) :=
    hstrobe.reaches hm.decoded (fun _ => ⟨hm.mst, hm.xfer, divMult_unity s.div⟩) fun _ => rfl
  have h3 : Reaches [.seq] (atStep i (k + 3) strobed) (atStep i (k + 4) (restarted s)) :=
    hrestore.reaches hm.decoded (fun _ => trivial) fun _ => rfl
  exact ((h0.trans h1).trans h2).trans h3

theorem Master.restarted {tx : Bool} (h : Master i tx s) : Master i true (restarted s) :=
  ⟨h.decoded, h.mst, rfl, h.xfer, h.ifl⟩

/-- Receive direction, the next bytes acknowledged if `ack` (R95). -/
def listening (ack : Bool) (s : State) : State := { s with ctrl := { s.ctrl with tx := false, txak := !ack } }

theorem RxModeAt.reaches {ack : Bool} (h : RxModeAt i k ack) (hd : decode s.params.variant s.cmd = some i) :
    Reaches [.seq] (atStep i k s) (atStep i (k + 1) (listening ack s)) :=
  Runs.reaches h hd (fun _ => trivial) fun _ => rfl

theorem Master.listening {tx : Bool} (h : Master i tx s) (ack : Bool) : Master i false (listening ack s) :=
  ⟨h.decoded, h.mst, rfl, h.xfer, h.ifl⟩

/-- A STOP has released the bus (R97). -/
def stopped (s : State) : State :=
  { s with
    ctrl := { s.ctrl with mst := false, tx := false }, stat := { s.stat with busy := false }, xfer := .none,
    busTrace := s.busTrace ++ [.stop] }

theorem StopAt.reaches {tx : Bool} (h : StopAt i k) (hm : Master i tx s) :
    Reaches [.seq] (atStep i k s) (atStep i (k + 1) (stopped s)) := by
  obtain ⟨hmaster, -⟩ := h
  exact hmaster.reaches hm.decoded (fun _ => hm.mst) fun _ => rfl

/-- Once stopped the block is not master, so reads of `DATA` start no byte (20_memory.md R53). -/
theorem stopped_not_receiving (s : State) : ¬ masterReceive (stopped s) := fun ⟨hmst, _⟩ => Bool.false_ne_true hmst

/-! ## `Select` and the address -/

/-- The `Select` of a slave depends on the table, the memo and the pins alone, and changes only the memo, the pins and their
trace (43_arbiter.md R113). -/
theorem arbSelect_eq (sl : Slave) (harb : t.arb = s.arb) (hpmux : t.pmux = s.pmux) (hpins : t.pinTrace = s.pinTrace) :
    arbSelect sl t =
      ((arbSelect sl s).1,
        { t with
          arb := (arbSelect sl s).2.arb, pmux := (arbSelect sl s).2.pmux, pinTrace := (arbSelect sl s).2.pinTrace }) := by
  obtain ⟨⟩ := s
  obtain ⟨⟩ := t
  obtain rfl := harb
  obtain rfl := hpmux
  obtain rfl := hpins
  unfold arbSelect
  split
  · rfl
  · dsimp only
    split
    · rfl
    · unfold remember remux
      dsimp only
      split
      · split <;> rfl
      · rfl

/-- The `Select` of a slave, as it works on the arbiter and the pins of `s`, has been made in `t`. -/
def selected (sl : Slave) (s t : State) : State :=
  { t with arb := (arbSelect sl s).2.arb, pmux := (arbSelect sl s).2.pmux, pinTrace := (arbSelect sl s).2.pinTrace }

/-- A START has taken the free bus (R92). -/
def started (s : State) : State :=
  { s with
    ctrl := { s.ctrl with mst := true, tx := true }, stat := { s.stat with busy := true },
    busTrace := s.busTrace ++ [.start] }

/-- Command `i` stands in `CMD`, and the block can begin a transaction whose `Select` works as it does on `s`. -/
structure Begins (i : Instr) (s t : State) : Prop where
  decoded : decode t.params.variant t.cmd = some i
  mst : t.ctrl.mst = false
  busy : t.stat.busy = false
  ifl : t.stat.ifl = false
  xfer : t.xfer = .none
  params : t.params = s.params
  arb : t.arb = s.arb
  pmux : t.pmux = s.pmux
  pinTrace : t.pinTrace = s.pinTrace

theorem Begins.master (h : Begins i s t) (sl : Slave) : Master i true (started (selected sl s t)) :=
  ⟨h.decoded, rfl, rfl, h.xfer, h.ifl⟩

theorem SelectAt.reaches (h : SelectAt i k) (hb : Begins i s t) (hgo : GoesOn t.dp.slv s) :
    Reaches [.seq] (atStep i k t) (atStep i (k + 1) (selected t.dp.slv s t)) := by
  obtain ⟨hgoes, -⟩ := h
  have hsame (g : List Turn) := arbSelect_eq t.dp.slv (t := { atStep i k t with agenda := g }) hb.arb hb.pmux hb.pinTrace
  refine hgoes.reaches hb.decoded (fun g => ?goes) fun g => congrArg (fun r => atStep i (k + 1) r.2) (hsame g)
  case goes =>
    exact hgo.imp (congrArg Params.missPolicy hb.params).trans (congrArg Prod.fst (hsame g)).trans

/-- The slave is selected, the bus taken, and the write address and the register address sent (R102, R103). -/
def addressed (a1 a2 : Ack) (s t : State) : State :=
  sent t.dp.rega a2 (sent (t.dp.slv ++ 0#1) a1 (started (selected t.dp.slv s t)))

theorem AddressAt.reaches (h : AddressAt i k) (hb : Begins i s t) (hgo : GoesOn t.dp.slv s) (p1 p2 : Nat) (a1 a2 : Ack) :
    Reaches (addressTurns p1 p2 a1 a2) (atStep i k t) (atStep i (k + 9) (addressed a1 a2 s t)) := by
  obtain ⟨hselect, ⟨hfree, -⟩, ⟨hstart, -, -⟩, hslave, hregister⟩ := h
  have hm := hb.master t.dp.slv
  have h0 := hselect.reaches hb hgo
  have h1 : Reaches [.seq] (atStep i (k + 1) (selected t.dp.slv s t)) (atStep i (k + 1 + 1) (selected t.dp.slv s t)) :=
    hfree.reaches hb.decoded (fun _ => hb.busy) fun _ => rfl
  have h2 : Reaches [.seq] (atStep i (k + 2) (selected t.dp.slv s t))
      (atStep i (k + 2 + 1) (started (selected t.dp.slv s t))) :=
    hstart.reaches hb.decoded (fun _ => ⟨hb.mst, hb.busy⟩) fun _ => rfl
  have h3 := hslave.reaches (v := t.dp.slv ++ 0#1) hm p1 a1 fun _ => rfl
  have h6 := hregister.reaches (v := t.dp.rega) (hm.sent (t.dp.slv ++ 0#1) a1) p2 a2 fun _ => rfl
  rw [BitVec.add_assoc] at h1 h2 h3 h6
  exact (((h0.trans h1).trans h2).trans h3).trans h6

theorem Begins.addressed (h : Begins i s t) (a1 a2 : Ack) : Master i true (addressed a1 a2 s t) :=
  ((h.master _).sent _ _).sent _ _

/-- The slave is addressed for reading, and the block listens (R104 steps 0 to 7). -/
def readBegun (a1 a2 a3 : Ack) (ack : Bool) (s t : State) : State :=
  listening ack (sent (t.dp.slv ++ 1#1) a3 (restarted (addressed a1 a2 s t)))

/-- The blocks that begin a read: the address, `RSTART`, the read address, `RXMODE` (R104 steps 0 to 7). -/
theorem reaches_readBegun {ack : Bool} (haddress : AddressAt i k) (hrestart : RestartAt i (k + 9))
    (hsend : SendAt i (k + 13) fun s => s.dp.slv ++ 1#1) (hmode : RxModeAt i (k + 16) ack) (hb : Begins i s t)
    (hgo : GoesOn t.dp.slv s) (p1 p2 p3 : Nat) (a1 a2 a3 : Ack) :
    Reaches (readTurns p1 p2 p3 a1 a2 a3) (atStep i k t) (atStep i (k + 17) (readBegun a1 a2 a3 ack s t)) := by
  have hm := hb.addressed a1 a2
  have h0 := haddress.reaches hb hgo p1 p2 a1 a2
  have h9 := hrestart.reaches hm
  have h13 := hsend.reaches (v := t.dp.slv ++ 1#1) hm.restarted p3 a3 fun _ => rfl
  have h16 := hmode.reaches (hm.restarted.sent (t.dp.slv ++ 1#1) a3).decoded
  rw [BitVec.add_assoc] at h9 h13 h16
  exact ((h0.trans h9).trans h13).trans h16

theorem Begins.readBegun (h : Begins i s t) (a1 a2 a3 : Ack) (ack : Bool) :
    Master i false (readBegun a1 a2 a3 ack s t) :=
  ((h.addressed a1 a2).restarted.sent _ _).listening ack

end Sys2Proof.Machine
end

section
/-! PROOFS. The whole runs of `RDREG`, `RDREGS` of one byte, `WRREG` and `MODREG` (42_engine_transactions.md R104 to R107): the
acceptance, the blocks of the transaction one after the other, and the state they leave written out. -/

namespace Sys2Proof.Machine

variable {i : Instr} {k : BitVec 6} {s t : State} {ts us : List Turn}

/-! ## The beginning of a transaction -/

/-- The transactions are commands of a block of either variant (30_encoding.md R75). -/
theorem decode_transaction (hfits : i.fits = true) (hunit : i.unit = .transaction) (v : FifoVariant) :
    decode v (encode i) = some i := by
  refine decodeOfEncode v i ((wellFormed_iff v i).2 ⟨hfits, ?_⟩)
  simp only [Instr.built, hunit]

/-- HOST's write of a transaction to `CMD` in a ready state starts it (10_state.md R23). -/
theorem Ready.accepted {later : List HostAccess} (h : Ready s) (hfits : i.fits = true) (hunit : i.unit = .transaction)
    (hhost : s.host = writeCmd s.params i :: later) :
    Reaches [.host] s (atStep i 0 (accepted i later s)) ∧ Begins i s (accepted i later s) := by
  have hd := decode_transaction hfits hunit s.params.variant
  obtain ⟨hidle, hmst, hbusy, hif, hxfer⟩ := h
  exact ⟨reaches_accepted hidle hd hhost, hd, hmst, hbusy, hif, hxfer, rfl, rfl, rfl, rfl⟩

theorem Reaches.of_eq (h : Reaches ts s t) (hts : ts = us) : Reaches us s t := hts ▸ h

/-- A `Select` changes only the memo, the pins and their trace (43_arbiter.md R113). -/
theorem arbSelect_selected (sl : Slave) (s : State) : (arbSelect sl s).2 = selected sl s s :=
  congrArg Prod.snd (arbSelect_eq sl rfl rfl rfl)

/-- The beginning of a read written out (R104 steps 0 to 7). -/
theorem readBegun_eq (a1 a2 a3 : Ack) (ack : Bool) (s t : State) :
    readBegun a1 a2 a3 ack s t =
      { selected t.dp.slv s t with
        dp := { t.dp with saveDiv := t.div }, ctrl := { mst := true, tx := false, txak := !ack },
        stat := { busy := true, arbl := false, ifl := false, rxak := ackRxak a3 }, dbuf := t.dp.slv ++ 1#1, xfer := .none,
        busTrace := t.busTrace ++
          [.start, .txb (t.dp.slv ++ 0#1) a1, .txb t.dp.rega a2, .restart, .txb (t.dp.slv ++ 1#1) a3] } := by
  simp only [readBegun, listening, sent, restarted, addressed, started, selected, List.append_assoc, List.cons_append,
    List.nil_append]

/-! ## Reads of one byte -/

/-- One register has been read into `RES` and the bus released (R104). -/
def registerRead (a1 a2 a3 : Ack) (d : Byte) (s t : State) : State :=
  { stopped (received d (readBegun a1 a2 a3 false s t)) with res := d.setWidth 32 }

/-- The read of a register written out (R104 steps 0 to 10). -/
theorem registerRead_eq (a1 a2 a3 : Ack) (d : Byte) (s t : State) :
    registerRead a1 a2 a3 d s t =
      { selected t.dp.slv s t with
        res := d.setWidth 32, dp := { t.dp with saveDiv := t.div }, ctrl := { mst := false, tx := false, txak := true },
        stat := { busy := false, arbl := false, ifl := false, rxak := ackRxak a3 }, dbuf := d, xfer := .none,
        busTrace := t.busTrace ++
          [.start, .txb (t.dp.slv ++ 0#1) a1, .txb t.dp.rega a2, .restart, .txb (t.dp.slv ++ 1#1) a3, .rxb d .nack,
            .stop] } := by
  simp only [registerRead, stopped, received, readBegun_eq, selected, Ctrl.answer, Bool.not_false, if_true,
    List.append_assoc, List.cons_append, List.nil_append]

theorem ReadAt.reaches (h : ReadAt i k) (hb : Begins i s t) (hgo : GoesOn t.dp.slv s) (p1 p2 p3 p4 : Nat)
    (a1 a2 a3 : Ack) (d : Byte) :
    Reaches (readTurns p1 p2 p3 a1 a2 a3 ++ byteTurns p4 (.busRx d) ++ [.seq, .seq]) (atStep i k t)
      (atStep i (k + 22) (registerRead a1 a2 a3 d s t)) := by
  obtain ⟨haddress, hrestart, hsend, hmode, hdrive, hstop, hload⟩ := h
  have hm := hb.readBegun a1 a2 a3 false
  have h0 := reaches_readBegun haddress hrestart hsend hmode hb hgo p1 p2 p3 a1 a2 a3
  have h17 := hdrive.reaches hm p4 d
  have h20 := hstop.reaches (hm.received d)
  have h21 := hload.reaches_buffer (s := stopped (received d (readBegun a1 a2 a3 false s t)))
    (t := registerRead a1 a2 a3 d s t) (hm.received d).decoded (stopped_not_receiving _) fun _ => rfl
  rw [BitVec.add_assoc] at h17 h20 h21
  exact (h0.trans h17).trans (h20.trans h21)

/-- Settles O23: the acceptance, the read of the register and the end. -/
theorem rdregRun : Obligations.RdregRun := by
  intro s slave reg d a1 a2 a3 p1 p2 p3 p4 acc rest hready hgo hhost ts hagenda
  obtain ⟨hmicros, -⟩ := rdregWrregMicroSteps
  obtain ⟨hread, hdone⟩ := hmicros slave reg
  obtain ⟨haccept, hb⟩ := hready.accepted rfl rfl hhost
  obtain ⟨hidle, -, -, -, hxfer⟩ := hready
  have hregister := hread.reaches hb hgo p1 p2 p3 p4 a1 a2 a3 d
  have hend := Runs.reaches_end (s := registerRead a1 a2 a3 d s (accepted _ acc s)) hdone hb.decoded fun _ => rfl
  have hrun := ((haccept.trans hregister).trans hend).of_eq (us := ts) (by
    simp only [ts, List.append_assoc, List.cons_append, List.nil_append])
  rw [hrun.run hagenda, arbSelect_selected, registerRead_eq]
  simp only [ended, selected, accepted, loaded, hidle, hxfer]

/-- Settles O24: the acceptance, the two tests of the count, the read of the register and its byte put into `RBUF[0]`. -/
theorem rdregsOfOneByteRun : Obligations.RdregsOfOneByteRun := by
  intro s slave reg d a1 a2 a3 p1 p2 p3 p4 acc rest hready hgo hhost ts hagenda
  have hread : ReadAt (.rdregs slave reg 1) 35 := HasMicros.readAt (hasMicros 35 rfl)
  obtain ⟨haccept, hb⟩ := hready.accepted rfl rfl hhost
  obtain ⟨hidle, -, -, -, hxfer⟩ := hready
  have hcount := rdregs_count_nonzero.reaches_jump hb.decoded fun _ => by decide
  have hone := rdregs_one.reaches_jump hb.decoded fun _ => rfl
  have hregister := hread.reaches hb hgo p1 p2 p3 p4 a1 a2 a3 d
  have hend := rdregs_oneByte_done.reaches_end (s := registerRead a1 a2 a3 d s (accepted _ acc s)) hb.decoded fun _ => rfl
  have hrun := ((((haccept.trans hcount).trans hone).trans hregister).trans hend).of_eq (us := ts) (by
    simp only [ts, List.append_assoc, List.cons_append, List.nil_append])
  have hbyte : (d.setWidth 32).extractLsb' 0 8 = d := by
    rw [← setWidth_eq_extractLsb', BitVec.setWidth_setWidth_of_le d (by decide), BitVec.setWidth_eq]
  rw [hrun.run hagenda, arbSelect_selected, registerRead_eq]
  simp only [ended, selected, accepted, loaded, hidle, hxfer, hbyte]

/-! ## `WRREG` -/

/-- Settles O26: the acceptance, the address, the value, `STOP` and the end. -/
theorem wrregRun : Obligations.WrregRun := by
  intro s slave reg value a1 a2 a3 p1 p2 p3 acc rest hready hgo hhost ts hagenda
  obtain ⟨-, hmicros⟩ := rdregWrregMicroSteps
  obtain ⟨haddress, hvalue, hstop, hdone⟩ := hmicros slave reg value
  obtain ⟨haccept, hb⟩ := hready.accepted rfl rfl hhost
  obtain ⟨hidle, -, -, -, hxfer⟩ := hready
  have hm := hb.addressed a1 a2
  have h0 := haddress.reaches hb hgo p1 p2 a1 a2
  have h9 := hvalue.reaches (v := value) hm p3 a3 fun _ => rfl
  have h12 := hstop.reaches (hm.sent value a3)
  have hend := Runs.reaches_end (s := stopped (sent value a3 (addressed a1 a2 s (accepted _ acc s)))) hdone hb.decoded
    fun _ => rfl
  have hrun := ((((haccept.trans h0).trans h9).trans h12).trans hend).of_eq (us := ts) (by
    simp only [ts, List.append_assoc, List.cons_append, List.nil_append])
  rw [hrun.run hagenda, arbSelect_selected]
  simp only [ended, stopped, sent, addressed, started, selected, accepted, loaded, hidle, hxfer, List.append_assoc,
    List.cons_append, List.nil_append]

/-! ## `MODREG` -/

/-- The byte in the buffer taken to `TMP` and changed by the masks into `NEW` (R107 steps 11 and 12). -/
def modified (s : State) : State :=
  { s with dp := { s.dp with tmp := s.dbuf, new := (s.dbuf &&& s.dp.amsk) ||| s.dp.omsk } }

/-- In transmit direction the read of the byte starts no other (R107 steps 11 and 12). -/
theorem modreg_reaches_modified {slave : Slave} {reg : Byte} (hm : Master (.modreg slave reg) true s) :
    Reaches [.seq, .seq] (atStep (.modreg slave reg) 24 s) (atStep (.modreg slave reg) 26 (modified s)) := by
  obtain ⟨-, -, -, -, -, -, hload, -⟩ := modregMicroSteps slave reg
  have hnot : ¬ masterReceive s := fun ⟨_, hreceive⟩ => Bool.false_ne_true (hreceive.symm.trans hm.direction)
  have h24 := hload.reaches_buffer (t := { s with dp := { s.dp with tmp := s.dbuf } }) hm.decoded hnot fun _ => rfl
  have h25 := modreg_modify.reaches (s := { s with dp := { s.dp with tmp := s.dbuf } })
    (t := atStep (.modreg slave reg) 26 (modified s)) hm.decoded (fun _ => trivial) fun _ => rfl
  exact h24.trans h25

theorem Master.modified {tx : Bool} (h : Master i tx s) : Master i tx (modified s) :=
  ⟨h.decoded, h.mst, h.direction, h.xfer, h.ifl⟩

/-- The register has been written back and the bus released (R107 steps 13 to 16). -/
def writtenBack (a1 a2 a3 : Ack) (s : State) : State :=
  stopped (sent s.dp.new a3 (sent s.dp.rega a2 (sent (s.dp.slv ++ 0#1) a1 s)))

theorem modreg_reaches_writtenBack {slave : Slave} {reg : Byte} (hm : Master (.modreg slave reg) true s) (p1 p2 p3 : Nat)
    (a1 a2 a3 : Ack) :
    Reaches (byteTurns p1 (.busTx a1) ++ byteTurns p2 (.busTx a2) ++ byteTurns p3 (.busTx a3) ++ [.seq])
      (atStep (.modreg slave reg) 26 s) (atStep (.modreg slave reg) 36 (writtenBack a1 a2 a3 s)) := by
  obtain ⟨-, -, -, -, -, -, -, -, hslave, hregister, hvalue, hstop, -⟩ := modregMicroSteps slave reg
  have hm1 := hm.sent (s.dp.slv ++ 0#1) a1
  have hm2 := hm1.sent s.dp.rega a2
  have h26 := hslave.reaches (v := s.dp.slv ++ 0#1) hm p1 a1 fun _ => rfl
  have h29 := hregister.reaches (v := s.dp.rega) hm1 p2 a2 fun _ => rfl
  have h32 := hvalue.reaches (v := s.dp.new) hm2 p3 a3 fun _ => rfl
  have h35 := hstop.reaches (hm2.sent s.dp.new a3)
  exact ((h26.trans h29).trans h32).trans h35

/-- Settles O27: the acceptance, the read of the register without its STOP, a repeated START, the modification, the write of
the register with its STOP, and the result. -/
theorem modregRun : Obligations.ModregRun := by
  intro s slave reg old a1 a2 a3 a4 a5 a6 p1 p2 p3 p4 p5 p6 p7 acc rest hready hgo hhost ts new hagenda
  obtain ⟨haddress, hrestart, hsend, hmode, hdrive, hagain, -⟩ := modregMicroSteps slave reg
  obtain ⟨haccept, hb⟩ := hready.accepted rfl rfl hhost
  obtain ⟨hidle, -, -, -, hxfer⟩ := hready
  have hread := hb.readBegun a1 a2 a3 false
  have hwrite := (hread.received old).restarted
  have h0 := reaches_readBegun haddress hrestart hsend hmode hb hgo p1 p2 p3 a1 a2 a3
  have h17 := hdrive.reaches hread p4 old
  have h20 := hagain.reaches (hread.received old)
  have h24 := modreg_reaches_modified hwrite
  have h26 := modreg_reaches_writtenBack hwrite.modified p5 p6 p7 a4 a5 a6
  have hend := modreg_done.reaches_end
    (s := writtenBack a4 a5 a6 (modified (restarted (received old (readBegun a1 a2 a3 false s (accepted _ acc s))))))
    hb.decoded fun _ => rfl
  have hrun := ((((((haccept.trans h0).trans h17).trans h20).trans h24).trans h26).trans hend).of_eq (us := ts) (by
    simp only [ts, List.append_assoc, List.cons_append, List.nil_append, List.replicate])
  rw [hrun.run hagenda, arbSelect_selected]
  simp only [ended, writtenBack, stopped, sent, modified, restarted, received, readBegun_eq, selected, accepted, loaded,
    new, hidle, hxfer, Ctrl.answer, Bool.not_false, if_true, List.append_assoc, List.cons_append, List.nil_append]

end Sys2Proof.Machine
end

section
/-! PROOFS. The whole run of `RDREGS` of 2 to 255 bytes (42_engine_transactions.md R105): the first byte, the loop over the
middle bytes by induction, and the last byte. Every read of `DATA` stores the byte before and starts the next. -/

namespace Sys2Proof.Machine

variable {slave : Slave} {reg n : Byte} {s t : State}

/-! ## The blocks of the burst -/

/-- The byte in the buffer stored in `RBUF` at `IDX`, and `IDX` counted up (R105 steps 7, 10 and 13). -/
def kept (s : State) : State := storeBurstByte s.dbuf s

theorem Master.kept {i : Instr} {tx : Bool} (h : Master i tx s) : Master i tx (kept s) :=
  ⟨h.decoded, h.mst, h.direction, h.xfer, h.ifl⟩

/-- The first byte is in the buffer, with no byte stored yet and `n - 2` to be read in the loop (R105 steps 2 to 5). -/
def burstBegun (n : Byte) (a1 a2 a3 : Ack) (first : Byte) (s t : State) : State :=
  let r := received first (readBegun a1 a2 a3 true s t)
  { r with dp := { r.dp with idx := 0, cnt := n - 2 } }

theorem Begins.burstBegun {i : Instr} (h : Begins i s t) (a1 a2 a3 : Ack) (first : Byte) :
    Master i false (burstBegun n a1 a2 a3 first s t) := by
  obtain ⟨hd, hmst, hdir, hxfer, hif⟩ := (h.readBegun a1 a2 a3 true).received first
  exact ⟨hd, hmst, hdir, hxfer, hif⟩

theorem rdregs_reaches_burstBegun (hb : Begins (.rdregs slave reg n) s t) (hgo : GoesOn t.dp.slv s) (h0 : n ≠ 0)
    (h1 : n ≠ 1) (p1 p2 p3 p4 : Nat) (a1 a2 a3 : Ack) (first : Byte) :
    Reaches ([.seq, .seq] ++ readTurns p1 p2 p3 a1 a2 a3 ++ byteTurns p4 (.busRx first) ++ [.seq])
      (atStep (.rdregs slave reg n) 0 t) (atStep (.rdregs slave reg n) 23 (burstBegun n a1 a2 a3 first s t)) := by
  have hm := hb.readBegun a1 a2 a3 true
  have hcount := rdregs_count_nonzero.reaches_jump hb.decoded fun _ => h0
  have hmany := rdregs_many.reaches_jump hb.decoded fun _ => h1
  have hmode : RxModeAt (.rdregs slave reg n) 18 true := rxModeAt (a := 1) rfl rfl
  have h2 := reaches_readBegun (HasMicros.addressAt (hasMicros 2 rfl)) (HasMicros.restartAt (hasMicros 11 rfl))
    (HasMicros.sendAt (hasMicros 15 rfl)) hmode hb hgo p1 p2 p3 a1 a2 a3
  have h19 := DriveAt.reaches (HasMicros.driveAt (hasMicros 19 rfl)) hm p4 first
  have h22 := rdregs_init.reaches (t := atStep (.rdregs slave reg n) 23 (burstBegun n a1 a2 a3 first s t))
    (hm.received first).decoded (fun _ => trivial) fun _ => rfl
  exact (((hcount.trans hmany).trans h2).trans h19).trans h22

/-- A turn of the loop: the byte before stored, the byte `d` received, the count counted down (R105 steps 6 to 8). -/
def middle (d : Byte) (s : State) : State :=
  let r := received d (kept s)
  { r with dp := { r.dp with cnt := r.dp.cnt - 1 } }

theorem Master.middle {i : Instr} (h : Master i false s) (d : Byte) : Master i false (middle d s) := by
  obtain ⟨hd, hmst, hdir, hxfer, hif⟩ := h.kept.received d
  exact ⟨hd, hmst, hdir, hxfer, hif⟩

theorem rdregs_reaches_middle (hm : Master (.rdregs slave reg n) false s) (hcnt : s.dp.cnt ≠ 0) (polls : Nat) (d : Byte) :
    Reaches (.seq :: (byteTurns polls (.busRx d) ++ [.seq])) (atStep (.rdregs slave reg n) 23 s)
      (atStep (.rdregs slave reg n) 23 (middle d s)) := by
  have htest := rdregs_test_nonzero.reaches_jump hm.decoded fun _ => hcnt
  have hstore : LoadAt (.rdregs slave reg n) 24 storeBurstByte := loadAt (fun _ _ => rfl) rfl
  have hload := hstore.reaches (HasMicros.waitIfAt (hasMicros 25 rfl)) hm hm.kept polls d fun _ => rfl
  have hnext := rdregs_next.reaches (t := atStep (.rdregs slave reg n) 23 (middle d s)) (hm.kept.received d).decoded
    (fun _ => trivial) fun _ => rfl
  exact htest.trans (hload.trans hnext)

/-- The loop over the middle bytes. -/
def middles (mids : List (Nat × Byte)) (s : State) : State :=
  match mids with
  | [] => s
  | d :: rest => middles rest (middle d.2 s)

theorem rdregs_reaches_middles {mids : List (Nat × Byte)} (hm : Master (.rdregs slave reg n) false s)
    (hcnt : s.dp.cnt.toNat = mids.length) :
    Reaches (middleTurns mids) (atStep (.rdregs slave reg n) 23 s) (atStep (.rdregs slave reg n) 23 (middles mids s)) ∧
      Master (.rdregs slave reg n) false (middles mids s) := by
  induction mids generalizing s with
  | nil => exact ⟨Reaches.refl _, hm⟩
  | cons d rest ih =>
    have hlen : s.dp.cnt.toNat = rest.length + 1 := hcnt
    have hnonzero : s.dp.cnt ≠ 0 := by intro h; rw [h] at hlen; exact absurd hlen.symm (Nat.succ_ne_zero _)
    have hless : (middle d.2 s).dp.cnt.toNat = rest.length := by
      have hdown : (middle d.2 s).dp.cnt = s.dp.cnt - 1 := rfl
      bv_omega
    obtain ⟨hrest, hend⟩ := ih (hm.middle d.2) hless
    exact ⟨(rdregs_reaches_middle hm hnonzero d.1 d.2).trans hrest, hend⟩

/-- The last byte received without acknowledge, the bus released, the last two bytes stored and the count in `RES` (R105
steps 9 to 14). -/
def burstDone (n last : Byte) (s : State) : State :=
  { kept (stopped (received last (kept { s with ctrl := { s.ctrl with txak := true } }))) with res := n.setWidth 32 }

theorem rdregs_reaches_burstDone (hm : Master (.rdregs slave reg n) false s) (hcnt : s.dp.cnt = 0) (polls : Nat)
    (last : Byte) :
    Reaches ([.seq, .seq] ++ byteTurns polls (.busRx last) ++ [.seq, .seq, .seq]) (atStep (.rdregs slave reg n) 23 s)
      (ended (burstDone n last s)) := by
  let quiet : State := { s with ctrl := { s.ctrl with txak := true } }
  have hq : Master (.rdregs slave reg n) false quiet := ⟨hm.decoded, hm.mst, hm.direction, hm.xfer, hm.ifl⟩
  have hlast := hq.kept.received last
  have hstore : LoadAt (.rdregs slave reg n) 29 storeBurstByte := loadAt (fun _ _ => rfl) rfl
  have hstoreLast : LoadAt (.rdregs slave reg n) 33 storeBurstByte := loadAt (fun _ _ => rfl) rfl
  have htest := rdregs_test_zero.reaches_jump hm.decoded fun _ => hcnt
  have h28 := rdregs_noAck.reaches (t := atStep (.rdregs slave reg n) 29 quiet) hm.decoded (fun _ => trivial) fun _ => rfl
  have h29 := hstore.reaches (HasMicros.waitIfAt (hasMicros 30 rfl)) hq hq.kept polls last fun _ => rfl
  have h32 := StopAt.reaches (i := .rdregs slave reg n) (k := 32) (stopAt rfl) hlast
  have h33 := hstoreLast.reaches_buffer (s := stopped (received last (kept quiet)))
    (t := kept (stopped (received last (kept quiet)))) hlast.decoded (stopped_not_receiving _) fun _ => rfl
  have h34 := rdregs_done.reaches_end (s := kept (stopped (received last (kept quiet)))) hlast.decoded fun _ => rfl
  exact ((htest.trans h28).trans h29).trans ((h32.trans h33).trans h34)

/-! ## The state written out -/

theorem stat_cleared {x : Stat} (hif : x.ifl = false) (harbl : x.arbl = false) :
    { x with ifl := false, arbl := false } = x := by
  cases x
  cases hif
  cases harbl
  rfl

/-- What the loop leaves: every middle byte acknowledged, the bytes but the last in `RBUF` in order, the last in the buffer. -/
theorem middles_eq (mids : List (Nat × Byte)) (hack : s.ctrl.txak = false) (hif : s.stat.ifl = false)
    (harbl : s.stat.arbl = false) (hxfer : s.xfer = .none) (hidx : s.dp.idx.toNat + mids.length < 256) :
    ∃ m b,
      middles mids s =
        { s with
          mem := m, dbuf := b,
          dp := { s.dp with
                  idx := s.dp.idx + BitVec.ofNat 8 mids.length, cnt := s.dp.cnt - BitVec.ofNat 8 mids.length },
          busTrace := s.busTrace ++ mids.map fun d => .rxb d.2 .ack } ∧
      ∀ last, writeBytes m (0x100 + (s.dp.idx.toNat + mids.length)) [b, last] =
        writeBytes s.mem (0x100 + s.dp.idx.toNat) (s.dbuf :: (mids.map Prod.snd ++ [last])) := by
  induction mids generalizing s with
  | nil =>
    refine ⟨s.mem, s.dbuf, ?_, fun _ => rfl⟩
    simp only [middles, List.length_nil, BitVec.add_zero, BitVec.sub_zero, List.map_nil, List.append_nil]
  | cons d rest ih =>
    rw [List.length_cons] at hidx
    have hidx1 : (middle d.2 s).dp.idx.toNat = s.dp.idx.toNat + 1 := by
      have hup : (middle d.2 s).dp.idx = s.dp.idx + 1 := rfl
      bv_omega
    obtain ⟨m, b, heq, hmem⟩ := ih (s := middle d.2 s) hack rfl rfl rfl (by omega)
    refine ⟨m, b, ?_, fun last => ?_⟩
    · have hup (x : Byte) : x + BitVec.ofNat 8 (rest.length + 1) = x + 1 + BitVec.ofNat 8 rest.length := by
        bv_omega
      have hdown (x : Byte) : x - BitVec.ofNat 8 (rest.length + 1) = x - 1 - BitVec.ofNat 8 rest.length := by
        bv_omega
      rw [middles, heq, List.length_cons, hup, hdown, hxfer]
      simp only [middle, received, kept, storeBurstByte, Ctrl.answer, hack, stat_cleared hif harbl, List.map_cons,
        List.append_assoc, List.cons_append, List.nil_append, Bool.false_eq_true, if_false]
    · have hlast := hmem last
      rw [hidx1] at hlast
      rw [List.length_cons, Nat.add_comm rest.length, ← Nat.add_assoc s.dp.idx.toNat]
      exact hlast

/-- Settles O25: the acceptance, the first byte, the loop over the middle bytes and the last byte. -/
theorem rdregsBurstRun : Obligations.RdregsBurstRun := by
  intro s slave reg n first last mids a1 a2 a3 p1 p2 p3 p4 p5 acc rest hready hgo hcount hhost ts hagenda
  obtain ⟨haccept, hb⟩ := hready.accepted rfl rfl hhost
  obtain ⟨hidle, -, -, -, hxfer⟩ := hready
  have h0 : n ≠ 0 := by rintro rfl; exact absurd hcount (by simp)
  have h1 : n ≠ 1 := by rintro rfl; exact absurd hcount (by simp)
  have hcnt : (n - 2).toNat = mids.length := by bv_omega
  have hidx : mids.length < 256 := hcnt ▸ (n - 2).isLt
  have hm := hb.burstBegun (n := n) a1 a2 a3 first
  have hbegin := rdregs_reaches_burstBegun hb hgo h0 h1 p1 p2 p3 p4 a1 a2 a3 first
  obtain ⟨hloop, hlooped⟩ := rdregs_reaches_middles hm hcnt
  obtain ⟨m, b, heq, hmem⟩ := middles_eq mids (s := burstBegun n a1 a2 a3 first s (accepted (.rdregs slave reg n) acc s))
    rfl rfl rfl rfl ((Nat.zero_add _).trans_lt hidx)
  have hzero : n - 2 - BitVec.ofNat 8 mids.length = 0 := by bv_omega
  have hdone := rdregs_reaches_burstDone hlooped (by rw [heq]; exact hzero) p5 last
  have hrun := (((haccept.trans hbegin).trans hloop).trans hdone).of_eq (us := ts) (by
    simp only [ts, List.append_assoc, List.cons_append, List.nil_append])
  have hlen : (0 + BitVec.ofNat 8 mids.length).toNat = mids.length := by bv_omega
  have hlen1 : (0 + BitVec.ofNat 8 mids.length + 1).toNat = mids.length + 1 := by bv_omega
  have hidxn : 0 + BitVec.ofNat 8 mids.length + 1 + 1 = n := by bv_omega
  have hstored : Store.write (Store.write m (Config.rbufBase + mids.length) b) (Config.rbufBase + (mids.length + 1)) last =
      writeBytes s.mem 0x100 (first :: (mids.map Prod.snd ++ [last])) := by
    calc _ = writeBytes m (0x100 + (0 + mids.length)) [b, last] := by rw [Nat.zero_add]; rfl
      _ = _ := hmem last
  rw [hrun.run hagenda, arbSelect_selected, heq]
  simp only [ended, burstDone, kept, storeBurstByte, stopped, received, burstBegun, readBegun_eq, selected, accepted, loaded,
    hidle, hxfer, hzero, hlen, hlen1, hidxn, hstored, Ctrl.answer, Bool.not_true, Bool.false_eq_true, if_false, if_true,
    List.append_assoc, List.cons_append, List.nil_append]

end Sys2Proof.Machine
end

section
/-! PROOFS. The arbiter's commands at their one micro-step (43_arbiter.md R110 to R113): the hash in closed form, `PREP` and
`CONFIG` with their checks in the order of 60_exceptions.md R140, and `Select` in its cases. -/

namespace Sys2Proof.Machine

variable {sl : Slave} {j : Nat} {s : State}

/-! ## The hash -/

/-- Three multiply-and-add steps of operands this narrow do not wrap at 2^32. -/
theorem wiringHash_toNat (port : BitVec 3) (cpin dpin : BitVec 5) :
    (wiringHash port cpin dpin).toNat = 450179 + 529 * port.toNat + 23 * cpin.toNat + dpin.toNat := by
  have hport : port.toNat < 8 := port.isLt
  have hcpin : cpin.toNat < 32 := cpin.isLt
  have hdpin : dpin.toNat < 32 := dpin.isLt
  simp only [wiringHash, Config.hashSeed, Config.hashMult, BitVec.toNat_add, BitVec.toNat_mul, BitVec.toNat_setWidth,
    BitVec.ofNat_eq_ofNat, BitVec.toNat_ofNat]
  omega

/-- Settles O30: the closed form, and the rule's collisions computed. -/
theorem hashClosedForm : Obligations.HashClosedForm :=
  ⟨wiringHash_toNat, by decide, by decide, by decide⟩

/-! ## The table and the search -/

/-- A slave address as the memo holds it (10_state.md R36). -/
theorem slave_setWidth (sl : Slave) : sl.setWidth 8 = 0#1 ++ sl := BitVec.setWidth_eq_append (by decide)

/-- No slave address reads as "none" in the memo (R36). -/
theorem slave_ne_none (sl : Slave) : sl.setWidth 8 ≠ 0xFF#8 := by
  intro h
  have hlt : sl.toNat < 128 := sl.isLt
  have := congrArg BitVec.toNat h
  simp only [BitVec.toNat_setWidth, BitVec.toNat_ofNat] at this
  omega

theorem Arbiter.entry_of_lt (a : Arbiter) (h : j < 8) : a.entry j = a.etab[j] := dif_pos h

theorem allPrepared_iff {a : Arbiter} {n : Nat} : allPrepared a n = true ↔ ∀ j, j < n → (a.entry j).prepared = true := by
  simp only [allPrepared, List.all_eq_true, List.mem_range]

theorem FirstMatch.find (h : FirstMatch s sl j) : s.arb.find sl = some j := by
  obtain ⟨hlt, heq, hfirst⟩ := h
  exact List.find?_range_eq_some.2
    ⟨beq_iff_eq.2 heq, List.mem_range.2 hlt, fun i hi => by rw [beq_eq_false_iff_ne.2 (hfirst i hi)]; rfl⟩

theorem find_eq_none_of_no_match (h : ∀ j, j < s.arb.entryCount.toNat → (s.arb.entry j).slave ≠ sl) :
    s.arb.find sl = none :=
  List.find?_range_eq_none.2 fun i hi => by rw [beq_eq_false_iff_ne.2 (h i hi)]; rfl

/-! ## `Select` in its cases (R113) -/

/-- The two pins of an entry muxed to the bus function, clock pin first (R113 step 3). -/
def connect (e : Entry) (s : State) : State := writePins e e.cmux e.dmux s

/-- The two pins of an entry muxed to plain input, clock pin first (R113 step 3). -/
def disconnect (e : Entry) (s : State) : State := writePins e 1 1 s

theorem remux_sameWiring (hlast : s.arb.lastIdx ≠ 0xFF) (hhash : (s.arb.entry j).hash = s.arb.lastHash) :
    remux j s = s :=
  if_neg (not_or.2 ⟨hlast, not_not.2 hhash⟩)

theorem remux_noPrevious (hlast : s.arb.lastIdx = 0xFF) : remux j s = connect (s.arb.entry j) s := by
  rw [remux, if_pos (.inl hlast), if_neg (not_not.2 hlast), connect]

theorem remux_rewires (hlast : s.arb.lastIdx ≠ 0xFF) (hhash : (s.arb.entry j).hash ≠ s.arb.lastHash) :
    remux j s = connect (s.arb.entry j) (disconnect (s.arb.entry s.arb.lastIdx.toNat) s) := by
  rw [remux, if_pos (.inr hhash), if_pos hlast, connect, disconnect, Config.muxPlainInput]

theorem arbSelect_fast (h : sl.setWidth 8 = s.arb.lastAddr) : arbSelect sl s = (0, s) := if_pos h

theorem arbSelect_miss (h : sl.setWidth 8 ≠ s.arb.lastAddr) (hf : s.arb.find sl = none) : arbSelect sl s = (1, s) := by
  rw [arbSelect, if_neg h, hf]

theorem arbSelect_found (h : sl.setWidth 8 ≠ s.arb.lastAddr) (hf : s.arb.find sl = some j) :
    arbSelect sl s = (0, remember sl j (remux j s)) := by
  rw [arbSelect, if_neg h, hf]

theorem selectInto_fast (h : s.arb.lastAddr = 0#1 ++ sl) : selectInto sl s = s.setRes 0 := by
  rw [selectInto, arbSelect_fast ((slave_setWidth sl).trans h.symm)]

theorem selectInto_miss (h : ¬ s.arb.lastAddr = 0#1 ++ sl)
    (hno : ∀ j, j < s.arb.entryCount.toNat → (s.arb.entry j).slave ≠ sl) : selectInto sl s = s.setRes 1 := by
  rw [selectInto, arbSelect_miss (slave_setWidth sl ▸ Ne.symm h) (find_eq_none_of_no_match hno)]

theorem selectInto_found (h : ¬ s.arb.lastAddr = 0#1 ++ sl) (hj : FirstMatch s sl j) :
    selectInto sl s = (remember sl j (remux j s)).setRes 0 := by
  rw [selectInto, arbSelect_found (slave_setWidth sl ▸ Ne.symm h) hj.find]

/-- `SELECT` runs `Select` of the slave in `SLV` at its micro-step 0 and ends. -/
theorem select_runs {slave : Slave} {pre : State → Prop} {post : State → State}
    (h : ∀ s, pre s → selectInto s.dp.slv s = post s) : Runs (.select slave) 0 pre fun s => ended (post s) :=
  fun s hs hpre =>
    (exec_single (m := fun t => .ok (selectInto t.dp.slv t).finish) rfl hs).trans
      (congrArg (fun t => Host.Outcome.next (ended t)) (h s hpre))

/-- Settles O33: the fast path, the miss, and the three ways `remux` treats the pins of an entry found. -/
theorem selectChangesTheWiring : Obligations.SelectChangesTheWiring := by
  intro slave
  refine ⟨select_runs fun s hfast => selectInto_fast hfast, select_runs fun s ⟨hslow, hno⟩ => selectInto_miss hslow hno,
    fun j => ⟨select_runs fun s ⟨hslow, hj, hlast, hhash⟩ => ?sameWiring, select_runs fun s ⟨hslow, hj, hlast⟩ => ?noPrevious,
      select_runs fun s ⟨hslow, hj, hlast, hhash⟩ => ?rewires⟩⟩
  case sameWiring =>
    rw [selectInto_found hslow hj, remux_sameWiring hlast hhash, remember, slave_setWidth]
    rfl
  case noPrevious =>
    rw [selectInto_found hslow hj, remux_noPrevious hlast, remember, slave_setWidth]
    rfl
  case rewires =>
    rw [selectInto_found hslow hj, remux_rewires hlast hhash, remember, slave_setWidth]
    rfl

/-! ## `PREP` -/

/-- What R111 asks of `AUX`: the reserved bits 0 and one of the five ports. -/
def CleanAux (x : Word) : Prop :=
  x.extractLsb' 27 5 = 0#5 ∧ x.extractLsb' 16 8 = 0#8 ∧ (x.extractLsb' 24 3 : BitVec 3).toNat < 5

theorem auxPrepReservedZero_iff (x : Word) :
    auxPrepReservedZero x = true ↔ x.extractLsb' 27 5 = 0#5 ∧ x.extractLsb' 16 8 = 0#8 := by
  simp only [auxPrepReservedZero, Bool.and_eq_true, beq_iff_eq]; rfl

/-- The two checks of `AUX` that `PREP` makes first (R140). -/
theorem cleanAux_iff (x : Word) :
    CleanAux x ↔ ¬ auxPrepReservedZero x = false ∧ ¬ Config.numPorts ≤ (auxPort x).toNat := by
  rw [Bool.not_eq_false, auxPrepReservedZero_iff, Nat.not_le, and_assoc]
  rfl

variable {index : BitVec 3} {slave : Slave}

theorem prepareEntry_unclean (h : ¬ CleanAux s.aux) : prepareEntry index slave s = halted 5 s := by
  rw [cleanAux_iff, not_and_or, not_not, not_not] at h
  unfold prepareEntry
  split
  · rfl
  · next hreserved => rw [if_pos (h.resolve_left hreserved)]; rfl

theorem prepareEntry_registered (h : CleanAux s.aux) (hc : s.arb.configured = true) :
    prepareEntry index slave s = halted 6 s := by
  obtain ⟨hreserved, hport⟩ := (cleanAux_iff _).1 h
  rw [prepareEntry, if_neg hreserved, if_neg hport, if_pos hc]
  rfl

theorem prepareEntry_fills (h : CleanAux s.aux) (hc : s.arb.configured = false) :
    prepareEntry index slave s = ended (setEntry index (preparedEntry slave s.aux) s) := by
  obtain ⟨hreserved, hport⟩ := (cleanAux_iff _).1 h
  rw [prepareEntry, if_neg hreserved, if_neg hport, hc, if_neg Bool.false_ne_true]
  rfl

theorem exec_prep (hs : s.seq = .run 0x30 0) : exec (.prep index slave) s = .next (prepareEntry index slave s) :=
  exec_single (m := fun t => .ok (prepareEntry index slave t)) rfl hs

/-- Settles O31: the checks of `AUX` come first, then that of the table; what is filled is one entry of the table. -/
theorem prepFillsAnEntry : Obligations.PrepFillsAnEntry := by
  intro index slave
  refine ⟨fun s hs hbad => ?illegal, fun s hs ⟨hclean, hc⟩ => ?registered, fun s hs hclean hc =>
    ⟨s.arb.etab.set index.toNat (preparedEntry slave s.aux) index.isLt, ?fills, fun j hj hne => ?others, ?filled⟩⟩
  case illegal => rw [exec_prep hs, prepareEntry_unclean hbad]
  case registered => rw [exec_prep hs, prepareEntry_registered hclean hc]
  case fills => rw [exec_prep hs, prepareEntry_fills hclean hc]; rfl
  case others => exact Vector.getElem_set_ne index.isLt hj hne.symm
  case filled => exact Vector.getElem_set_self index.isLt

/-! ## `CONFIG` -/

variable {n : BitVec 4}

/-- A count that `CONFIG` accepts, and that many prepared entries (R112). -/
def TableReady (n : BitVec 4) (a : Arbiter) : Prop :=
  1 ≤ n.toNat ∧ n.toNat ≤ 8 ∧ ∀ (j : Nat) (h : j < 8), j < n.toNat → a.etab[j].prepared = true

/-- The two checks of the table that `CONFIG` makes (R112, R140). -/
theorem tableReady_iff {a : Arbiter} :
    TableReady n a ↔ ¬ (n = 0 ∨ Config.maxEntries < n.toNat) ∧ ¬ allPrepared a n.toNat = false := by
  have hcount : ¬ (n = 0 ∨ Config.maxEntries < n.toNat) ↔ 1 ≤ n.toNat ∧ n.toNat ≤ 8 := by
    have hzero : n = 0 ↔ n.toNat = 0 := ⟨congrArg BitVec.toNat, fun h => BitVec.eq_of_toNat_eq h⟩
    rw [hzero, Config.maxEntries]
    omega
  rw [hcount, Bool.not_eq_false, allPrepared_iff, and_assoc]
  refine and_congr_right fun _ => and_congr_right fun hle => ⟨fun h j hj => ?entries, fun h j hj8 hj => ?table⟩
  case entries =>
    have hj8 : j < 8 := Nat.lt_of_lt_of_le hj hle
    exact a.entry_of_lt hj8 ▸ h j hj8 hj
  case table => exact a.entry_of_lt hj8 ▸ h j hj

theorem configureTable_again (hc : s.arb.configured = true) : configureTable n s = halted 6 s := if_pos hc

theorem configureTable_null (hc : s.arb.configured = false) (h : ¬ TableReady n s.arb) :
    configureTable n s = halted 2 s := by
  rw [tableReady_iff, not_and_or, not_not, not_not] at h
  rw [configureTable, hc, if_neg Bool.false_ne_true]
  split
  · rfl
  · next hcount => rw [if_pos (h.resolve_left hcount)]; rfl

theorem configureTable_ready (hc : s.arb.configured = false) (h : TableReady n s.arb) :
    configureTable n s = ended (selectInto (s.arb.entry 0).slave (installTable n s)) := by
  obtain ⟨hcount, hprep⟩ := tableReady_iff.1 h
  rw [configureTable, hc, if_neg Bool.false_ne_true, if_neg hcount, if_neg hprep]
  rfl

/-- The `Select` of entry 0 inside `CONFIG` finds that entry, and no previous one (R112). -/
theorem selectInto_first (hn : 1 ≤ n.toNat) :
    selectInto (s.arb.entry 0).slave (installTable n s) =
      (remember (s.arb.entry 0).slave 0 (connect (s.arb.entry 0) (installTable n s))).setRes 0 := by
  have hslow : ¬ (installTable n s).arb.lastAddr = 0#1 ++ (s.arb.entry 0).slave :=
    slave_setWidth _ ▸ (slave_ne_none _).symm
  have hmatch : FirstMatch (installTable n s) (s.arb.entry 0).slave 0 := ⟨hn, rfl, fun i hi => absurd hi (Nat.not_lt_zero i)⟩
  rw [selectInto_found hslow hmatch, remux_noPrevious rfl]
  rfl

theorem exec_config (hs : s.seq = .run 0x31 0) : exec (.config n) s = .next (configureTable n s) :=
  exec_single (m := fun t => .ok (configureTable n t)) rfl hs

/-- Settles O32: the checks in their order, then the `Select` of entry 0, for which no entry was selected before. -/
theorem configInstallsTheTable : Obligations.ConfigInstallsTheTable := by
  intro n
  refine ⟨fun s hs hc => ?again, fun s hs ⟨hc, hbad⟩ => ?null, fun s hs ⟨hc, hready⟩ => ?installs⟩
  case again => rw [exec_config hs, configureTable_again hc]
  case null => rw [exec_config hs, configureTable_null hc hbad]
  case installs =>
    obtain ⟨hn, -, -⟩ := id hready
    rw [exec_config hs, configureTable_ready hc hready, selectInto_first hn, s.arb.entry_of_lt (by decide), remember,
      slave_setWidth, connect, writePins, pinWrite, pinWrite, List.append_assoc]
    rfl

end Sys2Proof.Machine
end

section
/-! PROOFS. The pins after a `Select` (43_arbiter.md R114): which of them it writes and with which mux values. -/

namespace Sys2Proof.Machine

variable {sl : Slave} {j : Nat} {e p : Entry} {s t : State}

/-! ## Reading a pin after writes -/

/-- Two pins with one key are one pin (10_state.md R37). -/
theorem pinKey_inj {a b : BitVec 3} {c d : BitVec 5} :
    pinKey a.toNat c.toNat = pinKey b.toNat d.toNat ↔ a = b ∧ c = d := by
  have hc : c.toNat < 32 := c.isLt
  have hd : d.toNat < 32 := d.isLt
  rw [← BitVec.toNat_inj, ← BitVec.toNat_inj, pinKey, pinKey, Config.pinsPerPort]
  omega

theorem pmuxAt_pinWrite_same (a : BitVec 3) (c : BitVec 5) (m : BitVec 3) (s : State) :
    pmuxAt (pinWrite a c m s) a.toNat c.toNat = m := by
  rw [pmuxAt, pinWrite_pmux, read_write_same, Option.getD_some]

theorem pmuxAt_pinWrite_other {a b : BitVec 3} {c d : BitVec 5} (m : BitVec 3) (s : State) (h : ¬ (b = a ∧ d = c)) :
    pmuxAt (pinWrite a c m s) b.toNat d.toNat = pmuxAt s b.toNat d.toNat := by
  rw [pmuxAt, pinWrite_pmux, read_write_other _ _ (mt pinKey_inj.1 h), pmuxAt]

/-- The data pin is written last (R113 step 3, D39). -/
theorem pmuxAt_writePins_dpin (e : Entry) (c d : BitVec 3) (s : State) :
    pmuxAt (writePins e c d s) e.port.toNat e.dpin.toNat = d :=
  pmuxAt_pinWrite_same ..

/-- The clock pin keeps its value where the data pin is another pin, or gets the same value. -/
theorem pmuxAt_writePins_cpin {c d : BitVec 3} (s : State) (h : e.cpin = e.dpin → c = d) :
    pmuxAt (writePins e c d s) e.port.toNat e.cpin.toNat = c := by
  by_cases hpin : e.cpin = e.dpin
  · rw [hpin, pmuxAt_writePins_dpin, h hpin]
  · exact (pmuxAt_pinWrite_other _ _ fun hsame => hpin hsame.2).trans (pmuxAt_pinWrite_same ..)

theorem pmuxAt_writePins_other {b : BitVec 3} {pin : BitVec 5} (c d : BitVec 3) (s : State)
    (h : ¬ (b = e.port ∧ (pin = e.cpin ∨ pin = e.dpin))) :
    pmuxAt (writePins e c d s) b.toNat pin.toNat = pmuxAt s b.toNat pin.toNat :=
  (pmuxAt_pinWrite_other _ _ fun hsame => h ⟨hsame.1, .inr hsame.2⟩).trans
    (pmuxAt_pinWrite_other _ _ fun hsame => h ⟨hsame.1, .inl hsame.2⟩)

/-! ## Connecting and disconnecting an entry -/

/-- The pins of entry `p` that are not pins of entry `e` carry plain input (R114). -/
def OthersPlain (p e : Entry) (t : State) : Prop :=
  ∀ pin : BitVec 5, pin = p.cpin ∨ pin = p.dpin → ¬ (p.port = e.port ∧ (pin = e.cpin ∨ pin = e.dpin)) →
    pmuxAt t p.port.toNat pin.toNat = 1

theorem wired_connect (h : e.cpin = e.dpin → e.cmux = e.dmux) (s : State) : Wired e (connect e s) :=
  ⟨pmuxAt_writePins_cpin s h, pmuxAt_writePins_dpin ..⟩

theorem othersPlain_connect_disconnect (p e : Entry) (s : State) : OthersPlain p e (connect e (disconnect p s)) := by
  intro pin hpin hother
  refine (pmuxAt_writePins_other _ _ _ hother).trans ?_
  obtain rfl | rfl := hpin
  · exact pmuxAt_writePins_cpin s fun _ => rfl
  · exact pmuxAt_writePins_dpin ..

/-- An entry has no pins beside those of an entry with the same wiring. -/
theorem othersPlain_of_sameWiring (hport : p.port = e.port) (hcpin : p.cpin = e.cpin) (hdpin : p.dpin = e.dpin) :
    OthersPlain p e t :=
  fun _ hpin hother => absurd ⟨hport, hcpin ▸ hdpin ▸ hpin⟩ hother

/-! ## The memo -/

/-- A memo that is not "none" names an installed entry (R113). -/
theorem ArbOk.lastIdx_lt {a : Arbiter} (h : ArbOk a) (hlast : a.lastIdx ≠ 0xFF) : a.lastIdx.toNat < a.entryCount.toNat := by
  obtain ⟨-, -, -, hmemo⟩ := h
  obtain ⟨hnone, -⟩ | ⟨_, -, hfind, -⟩ := hmemo
  · exact absurd hnone hlast
  · exact Arbiter.find_lt hfind

theorem ArbOk.lastHash_eq {a : Arbiter} (h : ArbOk a) (hlast : a.lastIdx ≠ 0xFF) :
    a.lastHash = (a.entry a.lastIdx.toNat).hash := by
  obtain ⟨-, -, -, hmemo⟩ := h
  obtain ⟨hnone, -⟩ | ⟨_, -, -, hhash⟩ := hmemo
  · exact absurd hnone hlast
  · exact hhash

/-- On the fast path the memo's index is that of the slave's first entry (R113 step 1). -/
theorem ArbOk.lastIdx_of_fast (h : ArbOk s.arb) (hfast : sl.setWidth 8 = s.arb.lastAddr) (hj : FirstMatch s sl j) :
    s.arb.lastIdx.toNat = j := by
  obtain ⟨-, -, -, ⟨-, hnone⟩ | ⟨sl', haddr, hfind, -⟩⟩ := h
  · exact absurd (hfast.trans hnone) (slave_ne_none sl)
  · have hsl : sl' = sl := by
      rw [haddr, slave_setWidth, slave_setWidth] at hfast
      exact (BitVec.append_right_inj _).1 hfast.symm
    exact Option.some.inj ((hsl ▸ hfind).symm.trans hj.find)

/-- An installed index is not the memo's "none" (R36). -/
theorem FirstMatch.toNat_ofNat (h : FirstMatch s sl j) : (BitVec.ofNat 8 j).toNat = j := by
  have hlt : j < s.arb.entryCount.toNat := h.1
  rw [BitVec.toNat_ofNat]
  omega

/-! ## What `Select` leaves on the pins -/

/-- Step 3 of `Select` leaves entry `j` wired, and what only the previous entry uses on plain input (R114 (4)). -/
theorem remux_wires (hok : ArbOk s.arb) (hfree : CollisionFree s.arb)
    (hwired : s.arb.lastIdx ≠ 0xFF → Wired (s.arb.entry s.arb.lastIdx.toNat) s) (hj : j < s.arb.entryCount.toNat)
    (hmux : (s.arb.entry j).cpin = (s.arb.entry j).dpin → (s.arb.entry j).cmux = (s.arb.entry j).dmux) :
    Wired (s.arb.entry j) (remux j s) ∧
      (s.arb.lastIdx ≠ 0xFF → OthersPlain (s.arb.entry s.arb.lastIdx.toNat) (s.arb.entry j) (remux j s)) := by
  by_cases hlast : s.arb.lastIdx = 0xFF
  · rw [remux_noPrevious hlast]
    exact ⟨wired_connect hmux s, fun hne => absurd hlast hne⟩
  by_cases hhash : (s.arb.entry j).hash = s.arb.lastHash
  · obtain ⟨hport, hcpin, hdpin, hcmux, hdmux⟩ :=
      hfree _ _ (hok.lastIdx_lt hlast) hj ((hok.lastHash_eq hlast).symm.trans hhash.symm)
    have hprev : Wired (s.arb.entry s.arb.lastIdx.toNat) s := hwired hlast
    rw [Wired, hport, hcpin, hdpin, hcmux, hdmux] at hprev
    rw [remux_sameWiring hlast hhash]
    exact ⟨hprev, fun _ => othersPlain_of_sameWiring hport hcpin hdpin⟩
  · rw [remux_rewires hlast hhash]
    exact ⟨wired_connect hmux _, fun _ => othersPlain_connect_disconnect _ _ s⟩

/-- Settles O34: on the fast path the entry is the one selected last; otherwise step 3 wires it. -/
theorem selectWiresTheSlave : Obligations.SelectWiresTheSlave := by
  intro s slave j hok hfree hwired hj hmux
  by_cases hfast : slave.setWidth 8 = s.arb.lastAddr
  case pos =>
    have hidx : s.arb.lastIdx.toNat = j := hok.lastIdx_of_fast hfast hj
    have hlast : s.arb.lastIdx ≠ 0xFF := by
      intro hnone
      have hlt : j < s.arb.entryCount.toNat := hj.1
      have hnoneIdx : 255 = j := (congrArg BitVec.toNat hnone).symm.trans hidx
      omega
    rw [arbSelect_fast hfast]
    exact ⟨rfl, hidx ▸ hwired hlast, hidx, fun _ => hidx ▸ othersPlain_of_sameWiring rfl rfl rfl⟩
  case neg =>
    obtain ⟨hwires, hplain⟩ := remux_wires hok hfree hwired hj.1 hmux
    rw [arbSelect_found hfast hj.find]
    exact ⟨rfl, hwires, hj.toNat_ofNat, hplain⟩

end Sys2Proof.Machine
end

section
/-! PROOFS. Which pins a step of any agent can change (43_arbiter.md R114, 20_memory.md R61): `Select` writes the pins of two
installed entries, every other operation none. `Effect` does not tell `Select` from the other operations, so what each of them
does to the pins is said here. -/

namespace Sys2Proof.Machine

variable {s t u : State}

/-! ## Changes at installed pins -/

/-- The key of a pin of an installed entry. -/
def InstalledPin (a : Arbiter) (key : Nat) : Prop :=
  ∃ j, j < a.entryCount.toNat ∧
    (key = pinKey (a.entry j).port.toNat (a.entry j).cpin.toNat ∨ key = pinKey (a.entry j).port.toNat (a.entry j).dpin.toNat)

/-- From `p` to `q` only pins of entries installed in `a` have changed. -/
def OnlyInstalled (a : Arbiter) (p q : Store (BitVec 3)) : Prop :=
  ∀ key, Store.read q key ≠ Store.read p key → InstalledPin a key

variable {a : Arbiter} {p q r : Store (BitVec 3)}

theorem OnlyInstalled.of_eq (h : q = p) : OnlyInstalled a p q := fun _ hne => absurd (by rw [h]) hne

theorem OnlyInstalled.trans (h : OnlyInstalled a p q) (h' : OnlyInstalled a q r) : OnlyInstalled a p r := by
  intro key hne
  by_cases hq : Store.read r key = Store.read q key
  · exact h key (hq ▸ hne)
  · exact h' key hq

theorem OnlyInstalled.write {key : Nat} (hkey : InstalledPin a key) (p : Store (BitVec 3)) (m : BitVec 3) :
    OnlyInstalled a p (Store.write p key m) := by
  intro k hne
  by_cases hk : k = key
  · exact hk ▸ hkey
  · exact absurd (read_write_other p m hk) hne

/-- The step from `s` to `t` has changed only pins of entries installed in `t`. -/
def Rewires (s t : State) : Prop := OnlyInstalled t.arb s.pmux t.pmux

theorem rewires_of_pmux_eq (h : t.pmux = s.pmux) : Rewires s t := OnlyInstalled.of_eq h

/-! ## `Select` -/

theorem writePins_onlyInstalled {j : Nat} (hj : j < a.entryCount.toNat) (c d : BitVec 3) (s : State) :
    OnlyInstalled a s.pmux (writePins (a.entry j) c d s).pmux :=
  (OnlyInstalled.write ⟨j, hj, .inl rfl⟩ _ _).trans (OnlyInstalled.write ⟨j, hj, .inr rfl⟩ _ _)

theorem remux_onlyInstalled {j : Nat} (hlast : s.arb.lastIdx ≠ 0xFF → s.arb.lastIdx.toNat < s.arb.entryCount.toNat)
    (hj : j < s.arb.entryCount.toNat) : OnlyInstalled s.arb s.pmux (remux j s).pmux := by
  by_cases hnone : s.arb.lastIdx = 0xFF
  · rw [remux_noPrevious hnone]
    exact writePins_onlyInstalled hj _ _ s
  by_cases hhash : (s.arb.entry j).hash = s.arb.lastHash
  · rw [remux_sameWiring hnone hhash]
    exact .of_eq rfl
  · rw [remux_rewires hnone hhash]
    exact (writePins_onlyInstalled (hlast hnone) 1 1 s).trans (writePins_onlyInstalled hj _ _ _)

/-- `Select` does not change which pins are installed (R113). -/
theorem arbSelect_installedPin {sl : Slave} {key : Nat} (h : InstalledPin s.arb key) :
    InstalledPin (arbSelect sl s).2.arb key := by
  obtain ⟨_, _, _, _, _, hframe⟩ := arbSelect_frame sl s
  rw [hframe]
  exact h

/-- `Select` writes the pins of the entry it finds and of the one the memo names (R113 step 3). -/
theorem arbSelect_rewires (sl : Slave) (hlast : s.arb.lastIdx ≠ 0xFF → s.arb.lastIdx.toNat < s.arb.entryCount.toNat) :
    Rewires s (arbSelect sl s).2 := by
  have honly : OnlyInstalled s.arb s.pmux (arbSelect sl s).2.pmux := by
    by_cases hfast : sl.setWidth 8 = s.arb.lastAddr
    · rw [arbSelect_fast hfast]
      exact .of_eq rfl
    cases hf : s.arb.find sl with
    | none => rw [arbSelect_miss hfast hf]; exact .of_eq rfl
    | some j => rw [arbSelect_found hfast hf]; exact remux_onlyInstalled hlast (Arbiter.find_lt hf)
  exact fun key hne => arbSelect_installedPin (honly key hne)

/-! ## The operations that write no pin -/

theorem memRead_pmux {off : Offset} {sz : Size} {v : Word} (h : memRead off sz s = .ok (v, t)) : t.pmux = s.pmux := by
  obtain ⟨_, _, rfl⟩ := memRead_ok h
  rfl

theorem memWrite_pmux {off : Offset} {sz : Size} {v : Word} (h : memWrite off sz v s = .ok t) : t.pmux = s.pmux := by
  obtain ⟨_, _, _, _, _, _, _, _, _, _, _, rfl⟩ := memWrite_ok h
  rfl

theorem rmw_pmux {off : Offset} {sz : Size} {g : Word → Word} (h : rmw off sz g s = .ok t) : t.pmux = s.pmux := by
  unfold rmw at h
  split at h
  · next hread => exact (memWrite_pmux h).trans (memRead_pmux hread)
  · cases h

theorem loadInto_pmux {off : Offset} {sz : Size} {g : Word → Word} (h : loadInto off sz g s = .ok t) : t.pmux = s.pmux := by
  unfold loadInto at h
  split at h
  · next hread =>
    have hkeeps := memRead_pmux hread
    cases h
    exact hkeeps
  · cases h

theorem prepareEntry_pmux (index : BitVec 3) (slave : Slave) (s : State) : (prepareEntry index slave s).pmux = s.pmux := by
  unfold prepareEntry
  split
  · rfl
  · split
    · rfl
    · split <;> rfl

theorem onRing_pmux {k : Inst} {act : RingBuf → State → State} (hact : ∀ r s, (act r s).pmux = s.pmux) (s : State) :
    (onRing k act s).pmux = s.pmux := by
  unfold onRing
  dsimp only
  split
  · exact hact _ s
  · rfl

theorem ringInit_pmux (k : Inst) (s : State) : (ringInit k s).pmux = s.pmux := by unfold ringInit; split <;> rfl

theorem ringPush_pmux (k : Inst) (b : Byte) (r : RingBuf) (s : State) : (ringPush k b r s).pmux = s.pmux := by
  unfold ringPush
  split <;> rfl

theorem ringPop_pmux (k : Inst) (r : RingBuf) (s : State) : (ringPop k r s).pmux = s.pmux := by unfold ringPop; split <;> rfl

theorem enqueue_pmux (k : Inst) (n : Nat) (s : State) : (enqueue k n s).pmux = s.pmux := by
  unfold enqueue
  dsimp only
  split <;> rfl

theorem dequeue_pmux (k : Inst) (n : Nat) (s : State) : (dequeue k n s).pmux = s.pmux := by
  unfold dequeue
  dsimp only
  split <;> rfl

theorem critical_pmux {body : State → State} (hbody : ∀ s, (body s).pmux = s.pmux) (s : State) :
    (critical body s).pmux = s.pmux :=
  hbody { s with imask := true }

/-! ## Micro-operations -/

/-- The micro-operation `m` changes only pins of installed entries. -/
def WiresInstalled (m : MicroOp) : Prop := ∀ s t, ArbOk s.arb → m s = .ok t → Rewires s t

theorem wiresInstalled_ok {g : State → State} (hg : ∀ s, (g s).pmux = s.pmux) : WiresInstalled fun s => .ok (g s) :=
  fun s _ _ h => rewires_of_pmux_eq (Except.ok.inj h ▸ hg s)

/-- A micro-operation that goes one way or the other by a test of the state. -/
theorem wiresInstalled_ite {c : State → Prop} [∀ s, Decidable (c s)] {f g : State → State}
    (hf : ∀ s, (f s).pmux = s.pmux) (hg : ∀ s, (g s).pmux = s.pmux) :
    WiresInstalled fun s => .ok (if c s then f s else g s) :=
  wiresInstalled_ok fun s => by
    split
    · exact hf s
    · exact hg s

theorem wiresInstalled_thenAdvance {f : State → Except Fault State} (hf : ∀ s u, f s = .ok u → u.pmux = s.pmux) :
    WiresInstalled fun s => thenAdvance (f s) := by
  intro s t _ h
  dsimp only at h
  cases hu : f s with
  | error e => rw [hu] at h; cases h
  | ok u => rw [hu] at h; cases h; exact rewires_of_pmux_eq (hf s u hu)

theorem wiresInstalled_rmw {off : Offset} {sz : Size} {g : Word → Word} :
    WiresInstalled fun s => thenAdvance (rmw off sz g s) :=
  wiresInstalled_thenAdvance fun _ _ => rmw_pmux

theorem wiresInstalled_checkedAccess {off : Offset} {sz : Size} {b : Bool} {act : State → Except Fault State}
    (hact : ∀ s u, act s = .ok u → u.pmux = s.pmux) : WiresInstalled (checkedAccess off sz b act) := by
  intro s t _ h
  unfold checkedAccess at h
  split at h
  · cases hu : act s with
    | error e => rw [hu] at h; cases h
    | ok u => rw [hu] at h; cases h; exact rewires_of_pmux_eq (hact s u hu)
  · cases h
    exact rewires_of_pmux_eq rfl

theorem mLoadData_wires {f : Byte → State → State} (hf : ∀ b s, (f b s).pmux = s.pmux) : WiresInstalled (mLoadData f) := by
  intro s t _ h
  unfold mLoadData at h
  split at h
  · next hread => cases h; exact rewires_of_pmux_eq ((hf _ _).trans (memRead_pmux hread))
  · cases h

theorem mSaveDiv_wires : WiresInstalled mSaveDiv := by
  intro s t _ h
  rw [mSaveDiv_eq] at h
  cases h
  exact rewires_of_pmux_eq rfl

theorem mForcedStop_wires : WiresInstalled mForcedStop := by
  intro s t _ h
  unfold mForcedStop at h
  split at h
  · next hstop =>
    have hkeeps := rmw_pmux hstop
    cases h
    exact rewires_of_pmux_eq hkeeps
  · cases h

theorem mDone_wires : WiresInstalled mDone := wiresInstalled_ok fun _ => rfl

theorem mWaitBusy_wires : WiresInstalled mWaitBusy := wiresInstalled_ite (fun _ => rfl) fun _ => rfl

theorem mWaitIf_wires : WiresInstalled mWaitIf := wiresInstalled_ite (fun _ => rfl) fun _ => rfl

theorem mCount_wires : WiresInstalled mCount := by
  refine wiresInstalled_ok fun s => ?_
  split <;> rfl

theorem mCheckCount_wires (c : Byte) : WiresInstalled (mCheckCount c) := wiresInstalled_ite (fun _ => rfl) fun _ => rfl

/-- The `Select` of a transaction (42_engine_transactions.md R102). -/
theorem mSelect_wires : WiresInstalled mSelect := by
  intro s t hok h
  obtain ⟨rfl, -⟩ := mSelect_ok h
  exact arbSelect_rewires s.dp.slv fun hlast => hok.lastIdx_lt hlast

/-- The `Select` inside `CONFIG` has no previous entry to disconnect (R112). -/
theorem configureTable_wires (n : BitVec 4) : WiresInstalled fun t => .ok (configureTable n t) := by
  intro s t _ h
  cases h
  by_cases hc : s.arb.configured = true
  · rw [configureTable_again hc]
    exact rewires_of_pmux_eq rfl
  have hc : s.arb.configured = false := Bool.eq_false_iff.2 hc
  by_cases hready : TableReady n s.arb
  · rw [configureTable_ready hc hready]
    exact arbSelect_rewires (s := installTable n s) _ fun hlast => absurd rfl hlast
  · rw [configureTable_null hc hready]
    exact rewires_of_pmux_eq rfl

theorem select_wires : WiresInstalled fun t => .ok (selectInto t.dp.slv t).finish := by
  intro s t hok h
  cases h
  exact arbSelect_rewires s.dp.slv fun hlast => hok.lastIdx_lt hlast

/-! ## Micro-programs -/

/-- Every micro-operation of a stretch changes only pins of installed entries. -/
def AllWireInstalled (ms : List MicroOp) : Prop := ∀ m ∈ ms, WiresInstalled m

theorem AllWireInstalled.nil : AllWireInstalled [] := fun _ h => nomatch h

theorem AllWireInstalled.cons {m : MicroOp} {ms : List MicroOp} (hm : WiresInstalled m) (hms : AllWireInstalled ms) :
    AllWireInstalled (m :: ms) :=
  List.forall_mem_cons.2 ⟨hm, hms⟩

theorem AllWireInstalled.one {m : MicroOp} (hm : WiresInstalled m) : AllWireInstalled [m] := .cons hm .nil

theorem AllWireInstalled.append {ms ms' : List MicroOp} (h : AllWireInstalled ms) (h' : AllWireInstalled ms') :
    AllWireInstalled (ms ++ ms') :=
  List.forall_mem_append.2 ⟨h, h'⟩

theorem waitIf_wires : AllWireInstalled [mWaitIf, mClearIf] := .cons mWaitIf_wires (.one wiresInstalled_rmw)

theorem sendByte_wires (b : State → Byte) : AllWireInstalled (sendByte b) :=
  .cons (wiresInstalled_thenAdvance fun _ _ => memWrite_pmux) waitIf_wires

theorem driveClock_wires : AllWireInstalled driveClock := .cons (mLoadData_wires fun _ _ => rfl) waitIf_wires

theorem repeatedStart_wires : AllWireInstalled repeatedStart :=
  .cons mSaveDiv_wires (.cons wiresInstalled_rmw (.cons wiresInstalled_rmw
    (.one (wiresInstalled_thenAdvance fun _ _ => memWrite_pmux))))

theorem mRxMode_wires (ack : BitVec 1) : AllWireInstalled [mRxMode ack] :=
  .one (wiresInstalled_thenAdvance fun _ _ => rmw_pmux)

theorem addressWrite_wires : AllWireInstalled addressWrite := by
  have hbegin : AllWireInstalled [mSelect, mWaitBusy, mStart] :=
    .cons mSelect_wires (.cons mWaitBusy_wires (.one wiresInstalled_rmw))
  exact (hbegin.append (sendByte_wires _)).append (sendByte_wires _)

theorem addressRead_wires : AllWireInstalled addressRead :=
  (addressWrite_wires.append repeatedStart_wires).append (sendByte_wires _)

theorem readBegin_wires (ack : BitVec 1) : AllWireInstalled (addressRead ++ [mRxMode ack] ++ driveClock) :=
  (addressRead_wires.append (mRxMode_wires ack)).append driveClock_wires

theorem readRegister_wires : AllWireInstalled readRegister :=
  (readBegin_wires 0).append (.cons wiresInstalled_rmw (.one (mLoadData_wires fun _ _ => rfl)))

theorem readRegisters_wires (c : Byte) : AllWireInstalled (readRegisters c) := by
  have hstore : WiresInstalled (mLoadData storeBurstByte) := mLoadData_wires fun _ _ => rfl
  have hchoice : AllWireInstalled [mCheckCount c, mOneByte c] :=
    .cons (mCheckCount_wires c) (.one (wiresInstalled_ite (fun _ => rfl) fun _ => rfl))
  have hinit : AllWireInstalled [mBurstInit c] := .one (wiresInstalled_ok fun _ => rfl)
  have htest : WiresInstalled mBurstTest := wiresInstalled_ite (fun _ => rfl) fun _ => rfl
  have hloop : AllWireInstalled [mBurstTest, mLoadData storeBurstByte, mWaitIf, mClearIf, mBurstNext] :=
    .cons htest (.cons hstore (waitIf_wires.append (.one (wiresInstalled_ok fun _ => rfl))))
  have hlast : AllWireInstalled
      [mNoAck, mLoadData storeBurstByte, mWaitIf, mClearIf, mStop, mLoadData storeBurstByte, mBurstDone c] :=
    .cons wiresInstalled_rmw (.cons hstore (waitIf_wires.append
      (.cons wiresInstalled_rmw (.cons hstore (.one (wiresInstalled_ok fun _ => rfl))))))
  have hburst : AllWireInstalled
      ([mCheckCount c, mOneByte c] ++ addressRead ++ [mRxMode 1] ++ driveClock ++ [mBurstInit c]) :=
    (((hchoice.append addressRead_wires).append (mRxMode_wires 1)).append driveClock_wires).append hinit
  exact (((hburst.append hloop).append hlast).append readRegister_wires).append (.one (wiresInstalled_ok fun _ => rfl))

theorem modifyRegister_wires : AllWireInstalled modifyRegister := by
  have hmodify : AllWireInstalled [mLoadData saveTmp, mModify] :=
    .cons (mLoadData_wires fun _ _ => rfl) (.one (wiresInstalled_ok fun _ => rfl))
  have hread := ((readBegin_wires 0).append repeatedStart_wires).append hmodify
  have hwrite := ((hread.append (sendByte_wires slvWaddr)).append (sendByte_wires fun s => s.dp.rega)).append
    (sendByte_wires fun s => s.dp.new)
  exact hwrite.append (.cons wiresInstalled_rmw (.one (wiresInstalled_ok fun _ => rfl)))

theorem waitb_wires : AllWireInstalled (program .waitb) :=
  .cons (wiresInstalled_ok fun _ => rfl) (.cons (wiresInstalled_ite (fun _ => rfl) fun _ => rfl) (.cons mCount_wires
    (.cons wiresInstalled_rmw (.cons mForcedStop_wires (.cons wiresInstalled_rmw (.one mDone_wires))))))

theorem onRing_wires {k : Inst} {act : RingBuf → State → State} (hact : ∀ r s, (act r s).pmux = s.pmux) :
    WiresInstalled fun t => .ok (onRing k act t) :=
  wiresInstalled_ok (onRing_pmux hact)

theorem ringWait_wires (k : Inst) (c : RingBuf → Bool) : AllWireInstalled [mRingCheck k, mRingWait k c, mRingDone] :=
  .cons (onRing_wires fun _ _ => rfl) (.cons (wiresInstalled_ite (fun _ => rfl) fun _ => rfl)
    (.one (wiresInstalled_ok fun _ => rfl)))

theorem critical_wires {body : State → State} (hbody : ∀ s, (body s).pmux = s.pmux) :
    WiresInstalled fun t => .ok (critical body t).finish :=
  wiresInstalled_ok (critical_pmux hbody)

/-- Every micro-operation of every command. -/
theorem program_wires (i : Instr) : AllWireInstalled (program i) := by
  cases i
  case ld => exact .one (wiresInstalled_checkedAccess fun _ _ => loadInto_pmux)
  case ubfx => exact .one (wiresInstalled_checkedAccess fun _ _ => loadInto_pmux)
  case st => exact .one (wiresInstalled_checkedAccess fun _ _ => memWrite_pmux)
  case aand => exact .one (wiresInstalled_checkedAccess fun _ _ => rmw_pmux)
  case aor => exact .one (wiresInstalled_checkedAccess fun _ _ => rmw_pmux)
  case axor => exact .one (wiresInstalled_checkedAccess fun _ _ => rmw_pmux)
  case bfi => exact .one (wiresInstalled_checkedAccess fun _ _ => rmw_pmux)
  case waitbusy => exact .cons mWaitBusy_wires (.one mDone_wires)
  case start => exact .cons wiresInstalled_rmw (.one mDone_wires)
  case sendb => exact (sendByte_wires _).append (.one mDone_wires)
  case rstart => exact repeatedStart_wires.append (.one mDone_wires)
  case rxmode => exact (mRxMode_wires _).append (.one mDone_wires)
  case drvclk => exact driveClock_wires.append (.one mDone_wires)
  case stop => exact .cons wiresInstalled_rmw (.one mDone_wires)
  case resetbus =>
    exact .cons wiresInstalled_rmw (.cons wiresInstalled_rmw (.cons (wiresInstalled_ok fun _ => rfl) (.one mDone_wires)))
  case waitb => exact waitb_wires
  case rdreg => exact readRegister_wires.append (.one mDone_wires)
  case rdregs => exact readRegisters_wires _
  case wrreg =>
    exact (addressWrite_wires.append (sendByte_wires _)).append (.cons wiresInstalled_rmw (.one mDone_wires))
  case modreg => exact modifyRegister_wires
  case prep => exact .one (wiresInstalled_ok (prepareEntry_pmux _ _))
  case config => exact .one (configureTable_wires _)
  case select => exact .one select_wires
  case rbInit => exact .one (wiresInstalled_ok (ringInit_pmux _))
  case rbPush => exact .one (onRing_wires (ringPush_pmux _ _))
  case rbPop => exact .one (onRing_wires (ringPop_pmux _))
  case rbCount => exact .one (onRing_wires fun _ _ => rfl)
  case rbEmpty => exact .one (onRing_wires fun _ _ => rfl)
  case rbFull => exact .one (onRing_wires fun _ _ => rfl)
  case rbWaitne => exact ringWait_wires _ _
  case rbWaitnf => exact ringWait_wires _ _
  case rbWaite => exact ringWait_wires _ _
  case bfEnq => exact .one (critical_wires (enqueue_pmux _ _))
  case bfDeq => exact .one (critical_wires (dequeue_pmux _ _))
  case bfLen => exact .one (critical_wires fun _ => rfl)
  case bfFull => exact .one (critical_wires fun _ => rfl)

/-- A command's acceptance writes no pin, and its micro-steps only pins of installed entries. -/
theorem exec_rewires {i : Instr} (hok : ArbOk s.arb) (h : exec i s = .next t) : Rewires s t := by
  rw [exec_eq_command] at h
  obtain ⟨-, rfl⟩ | ⟨_, m, -, hm, ht⟩ := command_next h
  · exact rewires_of_pmux_eq rfl
  · exact program_wires i m (List.mem_of_getElem? hm) s t hok ht

/-! ## The agents -/

theorem seqTurn_rewires (hok : ArbOk s.arb) (h : seqTurn s = .next t) : Rewires s t := by
  unfold seqTurn at h
  split at h
  · cases h; exact rewires_of_pmux_eq rfl
  · cases h; exact rewires_of_pmux_eq rfl
  · split at h
    · exact exec_rewires hok h
    · cases h

theorem hostRead_pmux {off : Offset} {sz : Size} (h : hostRead off sz s = .next t) : t.pmux = s.pmux := by
  unfold hostRead at h
  split at h
  · split at h
    · next hread =>
      have hkeeps := memRead_pmux hread
      cases h
      exact hkeeps
    · cases h
  · cases h

theorem acceptCommand_pmux (hs : s.seq = .idle) (h : acceptCommand s = .next t) : t.pmux = s.pmux := by
  unfold acceptCommand at h
  split at h
  · next i _ => rw [acceptanceLoadsOperands i s hs] at h; cases h; rfl
  · cases h; rfl

theorem hostWrite_pmux {off : Offset} {sz : Size} {v : Word} (hs : s.seq = .idle) (h : hostWrite off sz v s = .next t) :
    t.pmux = s.pmux := by
  unfold hostWrite at h
  split at h
  · split at h
    · next u hwrite =>
      have hu : u.pmux = s.pmux := memWrite_pmux hwrite
      have hidle : u.seq = .idle := by
        obtain ⟨_, _, _, _, _, _, _, _, _, _, _, rfl⟩ := memWrite_ok hwrite
        exact hs
      split at h
      · exact (acceptCommand_pmux hidle h).trans hu
      · cases h; exact hu
    · cases h
  · cases h

theorem windowAccess_pmux {x : HostAccess} {off : Offset} {rest : List HostAccess}
    (h : windowAccess x off rest s = .next t) : t.pmux = s.pmux := by
  unfold windowAccess at h
  split at h
  · cases h; rfl
  · exact hostRead_pmux (s := { s with host := rest }) h
  · next hs => exact hostWrite_pmux (s := { s with host := rest }) hs h
  · exact hostRead_pmux (s := { s with host := rest }) h
  · cases h; rfl

theorem hostTurn_pmux (h : hostTurn s = .next t) : t.pmux = s.pmux := by
  unfold hostTurn at h
  split at h
  · cases h; rfl
  · split at h
    · exact windowAccess_pmux h
    · cases h; rfl

theorem busTx_pmux (x : Ack) (s : State) : (busTx x s).pmux = s.pmux := by unfold busTx; split <;> rfl

theorem busRx_pmux (d : Byte) (s : State) : (busRx d s).pmux = s.pmux := by unfold busRx; split <;> rfl

theorem busBusy_pmux (taken : Bool) (s : State) : (busBusy taken s).pmux = s.pmux := by unfold busBusy; split <;> rfl

theorem busArbLost_pmux (s : State) : (busArbLost s).pmux = s.pmux := by unfold busArbLost; split <;> rfl

theorem ringReceive_pmux (b : Byte) (s : State) : (ringReceive b s).pmux = s.pmux := by
  unfold ringReceive
  split
  · rfl
  · split <;> rfl

theorem ringTransmit_pmux (s : State) : (ringTransmit s).pmux = s.pmux := by unfold ringTransmit; split <;> rfl

theorem fifoReceive_pmux (b : Byte) (s : State) : (fifoReceive b s).pmux = s.pmux := by unfold fifoReceive; split <;> rfl

theorem fifoTransmit_pmux (s : State) : (fifoTransmit s).pmux = s.pmux := by unfold fifoTransmit; split <;> rfl

theorem linkRx_pmux (b : Byte) (s : State) : (linkRx b s).pmux = s.pmux := by
  unfold linkRx
  split
  · split
    · exact ringReceive_pmux b s
    · exact critical_pmux (fifoReceive_pmux b) s
  · rfl

theorem linkTx_pmux (s : State) : (linkTx s).pmux = s.pmux := by
  unfold linkTx
  split
  · split
    · exact ringTransmit_pmux s
    · exact critical_pmux fifoTransmit_pmux s
  · rfl

theorem takeTurn_rewires {turn : Turn} (hok : ArbOk s.arb) (h : takeTurn turn s = .next t) : Rewires s t := by
  cases turn with
  | seq => exact seqTurn_rewires hok h
  | host => exact rewires_of_pmux_eq (hostTurn_pmux h)
  | busTx x => cases h; exact rewires_of_pmux_eq (busTx_pmux x s)
  | busRx d => cases h; exact rewires_of_pmux_eq (busRx_pmux d s)
  | busBusy taken => cases h; exact rewires_of_pmux_eq (busBusy_pmux taken s)
  | busArbLost => cases h; exact rewires_of_pmux_eq (busArbLost_pmux s)
  | linkRx b => cases h; exact rewires_of_pmux_eq (linkRx_pmux b s)
  | linkTx => cases h; exact rewires_of_pmux_eq (linkTx_pmux s)
  | reset => cases h; exact rewires_of_pmux_eq rfl

theorem defaultTurn_rewires (hok : ArbOk s.arb) (h : defaultTurn s = .next t) : Rewires s t := by
  unfold defaultTurn at h
  split at h
  · exact seqTurn_rewires hok h
  · exact rewires_of_pmux_eq (hostTurn_pmux h)
  · split at h
    · cases h
    · exact rewires_of_pmux_eq (hostTurn_pmux h)

theorem step_rewires (hok : ArbOk s.arb) (h : step s = .next t) : Rewires s t := by
  unfold step at h
  split at h
  · exact defaultTurn_rewires hok h
  · next turn rest _ => exact takeTurn_rewires (s := { s with agenda := rest }) hok h

/-- Settles O35: only a `Select` writes pins, those of the entry it finds and of the entry the memo names. -/
theorem onlyInstalledPinsChange : Obligations.OnlyInstalledPinsChange :=
  fun _ _ hok h key hne => step_rewires hok h key hne

end Sys2Proof.Machine
end

section
/-! PROOFS. The ring commands at their micro-steps and LINK's two handlers in variant A (44_ring_buffer.md R116 to R126): what
stands at micro-step 0 of each command, the check for an initialised ring, and each operation on a ring in its cases. -/

namespace Sys2Proof.Machine

variable {i : Instr} {k : Inst} {byte : Byte} {q : RingBuf} {s : State} {pre : State → Prop} {post : State → State}
  {act : RingBuf → State → State}

/-! ## The state of a ring -/

theorem isEmpty_iff : q.isEmpty = true ↔ q.w = q.r := beq_iff_eq

theorem isFull_iff : q.isFull = true ↔ q.cap.toNat ≤ q.held.toNat := decide_eq_true_iff

theorem isEmpty_eq (q : RingBuf) : q.isEmpty = decide (q.w = q.r) := rfl

theorem flagWord_decide (p : Prop) [Decidable p] : flagWord (decide p) = if p then 1 else 0 := by
  simp only [flagWord, decide_eq_true_eq]

/-! ## The check for an initialised ring (60_exceptions.md R137 code 7) -/

theorem onRing_ready (h : (s.rb.get k).init = true) : onRing k act s = act (s.rb.get k) s := if_pos h

theorem onRing_uninit (h : (s.rb.get k).init = false) : onRing k act s = halted 7 s :=
  if_neg (Bool.eq_false_iff.1 h)

theorem onRing_runs (hm : HasMicro i 0 fun t => .ok (onRing k act t))
    (h : ∀ s, pre s → (s.rb.get k).init = true ∧ act (s.rb.get k) s = post s) : Runs i 0 pre post :=
  hm.runs fun s _ hpre => by
    obtain ⟨hinit, hact⟩ := h s hpre
    rw [onRing_ready hinit, hact]

theorem onRing_runs_uninit (hm : HasMicro i 0 fun t => .ok (onRing k act t)) :
    Runs i 0 (fun s => (s.rb.get k).init = false) (halted 7) :=
  hm.runs fun _ _ hinit => congrArg Except.ok (onRing_uninit hinit)

/-- Settles O40: micro-step 0 of each of the eight commands is the check and what follows it. -/
theorem uninitialisedRingHalts : Obligations.UninitialisedRingHalts := by
  intro k byte i hi
  simp only [List.mem_cons, List.not_mem_nil, or_false] at hi
  obtain rfl | rfl | rfl | rfl | rfl | rfl | rfl | rfl := hi
  · exact onRing_runs_uninit (act := ringPush k byte) rfl
  · exact onRing_runs_uninit (act := ringPop k) rfl
  · exact onRing_runs_uninit (act := ringQuery fun q => q.held) rfl
  · exact onRing_runs_uninit (act := ringQuery fun q => flagWord q.isEmpty) rfl
  · exact onRing_runs_uninit (act := ringQuery fun q => flagWord q.isFull) rfl
  all_goals exact onRing_runs_uninit (act := fun _ t => t.advance) rfl

/-! ## `RB.INIT` -/

theorem capacityOk_of_toNat_eq_pow {c : Word} {p : Nat} (hp : p ≤ 10) (hc : c.toNat = 2 ^ p) : capacityOk c = true := by
  have hpos : c.toNat ≠ 0 := hc ▸ Nat.two_pow_pos p |>.ne'
  have hle : c.toNat ≤ 2 ^ 10 := hc ▸ Nat.pow_le_pow_right (by decide) hp
  have hland : c.toNat &&& (c.toNat - 1) = 0 := (Nat.and_sub_one_eq_zero_iff_isPowerOfTwo hpos).2 ⟨p, hc⟩
  have hpred : (c - 1).toNat = c.toNat - 1 := by bv_omega
  have hand : c &&& (c - 1) = 0 := BitVec.eq_of_toNat_eq <| by rw [BitVec.toNat_and, hpred, hland]; rfl
  have hne : c ≠ 0 := fun h => hpos (congrArg BitVec.toNat h)
  simp only [capacityOk, Bool.and_eq_true, bne_iff_ne, beq_iff_eq, decide_eq_true_eq]
  exact ⟨⟨hne, hand⟩, hle⟩

theorem capacityOk_iff (c : Word) : capacityOk c = true ↔ ∃ p : Nat, p ≤ 10 ∧ c.toNat = 2 ^ p :=
  ⟨exists_pow_of_capacityOk, fun ⟨_, hp, hc⟩ => capacityOk_of_toNat_eq_pow hp hc⟩

/-- Settles O36: the check accepts the powers of two from 1 to 1024 and nothing else. -/
theorem rbInitAcceptsPowersOfTwo : Obligations.RbInitAcceptsPowersOfTwo := by
  intro k
  have hm : HasMicro (.rbInit k) 0 fun t => .ok (ringInit k t) := rfl
  refine ⟨fun p hp => hm.runs fun s _ hpow => congrArg Except.ok ?accepted,
    hm.runs fun s _ hno => congrArg Except.ok ?rejected⟩
  case accepted => exact if_pos ((capacityOk_iff s.aux).2 ⟨p, hp, hpow⟩)
  case rejected => exact if_neg fun hok => let ⟨p, hp, hpow⟩ := (capacityOk_iff s.aux).1 hok; hno p hp hpow

/-! ## `RB.PUSH` and `RB.POP` -/

theorem ringPush_stores (h : q.held.toNat < q.cap.toNat) : ringPush k byte q s = ended (withRing k (q.put byte) s) :=
  if_neg fun hfull => Nat.not_le.2 h (isFull_iff.1 hfull)

theorem ringPush_full (h : q.cap.toNat ≤ q.held.toNat) : ringPush k byte q s = halted 4 s := if_pos (isFull_iff.2 h)

/-- Settles O37: a push of an initialised ring, in its two cases. -/
theorem rbPushStores : Obligations.RbPushStores := fun _ _ =>
  ⟨onRing_runs rfl fun _ ⟨hinit, hroom⟩ => ⟨hinit, ringPush_stores hroom⟩,
    onRing_runs rfl fun _ ⟨hinit, hfull⟩ => ⟨hinit, ringPush_full hfull⟩⟩

theorem ringPop_takes (h : q.dropFront.held.toNat ≤ q.cap.toNat) :
    ringPop k q s = ended { ringAdvance k q s with res := (q.front s.draws).setWidth 32 } := if_neg (Nat.not_lt.2 h)

theorem ringPop_outran (h : q.cap.toNat < q.dropFront.held.toNat) : ringPop k q s = halted 3 (ringAdvance k q s) := if_pos h

/-- Settles O38: a pop of an initialised ring, in the two cases of the check after the read. -/
theorem rbPopTakes : Obligations.RbPopTakes := fun _ =>
  ⟨onRing_runs rfl fun _ ⟨hinit, hle⟩ => ⟨hinit, ringPop_takes hle⟩,
    onRing_runs rfl fun _ ⟨hinit, hlt⟩ => ⟨hinit, ringPop_outran hlt⟩⟩

/-! ## The queries and the waits -/

theorem ringQuery_runs {g : RingBuf → Word} (hm : HasMicro i 0 fun t => .ok (onRing k (ringQuery g) t)) :
    Runs i 0 (fun s => (s.rb.get k).init = true) fun s => ended { s with res := g (s.rb.get k) } :=
  onRing_runs hm fun _ hinit => ⟨hinit, rfl⟩

/-- A wait of three micro-steps: the check, the hold while `c`, the end (R122 to R124). -/
theorem ringWait_runs {go : RingBuf → Bool} {c : State → Prop} (hcheck : HasMicro i 0 (mRingCheck k))
    (hwait : HasMicro i 1 (mRingWait k go)) (hdone : HasMicro i 2 mRingDone)
    (hgo : ∀ s, go (s.rb.get k) = true ↔ ¬ c s) :
    Runs i 0 (fun s => (s.rb.get k).init = true) (atStep i 1) ∧ (Runs i 1 c fun s => s) ∧
      Runs i 1 (fun s => ¬ c s) (atStep i 2) ∧ DoneAt i 2 := by
  refine ⟨hcheck.runs_next rfl (fun _ => rfl) fun s hinit => congrArg Except.ok (onRing_ready hinit),
    hwait.runs fun s _ hc => congrArg Except.ok (if_neg fun h => (hgo s).1 h hc),
    hwait.runs_next rfl (fun _ => rfl) fun s hc => congrArg Except.ok (if_pos ((hgo s).2 hc)),
    hdone.runs fun _ _ _ => rfl⟩

theorem not_isEmpty_iff : (!q.isEmpty) = true ↔ ¬ q.w = q.r := by
  rw [Bool.not_eq_true', ← Bool.not_eq_true, isEmpty_iff]

theorem not_isFull_iff : (!q.isFull) = true ↔ ¬ q.cap.toNat ≤ q.held.toNat := by
  rw [Bool.not_eq_true', ← Bool.not_eq_true, isFull_iff]

/-- Settles O39: the three queries, and the three waits with what lets each go on. -/
theorem ringQueriesAndWaits : Obligations.RingQueriesAndWaits := by
  intro k
  refine ⟨ringQuery_runs (g := fun q => q.held) rfl, ?empty, ?full, ringWait_runs rfl rfl rfl fun _ => not_isEmpty_iff,
    ringWait_runs rfl rfl rfl fun _ => not_isFull_iff, ringWait_runs rfl rfl rfl fun _ => isEmpty_iff.trans not_not.symm⟩
  case empty =>
    exact (ringQuery_runs (i := .rbEmpty k) (g := fun q => flagWord q.isEmpty) rfl).congr fun s =>
      congrArg (fun v => ended { s with res := v }) (flagWord_decide _)
  case full =>
    exact (ringQuery_runs (i := .rbFull k) (g := fun q => flagWord q.isFull) rfl).congr fun s =>
      congrArg (fun v => ended { s with res := v }) (flagWord_decide _)

/-! ## LINK's handlers in variant A (R125, R126) -/

theorem linkEnabled_of (hmask : s.imask = false) (hrun : s.seq ≠ .halt) : linkEnabled s = true := by
  simp [linkEnabled, hmask, hrun]

theorem linkRx_ring (hvar : s.params.variant = .a) (hen : linkEnabled s = true) : linkRx byte s = ringReceive byte s := by
  rw [linkRx, if_pos hen, hvar]

theorem linkTx_ring (hvar : s.params.variant = .a) (hen : linkEnabled s = true) (hie : s.txie = true) :
    linkTx s = ringTransmit s := by
  rw [linkTx, hen, hie, hvar]
  rfl

theorem linkTx_masked (hie : s.txie = false) : linkTx s = s := by
  rw [linkTx, hie, Bool.and_false, if_neg Bool.false_ne_true]

theorem ringReceive_drops (h : s.rb.rx.init = false ∨ s.rb.rx.cap.toNat ≤ s.rb.rx.held.toNat) : ringReceive byte s = s := by
  unfold ringReceive
  split
  · rfl
  · next hinit => exact if_pos (isFull_iff.2 (h.resolve_left hinit))

theorem ringReceive_stores (hinit : s.rb.rx.init = true) (hroom : s.rb.rx.held.toNat < s.rb.rx.cap.toNat) :
    ringReceive byte s = withRing 0 (s.rb.rx.put byte) s := by
  rw [ringReceive, if_neg ((Bool.not_eq_false _).mpr hinit),
    if_neg fun hfull => Nat.not_le.2 hroom (isFull_iff.1 hfull)]
  rfl

theorem ringTransmit_idle (h : s.rb.tx.init = false ∨ s.rb.tx.w = s.rb.tx.r) : ringTransmit s = { s with txie := false } :=
  if_pos (h.imp_right isEmpty_iff.2)

theorem ringTransmit_sends (hinit : s.rb.tx.init = true) (hne : s.rb.tx.w ≠ s.rb.tx.r) :
    ringTransmit s =
      { withRing 1 s.rb.tx.dropFront s with
        linkOut := s.linkOut ++ [s.rb.tx.front s.draws], draws := s.draws + 1,
        txie := s.txie && !s.rb.tx.dropFront.isEmpty } :=
  if_neg <| not_or.2 ⟨(Bool.not_eq_false _).mpr hinit, mt isEmpty_iff.1 hne⟩

/-- Settles O47: LINK is enabled, and in variant A each event is its handler on a ring. -/
theorem linkServesTheRings : Obligations.LinkServesTheRings := by
  intro s hvar hmask hrun
  have hen := linkEnabled_of hmask hrun
  have hrx (b : Byte) : takeTurn (.linkRx b) s = .next (ringReceive b s) := congrArg Host.Outcome.next (linkRx_ring hvar hen)
  have htx (hie : s.txie = true) : takeTurn .linkTx s = .next (ringTransmit s) :=
    congrArg Host.Outcome.next (linkTx_ring hvar hen hie)
  refine ⟨fun b => ⟨fun hdrop => ?drops, fun hinit hroom => ?stores⟩, fun hie => ?masked, fun hie hidle => ?idle,
    fun hie hinit hne => ?sends⟩
  case drops => rw [hrx, ringReceive_drops hdrop]
  case stores => rw [hrx, ringReceive_stores hinit hroom]; rfl
  case masked => exact congrArg Host.Outcome.next (linkTx_masked hie)
  case idle => rw [htx hie, ringTransmit_idle hidle]
  case sends => rw [htx hie, ringTransmit_sends hinit hne, hie, Bool.true_and, isEmpty_eq, ← decide_not]; rfl

end Sys2Proof.Machine
end

section
/-! PROOFS. A ring as a queue of bytes (44_ring_buffer.md R127): which bytes it holds, what a push and a pop make of them wherever
the free-running indices stand, and rows of pushes and pops. -/

namespace Sys2Proof.Machine

variable {i : Instr} {k : Inst} {q : RingBuf} {s : State} {b : Byte} {bs : List Byte} {pre : State → Prop}
  {post : State → State}

/-! ## Slots of the storage -/

/-- A capacity divides the range of the indices, so their wrap at 2^32 does not move a slot. -/
theorem toNat_add_mod_of_dvd {c : Nat} (hc : c ∣ 2 ^ 32) (x y : Word) : (x + y).toNat % c = (x.toNat + y.toNat) % c := by
  rw [BitVec.toNat_add, Nat.mod_mod_of_dvd _ hc]

theorem RingOk.cap_dvd (h : RingOk q) (hi : q.init = true) : q.cap.toNat ∣ 2 ^ 32 := by
  obtain ⟨p, hp, hcap, -, -⟩ := h hi
  exact hcap ▸ Nat.pow_dvd_pow 2 (hp.trans (by decide))

/-- The masked index is the index modulo the capacity (R117, R118). -/
theorem RingOk.slot_eq (h : RingOk q) (hi : q.init = true) (x : Word) : (x &&& q.mask).toNat = x.toNat % q.cap.toNat := by
  obtain ⟨p, -, hcap, hmask, -⟩ := h hi
  have hpos := Nat.two_pow_pos p
  have hpred : (q.cap - 1).toNat = 2 ^ p - 1 := by bv_omega
  rw [BitVec.toNat_and, hmask, hpred, Nat.and_two_pow_sub_one_eq_mod, hcap]

/-- Two places of a ring less than a capacity apart have different slots. -/
theorem slot_ne {r c j n : Nat} (hj : j < n) (hn : n < c) : (r + j) % c ≠ (r + n) % c := fun h => by
  have hmod : j ≡ n [MOD c] := Nat.ModEq.add_left_cancel' r h
  exact hj.ne (hmod.eq_of_lt_of_lt (hj.trans hn) hn)

/-! ## The bytes a ring holds -/

/-- The ring is initialised and good, and holds the bytes `bs`, the next one to read first (R127). -/
structure Holds (q : RingBuf) (bs : List Byte) : Prop where
  init : q.init = true
  ok : RingOk q
  held : q.held.toNat = bs.length
  read : ∀ (j : Nat) (hj : j < bs.length), Store.read q.st ((q.r.toNat + j) % q.cap.toNat) = some bs[j]

theorem holds_nil (hi : q.init = true) (hok : RingOk q) (he : q.w = q.r) : Holds q [] :=
  ⟨hi, hok, by rw [RingBuf.held, he, BitVec.sub_self]; rfl, fun _ hj => absurd hj (Nat.not_lt_zero _)⟩

theorem Holds.indices_eq (h : Holds q []) : q.w = q.r := by
  have hheld := h.held
  simp only [RingBuf.held, List.length_nil] at hheld
  bv_omega

/-- The write index stands as many places after the read index as bytes are held. -/
theorem Holds.write_slot (h : Holds q bs) : q.w.toNat % q.cap.toNat = (q.r.toNat + bs.length) % q.cap.toNat := by
  have hw : q.w = q.r + q.held := by rw [RingBuf.held]; bv_omega
  rw [hw, toNat_add_mod_of_dvd (h.ok.cap_dvd h.init), h.held]

/-- A push appends its byte (R117). -/
theorem Holds.put (h : Holds q bs) (hroom : bs.length < q.cap.toNat) : Holds (q.put b) (bs ++ [b]) := by
  have hheld := h.held
  have hcap := h.ok.cap_le h.init
  have hslot : (q.w &&& q.mask).toNat = (q.r.toNat + bs.length) % q.cap.toNat :=
    (h.ok.slot_eq h.init _).trans h.write_slot
  have hnotFull : q.isFull = false := Bool.eq_false_iff.2 fun hfull => by
    rw [isFull_iff] at hfull
    omega
  refine ⟨h.init, ringOk_put b h.ok hnotFull, ?held, fun j hj => ?read⟩
  case held =>
    simp only [RingBuf.held, RingBuf.put, List.length_append, List.length_singleton] at hheld ⊢
    bv_omega
  case read =>
    rw [List.length_append, List.length_singleton] at hj
    simp only [RingBuf.put, hslot]
    by_cases hlast : j = bs.length
    · subst hlast
      rw [read_write_same, List.getElem_concat_length rfl]
    · have hold : j < bs.length := by omega
      rw [read_write_other _ _ (slot_ne hold hroom), h.read j hold, List.getElem_append_left hold]

/-- The byte at the read index is the oldest one held (R118). -/
theorem Holds.front (h : Holds q (b :: bs)) (n : Nat) : q.front n = b := by
  have hread := h.read 0 (Nat.succ_pos _)
  rw [RingBuf.front, readByte, h.ok.slot_eq h.init, ← Nat.add_zero q.r.toNat, hread]
  rfl

theorem Holds.held_dropFront (h : Holds q (b :: bs)) : q.dropFront.held.toNat = bs.length := by
  have hheld := h.held
  simp only [RingBuf.held, RingBuf.dropFront, List.length_cons] at hheld ⊢
  bv_omega

theorem Holds.length_le (h : Holds q bs) : bs.length ≤ q.cap.toNat := by
  obtain ⟨-, -, -, -, hle⟩ := h.ok h.init
  exact h.held ▸ hle

theorem Holds.held_dropFront_le (h : Holds q (b :: bs)) : q.dropFront.held.toNat ≤ q.cap.toNat :=
  h.held_dropFront ▸ (Nat.le_succ _).trans h.length_le

/-- A pop removes the oldest byte (R118). -/
theorem Holds.dropFront (h : Holds q (b :: bs)) : Holds q.dropFront bs := by
  refine ⟨h.init, ringOk_dropFront h.ok h.held_dropFront_le, h.held_dropFront, fun j hj => ?_⟩
  have hshift : ((q.r + 1).toNat + j) % q.cap.toNat = (q.r.toNat + (j + 1)) % q.cap.toNat := by
    rw [Nat.add_mod, toNat_add_mod_of_dvd (h.ok.cap_dvd h.init), ← Nat.add_mod, Nat.add_assoc, Nat.add_comm j]
    rfl
  exact (congrArg (Store.read q.st) hshift).trans (h.read (j + 1) (Nat.succ_lt_succ hj))

/-! ## A push and a pop from `IDLE` -/

/-- The state in which a command that `IDLE` accepted stands at its micro-step 0 (10_state.md R23). -/
def justAccepted (i : Instr) (s : State) : State := { s with dp := loaded i s, seq := .run i.opcode 0 }

theorem runOne_of_runs (hs : s.seq = .idle) (hr : Runs i 0 pre post) (hpre : pre (justAccepted i s)) :
    runOne i s = .next (post (justAccepted i s)) := by
  rw [runOne, acceptanceLoadsOperands i s hs]
  exact hr _ rfl hpre

theorem get_withRing (k : Inst) (q : RingBuf) (s : State) : (withRing k q s).rb.get k = q := get_set_same s.rb k q

theorem push_appends (hs : s.seq = .idle) (h : Holds (s.rb.get k) bs) (hroom : bs.length < (s.rb.get k).cap.toNat) :
    ∃ t, runOne (.rbPush k b) s = .next t ∧ t.seq = .idle ∧ t.rb.get k = (s.rb.get k).put b :=
  ⟨_, runOne_of_runs hs (rbPushStores k b).1 ⟨h.init, h.held ▸ hroom⟩, rfl, get_withRing ..⟩

theorem pop_takes (hs : s.seq = .idle) (h : Holds (s.rb.get k) (b :: bs)) :
    ∃ t, runOne (.rbPop k) s = .next t ∧ t.seq = .idle ∧ t.rb.get k = (s.rb.get k).dropFront ∧ t.res = b.setWidth 32 :=
  ⟨_, runOne_of_runs hs (rbPopTakes k).1 ⟨h.init, h.held_dropFront_le⟩, rfl, get_withRing ..,
    congrArg (BitVec.setWidth 32) (h.front s.draws)⟩

/-! ## Rows of pushes and pops -/

theorem pushAll_appends {new : List Byte} (hs : s.seq = .idle) (h : Holds (s.rb.get k) bs)
    (hroom : bs.length + new.length ≤ (s.rb.get k).cap.toNat) :
    ∃ t, pushAll k new s = some t ∧ t.seq = .idle ∧ Holds (t.rb.get k) (bs ++ new) := by
  induction new generalizing s bs with
  | nil => exact ⟨s, rfl, hs, (List.append_nil bs).symm ▸ h⟩
  | cons b rest ih =>
    rw [List.length_cons] at hroom
    have hlt : bs.length < (s.rb.get k).cap.toNat := by omega
    obtain ⟨t, hrun, hidle, hring⟩ := push_appends (b := b) hs h hlt
    have hput : Holds (t.rb.get k) (bs ++ [b]) := hring ▸ h.put hlt
    have hrest : (bs ++ [b]).length + rest.length ≤ (t.rb.get k).cap.toNat := by
      rw [hring, List.length_append, List.length_singleton, Nat.add_assoc, Nat.add_comm 1]
      exact hroom
    obtain ⟨u, hpush, huidle, hu⟩ := ih hidle hput hrest
    refine ⟨u, ?_, huidle, ?_⟩
    · rw [pushAll, hrun]
      exact (if_pos hidle).trans hpush
    · rwa [List.append_assoc] at hu

theorem popAll_takes (hs : s.seq = .idle) (h : Holds (s.rb.get k) bs) :
    ∃ u, popAll k bs.length s = some (bs.map fun b => b.setWidth 32, u) ∧ Holds (u.rb.get k) [] := by
  induction bs generalizing s with
  | nil => exact ⟨s, rfl, h⟩
  | cons b rest ih =>
    obtain ⟨t, hrun, hidle, hring, hres⟩ := pop_takes hs h
    obtain ⟨u, hpop, hu⟩ := ih hidle (hring ▸ h.dropFront)
    refine ⟨u, ?_, hu⟩
    rw [List.length_cons, popAll, hrun]
    dsimp only
    rw [if_pos hidle, hpop, hres]
    rfl

/-- Settles O41: the pushes append their bytes to the empty queue, the pops take them from its front. -/
theorem poppedBytesEqualPushedBytes : Obligations.PoppedBytesEqualPushedBytes := by
  intro k s bs hs hinit hok hempty hle
  have hnil : Holds (s.rb.get k) [] := holds_nil hinit hok hempty
  obtain ⟨t, hpush, hidle, ht⟩ := pushAll_appends hs hnil ((Nat.zero_add bs.length).symm ▸ hle)
  obtain ⟨u, hpop, hu⟩ := popAll_takes hidle ht
  exact ⟨t, u, hpush, hpop, hu.indices_eq⟩

end Sys2Proof.Machine
end

section
/-! PROOFS. The bounded FIFO's commands at their micro-step and LINK's two handlers in variant B (45_bounded_fifo.md R128 to
R134): cursors, flag and count in closed form, and each operation on a FIFO in its cases. -/

namespace Sys2Proof.Machine

variable {f : BoundedFifo} {i : Instr} {k : Inst} {m n : Nat} {bs : List Byte} {b : Byte} {s : State}
  {pre : State → Prop} {post : State → State}

/-! ## One FIFO's cursors, flag and count -/

/-- A cursor of 10 bits wraps at the size of the storage by itself (R128). -/
theorem cursor_mod (x : Nat) : BitVec.ofNat 10 (x % Config.bfN) = BitVec.ofNat 10 x :=
  BitVec.eq_of_toNat_eq <| by simp [Config.bfN]

theorem cursor_succ (c : BitVec 10) : BitVec.ofNat 10 (c.toNat + 1) = c + 1 := by
  rw [BitVec.ofNat_add, BitVec.ofNat_toNat, BitVec.setWidth_eq]
  rfl

theorem fifo_length_arms (h : f.full = false) :
    f.length =
      if f.rc.toNat ≤ f.wc.toNat then f.wc.toNat - f.rc.toNat else 1024 - (f.rc.toNat - f.wc.toNat) :=
  if_neg (Bool.eq_false_iff.1 h)

/-- An empty FIFO has `full` clear and equal cursors (R128). -/
theorem fifo_empty_cursors (h : f.length = 0) : f.full = false ∧ f.wc = f.rc := by
  cases hfull : f.full with
  | true => rw [fifo_length_full hfull] at h; cases h
  | false =>
    have hmod := fifo_length_eq_mod hfull
    exact ⟨rfl, BitVec.eq_of_toNat_eq (by omega)⟩

theorem fifo_put_eq (h : f.full = false) :
    f.put bs =
      { st :=
          writeBytes (writeBytes f.st f.wc.toNat (bs.take (min bs.length (1024 - f.wc.toNat)))) 0
            (bs.drop (min bs.length (1024 - f.wc.toNat))),
        wc := BitVec.ofNat 10 (f.wc.toNat + bs.length), rc := f.rc,
        full := decide (0 < bs.length ∧ BitVec.ofNat 10 (f.wc.toNat + bs.length) = f.rc),
        count := BitVec.ofNat 11 (f.length + bs.length) } := by
  unfold BoundedFifo.put
  dsimp only
  rw [cursor_mod, h, Bool.false_or, Bool.decide_and]
  rfl

theorem fifo_dropFront_eq :
    f.dropFront m =
      { f with
        rc := BitVec.ofNat 10 (f.rc.toNat + m), full := if 0 < m then false else f.full,
        count := BitVec.ofNat 11 (f.length - m) } := by
  unfold BoundedFifo.dropFront
  rw [cursor_mod]
  by_cases hm : 0 < m <;> simp [hm]

/-- `count` holds any length exactly (R128). -/
theorem FifoOk.length_eq (h : FifoOk f) (hcount : f.count = BitVec.ofNat 11 n) (hn : n ≤ 1024) : f.length = n := by
  rw [← h.2, hcount, BitVec.toNat_ofNat]
  omega

theorem fifo_length_put (hf : f.full = false) (hm : f.length + bs.length ≤ 1024) :
    (f.put bs).length = f.length + bs.length :=
  (fifoOk_put hf hm).length_eq rfl hm

theorem fifo_length_dropFront (h : FifoOk f) (hm : m ≤ f.length) : (f.dropFront m).length = f.length - m :=
  (fifoOk_dropFront h hm).length_eq rfl ((Nat.sub_le ..).trans (fifo_length_le f))

/-! ## The bodies of `BF.ENQ` and `BF.DEQ` in their cases -/

theorem xbufBytes_length : (xbufBytes m s).length = m := readBytes_length ..

theorem enqueue_full (h : (s.bf.get k).full = true) : enqueue k n s = { s with res := 0 } := if_pos h

/-- An enqueue copies as many bytes as are asked for and free (R130). -/
theorem enqueue_copies (h : (s.bf.get k).full = false) (hm : min n (1024 - (s.bf.get k).length) = m) :
    enqueue k n s =
      { withFifo k ((s.bf.get k).put (xbufBytes m s)) s with draws := s.draws + m, res := BitVec.ofNat 32 m } := by
  have hcount : enqueueCount (s.bf.get k) n = m := (if_neg (Bool.eq_false_iff.1 h)).trans hm
  rw [enqueue, if_neg (Bool.eq_false_iff.1 h), hcount]
  rfl

theorem dequeue_empty (h : (s.bf.get k).length = 0) : dequeue k n s = { s with res := 0 } := if_pos h

/-- A dequeue takes as many bytes as are asked for and held (R131). -/
theorem dequeue_takes (h : (s.bf.get k).length ≠ 0) (hm : min n (s.bf.get k).length = m) :
    dequeue k n s =
      { withFifo k ((s.bf.get k).dropFront m) s with
        mem := writeBytes s.mem 0x400 ((s.bf.get k).front m s.draws), draws := s.draws + m,
        res := BitVec.ofNat 32 m } := by
  subst hm
  exact if_neg h

theorem bfEnq_runs (k : Inst) (n : BitVec 16) : Runs (.bfEnq k n) 0 anyState fun s => ended (enqueue k n.toNat s) :=
  HasMicro.runs (m := fun t => .ok (critical (enqueue k n.toNat) t).finish) rfl fun s _ _ => by
    rw [critical_enqueue]
    rfl

theorem bfDeq_runs (k : Inst) (n : BitVec 16) : Runs (.bfDeq k n) 0 anyState fun s => ended (dequeue k n.toNat s) :=
  HasMicro.runs (m := fun t => .ok (critical (dequeue k n.toNat) t).finish) rfl fun s _ _ => by
    rw [critical_dequeue]
    rfl

/-! ## The commands -/

/-- A micro-step said of every state, said anew of the states of a case. -/
theorem Runs.of_case {j : BitVec 6} {post' : State → State} (h : Runs i j anyState post)
    (he : ∀ s, pre s → post s = post' s) : Runs i j pre post' :=
  fun s hs hpre => (h s hs trivial).trans (congrArg Host.Outcome.next (he s hpre))

/-- Settles O42: a full FIFO refuses, another takes the bytes in the closed form of `put`. -/
theorem bfEnqCopiesIn : Obligations.BfEnqCopiesIn := by
  intro k n
  refine ⟨(bfEnq_runs k n).of_case fun s hfull => congrArg ended (enqueue_full hfull),
    (bfEnq_runs k n).of_case fun s hroom => ?copies⟩
  case copies =>
    rw [enqueue_copies hroom rfl, fifo_put_eq hroom, xbufBytes_length, fifo_length_arms hroom]
    rfl

/-- Settles O43: an empty FIFO gives nothing, another the bytes at its front. -/
theorem bfDeqCopiesOut : Obligations.BfDeqCopiesOut := by
  intro k n
  refine ⟨(bfDeq_runs k n).of_case fun s hempty => congrArg ended (dequeue_empty hempty),
    (bfDeq_runs k n).of_case fun s hheld => ?takes⟩
  case takes =>
    rw [dequeue_takes hheld rfl, fifo_dropFront_eq]
    rfl

theorem bfLen_runs {v : State → Word} (h : ∀ s, pre s → BitVec.ofNat 32 (s.bf.get k).length = v s) :
    Runs (.bfLen k) 0 pre fun s => ended { s with res := v s } :=
  HasMicro.runs (m := fun t => .ok (critical (fun u => u.setRes (BitVec.ofNat 32 (u.bf.get k).length)) t).finish) rfl
    fun s _ hpre => congrArg (fun w => Except.ok (ended { s with res := w })) (h s hpre)

theorem bfFull_runs (k : Inst) :
    Runs (.bfFull k) 0 anyState fun s => ended { s with res := if (s.bf.get k).full then 1 else 0 } :=
  HasMicro.runs (m := fun t => .ok (critical (fun u => u.setRes (flagWord (u.bf.get k).full)) t).finish) rfl
    fun _ _ _ => rfl

theorem fifo_lengthWord_full (hfull : f.full = true) : BitVec.ofNat 32 f.length = 1024 := by
  rw [fifo_length_full hfull]
  rfl

theorem fifo_lengthWord_ahead (hfull : f.full = false) (hle : f.rc.toNat ≤ f.wc.toNat) :
    BitVec.ofNat 32 f.length = (f.wc - f.rc).setWidth 32 := by
  rw [fifo_length_arms hfull, if_pos hle]
  bv_omega

theorem fifo_lengthWord_behind (hfull : f.full = false) (hlt : f.wc.toNat < f.rc.toNat) :
    BitVec.ofNat 32 f.length = 1024 - (f.rc - f.wc).setWidth 32 := by
  rw [fifo_length_arms hfull, if_neg (Nat.not_le.2 hlt)]
  bv_omega

/-- Settles O44: the length by the arms of R128, and the flag. -/
theorem bfQueriesAnswer : Obligations.BfQueriesAnswer := fun k =>
  ⟨bfLen_runs fun _ hfull => fifo_lengthWord_full hfull,
    bfLen_runs fun _ ⟨hfull, hle⟩ => fifo_lengthWord_ahead hfull hle,
    bfLen_runs fun _ ⟨hfull, hlt⟩ => fifo_lengthWord_behind hfull hlt, bfFull_runs k⟩

/-! ## LINK's handlers in variant B (R134) -/

theorem linkRx_fifo (hvar : s.params.variant = .b) (hen : linkEnabled s = true) : linkRx b s = fifoReceive b s := by
  rw [linkRx, if_pos hen, hvar]
  exact critical_fifoReceive b s

theorem linkTx_fifo (hvar : s.params.variant = .b) (hen : linkEnabled s = true) (hie : s.txie = true) :
    linkTx s = fifoTransmit s := by
  rw [linkTx, hen, hie, hvar]
  exact critical_fifoTransmit s

theorem fifoReceive_full (h : s.bf.rx.full = true) : fifoReceive b s = s := if_pos h

theorem fifoReceive_stores (h : s.bf.rx.full = false) : fifoReceive b s = withFifo 0 (s.bf.rx.put [b]) s :=
  if_neg (Bool.eq_false_iff.1 h)

theorem fifoTransmit_empty (h : s.bf.tx.length = 0) : fifoTransmit s = { s with txie := false } := if_pos h

theorem fifoTransmit_sends (h : s.bf.tx.length ≠ 0) :
    fifoTransmit s =
      { withFifo 1 (s.bf.tx.dropFront 1) s with
        linkOut := s.linkOut ++ s.bf.tx.front 1 s.draws, draws := s.draws + 1,
        txie := s.txie && !decide ((s.bf.tx.dropFront 1).length = 0) } :=
  if_neg h

/-- One byte in (R134): one slot, and `count` one up. -/
theorem fifo_put_one (hok : FifoOk f) (h : f.full = false) :
    f.put [b] =
      { f with
        st := Store.write f.st f.wc.toNat b, wc := f.wc + 1, full := decide (f.wc + 1 = f.rc), count := f.count + 1 } := by
  have hseg : min 1 (1024 - f.wc.toNat) = 1 := by omega
  have hcount : BitVec.ofNat 11 (f.length + 1) = f.count + 1 := by rw [← hok.2]; bv_omega
  rw [fifo_put_eq h, List.length_singleton, hseg, cursor_succ, hcount]
  simp [writeBytes]

/-- One byte out (R134): `count` one down. -/
theorem fifo_dropFront_one (hok : FifoOk f) (h : f.length ≠ 0) :
    f.dropFront 1 = { f with full := false, rc := f.rc + 1, count := f.count - 1 } := by
  have hcount : BitVec.ofNat 11 (f.length - 1) = f.count - 1 := by rw [← hok.2] at h ⊢; bv_omega
  rw [fifo_dropFront_eq, cursor_succ, hcount]
  rfl

theorem fifo_front_one : f.front 1 n = [readByte f.st f.rc.toNat n] := by
  have hseg : min 1 (1024 - f.rc.toNat) = 1 := by omega
  simp only [BoundedFifo.front, Config.bfN, hseg]
  rfl

/-- Settles O48: LINK is enabled, and in variant B each event is its handler on a FIFO of one byte in or out. -/
theorem linkServesTheFifos : Obligations.LinkServesTheFifos := by
  intro s hvar hmask hrun ⟨hrxOk, htxOk⟩
  have hen := linkEnabled_of hmask hrun
  have hrx (b : Byte) : takeTurn (.linkRx b) s = .next (fifoReceive b s) := congrArg Host.Outcome.next (linkRx_fifo hvar hen)
  have htx (hie : s.txie = true) : takeTurn .linkTx s = .next (fifoTransmit s) :=
    congrArg Host.Outcome.next (linkTx_fifo hvar hen hie)
  refine ⟨fun b => ⟨fun hfull => ?drops, fun hroom => ?stores⟩, fun hie => ?masked, fun hie hempty => ?empty,
    fun hie hheld => ?sends⟩
  case drops => rw [hrx, fifoReceive_full hfull]
  case stores => rw [hrx, fifoReceive_stores hroom, fifo_put_one hrxOk hroom]
  case masked => exact congrArg Host.Outcome.next (linkTx_masked hie)
  case empty => rw [htx hie, fifoTransmit_empty hempty]
  case sends =>
    have hleft : (s.bf.tx.dropFront 1).length = 0 ↔ s.bf.tx.length = 1 := by
      rw [fifo_length_dropFront htxOk (Nat.pos_of_ne_zero hheld)]
      omega
    have hoff : (s.txie && !decide ((s.bf.tx.dropFront 1).length = 0)) = decide (s.bf.tx.length ≠ 1) := by
      rw [hie, Bool.true_and, decide_not, decide_eq_decide.2 hleft]
    rw [htx hie, fifoTransmit_sends hheld, hoff, fifo_front_one, fifo_dropFront_one htxOk hheld]

end Sys2Proof.Machine
end

section
/-! PROOFS. A bounded FIFO as a queue of bytes (45_bounded_fifo.md R135): the two segments of storage as one run of slots around
it, so that what is copied into an empty FIFO comes out again wherever the cursors stand. -/

namespace Sys2Proof.Machine

variable {f : BoundedFifo} {k : Inst} {a : BitVec 16} {m n j : Nat} {bs : List Byte} {b : Byte} {s : State}

/-! ## The slots of the storage -/

/-- The `j`-th byte copied in stands `j` slots after the write cursor, around the storage (R130). -/
theorem read_fifo_put (hle : bs.length ≤ 1024) (hj : j < bs.length) :
    Store.read (f.put bs).st ((f.wc.toNat + j) % 1024) = some bs[j] := by
  have hwc := f.wc.isLt
  simp only [BoundedFifo.put, Config.bfN]
  by_cases hfirst : f.wc.toNat + j < 1024
  · have hlt : j < (bs.take (min bs.length (1024 - f.wc.toNat))).length := by rw [List.length_take]; omega
    rw [Nat.mod_eq_of_lt hfirst, read_writeBytes_other _ _ _ _ (.inr (by rw [List.length_drop]; omega)),
      read_writeBytes_inside _ _ _ _ hlt, List.getElem_take]
  · have hslot : (f.wc.toNat + j) % 1024 = 0 + (j - (1024 - f.wc.toNat)) := by omega
    have hlt : j - (1024 - f.wc.toNat) < (bs.drop (min bs.length (1024 - f.wc.toNat))).length := by
      rw [List.length_drop]; omega
    rw [hslot, read_writeBytes_inside _ _ _ _ hlt, List.getElem_drop]
    congr 2
    omega

theorem fifo_front_length : (f.front m n).length = m := by
  simp only [BoundedFifo.front, List.length_append, readBytes_length]
  omega

/-- The `j`-th byte held stands `j` slots after the read cursor, around the storage (R131). -/
theorem fifo_front_get (hm : m ≤ 1024) (hj : j < m) :
    (f.front m n)[j]'(fifo_front_length.symm ▸ hj) = readByte f.st ((f.rc.toNat + j) % 1024) (n + j) := by
  have hrc := f.rc.isLt
  simp only [BoundedFifo.front, Config.bfN]
  by_cases hfirst : f.rc.toNat + j < 1024
  · have hlt : j < min m (1024 - f.rc.toNat) := by omega
    rw [List.getElem_append_left (by rwa [readBytes_length]), readBytes_get _ _ _ _ _ hlt, Nat.mod_eq_of_lt hfirst]
  · rw [List.getElem_append_right (by rw [readBytes_length]; omega),
      readBytes_get _ _ _ _ _ (by rw [readBytes_length]; omega), readBytes_length]
    congr 1 <;> omega

/-- What is copied into an empty FIFO comes out of it again, wherever the cursors stand (R135). -/
theorem fifo_front_put (hempty : f.length = 0) (hlen : bs.length = m) (hle : m ≤ 1024) : (f.put bs).front m n = bs := by
  subst hlen
  have hcur : (f.put bs).rc.toNat = f.wc.toNat := congrArg BitVec.toNat (fifo_empty_cursors hempty).2.symm
  refine List.ext_getElem fifo_front_length fun j _ hj => ?_
  rw [fifo_front_get hle hj, hcur, readByte, read_fifo_put hle hj]
  rfl

/-! ## Bytes in and out again -/

theorem get_withFifo (k : Inst) (f : BoundedFifo) (s : State) : (withFifo k f s).bf.get k = f := get_set_same s.bf k f

theorem enqueue_into_empty (hs : s.seq = .idle) (hempty : (s.bf.get k).length = 0) (ha : a.toNat ≤ 1024) :
    ∃ t, runOne (.bfEnq k a) s = .next t ∧ t.seq = .idle ∧ t.res = a.setWidth 32 ∧
      t.bf.get k = (s.bf.get k).put (xbufBytes a.toNat s) := by
  have hm : min a.toNat (1024 - (s.bf.get k).length) = a.toNat := by omega
  refine ⟨_, runOne_of_runs hs (bfEnq_runs k a) trivial, rfl, ?_⟩
  rw [enqueue_copies (s := justAccepted (.bfEnq k a) s) (fifo_empty_cursors hempty).1 hm]
  exact ⟨BitVec.ofNat_toNat .., get_withFifo ..⟩

theorem dequeue_all (hs : s.seq = .idle) (hok : FifoOk (s.bf.get k)) (ha : (s.bf.get k).length = a.toNat) :
    ∃ u, runOne (.bfDeq k a) s = .next u ∧ u.res = a.setWidth 32 ∧ (u.bf.get k).length = 0 ∧
      u.mem = writeBytes s.mem 0x400 ((s.bf.get k).front a.toNat s.draws) := by
  refine ⟨_, runOne_of_runs hs (bfDeq_runs k a) trivial, ?_⟩
  by_cases hzero : a.toNat = 0
  · have hempty := ha.trans hzero
    have hnil : (s.bf.get k).front a.toNat s.draws = [] := List.eq_nil_of_length_eq_zero (fifo_front_length.trans hzero)
    rw [dequeue_empty (s := justAccepted (.bfDeq k a) s) hempty, hnil, BitVec.eq_of_toNat_eq (y := 0#16) hzero]
    exact ⟨rfl, hempty, rfl⟩
  · rw [dequeue_takes (s := justAccepted (.bfDeq k a) s) (ha ▸ hzero) (min_eq_left ha.ge)]
    refine ⟨BitVec.ofNat_toNat .., ?_, rfl⟩
    exact (congrArg BoundedFifo.length (get_withFifo ..)).trans <|
      (fifo_length_dropFront hok ha.ge).trans (ha ▸ Nat.sub_self _)

/-- A byte of `XBUF` that something has written is taken as it stands (R130). -/
theorem xbufBytes_get (hj : j < m) (hb : Store.read s.mem (0x400 + j) = some b) :
    (xbufBytes m s)[j]'(xbufBytes_length.symm ▸ hj) = b := by
  simp only [xbufBytes, readBytes_get _ _ _ _ _ hj, readByte]
  exact congrArg (Option.getD · _) hb

/-- Settles O45: the enqueue fills the empty FIFO, the dequeue empties it, and what it puts back is what was taken. -/
theorem enqueuedBytesComeBack : Obligations.EnqueuedBytesComeBack := by
  intro k s a between hs _ hempty ha
  have hlen : (xbufBytes a.toNat s).length = a.toNat := xbufBytes_length
  have hfull := (fifo_empty_cursors hempty).1
  have hroom : (s.bf.get k).length + (xbufBytes a.toNat s).length ≤ 1024 := by omega
  obtain ⟨t, hrun, hidle, hres, hput⟩ := enqueue_into_empty hs hempty ha
  have hok : FifoOk (t.bf.get k) := hput ▸ fifoOk_put hfull hroom
  have hheld : (t.bf.get k).length = a.toNat := by rw [hput, fifo_length_put hfull hroom, hempty, hlen, Nat.zero_add]
  obtain ⟨u, hrun', hres', hempty', hmem⟩ := dequeue_all (s := { t with mem := between }) hidle hok hheld
  refine ⟨t, u, hrun, hres, hrun', hres', hempty', fun j b hj hb => ?_⟩
  have hback : (t.bf.get k).front a.toNat t.draws = xbufBytes a.toNat s := by
    rw [hput, fifo_front_put hempty hlen ha]
  rw [hmem]
  dsimp only
  rw [hback, read_writeBytes_inside _ _ _ _ (hlen.symm ▸ hj), xbufBytes_get hj hb]

end Sys2Proof.Machine
end

section
/-! PROOFS. LINK's frame (60_exceptions.md R143, 10_state.md R32): in either variant an event replaces the FIFO it serves, and
while LINK is masked or the block halted neither does anything (log 2). -/

namespace Sys2Proof.Machine

variable {s : State}

/-! ## LINK without a step -/

theorem linkEnabled_false (h : s.imask = true ∨ s.seq = .halt) : linkEnabled s = false := by
  obtain hmask | hhalt := h
  · simp [linkEnabled, hmask]
  · simp [linkEnabled, hhalt]

theorem linkRx_disabled (b : Byte) (h : linkEnabled s = false) : linkRx b s = s := if_neg (Bool.eq_false_iff.1 h)

theorem linkTx_disabled (h : linkEnabled s = false) : linkTx s = s := by
  rw [linkTx, h, Bool.false_and, if_neg Bool.false_ne_true]

/-! ## The receive event -/

/-- RX buffers have been replaced, and LINK, their writer, has left the read index and the read cursor alone (R143). -/
def RxServed (s t : State) : Prop :=
  ∃ (q : RingBuf) (f : BoundedFifo),
    t = { s with rb := { s.rb with rx := q }, bf := { s.bf with rx := f } } ∧ q.r = s.rb.rx.r ∧ f.rc = s.bf.rx.rc

theorem RxServed.refl (s : State) : RxServed s s := ⟨s.rb.rx, s.bf.rx, rfl, rfl, rfl⟩

theorem ringReceive_served (b : Byte) (s : State) : RxServed s (ringReceive b s) := by
  by_cases hdrop : s.rb.rx.init = false ∨ s.rb.rx.cap.toNat ≤ s.rb.rx.held.toNat
  · rw [ringReceive_drops hdrop]
    exact RxServed.refl s
  · obtain ⟨hinit, hroom⟩ := not_or.1 hdrop
    rw [ringReceive_stores (Bool.not_eq_false _ ▸ hinit) (Nat.not_le.1 hroom)]
    exact ⟨s.rb.rx.put b, s.bf.rx, rfl, rfl, rfl⟩

theorem fifoReceive_served (b : Byte) (s : State) : RxServed s (fifoReceive b s) := by
  cases hfull : s.bf.rx.full with
  | true =>
    rw [fifoReceive_full hfull]
    exact RxServed.refl s
  | false =>
    rw [fifoReceive_stores hfull]
    exact ⟨s.rb.rx, s.bf.rx.put [b], rfl, rfl, rfl⟩

theorem linkRx_served (b : Byte) (s : State) : RxServed s (linkRx b s) := by
  cases hen : linkEnabled s with
  | false =>
    rw [linkRx_disabled b hen]
    exact RxServed.refl s
  | true =>
    cases hvar : s.params.variant with
    | a =>
      rw [linkRx_ring hvar hen]
      exact ringReceive_served b s
    | b =>
      rw [linkRx_fifo hvar hen]
      exact fifoReceive_served b s

/-! ## The transmit-ready event -/

/-- TX buffers have been replaced, and LINK, their reader, has left the write index, the write cursor and the storage alone;
`TXIE` may have gone off, and bytes have gone out (R143). -/
def TxServed (s t : State) : Prop :=
  ∃ (q : RingBuf) (f : BoundedFifo) (on : Bool) (out : List Byte) (n : Nat),
    t =
      { s with
        rb := { s.rb with tx := q }, bf := { s.bf with tx := f }, txie := on, linkOut := s.linkOut ++ out, draws := n } ∧
    (on = true → s.txie = true) ∧ q.w = s.rb.tx.w ∧ q.st = s.rb.tx.st ∧ f.wc = s.bf.tx.wc ∧ f.st = s.bf.tx.st

/-- The trigger goes off or stays, and nothing goes out. -/
theorem txServed_of_nothing_sent {on : Bool} (hon : on = true → s.txie = true) : TxServed s { s with txie := on } :=
  ⟨s.rb.tx, s.bf.tx, on, [], s.draws, by rw [List.append_nil], hon, rfl, rfl, rfl, rfl⟩

theorem txServed_off (s : State) : TxServed s { s with txie := false } := txServed_of_nothing_sent fun h => nomatch h

theorem TxServed.refl (s : State) : TxServed s s := txServed_of_nothing_sent (on := s.txie) id

theorem ringTransmit_served (s : State) : TxServed s (ringTransmit s) := by
  by_cases hidle : s.rb.tx.init = false ∨ s.rb.tx.w = s.rb.tx.r
  · rw [ringTransmit_idle hidle]
    exact txServed_off s
  · obtain ⟨hinit, hne⟩ := not_or.1 hidle
    rw [ringTransmit_sends (Bool.not_eq_false _ ▸ hinit) hne]
    exact ⟨s.rb.tx.dropFront, s.bf.tx, _, _, _, rfl, Bool.and_elim_left, rfl, rfl, rfl, rfl⟩

theorem fifoTransmit_served (s : State) : TxServed s (fifoTransmit s) := by
  by_cases hempty : s.bf.tx.length = 0
  · rw [fifoTransmit_empty hempty]
    exact txServed_off s
  · rw [fifoTransmit_sends hempty]
    exact ⟨s.rb.tx, s.bf.tx.dropFront 1, _, _, _, rfl, Bool.and_elim_left, rfl, rfl, rfl, rfl⟩

theorem linkTx_served (s : State) : TxServed s (linkTx s) := by
  cases hen : linkEnabled s with
  | false =>
    rw [linkTx_disabled hen]
    exact TxServed.refl s
  | true =>
    cases hie : s.txie with
    | false =>
      rw [linkTx_masked hie]
      exact TxServed.refl s
    | true =>
      cases hvar : s.params.variant with
      | a =>
        rw [linkTx_ring hvar hen hie]
        exact ringTransmit_served s
      | b =>
        rw [linkTx_fifo hvar hen hie]
        exact fifoTransmit_served s

/-- Settles O49: each handler, in either variant, serves its own buffer; masked or halted LINK has no step. -/
theorem linkTouchesOnlyItsFifos : Obligations.LinkTouchesOnlyItsFifos := by
  refine fun s => ⟨fun b => ?receives, ?transmits, fun hoff b => ?disabled⟩
  case receives =>
    obtain ⟨q, f, hnext, hkept⟩ := linkRx_served b s
    exact ⟨q, f, congrArg Host.Outcome.next hnext, hkept⟩
  case transmits =>
    obtain ⟨q, f, on, out, n, hnext, hkept⟩ := linkTx_served s
    exact ⟨q, f, on, out, n, congrArg Host.Outcome.next hnext, hkept⟩
  case disabled =>
    have hen := linkEnabled_false hoff
    exact ⟨congrArg Host.Outcome.next (linkRx_disabled b hen), congrArg Host.Outcome.next (linkTx_disabled hen)⟩

end Sys2Proof.Machine
end

section
/-! PROOFS. `HALT` (60_exceptions.md R138, R139, R33): what a turn of each agent can do to the halted block, and that nothing
but a reset leaves it. -/

namespace Sys2Proof.Machine

variable {s t : State}

/-! ## The turns of BUS -/

/-- A turn of BUS (R54, R55, R57, R58). -/
def Turn.ofBus : Turn → Bool
  | .busTx _ | .busRx _ | .busBusy _ | .busArbLost => true
  | .seq | .host | .linkRx _ | .linkTx | .reset => false

/-- BUS has moved the two-wire bus: `STAT`, `DBUF`, `XFER`, the bus trace, and `MST` where there are other masters. -/
def BusMoved (s t : State) : Prop :=
  ∃ (m : Bool) (st : Stat) (d : Byte) (x : Xfer) (es : List BusEvent),
    t = { s with ctrl := { s.ctrl with mst := m }, stat := st, dbuf := d, xfer := x, busTrace := es } ∧
    (s.params.multiMaster = false → m = s.ctrl.mst)

theorem BusMoved.refl (s : State) : BusMoved s s := ⟨s.ctrl.mst, s.stat, s.dbuf, s.xfer, s.busTrace, rfl, fun _ => rfl⟩

theorem busTx_moved (a : Ack) (s : State) : BusMoved s (busTx a s) := by
  by_cases hx : ∃ b : Byte, s.xfer = .tx b
  · obtain ⟨b, hx⟩ := hx
    rw [busTx_sending a hx]
    exact ⟨s.ctrl.mst, _, s.dbuf, _, _, rfl, fun _ => rfl⟩
  · rw [busTx_not_sending a (not_exists.1 hx)]
    exact BusMoved.refl s

theorem busRx_moved (d : Byte) (s : State) : BusMoved s (busRx d s) := by
  by_cases hx : ∃ m : Ack, s.xfer = .rx m
  · obtain ⟨m, hx⟩ := hx
    rw [busRx_receiving d hx]
    exact ⟨s.ctrl.mst, _, d, _, _, rfl, fun _ => rfl⟩
  · rw [busRx_not_receiving d (not_exists.1 hx)]
    exact BusMoved.refl s

theorem busBusy_moved (taken : Bool) (s : State) : BusMoved s (busBusy taken s) := by
  unfold busBusy
  split
  · exact ⟨s.ctrl.mst, _, s.dbuf, s.xfer, s.busTrace, rfl, fun _ => rfl⟩
  · exact BusMoved.refl s

/-- Arbitration is lost only where there are other masters (R58). -/
theorem busArbLost_moved (s : State) : BusMoved s (busArbLost s) := by
  unfold busArbLost
  split
  · next h => exact ⟨false, _, s.dbuf, _, s.busTrace, rfl, fun hmm => absurd (h.1.symm.trans hmm) (by decide)⟩
  · exact BusMoved.refl s

/-! ## HOST's turn -/

/-- HOST has made an access that stores nothing: its lists and the count of draws have changed, and `XFER` where it read `DATA`
(R53, log 20). -/
def HostMoved (s t : State) : Prop :=
  ∃ (h : List HostAccess) (l : List HostRead) (n : Nat) (x : Xfer),
    t = { s with host := h, hostLog := l, draws := n, xfer := x }

theorem HostMoved.refl (s : State) : HostMoved s s := ⟨s.host, s.hostLog, s.draws, s.xfer, rfl⟩

theorem hostMoved_of_dropped (s : State) (rest : List HostAccess) : HostMoved s { s with host := rest } :=
  ⟨rest, s.hostLog, s.draws, s.xfer, rfl⟩

theorem hostRead_moved {off : Offset} {sz : Size} {rest : List HostAccess}
    (h : hostRead off sz { s with host := rest } = .next t) : HostMoved s t := by
  unfold hostRead at h
  split at h
  · split at h
    · next v u hread =>
      obtain ⟨x, n, rfl⟩ := memRead_ok hread
      cases h
      exact ⟨rest, _, n, x, rfl⟩
    · cases h
  · cases h

/-- In `HALT` HOST's reads are answered and its writes ignored (R138). -/
theorem windowAccess_halted {a : HostAccess} {off : Offset} {rest : List HostAccess} (hs : s.seq = .halt)
    (h : windowAccess a off rest s = .next t) : HostMoved s t := by
  cases a with
  | read addr sz =>
    have hread : windowAccess (.read addr sz) off rest s = hostRead off sz { s with host := rest } := by
      simp only [windowAccess, hs]
    exact hostRead_moved (hread.symm.trans h)
  | write addr sz v =>
    have hignored : windowAccess (.write addr sz v) off rest s = .next { s with host := rest } := by
      simp only [windowAccess, hs]
    cases hignored.symm.trans h
    exact hostMoved_of_dropped s rest

theorem hostTurn_halted (hs : s.seq = .halt) (h : hostTurn s = .next t) : HostMoved s t := by
  unfold hostTurn at h
  split at h
  · cases h; exact HostMoved.refl s
  · next a rest _ =>
    split at h
    · exact windowAccess_halted hs h
    · cases h; exact hostMoved_of_dropped s rest

/-! ## Any turn -/

theorem seqTurn_halted (hs : s.seq = .halt) : seqTurn s = .next s := by
  simp only [seqTurn, hs]

/-- SEQ and LINK have no step in `HALT`, so a turn is BUS's, or moves at most HOST on. -/
theorem takeTurn_halted {turn : Turn} (hs : s.seq = .halt) (hr : turn ≠ .reset) (h : takeTurn turn s = .next t) :
    (turn.ofBus = true ∧ BusMoved s t) ∨ HostMoved s t := by
  have hlink : linkEnabled s = false := linkEnabled_false (.inr hs)
  cases turn with
  | seq => cases (seqTurn_halted hs).symm.trans h; exact .inr (HostMoved.refl s)
  | host => exact .inr (hostTurn_halted hs h)
  | busTx a => cases h; exact .inl ⟨rfl, busTx_moved a s⟩
  | busRx d => cases h; exact .inl ⟨rfl, busRx_moved d s⟩
  | busBusy taken => cases h; exact .inl ⟨rfl, busBusy_moved taken s⟩
  | busArbLost => cases h; exact .inl ⟨rfl, busArbLost_moved s⟩
  | linkRx b => cases h; rw [linkRx_disabled b hlink]; exact .inr (HostMoved.refl s)
  | linkTx => cases h; rw [linkTx_disabled hlink]; exact .inr (HostMoved.refl s)
  | reset => exact absurd rfl hr

theorem defaultTurn_finished (hs : s.seq = .halt) (hh : s.host = []) (hx : s.xfer = .none) :
    defaultTurn s = .fault .halted := by
  simp only [defaultTurn, hs, hh, hx, and_self, if_true]

/-- A run is not over while HOST has an access to make or a byte is in flight (R33, log 33). -/
theorem defaultTurn_unfinished (hs : s.seq = .halt) (h : ¬ (s.host = [] ∧ s.xfer = .none)) :
    defaultTurn s = hostTurn s := by
  simp only [defaultTurn, hs, if_neg h]

theorem defaultTurn_halted (hs : s.seq = .halt) (h : defaultTurn s = .next t) : HostMoved s t := by
  by_cases hover : s.host = [] ∧ s.xfer = .none
  · obtain ⟨hh, hx⟩ := hover
    cases (defaultTurn_finished hs hh hx).symm.trans h
  · exact hostTurn_halted hs ((defaultTurn_unfinished hs hover).symm.trans h)

/-- What a step from `HALT` can be, short of a reset: the agenda moves on, and BUS or at most HOST with it. -/
theorem step_halted (hs : s.seq = .halt) (hr : s.agenda.head? ≠ some .reset) (h : step s = .next t) :
    ∃ a, (∃ turn, s.agenda.head? = some turn ∧ turn.ofBus = true ∧ BusMoved { s with agenda := a } t) ∨
      HostMoved { s with agenda := a } t := by
  unfold step at h
  split at h
  · exact ⟨s.agenda, .inr (defaultTurn_halted hs h)⟩
  · next turn rest ha =>
    have hhead : s.agenda.head? = some turn := congrArg List.head? ha
    have hreset : turn ≠ .reset := fun heq => hr (heq ▸ hhead)
    have hturn := takeTurn_halted (s := { s with agenda := rest }) hs hreset h
    exact ⟨rest, hturn.imp_left fun ⟨hbus, hmoved⟩ => ⟨turn, hhead, hbus, hmoved⟩⟩

/-! ## The obligation -/

/-- Settles O51: with nothing left to do the default turn decides; any other step moved BUS or HOST on, and neither touches
what the statement keeps. -/
theorem haltIsFinal : Obligations.HaltIsFinal := by
  refine ⟨fun s hs ha hh => ?finished, fun s t hs hr h => ?kept⟩
  case finished =>
    have hstep : step s = defaultTurn s := by simp only [step, ha]
    refine ⟨fun hx => hstep.trans (defaultTurn_finished hs hh hx), fun hx => ?_⟩
    rw [hstep, defaultTurn_unfinished hs fun hover => hx hover.2, hostTurn_nothing hh]
  case kept =>
    obtain ⟨a, ⟨turn, hhead, hbus, m, st, d, x, es, rfl, hm⟩ | ⟨acc, l, n, x, rfl⟩⟩ := step_halted hs hr h
    · refine ⟨hs, rfl, rfl, rfl, rfl, rfl, rfl, rfl, rfl, fun hmm => ?_, rfl, rfl, rfl, rfl, rfl, rfl, rfl, rfl, rfl,
        rfl, ?_⟩
      · rw [hm hmm]
      · rw [hhead]
        cases turn with
        | busTx | busRx | busBusy | busArbLost => trivial
        | _ => nomatch hbus
    · refine ⟨hs, rfl, rfl, rfl, rfl, rfl, rfl, rfl, rfl, fun _ => rfl, rfl, rfl, rfl, rfl, rfl, rfl, rfl, rfl, rfl,
        rfl, ?_⟩
      split
      case h_5 => exact ⟨rfl, rfl, rfl, rfl⟩
      all_goals trivial

end Sys2Proof.Machine
end

section
/-! PROOFS. RESET (70_reset_and_hazards.md R149, 10_state.md R42): the components that hold several copies of one reset value,
the arbiter's table and the two instances of a buffer, and then the whole block. -/

namespace Sys2Proof.Machine

/-- No entry of the table is prepared (R42). -/
theorem Arbiter.reset_prepared (j : Nat) (h : j < 8) : Arbiter.reset.etab[j].prepared = false :=
  congrArg Entry.prepared (Vector.getElem_replicate h)

/-- Two instances built alike answer alike, whichever is asked. -/
theorem get_alike {α : Type} (x : α) (k : Inst) : (Instances.mk x x).get k = x := by
  rcases inst_cases k with rfl | rfl
  · exact get_zero _
  · exact get_one _

/-- Either ring is the ring at reset. -/
theorem resetBlock_ring (s : State) (k : Inst) : (resetBlock s).rb.get k = RingBuf.reset := get_alike _ k

/-- Either bounded FIFO is the FIFO at reset. -/
theorem resetBlock_fifo (s : State) (k : Inst) : (resetBlock s).bf.get k = BoundedFifo.reset := get_alike _ k

/-- Settles O50: the turn answers `resetBlock`, whose registers are those of the reset state; its table, rings and FIFOs are
the lemmas above. -/
theorem resetLeavesTheResetState : Obligations.ResetLeavesTheResetState := by
  intro s
  refine ⟨resetBlock s, rfl, rfl, rfl, rfl, rfl, rfl, rfl, rfl, rfl, rfl, rfl, rfl, rfl, rfl, ?table, rfl, rfl, rfl, rfl, rfl,
    fun k => ?ring, fun k => ?fifo, rfl, rfl, rfl⟩
  case table => exact Arbiter.reset_prepared
  case ring =>
    rw [resetBlock_ring]
    exact ⟨rfl, rfl, rfl, rfl, rfl⟩
  case fifo =>
    rw [resetBlock_fifo]
    exact ⟨rfl, rfl, rfl, rfl⟩

end Sys2Proof.Machine
end
